-- ==== Sys2Proof/Word.lean ====
section
/-! DEFINITION. The block's data types that carry bits, and the two names an operand can have:
a byte, a 16-bit word (operation word or result word), the two FIFO instances and the two
operation buses. -/

namespace Sys2Proof

/-- A data byte: 8 bits (`00_scope.md` rule R8, decision D2). -/
abbrev Byte := BitVec 8

/-- A 16-bit word: an operation word (`30_encoding.md` rule R90) or a result word (rule R96). -/
abbrev Word := BitVec 16

/-- The two FIFO instances (`10_state.md` rule R27): `RXF`, select number 0, and `TXF`, select
number 1. -/
inductive FifoSel where
  | rxf
  | txf
deriving DecidableEq, Repr, Inhabited

/-- The two operation buses (`30_encoding.md` rule R94). -/
inductive Bus where
  | foreground
  | service
deriving DecidableEq, Repr, Inhabited

/-- The select number of an instance (`10_state.md` rule R27). -/
def FifoSel.number : FifoSel → Nat
  | .rxf => 0
  | .txf => 1

end Sys2Proof
end

