-- ==== Sys2Proof/Config.lean ====
section
/-! DEFINITION. The configuration of the block: every parameter and switch of `00_scope.md` rules R5
to R10 with the spec's default, which configurations are legal, and the free values: the open
depths (U6), the strings of the formatter (U15) and the order of the agents' steps (U10, U16). -/

namespace Sys2Proof

/-- The task bodies (`10_state.md` rule R38). -/
inductive Action where
  /-- "indicator toggle" (`43_scheduler.md` rule R173). -/
  | toggle
  /-- "render+enqueue sensor reading" (`43_scheduler.md` rule R176). -/
  | report
deriving DecidableEq, Repr, Inhabited

/-- Task `i` is the pair of its threshold and its action (`10_state.md` rules R37, R38). -/
structure Task where
  thresh : Nat
  action : Action
deriving DecidableEq, Repr

/-- The two readings of the bridge's sentence (conflict C2, decision D12). -/
inductive EnqPolicy where
  /-- Every byte of the string is attempted: the spec's choice. -/
  | attemptEach
  /-- The string ends at the first dropped byte: the named alternative. -/
  | stopOnFull
deriving DecidableEq, Repr

/-- The parameters and switches that are fixed for a machine. The two capacities are attributes of
the FIFO instances themselves (`10_state.md` rule R20). -/
structure Config where
  /-- The task table; its length is `NTASK` (rules R6, R38). -/
  tasks : List Task
  /-- `CNT_W` (rule R8). -/
  cntW : Nat
  /-- `TICK_HZ` (rule R6). No rule depends on it (`70_reset_and_hazards.md` rule R249). -/
  tickHz : Nat
  /-- `URX_DEPTH` (rule R9). -/
  urxDepth : Nat
  /-- `UTX_DEPTH` (rule R9). -/
  utxDepth : Nat
  /-- `SENT_MAX` (rule R7). -/
  sentMax : Nat
  /-- `ISR_ATOMIC` (rule R10). -/
  isrAtomic : Bool
  /-- `SYNC_LAG` (rule R10): how many synchroniser registers a cursor passes on its way to the other
  side (`70_reset_and_hazards.md` rule R240, log entry 16). -/
  syncLag : Nat
  /-- `ENQ_POLICY` (rule R10). -/
  enqPolicy : EnqPolicy
deriving DecidableEq, Repr

/-- `NTASK` (rule R6). -/
def Config.ntask (c : Config) : Nat := c.tasks.length

/-- `CAP_RX` (rule R5). -/
def Config.capRx : Nat := 10

/-- `CAP_TX` (rule R5). -/
def Config.capTx : Nat := 48

/-- FREE VALUE (log entry 2): `URX_DEPTH` is open (decision D26); one less than the depth. -/
opaque Config.openUrxDepth : Nat

/-- FREE VALUE (log entry 2): `UTX_DEPTH` is open (decision D26); one less than the depth. -/
opaque Config.openUtxDepth : Nat

/-- FREE VALUE (log entry 3): the byte string `FMT()` hands over at its `n`-th call
(`60_exceptions.md` rule R209, U15), before the bound `SENT_MAX` is applied. -/
opaque Config.fmt : Nat → List Byte

/-- The default configuration (rules R6 to R10; tasks of rule R38). -/
def Config.default : Config where
  tasks := [⟨50, .toggle⟩, ⟨100, .report⟩]
  cntW := 8
  tickHz := 100
  urxDepth := Config.openUrxDepth + 1
  utxDepth := Config.openUtxDepth + 1
  sentMax := 20
  isrAtomic := true
  syncLag := 0
  enqPolicy := .attemptEach

/-- The legal configurations: `1 <= THRESH[i] < 2^CNT_W` (`10_state.md` rule R37), depths at least 1
(rule R9), and no more tasks than `sel` can name (`30_encoding.md` rule R92). -/
def Config.legal (c : Config) : Bool :=
  c.tasks.all (fun t => decide (1 ≤ t.thresh) && decide (t.thresh < 2 ^ c.cntW)) &&
    decide (1 ≤ c.urxDepth) && decide (1 ≤ c.utxDepth) && decide (c.ntask ≤ 16)

/-- One entry of the schedule: which agent of the step table (`60_exceptions.md` rule R211) moves. -/
inductive Turn where
  /-- FG runs the whole of its next operation with no other agent's step inside it. -/
  | op
  /-- FG takes its next micro-step. -/
  | micro
  /-- RXC runs one whole activation. -/
  | rxc
  /-- RXC takes one micro-step of an activation (`ISR_ATOMIC = false` only). -/
  | rxcMicro
  /-- TXC runs one whole activation. -/
  | txc
  /-- TXC takes one micro-step of an activation (`ISR_ATOMIC = false` only). -/
  | txcMicro
  /-- UART-RX: the byte `v` arrives from the wire. -/
  | uartRx (v : Byte)
  /-- UART-TX: the transmitter finishes a byte. -/
  | uartTx
  /-- TIMER: a period boundary passes. -/
  | timer
  /-- An edge of FCLK at the synchronisers into FG's domain (log entry 16). -/
  | syncFclk
  /-- An edge of SCLK at the synchronisers into the controllers' domain (log entry 16). -/
  | syncSclk
  /-- Reset (interface IF8, `70_reset_and_hazards.md` rule R230). -/
  | reset
deriving DecidableEq, Repr, Inhabited

/-- FREE VALUE (log entry 4): which agent moves at the `n`-th turn that the state's `agenda` does not
fix, and the byte that arrives (U10, U16). -/
opaque Config.freeTurn : Nat → Turn

end Sys2Proof
end

