-- ==== Sys2Proof/Syntax.lean ====
section
/-! DEFINITION. The thirteen operations of the block, one constructor per row of
`spec/opcode_table.json` (`30_encoding.md` rules R93 and R99). -/

namespace Sys2Proof

/-- The operations (`00_scope.md` rule R15). -/
inductive Instr where
  /-- `PUSH f, #b` (`40_fifo.md` rule R120). -/
  | push (f : FifoSel) (b : Byte)
  /-- `POP f` (`40_fifo.md` rule R121). -/
  | pop (f : FifoSel)
  /-- `ISEMPTY f` (`40_fifo.md` rule R122). -/
  | isempty (f : FifoSel)
  /-- `ISFULL f` (`40_fifo.md` rule R123). -/
  | isfull (f : FifoSel)
  /-- `ENQB #b` (`42_tx_controller.md` rule R152). -/
  | enqb (b : Byte)
  /-- `KICK` (`42_tx_controller.md` rule R151). -/
  | kick
  /-- `RXSVC` (`41_rx_controller.md` rule R140). -/
  | rxsvc
  /-- `TXSVC` (`42_tx_controller.md` rule R150). -/
  | txsvc
  /-- `INC` (`43_scheduler.md` rule R171). -/
  | inc
  /-- `DISP #t` (`43_scheduler.md` rule R172); `t` is the task index. -/
  | disp (t : Nat)
  /-- `WORK` (`43_scheduler.md` rule R174). -/
  | work
  /-- `WAITP` (`43_scheduler.md` rule R175). -/
  | waitp
  /-- `ENQ "s"`, the pseudo-operation (`30_encoding.md` rule R99, `42_tx_controller.md` rule R153):
  any finite byte string. -/
  | enq (str : List Byte)
deriving DecidableEq, Repr, Inhabited

end Sys2Proof
end

