-- ==== Sys2Proof/WellFormed.lean ====
section
/-! DEFINITION. Which operations are well formed: the one operand with a range of its own is the
task index of `DISP` (`30_encoding.md` rule R92). -/

namespace Sys2Proof

/-- A task index is legal when it is below `NTASK` (rule R92) and fits the four bits of `sel`
(rule R90). -/
def taskIndexOk (ntask t : Nat) : Bool := decide (t < ntask) && decide (t < 16)

/-- `i` is a legal operation of a configuration with `ntask` tasks. FIFO operands are legal by
type (rule R92: 2 to 15 are reserved), every byte is a legal `imm8`, and a string of any length
may be enqueued (rule R99). -/
def Instr.wellFormed (ntask : Nat) : Instr → Bool
  | .push _ _ => true
  | .pop _ => true
  | .isempty _ => true
  | .isfull _ => true
  | .enqb _ => true
  | .kick => true
  | .rxsvc => true
  | .txsvc => true
  | .inc => true
  | .disp t => taskIndexOk ntask t
  | .work => true
  | .waitp => true
  | .enq _ => true

/-- `i` is issued as one operation word; only the pseudo-operation `ENQ` is not (rule R99). -/
def Instr.hasWord : Instr → Bool
  | .push _ _ => true
  | .pop _ => true
  | .isempty _ => true
  | .isfull _ => true
  | .enqb _ => true
  | .kick => true
  | .rxsvc => true
  | .txsvc => true
  | .inc => true
  | .disp _ => true
  | .work => true
  | .waitp => true
  | .enq _ => false

end Sys2Proof
end

