-- ==== Sys2Proof/Decode.lean ====
section
/-! DEFINITION. Decoding an operation word (`30_encoding.md` rules R90 to R97), the encoder written
from the same tables, the opcode map of rule R93 as a table, and the bus check of rule R94. -/

namespace Sys2Proof

/-- Why a word is illegal (`30_encoding.md` rule R95): the decoder refuses by name. -/
inductive Reject where
  /-- `op` is 0x0, 0x7, 0xE or 0xF. -/
  | reservedOp
  /-- A reserved `sel`: 2 to 15 in formats FD and FS, `NTASK` and above in format T. -/
  | reservedSel
  /-- A non-zero `sel` in formats D and Z. -/
  | nonzeroSel
  /-- A non-zero `imm8` in formats FS, T and Z. -/
  | nonzeroImm
  /-- A legal pattern issued on a bus that rule R94 forbids. -/
  | forbiddenBus
deriving DecidableEq, Repr

/-- Who drives the foreground bus (`30_encoding.md` rule R94, `60_exceptions.md` rule R211). -/
inductive FgSource where
  /-- The scheduler sequencer: the block as built. -/
  | sequencer
  /-- A test driver standing in for the sequencer, with the issuer check of rule R94. -/
  | testDriver
  /-- The standalone-FIFO test configuration of rule R94: issuer check of `PUSH` and `POP` off. -/
  | standalone
deriving DecidableEq, Repr, Inhabited

/-- `OW[15:12]` (rule R90). -/
def opField (ow : Word) : Nat := (ow.extractLsb' 12 4).toNat

/-- `OW[11:8]` (rule R90). -/
def selField (ow : Word) : Nat := (ow.extractLsb' 8 4).toNat

/-- `OW[7:0]` (rule R90): the byte as it stands (rule R92). -/
def immField (ow : Word) : Byte := ow.extractLsb' 0 8

/-- A FIFO operand (rule R92): 0 selects RXF, 1 selects TXF, 2 to 15 are reserved. -/
def fifoOperand : Nat → Option FifoSel
  | 0 => some .rxf
  | 1 => some .txf
  | _ => none

/-- Format FD: FIFO number and data byte (rule R91). -/
def formatFD (make : FifoSel → Byte → Instr) (sel : Nat) (imm : Byte) : Except Reject Instr :=
  match fifoOperand sel with
  | none => .error .reservedSel
  | some f => .ok (make f imm)

/-- Format FS: FIFO number, `imm8` zero (rule R91). -/
def formatFS (make : FifoSel → Instr) (sel : Nat) (imm : Byte) : Except Reject Instr :=
  match fifoOperand sel with
  | none => .error .reservedSel
  | some f => if imm = 0 then .ok (make f) else .error .nonzeroImm

/-- Format D: `sel` zero, data byte (rule R91). -/
def formatD (make : Byte → Instr) (sel : Nat) (imm : Byte) : Except Reject Instr :=
  if sel = 0 then .ok (make imm) else .error .nonzeroSel

/-- Format T: task index below `NTASK`, `imm8` zero (rules R91, R92). -/
def formatT (ntask : Nat) (make : Nat → Instr) (sel : Nat) (imm : Byte) : Except Reject Instr :=
  if sel < ntask then (if imm = 0 then .ok (make sel) else .error .nonzeroImm)
  else .error .reservedSel

/-- Format Z: `sel` and `imm8` zero (rule R91). -/
def formatZ (i : Instr) (sel : Nat) (imm : Byte) : Except Reject Instr :=
  if sel = 0 then (if imm = 0 then .ok i else .error .nonzeroImm) else .error .nonzeroSel

/-- The decoding algorithm of rule R97 but for its bus check: `op` selects the row of rule R93, the
row's format checks `sel` and `imm8`. Total; every word that is no row's is refused by name. -/
def decode (ntask : Nat) (ow : Word) : Except Reject Instr :=
  match opField ow with
  | 0x1 => formatFD .push (selField ow) (immField ow)
  | 0x2 => formatFS .pop (selField ow) (immField ow)
  | 0x3 => formatFS .isempty (selField ow) (immField ow)
  | 0x4 => formatFS .isfull (selField ow) (immField ow)
  | 0x5 => formatD .enqb (selField ow) (immField ow)
  | 0x6 => formatZ .kick (selField ow) (immField ow)
  | 0x8 => formatZ .rxsvc (selField ow) (immField ow)
  | 0x9 => formatZ .txsvc (selField ow) (immField ow)
  | 0xA => formatZ .inc (selField ow) (immField ow)
  | 0xB => formatT ntask .disp (selField ow) (immField ow)
  | 0xC => formatZ .work (selField ow) (immField ow)
  | 0xD => formatZ .waitp (selField ow) (immField ow)
  | _ => .error .reservedOp

/-- Who may issue what on which bus (rule R94). In the standalone-FIFO test configuration `PUSH` and
`POP` are accepted on either instance. `ENQ` is no word of any bus. -/
def busAllows (source : FgSource) : Bus → Instr → Bool
  | .foreground, .push f _ => decide (f = .txf) || decide (source = .standalone)
  | .foreground, .pop f => decide (f = .rxf) || decide (source = .standalone)
  | .foreground, .isempty _ => true
  | .foreground, .isfull _ => true
  | .foreground, .enqb _ => true
  | .foreground, .kick => true
  | .foreground, .rxsvc => false
  | .foreground, .txsvc => false
  | .foreground, .inc => true
  | .foreground, .disp _ => true
  | .foreground, .work => true
  | .foreground, .waitp => true
  | .foreground, .enq _ => false
  | .service, .rxsvc => true
  | .service, .txsvc => true
  | .service, _ => false

/-- Rule R97 whole: the pattern, then the bus check. -/
def decodeOn (ntask : Nat) (source : FgSource) (bus : Bus) (ow : Word) : Except Reject Instr :=
  match decode ntask ow with
  | .error r => .error r
  | .ok i => if busAllows source bus i then .ok i else .error .forbiddenBus

/-- An operation word from its three fields, `op` in the high bits (rule R90). -/
def operationWord (op sel : Nat) (imm : Byte) : Word :=
  BitVec.ofNat 4 op ++ BitVec.ofNat 4 sel ++ imm

/-- The words of an operation (rules R91, R93): one word each, and for `ENQ` one `ENQB` word per
byte, in order (rule R99). -/
def encode : Instr → List Word
  | .push f b => [operationWord 0x1 f.number b]
  | .pop f => [operationWord 0x2 f.number 0]
  | .isempty f => [operationWord 0x3 f.number 0]
  | .isfull f => [operationWord 0x4 f.number 0]
  | .enqb b => [operationWord 0x5 0 b]
  | .kick => [operationWord 0x6 0 0]
  | .rxsvc => [operationWord 0x8 0 0]
  | .txsvc => [operationWord 0x9 0 0]
  | .inc => [operationWord 0xA 0 0]
  | .disp t => [operationWord 0xB t 0]
  | .work => [operationWord 0xC 0 0]
  | .waitp => [operationWord 0xD 0 0]
  | .enq str => str.map (operationWord 0x5 0)

/-- One row of the opcode map of rule R93. -/
structure OpcodeRow where
  mnemonic : String
  mask : Word
  pattern : Word
deriving DecidableEq, Repr

/-- The opcode map of rule R93, for `NTASK = 2`: mask and match of each of the twelve words. -/
def opcodeMap : List OpcodeRow :=
  [⟨"PUSH", 0xFE00, 0x1000⟩, ⟨"POP", 0xFEFF, 0x2000⟩, ⟨"ISEMPTY", 0xFEFF, 0x3000⟩,
   ⟨"ISFULL", 0xFEFF, 0x4000⟩, ⟨"ENQB", 0xFF00, 0x5000⟩, ⟨"KICK", 0xFFFF, 0x6000⟩] ++
  [⟨"RXSVC", 0xFFFF, 0x8000⟩, ⟨"TXSVC", 0xFFFF, 0x9000⟩, ⟨"INC", 0xFFFF, 0xA000⟩,
   ⟨"DISP", 0xFEFF, 0xB000⟩, ⟨"WORK", 0xFFFF, 0xC000⟩, ⟨"WAITP", 0xFFFF, 0xD000⟩]

/-- `OW & mask = match` (rule R97). -/
def OpcodeRow.matches (r : OpcodeRow) (ow : Word) : Bool := decide (ow &&& r.mask = r.pattern)

/-- The mnemonic of a row of the opcode table (rule R93; `ENQ` by rule R99). -/
def Instr.mnemonic : Instr → String
  | .push _ _ => "PUSH"
  | .pop _ => "POP"
  | .isempty _ => "ISEMPTY"
  | .isfull _ => "ISFULL"
  | .enqb _ => "ENQB"
  | .kick => "KICK"
  | .rxsvc => "RXSVC"
  | .txsvc => "TXSVC"
  | .inc => "INC"
  | .disp _ => "DISP"
  | .work => "WORK"
  | .waitp => "WAITP"
  | .enq _ => "ENQ"

/-- What the decoder reads from an operation whose bits are `w`, for the default `NTASK = 2`
(`00_scope.md` rule R6). An operation is one 16-bit word, so a row of any other length is refused. -/
def decodeTableWord (nbits w : Nat) : Option Instr :=
  if nbits = 16 ∧ w < 65536 then
    match decode 2 (BitVec.ofNat 16 w) with
    | .ok i => some i
    | .error _ => none
  else none

end Sys2Proof
end

