-- ==== Sys2Proof/Machine/State.lean ====
section
/-! DEFINITION. The state of the block as plain data (`10_state.md` rules R20 to R45): the two FIFO
instances, the one-bit registers, the scheduler's registers, the three contexts' positions inside an
operation or activation, the UART's queues, the observation sequences, and the model's inputs. With
it the reasons a step can stop, and the state after reset. -/

namespace Sys2Proof.Machine

/-- A FIFO's storage array: (slot, byte) pairs, slots strictly rising, only slots that were written
(`10_state.md` rules R20, R43; U1 of `93_implementation_defined.md`). -/
abbrev Memory := List Host.Cell

/-- A FIFO instance (`10_state.md` rule R20). The cursors are numbers below `capacity`, so a cursor
out of range cannot be written down (rule R21). With `SYNC_LAG > 0` each side sees the other's cursor
through a chain of `SYNC_LAG` registers, oldest value first; without a lag the chains are empty
(`70_reset_and_hazards.md` rule R240, log entry 16). -/
structure Fifo where
  capacity : Nat
  readIndex : Fin capacity
  writeIndex : Fin capacity
  storage : Memory
  /-- Values of `read_index` on their way to the producer. -/
  readSync : List (Fin capacity)
  /-- Values of `write_index` on their way to the consumer. -/
  writeSync : List (Fin capacity)
deriving DecidableEq, Repr

/-- An instance just built: equal cursors at 0, on both sides, and a storage nothing has written (rule
R45). -/
def Fifo.ofCapacity (n lag : Nat) (h : 0 < n) : Fifo where
  capacity := n
  readIndex := ⟨0, h⟩
  writeIndex := ⟨0, h⟩
  storage := []
  readSync := List.replicate lag ⟨0, h⟩
  writeSync := List.replicate lag ⟨0, h⟩

/-- One entry of the trace interface IF9 (`30_encoding.md` rule R101): an operation word issued on a
bus, with its result word. -/
structure TraceEntry where
  bus : Bus
  ow : Word
  rw : Word
deriving DecidableEq, Repr

/-- What an `ENQB` is part of: a word of its own, the string of a `REPORT` action inside
`DISP #t` (`43_scheduler.md` rule R176), or an `ENQ` (`42_tx_controller.md` rule R153). -/
inductive Outer where
  | single
  | report (t : Nat)
  | enq
deriving DecidableEq, Repr

/-- FG's position inside an operation: the next micro-step, with the temporaries of `10_state.md` rule
R40 that outlive a micro-step. -/
inductive FgCtx where
  /-- At the first micro-step of the next operation. -/
  | idle
  /-- `PUSH f, #b` before P2; `tw`, `tn` are `t_w`, `t_n`. -/
  | pushP2 (f : FifoSel) (b : Byte) (tw tn : Nat)
  /-- `PUSH f, #b` before P3. -/
  | pushP3 (f : FifoSel) (b : Byte) (tn : Nat)
  /-- `POP f` before C2; `tr` is `t_r`. -/
  | popC2 (f : FifoSel) (tr : Nat)
  /-- `POP f` before C3; `tb` is `t_b`. -/
  | popC3 (f : FifoSel) (tr : Nat) (tb : Byte)
  /-- Before the first micro-step of the `ENQB` of the byte at the head of `enqRem`. -/
  | enqNext (o : Outer)
  /-- `ENQB #b` before B2. -/
  | enqbP2 (o : Outer) (b : Byte) (tw tn : Nat)
  /-- `ENQB #b` before B3. -/
  | enqbP3 (o : Outer) (b : Byte) (tn : Nat)
  /-- `ENQB #b` before B4. -/
  | enqbB4 (o : Outer) (b : Byte)
  /-- `ENQB #b` before B5 (B4 read `t_m = 1`). -/
  | enqbB5 (o : Outer) (b : Byte)
  /-- `ENQB #b` before B6. -/
  | enqbB6 (o : Outer) (b : Byte)
  /-- `DISP #t` before D2 (D1 found the task due). -/
  | dispD2 (t : Nat)
  /-- `DISP #t` before D3, whose first micro-step is the action's. -/
  | dispD3 (t : Nat)
deriving DecidableEq, Repr

/-- RXC's position inside an activation (`41_rx_controller.md` rule R140). -/
inductive RxCtx where
  /-- No activation in progress. -/
  | idle
  | x2
  | x3
  /-- Before P1 of X4's `PUSH RXF, #b`. -/
  | x4P1 (b : Byte)
  | x4P2 (b : Byte) (tw tn : Nat)
  | x4P3 (tn : Nat)
deriving DecidableEq, Repr

/-- TXC's position inside an activation (`42_tx_controller.md` rule R150). -/
inductive TxCtx where
  /-- No activation in progress. -/
  | idle
  /-- Before T2's read of emptiness. -/
  | t2Read
  /-- Before T2's write of `manual_trigger`. -/
  | t2Write
  /-- Before T3's test of `utx_full`. -/
  | t3Room
  /-- Before T3's fresh test of emptiness. -/
  | t3Empty
  /-- Before C1 of T4's `POP TXF`. -/
  | t4C1
  | t4C2 (tr : Nat)
  | t4C3 (tr : Nat) (tb : Byte)
  | t5 (tb : Byte)
deriving DecidableEq, Repr

/-- The machine's state. Every field is plain data. -/
structure State where
  /-- The configuration; no step writes it (`10_state.md` rule R37, decision D33). -/
  cfg : Config
  /-- Who drives the foreground bus (`30_encoding.md` rule R94). -/
  source : FgSource
  /-- `RXF`, the input FIFO (rule R27). -/
  rxf : Fifo
  /-- `TXF`, the output FIFO (rule R27). -/
  txf : Fifo
  /-- `manual_trigger` (rule R31). -/
  manualTrigger : Bool
  /-- `rx_pending` (rule R33). -/
  rxPending : Bool
  /-- `tx_pending` (rule R34). -/
  txPending : Bool
  /-- `period_elapsed` (rule R35). -/
  periodElapsed : Bool
  /-- `indicator` (rule R39). -/
  indicator : Bool
  /-- `counter[i]` (rule R36), numbers below `2^CNT_W`. -/
  counters : List Nat
  /-- `sch_pc` (rule R29). -/
  schPc : Nat
  /-- FG's position inside its operation (rule R40). -/
  fg : FgCtx
  /-- RXC's position inside an activation. -/
  rxc : RxCtx
  /-- TXC's position inside an activation. -/
  txc : TxCtx
  /-- `enq_rem` (rule R40). -/
  enqRem : List Byte
  /-- `enq_cnt` (rule R40), the result of `ENQ` (`42_tx_controller.md` rule R153). -/
  enqCnt : Nat
  /-- The result word of the latest operation issued on the foreground bus (rules R96, R101). -/
  fgResult : Word
  /-- The result word of the latest operation issued on the service bus (rule R96). -/
  svcResult : Word
  /-- `urx`, oldest first (rule R41). -/
  urx : List Byte
  /-- `utx`, oldest first (rule R41). -/
  utx : List Byte
  /-- Ghost `wire_out` (rule R42). -/
  wireOut : List Byte
  /-- Ghost `wire_in` (rule R42). -/
  wireIn : List Byte
  /-- Ghost `rx_dropped` (rule R42). -/
  rxDropped : List Byte
  /-- Ghost `fire_log`: (iteration number, task index) pairs (rule R42). -/
  fireLog : List (Nat × Nat)
  /-- Ghost `work_log`: the count of work strobes (rule R42). -/
  workLog : Nat
  /-- Ghost: the number of the current iteration (`43_scheduler.md` rule R180). -/
  iteration : Nat
  /-- Ghost: the trace interface IF9, oldest first (`30_encoding.md` rule R101). -/
  trace : List TraceEntry
  /-- Model input: the agents' turns still fixed, first to move first (log entry 4). -/
  agenda : List Turn
  /-- Model input: how many free turns have been taken (log entry 4). -/
  turnNo : Nat
  /-- Model input: the words the test driver will issue, first first (`60_exceptions.md` rule R211). -/
  driver : List Word
  /-- Requests made to the formatter on IF5; the index of its next free string (log entry 3). -/
  fmtCalls : Nat
deriving DecidableEq, Repr

/-- Why the machine stops with a fault. -/
inductive Fault where
  /-- A read of a storage slot that nothing has written: U1 asks for a fault of the model. Raised by
  `POP` and by `TXSVC` through it. SAFE: no queued slot is ever unwritten (`10_state.md` rule R24). -/
  | unwrittenSlot
  /-- T4's `POP TXF` found TXF empty after T3 saw it non-empty, which `42_tx_controller.md` rule R150
  says cannot be. Raised by a TXC micro-step when another agent pops TXF, against rule R25. SAFE. -/
  | transmitPopEmpty
  /-- `sch_pc` is outside `0 .. NTASK + 2`, which `10_state.md` rule R29 excludes. Raised by FG's turn
  when it would fetch the sequencer's next operation. SAFE: unreachable. -/
  | sequencerPosition
deriving DecidableEq, Repr

/-- Why the machine refuses a step. -/
inductive Refusal where
  /-- The operation has no meaning yet. Raised only by an arm of `exec`. SAFE. -/
  | notModelled (mnemonic : String)
  /-- UART-RX on a full `urx`: the spec gives that byte no step (`60_exceptions.md` rule R208, U7).
  Raised by the UART-RX turn. SAFE in that nothing is claimed past it; what a real receiver does on
  overrun is not covered. -/
  | receiverOverrun
  /-- `IoRead(URXREG)` with `urx` empty: result unspecified, "a model should refuse it"
  (`60_exceptions.md` rule R206, U2). Raised by an RXC micro-step in unreachable states. SAFE. -/
  | ioReadEmpty
  /-- `IoWrite(UTXREG, v)` with `utx_full`: result unspecified, "a model should refuse it"
  (`60_exceptions.md` rule R207, U3). Raised by a TXC micro-step in unreachable states. SAFE. -/
  | ioWriteFull
  /-- A configuration with `THRESH = 0`, a capacity below 2 or a depth of 0 (U8, U9). Raised when the
  machine is built. SAFE. -/
  | illegalConfiguration
deriving DecidableEq, Repr

/-- The outcome of a step of this machine. -/
abbrev Result := Host.Outcome State Fault Refusal

/-- The machine right after reset (`10_state.md` rule R45), in the default configuration. The result
words, `enqRem`, `enqCnt`, the trace and the model's inputs, for which the spec states no reset value,
are named in log entries 9, 10, 13 and 23. -/
def State.reset : State where
  cfg := Config.default
  source := .sequencer
  rxf := Fifo.ofCapacity Config.capRx Config.default.syncLag (by decide)
  txf := Fifo.ofCapacity Config.capTx Config.default.syncLag (by decide)
  manualTrigger := true
  rxPending := false
  txPending := false
  periodElapsed := false
  indicator := false
  counters := [0, 0]
  schPc := 0
  fg := .idle
  rxc := .idle
  txc := .idle
  enqRem := []
  enqCnt := 0
  fgResult := 0
  svcResult := 0
  urx := []
  utx := []
  wireOut := []
  wireIn := []
  rxDropped := []
  fireLog := []
  workLog := 0
  iteration := 1
  trace := []
  agenda := []
  turnNo := 0
  driver := []
  fmtCalls := 0

end Sys2Proof.Machine
end

