-- ==== Sys2Proof/Machine/Ops.lean ====
section
/-! DEFINITION. The named operations over storage, cursors and registers: reading and writing a storage
slot, each side's view of the other's cursor (`20_memory.md` rule R70), the micro-steps of `PUSH` and `POP` on one FIFO (`40_fifo.md` rules R120, R121, R124), the entry
of an activation (`60_exceptions.md` rule R200), result words and the trace (`30_encoding.md` rules R96,
R101), the UART's registers (`60_exceptions.md` rules R206, R207), the advance of `sch_pc`
(`43_scheduler.md` rule R177), reset and building a machine (`70_reset_and_hazards.md` rules R230,
R244). -/

namespace Sys2Proof.Machine

/-! ## Storage -/

/-- What a slot that nothing has written holds: no value (U1 of `93_implementation_defined.md`). -/
def Memory.unlisted : Option Byte := none

/-- `MemRead((f, a), 1)` (`00_scope.md` rule R12): the byte of slot `a`. -/
def Memory.read : Memory → Nat → Option Byte
  | [], _ => Memory.unlisted
  | (a, v) :: m, i => if i = a then some v else Memory.read m i

/-- `MemWrite((f, a), 1, v)` (`00_scope.md` rule R12), keeping the slots strictly rising. -/
def Memory.write : Memory → Nat → Byte → Memory
  | [], i, v => [(i, v)]
  | (a, u) :: m, i, v =>
    if i < a then (i, v) :: (a, u) :: m
    else if i = a then (i, v) :: m
    else (a, u) :: Memory.write m i v

/-- The canonical form: slots strictly rising. No listed slot can equal an unlisted one, which holds
no value. -/
def Memory.wf : Memory → Bool
  | [] => true
  | [_] => true
  | (a, _) :: (b, v) :: m => decide (a < b) && Memory.wf ((b, v) :: m)

/-! ## One FIFO: index arithmetic and the micro-steps of PUSH and POP -/

/-- A cursor value: a number taken modulo `capacity` (`10_state.md` rule R21). -/
def Fifo.cursor (f : Fifo) (n : Nat) : Fin f.capacity :=
  ⟨n % f.capacity, Nat.mod_lt n f.readIndex.pos⟩

/-- `succ(i) = (i + 1) mod N`, as compare-and-reset (`40_fifo.md` rule R124). -/
def Fifo.succ (f : Fifo) (i : Nat) : Nat := if i = f.capacity - 1 then 0 else i + 1

/-- `f.storage[i]`. -/
def Fifo.slot (f : Fifo) (i : Nat) : Option Byte := f.storage.read i

/-- `read_index` as the producer reads it (`20_memory.md` rule R70): current without a lag, else what has
come through the synchroniser (`70_reset_and_hazards.md` rule R240). -/
def Fifo.readSeen (f : Fifo) : Fin f.capacity := f.readSync.headD f.readIndex

/-- `write_index` as the consumer reads it. -/
def Fifo.writeSeen (f : Fifo) : Fin f.capacity := f.writeSync.headD f.writeIndex

/-- An edge of the producer's clock: its view of `read_index` moves one register on. -/
def Fifo.syncProducer (f : Fifo) : Fifo := { f with readSync := (f.readSync ++ [f.readIndex]).tail }

/-- An edge of the consumer's clock: its view of `write_index` moves one register on. -/
def Fifo.syncConsumer (f : Fifo) : Fifo :=
  { f with writeSync := (f.writeSync ++ [f.writeIndex]).tail }

/-- P1 of `PUSH` (`40_fifo.md` rule R120): snapshot both cursors; `none` when full, else `t_w` and
`t_n`. -/
def Fifo.pushP1 (f : Fifo) : Option (Nat × Nat) :=
  let tr := f.readSeen.val
  let tw := f.writeIndex.val
  let tn := f.succ tw
  if tn = tr then none else some (tw, tn)

/-- P2 of `PUSH`: `f.storage[t_w] <- b`. -/
def Fifo.pushP2 (f : Fifo) (tw : Nat) (b : Byte) : Fifo :=
  { f with storage := f.storage.write (f.cursor tw).val b }

/-- P3 of `PUSH`: `f.write_index <- t_n`. -/
def Fifo.pushP3 (f : Fifo) (tn : Nat) : Fifo := { f with writeIndex := f.cursor tn }

/-- C1 of `POP` (`40_fifo.md` rule R121): snapshot both cursors; `none` when empty, else `t_r`. -/
def Fifo.popC1 (f : Fifo) : Option Nat :=
  let tw := f.writeSeen.val
  let tr := f.readIndex.val
  if tr = tw then none else some tr

/-- C2 of `POP`: `t_b <- f.storage[t_r]`. -/
def Fifo.popC2 (f : Fifo) (tr : Nat) : Except Fault Byte :=
  match f.slot (f.cursor tr).val with
  | none => .error .unwrittenSlot
  | some b => .ok b

/-- C3 of `POP`: `f.read_index <- (t_r + 1) mod N`. -/
def Fifo.popC3 (f : Fifo) (tr : Nat) : Fifo := { f with readIndex := f.cursor (f.succ tr) }

/-- `PUSH` with nothing between its micro-steps: the FIFO after it and whether the byte was stored. -/
def Fifo.push (f : Fifo) (b : Byte) : Fifo × Bool :=
  match f.pushP1 with
  | none => (f, false)
  | some (tw, tn) => ((f.pushP2 tw b).pushP3 tn, true)

/-- `POP` with nothing between its micro-steps: the byte, if there is one, and the FIFO after it. -/
def Fifo.pop (f : Fifo) : Except Fault (Option Byte × Fifo) :=
  match f.popC1 with
  | none => .ok (none, f)
  | some tr =>
    match f.popC2 tr with
    | .error e => .error e
    | .ok b => .ok (some b, f.popC3 tr)

/-- The instance at reset (`10_state.md` rule R45): both cursors 0, on both sides, no slot written. -/
def Fifo.clear (lag : Nat) (f : Fifo) : Fifo :=
  { f with
    readIndex := f.cursor 0
    writeIndex := f.cursor 0
    storage := []
    readSync := List.replicate lag (f.cursor 0)
    writeSync := List.replicate lag (f.cursor 0) }

/-! ## Outcomes -/

/-- Go on with `k` from a next state; a stop stays. -/
def andThen (r : Result) (k : State → Result) : Result :=
  match r with
  | .next s => k s
  | .fault e => .fault e
  | .refused e => .refused e

/-- Change a next state by `k`; a stop stays. -/
def mapNext (k : State → State) (r : Result) : Result :=
  match r with
  | .next s => .next (k s)
  | .fault e => .fault e
  | .refused e => .refused e

/-! ## Result words and the trace -/

/-- `RW` (`30_encoding.md` rule R96): zeros, `err`, `flag`, `data`. -/
def resultWord (err flag : Bool) (data : Byte) : Word :=
  (0 : BitVec 6) ++ BitVec.ofBool err ++ BitVec.ofBool flag ++ data

/-- The result word of a `POP` (rule R96). -/
def popResult : Option Byte → Word
  | none => resultWord false false 0
  | some b => resultWord false true b

/-- Trace interface IF9 (rule R101): the words of `i` with their result word. -/
def State.log (s : State) (bus : Bus) (i : Instr) (rw : Word) : State :=
  { s with trace := s.trace ++ (encode i).map (fun ow => ⟨bus, ow, rw⟩) }

/-- Operation `i` of the foreground bus returns `rw` (rules R96, R101). -/
def State.retire (s : State) (i : Instr) (rw : Word) : State :=
  { s.log .foreground i rw with fgResult := rw }

/-- Activation `i` of the service bus returns `rw` (rules R96, R101). -/
def State.retireService (s : State) (i : Instr) (rw : Word) : State :=
  { s.log .service i rw with svcResult := rw }

/-- What the block does with an illegal word `ow` on the foreground bus (`30_encoding.md` rule R95,
`60_exceptions.md` rule R192): nothing but return 0x0200. -/
def State.rejectWord (s : State) (ow : Word) : State :=
  { s with
    fgResult := resultWord true false 0
    trace := s.trace ++ [⟨.foreground, ow, resultWord true false 0⟩] }

/-! ## Activations -/

/-- Entry of an activation (`60_exceptions.md` rule R200), the block's one kind of interrupt entry:
the controller clears its own pending flag (X1, T1) and nothing is saved or changed besides. There is
no return operation: nothing was saved (rule R202). -/
def State.enterRx (s : State) : State := { s with rxPending := false }

/-- See `State.enterRx`; this is T1. -/
def State.enterTx (s : State) : State := { s with txPending := false }

/-- K1 of `KICK` (`42_tx_controller.md` rule R151), also B6 of `ENQB`. -/
def State.requestTx (s : State) : State := { s with txPending := true }

/-! ## The UART's registers -/

/-- `IoRead(URXREG)` (`60_exceptions.md` rule R206): takes the oldest byte out of `urx`; `none` when
there is none, which the caller refuses. -/
def State.ioRead (s : State) : Option (Byte × State) :=
  match s.urx with
  | [] => none
  | v :: rest => some (v, { s with urx := rest })

/-- The effect of `IoWrite(UTXREG, v)` (`60_exceptions.md` rule R207): appends `v` to `utx`. -/
def State.ioWrite (s : State) (v : Byte) : State := { s with utx := s.utx ++ [v] }

/-! ## The sequencer's position -/

/-- `sch_pc <- (sch_pc + 1) mod (NTASK + 3)` (`43_scheduler.md` rule R177). Its return to 0 ends the
iteration (`60_exceptions.md` rule R214). -/
def State.advance (s : State) : State :=
  let pc := (s.schPc + 1) % (s.cfg.ntask + 3)
  { s with schPc := pc, iteration := if pc = 0 then s.iteration + 1 else s.iteration }

/-- FG's operation is complete: FG is at an operation boundary, and the sequencer, if it issued the
operation, advances (`60_exceptions.md` rule R211, log entry 11). -/
def State.finish (s : State) : State :=
  if s.source = .sequencer then { s.advance with fg := .idle } else { s with fg := .idle }

/-! ## Reset and building a machine -/

/-- Reset (`70_reset_and_hazards.md` rules R230, R231; `10_state.md` rule R45): every piece of state at
its reset value, any operation or activation abandoned, the collaborators reset with the block. The
configuration and the model's own inputs stay (log entry 24). -/
def State.hardReset (s : State) : State :=
  { s with
    rxf := s.rxf.clear s.cfg.syncLag
    txf := s.txf.clear s.cfg.syncLag
    manualTrigger := true
    rxPending := false
    txPending := false
    periodElapsed := false
    indicator := false
    counters := List.replicate s.cfg.ntask 0
    schPc := 0
    fg := .idle
    rxc := .idle
    txc := .idle
    enqRem := []
    enqCnt := 0
    fgResult := 0
    svcResult := 0
    urx := []
    utx := []
    wireOut := []
    wireIn := []
    rxDropped := []
    fireLog := []
    workLog := 0
    iteration := 1
    trace := [] }

/-- Building a machine (`00_scope.md` rule R5, `70_reset_and_hazards.md` rule R244, U8, U9): an illegal
configuration is refused; a legal one gives the machine right after reset. -/
def State.boot (cfg : Config) (capRx capTx : Nat) : Result :=
  if h : cfg.legal = true ∧ 2 ≤ capRx ∧ 2 ≤ capTx then
    .next { State.reset with
      cfg := cfg
      rxf := Fifo.ofCapacity capRx cfg.syncLag (by omega)
      txf := Fifo.ofCapacity capTx cfg.syncLag (by omega)
      counters := List.replicate cfg.ntask 0 }
  else .refused .illegalConfiguration

end Sys2Proof.Machine
end

