-- ==== Sys2Proof/Machine/Flags.lean ====
section
/-! DEFINITION. The computed flags (`10_state.md` rules R22 to R24, R30, R41): empty, full and occupancy
of a FIFO, as they are and as each side sees them, and the UART's two status flags. None of them is
stored. -/

namespace Sys2Proof.Machine

/-- `empty(f)` (`10_state.md` rule R22). -/
def Fifo.isEmpty (f : Fifo) : Bool := decide (f.readIndex.val = f.writeIndex.val)

/-- `full(f)` (`10_state.md` rule R23). -/
def Fifo.isFull (f : Fifo) : Bool := decide ((f.writeIndex.val + 1) % f.capacity = f.readIndex.val)

/-- How far the read cursor value `r` is behind the write cursor value `w`: `(w - r) mod capacity`. -/
def Fifo.behind (f : Fifo) (w r : Fin f.capacity) : Nat := (w.val + f.capacity - r.val) % f.capacity

/-- `count(f) = (write_index - read_index) mod capacity` (`10_state.md` rule R24). -/
def Fifo.count (f : Fifo) : Nat := f.behind f.writeIndex f.readIndex

/-- The occupancy as the producer sees it. -/
def Fifo.producerCount (f : Fifo) : Nat := f.behind f.writeIndex f.readSeen

/-- The occupancy as the consumer sees it. -/
def Fifo.consumerCount (f : Fifo) : Nat := f.behind f.writeSeen f.readIndex

/-- `empty(f)` as the producer sees it (`40_fifo.md` rule R122, `20_memory.md` rule R70). -/
def Fifo.producerEmpty (f : Fifo) : Bool := decide (f.readSeen.val = f.writeIndex.val)

/-- `full(f)` as the producer sees it (`40_fifo.md` rule R123). -/
def Fifo.producerFull (f : Fifo) : Bool :=
  decide ((f.writeIndex.val + 1) % f.capacity = f.readSeen.val)

/-- `empty(f)` as the consumer sees it. -/
def Fifo.consumerEmpty (f : Fifo) : Bool := decide (f.readIndex.val = f.writeSeen.val)

/-- `full(f)` as the consumer sees it. -/
def Fifo.consumerFull (f : Fifo) : Bool :=
  decide ((f.writeSeen.val + 1) % f.capacity = f.readIndex.val)

/-- `urx_avail` (`10_state.md` rule R41). -/
def State.urxAvail (s : State) : Bool := !s.urx.isEmpty

/-- `utx_full` (`10_state.md` rule R41). -/
def State.utxFull (s : State) : Bool := decide (s.utx.length = s.cfg.utxDepth)

end Sys2Proof.Machine
end

