-- ==== Sys2Proof/Machine/Operands.lean ====
section
/-! DEFINITION. Operand forms: the FIFO a select number names (`30_encoding.md` rule R92), the task a
task index names (`10_state.md` rules R36 to R38), and the string the formatter hands to a `REPORT`
(`60_exceptions.md` rule R209). -/

namespace Sys2Proof.Machine

/-- The instance a FIFO operand selects (`10_state.md` rule R27). -/
def State.fifo (s : State) : FifoSel → Fifo
  | .rxf => s.rxf
  | .txf => s.txf

/-- The state with that instance replaced. -/
def State.setFifo (s : State) : FifoSel → Fifo → State
  | .rxf, f => { s with rxf := f }
  | .txf, f => { s with txf := f }

/-- `empty(f)` as FG sees it: FG is the consumer of RXF and the producer of TXF (`10_state.md` rule R27). -/
def State.seenEmpty (s : State) : FifoSel → Bool
  | .rxf => s.rxf.consumerEmpty
  | .txf => s.txf.producerEmpty

/-- `full(f)` as FG sees it. -/
def State.seenFull (s : State) : FifoSel → Bool
  | .rxf => s.rxf.consumerFull
  | .txf => s.txf.producerFull

/-- Task `t` of the table (`10_state.md` rule R38); `none` when `t >= NTASK`. -/
def State.task (s : State) (t : Nat) : Option Task := s.cfg.tasks[t]?

/-- `counter[t]` (`10_state.md` rule R36). -/
def State.counter (s : State) (t : Nat) : Nat := s.counters.getD t 0

/-- `counter[t] <- v`. -/
def State.setCounter (s : State) (t v : Nat) : State := { s with counters := s.counters.set t v }

/-- The string `FMT()` returns now: a free value of length at most `SENT_MAX` (`60_exceptions.md` rule
R209, U15). -/
def State.sentence (s : State) : List Byte := (Config.fmt s.fmtCalls).take s.cfg.sentMax

end Sys2Proof.Machine
end

