-- ==== Sys2Proof/Machine/FifoFamily.lean ====
section
/-! DEFINITION. The meanings of the ring buffer's operations `PUSH`, `POP`, `ISEMPTY` and `ISFULL`
(`40_fifo.md` rules R120 to R123), each whole: with no other agent's step between its micro-steps. -/

namespace Sys2Proof.Machine

/-- `PUSH f, #b` (`40_fifo.md` rule R120): stores the byte, or drops it when the FIFO is full. -/
def execPush (f : FifoSel) (b : Byte) (s : State) : Host.Outcome State Fault Refusal :=
  let r := (s.fifo f).push b
  .next ((s.setFifo f r.1).retire (.push f b) (resultWord false r.2 0))

/-- `POP f` (`40_fifo.md` rule R121): takes the oldest byte, or nothing when the FIFO is empty. -/
def execPop (f : FifoSel) (s : State) : Host.Outcome State Fault Refusal :=
  match (s.fifo f).pop with
  | .error e => .fault e
  | .ok (b, f') => .next ((s.setFifo f f').retire (.pop f) (popResult b))

/-- `ISEMPTY f` (`40_fifo.md` rule R122). -/
def execIsempty (f : FifoSel) (s : State) : Host.Outcome State Fault Refusal :=
  .next (s.retire (.isempty f) (resultWord false (s.seenEmpty f) 0))

/-- `ISFULL f` (`40_fifo.md` rule R123). -/
def execIsfull (f : FifoSel) (s : State) : Host.Outcome State Fault Refusal :=
  .next (s.retire (.isfull f) (resultWord false (s.seenFull f) 0))

end Sys2Proof.Machine
end

