-- ==== Sys2Proof/Machine/Receive.lean ====
section
/-! DEFINITION. The receive interrupt controller: the meaning of `RXSVC`, one whole activation
(`41_rx_controller.md` rules R140 to R144). -/

namespace Sys2Proof.Machine

/-- One pass of X3 and X4 for the byte `b` read from `URXREG`: `PUSH RXF, #b`; a byte that does not fit
is gone (rule R141), which only the ghost `rx_dropped` sees. -/
def State.receiveByte (s : State) (b : Byte) : State :=
  let r := s.rxf.push b
  { s with rxf := r.1, rxDropped := if r.2 then s.rxDropped else s.rxDropped ++ [b] }

/-- The loop X2 to X4 over the bytes pending in `urx`, oldest first (rule R142: until none is left). -/
def State.drainUrx : List Byte → State → State
  | [], s => { s with urx := [] }
  | b :: rest, s => State.drainUrx rest ({ s with urx := rest }.receiveByte b)

/-- `RXSVC` (`41_rx_controller.md` rule R140): X1 clears the pending flag, then the loop. -/
def execRxsvc (s : State) : Host.Outcome State Fault Refusal :=
  .next ((State.drainUrx s.urx s.enterRx).retireService .rxsvc 0)

end Sys2Proof.Machine
end

