-- ==== Sys2Proof/Machine/Transmit.lean ====
section
/-! DEFINITION. The transmit interrupt controller and the enqueue bridge: the meanings of `TXSVC`,
`KICK`, `ENQB` and `ENQ` (`42_tx_controller.md` rules R150 to R153), each whole. -/

namespace Sys2Proof.Machine

/-- T2 of `TXSVC` (rule R150): the entry check, made once per activation. -/
def State.entryCheck (s : State) : State :=
  if s.txf.consumerEmpty then { s with manualTrigger := true } else s

/-- The loop T3 to T5 of `TXSVC` (rule R150): while the hardware has room and TXF is non-empty, pop one
byte and hand it to `UTXREG`. `fuel` bounds the passes; as many passes as TXC sees bytes empty its view of TXF. -/
def State.drainTxf : Nat → State → Result
  | 0, s => .next s
  | fuel + 1, s =>
    if s.utxFull then .next s
    else
      match s.txf.pop with
      | .error e => .fault e
      | .ok (none, _) => .next s
      | .ok (some b, f) => State.drainTxf fuel ({ s with txf := f }.ioWrite b)

/-- `TXSVC` (`42_tx_controller.md` rule R150): T1, T2, then the loop. -/
def execTxsvc (s : State) : Host.Outcome State Fault Refusal :=
  mapNext (fun t => t.retireService .txsvc 0) (s.enterTx.entryCheck.drainTxf s.txf.consumerCount)

/-- `KICK` (`42_tx_controller.md` rule R151): requests an activation of the transmit path. -/
def execKick (s : State) : Host.Outcome State Fault Refusal :=
  .next (s.requestTx.retire .kick 0)

/-- B4 to B6 of `ENQB` (rule R152): if the transmitter asked to be restarted, honour the request once
and kick. -/
def State.kickCheck (s : State) : State :=
  if s.manualTrigger then { s with manualTrigger := false }.requestTx else s

/-- One `ENQB #b` (rule R152): `PUSH TXF, #b`, and the kick check if the byte was stored. Gives the state
after it and whether the byte was stored. -/
def State.enqueueByte (s : State) (b : Byte) : State × Bool :=
  let r := s.txf.push b
  if r.2 then
    ({ s with txf := r.1 }.kickCheck.retire (.enqb b) (resultWord false true 0), true)
  else (s.retire (.enqb b) (resultWord false false 0), false)

/-- `ENQB #b` (`42_tx_controller.md` rule R152). -/
def execEnqb (b : Byte) (s : State) : Host.Outcome State Fault Refusal :=
  .next (s.enqueueByte b).1

/-- `enq_cnt` and `enq_rem` after one `ENQB` of a string whose bytes after it are `rest` (rule R153).
With `stop_on_full` (decision D12) a dropped byte ends the string. -/
def State.countByte (s : State) (stored : Bool) (rest : List Byte) : State :=
  { s with
    enqCnt := if stored then s.enqCnt + 1 else s.enqCnt
    enqRem := if stored then rest else (match s.cfg.enqPolicy with
      | .attemptEach => rest
      | .stopOnFull => []) }

/-- The loop of rule R153 over the bytes `str` still to be enqueued. -/
def State.enqueueLoop : List Byte → State → State
  | [], s => s
  | b :: rest, s =>
    let r := s.enqueueByte b
    let t := r.1.countByte r.2 rest
    match r.2, s.cfg.enqPolicy with
    | false, .stopOnFull => t
    | false, .attemptEach => State.enqueueLoop rest t
    | true, _ => State.enqueueLoop rest t

/-- The enqueue of a string (rule R153): `enq_rem <- s`, `enq_cnt <- 0`, then the loop; the result is
`enq_cnt`. -/
def State.enqueueString (s : State) (str : List Byte) : State :=
  State.enqueueLoop str { s with enqRem := str, enqCnt := 0 }

/-- `ENQ "s"` (`42_tx_controller.md` rule R153): every byte in order, never waiting for room. -/
def execEnq (str : List Byte) (s : State) : Host.Outcome State Fault Refusal :=
  .next (s.enqueueString str)

end Sys2Proof.Machine
end

