-- ==== Sys2Proof/Machine/Scheduler.lean ====
section
/-! DEFINITION. The periodic task scheduler: the meanings of `INC`, `DISP`, `WORK` and `WAITP` and the
task actions (`43_scheduler.md` rules R171 to R176), each whole. -/

namespace Sys2Proof.Machine

/-- `INC` (`43_scheduler.md` rule R171): every counter plus one, at the counter's register width. -/
def execInc (s : State) : Host.Outcome State Fault Refusal :=
  .next ({ s with counters := s.counters.map (fun c => (c + 1) % 2 ^ s.cfg.cntW) }.retire .inc 0)

/-- D2 of `DISP` (rule R172): the counter is reset first; the ghost `fire_log` records the firing. -/
def State.fire (s : State) (t : Nat) : State :=
  { s.setCounter t 0 with fireLog := s.fireLog ++ [(s.iteration, t)] }

/-- Action `TOGGLE` (rule R173). -/
def State.toggle (s : State) : State := { s with indicator := !s.indicator }

/-- Action `REPORT` (rule R176): A1 asks the formatter, A2 enqueues its string; the count is
discarded. -/
def State.report (s : State) (str : List Byte) : State :=
  { s with fmtCalls := s.fmtCalls + 1 }.enqueueString str

/-- D3 of `DISP`: the task body (rules R173, R176), with `str` the string the formatter returns. -/
def State.runAction (s : State) (a : Action) (str : List Byte) : State :=
  match a with
  | .toggle => s.toggle
  | .report => s.report str

/-- The state after `DISP #t`, with `str` the string the formatter returns if it is asked (rule R172).
The word's own trace entry stands before those of the `ENQB` words of its action (rule R100, log entry
13). An index that names no task is an illegal word (rule R95). -/
def State.dispatch (s : State) (t : Nat) (str : List Byte) : State :=
  match s.task t with
  | none => s.rejectWord (operationWord 0xB t 0)
  | some task =>
    if s.counter t = task.thresh then
      { (((s.fire t).log .foreground (.disp t) (resultWord false true 0)).runAction task.action str)
        with fgResult := resultWord false true 0 }
    else s.retire (.disp t) (resultWord false false 0)

/-- `DISP #t` (`43_scheduler.md` rule R172); the formatter's string is a free value. -/
def execDisp (t : Nat) (s : State) : Host.Outcome State Fault Refusal :=
  .next (s.dispatch t s.sentence)

/-- `WORK` (`43_scheduler.md` rule R174): one strobe on IF6, seen in the ghost `work_log`. -/
def execWork (s : State) : Host.Outcome State Fault Refusal :=
  .next ({ s with workLog := s.workLog + 1 }.retire .work 0)

/-- `WAITP` (`43_scheduler.md` rule R175): clears `period_elapsed` when it is 1; while it is 0 FG is held
and nothing changes (`60_exceptions.md` rule R213, log entry 6). -/
def execWaitp (s : State) : Host.Outcome State Fault Refusal :=
  if s.periodElapsed then .next ({ s with periodElapsed := false }.retire .waitp 0) else .next s

end Sys2Proof.Machine
end

