-- ==== Sys2Proof/Machine/Dispatch.lean ====
section
/-! DEFINITION. The dispatch of the thirteen operations to their meanings, one arm each. -/

namespace Sys2Proof.Machine

def exec (i : Instr) (s : State) : Host.Outcome State Fault Refusal :=
  match i with
  | .push f b => Sys2Proof.Machine.execPush f b s
  | .pop f => Sys2Proof.Machine.execPop f s
  | .isempty f => Sys2Proof.Machine.execIsempty f s
  | .isfull f => Sys2Proof.Machine.execIsfull f s
  | .enqb b => Sys2Proof.Machine.execEnqb b s
  | .kick => Sys2Proof.Machine.execKick s
  | .rxsvc => Sys2Proof.Machine.execRxsvc s
  | .txsvc => Sys2Proof.Machine.execTxsvc s
  | .inc => Sys2Proof.Machine.execInc s
  | .disp t => Sys2Proof.Machine.execDisp t s
  | .work => Sys2Proof.Machine.execWork s
  | .waitp => Sys2Proof.Machine.execWaitp s
  | .enq str => Sys2Proof.Machine.execEnq str s

end Sys2Proof.Machine
end

