-- ==== Sys2Proof/Machine/Activations.lean ====
section
/-! DEFINITION. The turns of RXC and TXC (`60_exceptions.md` rules R197 to R202, R211): a whole
activation, run by the operation word of the service bus, and, with `ISR_ATOMIC = false`, one micro-step
of an activation. -/

namespace Sys2Proof.Machine

/-- An `RXSVC` step is enabled: `rx_pending = 1` and no RXC activation in progress (rule R197). -/
def State.rxEnabled (s : State) : Bool := s.rxPending && decide (s.rxc = .idle)

/-- A `TXSVC` step is enabled: `tx_pending = 1` and no TXC activation in progress (rule R197). -/
def State.txEnabled (s : State) : Bool := s.txPending && decide (s.txc = .idle)

/-- The interrupt logic issues `ow` on the service bus (`30_encoding.md` rule R94): it is decoded and
runs. A word of no operation of that bus does nothing (rule R95); the interrupt logic issues none. -/
def serviceBus (ow : Word) (s : State) : Result :=
  match decodeOn s.cfg.ntask s.source .service ow with
  | .error _ => .next s
  | .ok i => exec i s

/-- RXC's whole activation (rule R211); RXC has no step while it is not enabled. -/
def rxcTurn (s : State) : Result :=
  if s.rxEnabled then serviceBus 0x8000 s else .next s

/-- TXC's whole activation (rule R211); TXC has no step while it is not enabled. -/
def txcTurn (s : State) : Result :=
  if s.txEnabled then serviceBus 0x9000 s else .next s

/-- One micro-step of an RXC activation (`41_rx_controller.md` rule R140). -/
def rxcMicro (s : State) : Result :=
  match s.rxc with
  | .idle => if s.rxPending then .next { s.enterRx with rxc := .x2 } else .next s
  | .x2 =>
    if s.urxAvail then .next { s with rxc := .x3 }
    else .next { s.retireService .rxsvc 0 with rxc := .idle }
  | .x3 =>
    match s.ioRead with
    | none => .refused .ioReadEmpty
    | some (b, t) => .next { t with rxc := .x4P1 b }
  | .x4P1 b =>
    match s.rxf.pushP1 with
    | none => .next { s with rxDropped := s.rxDropped ++ [b], rxc := .x2 }
    | some (tw, tn) => .next { s with rxc := .x4P2 b tw tn }
  | .x4P2 b tw tn => .next { s with rxf := s.rxf.pushP2 tw b, rxc := .x4P3 tn }
  | .x4P3 tn => .next { s with rxf := s.rxf.pushP3 tn, rxc := .x2 }

/-- One micro-step of a TXC activation (`42_tx_controller.md` rule R150): every access to shared state is
one of its own, in the order written. -/
def txcMicro (s : State) : Result :=
  match s.txc with
  | .idle => if s.txPending then .next { s.enterTx with txc := .t2Read } else .next s
  | .t2Read => .next { s with txc := if s.txf.consumerEmpty then .t2Write else .t3Room }
  | .t2Write => .next { s with manualTrigger := true, txc := .t3Room }
  | .t3Room =>
    if s.utxFull then .next { s.retireService .txsvc 0 with txc := .idle }
    else .next { s with txc := .t3Empty }
  | .t3Empty =>
    if s.txf.consumerEmpty then .next { s.retireService .txsvc 0 with txc := .idle }
    else .next { s with txc := .t4C1 }
  | .t4C1 =>
    match s.txf.popC1 with
    | none => .fault .transmitPopEmpty
    | some tr => .next { s with txc := .t4C2 tr }
  | .t4C2 tr =>
    match s.txf.popC2 tr with
    | .error e => .fault e
    | .ok b => .next { s with txc := .t4C3 tr b }
  | .t4C3 tr b => .next { s with txf := s.txf.popC3 tr, txc := .t5 b }
  | .t5 b =>
    if s.utxFull then .refused .ioWriteFull
    else .next { s.ioWrite b with txc := .t3Room }

/-- RXC's turn for one micro-step: only with `ISR_ATOMIC = false` (rule R201). -/
def rxcMicroTurn (s : State) : Result := if s.cfg.isrAtomic then .next s else rxcMicro s

/-- TXC's turn for one micro-step: only with `ISR_ATOMIC = false` (rule R201). -/
def txcMicroTurn (s : State) : Result := if s.cfg.isrAtomic then .next s else txcMicro s

end Sys2Proof.Machine
end

