-- ==== Sys2Proof/Machine/Environment.lean ====
section
/-! DEFINITION. The environment's steps (`60_exceptions.md` rules R204, R208, R211): a byte arrives, the
transmitter finishes a byte, a period boundary passes; and the edges that carry a cursor to the other
side's view (`70_reset_and_hazards.md` rule R240). -/

namespace Sys2Proof.Machine

/-- UART-RX: the byte `v` arrives from the wire (`60_exceptions.md` rules R194, R208). A byte that arrives
on a full `urx` has no step (U7): the model refuses it. -/
def uartRxTurn (v : Byte) (s : State) : Result :=
  if s.urx.length < s.cfg.urxDepth then
    .next { s with urx := s.urx ++ [v], wireIn := s.wireIn ++ [v], rxPending := true }
  else .refused .receiverOverrun

/-- UART-TX: the transmitter finishes the oldest byte of `utx` (`60_exceptions.md` rules R195, R208); no
step while nothing is in flight. -/
def uartTxTurn (s : State) : Result :=
  match s.utx with
  | [] => .next s
  | v :: rest => .next { s with utx := rest, wireOut := s.wireOut ++ [v], txPending := true }

/-- TIMER: a period boundary passes (`60_exceptions.md` rule R204); enabled at any time. -/
def timerTurn (s : State) : Result := .next { s with periodElapsed := true }

/-- FG's views move on: of RXF's write cursor, of TXF's read cursor (`10_state.md` rule R27, log entry 16). -/
def State.syncFclk (s : State) : State :=
  { s with rxf := s.rxf.syncConsumer, txf := s.txf.syncProducer }

/-- RXC's view of RXF's read cursor and TXC's view of TXF's write cursor move on (log entry 16). -/
def State.syncSclk (s : State) : State :=
  { s with rxf := s.rxf.syncProducer, txf := s.txf.syncConsumer }

/-- An edge of FCLK; with `SYNC_LAG = 0` it changes nothing. -/
def syncFclkTurn (s : State) : Result := .next s.syncFclk

/-- An edge of SCLK; with `SYNC_LAG = 0` it changes nothing. -/
def syncSclkTurn (s : State) : Result := .next s.syncSclk

/-- The reset interface IF8 (`70_reset_and_hazards.md` rule R230). -/
def resetTurn (s : State) : Result := .next s.hardReset

end Sys2Proof.Machine
end

