-- ==== Sys2Proof/Machine/Micro.lean ====
section
/-! DEFINITION. FG at micro-step granularity (`00_scope.md` rule R13, `60_exceptions.md` rules R201,
R211): the first micro-step of each operation and every later one, over the same pieces as the whole
operations. Between two of them any other agent may step. -/

namespace Sys2Proof.Machine

/-- FG goes to the position `c` inside its operation. -/
def State.atStep (s : State) (c : FgCtx) : State := { s with fg := c }

/-- An `ENQB #b` has returned `stored`: its result word goes on the bus, and what it is part of goes on
(`42_tx_controller.md` rules R152, R153; `43_scheduler.md` rule R176). -/
def State.endEnqb (s : State) (o : Outer) (b : Byte) (stored : Bool) : State :=
  let t := s.retire (.enqb b) (resultWord false stored 0)
  match o with
  | .single => t.finish
  | .report _ =>
    let u := t.countByte stored t.enqRem.tail
    match u.enqRem with
    | [] => { u with fgResult := resultWord false true 0 }.finish
    | _ :: _ => u.atStep (.enqNext o)
  | .enq =>
    let u := t.countByte stored t.enqRem.tail
    match u.enqRem with
    | [] => u.finish
    | _ :: _ => u.atStep (.enqNext o)

/-- B1 of `ENQB #b` (P1 of its `PUSH TXF`). -/
def State.beginEnqb (s : State) (o : Outer) (b : Byte) : State :=
  match s.txf.pushP1 with
  | none => s.endEnqb o b false
  | some (tw, tn) => s.atStep (.enqbP2 o b tw tn)

/-- A string is to be enqueued: its first `ENQB` is next, or nothing when it is empty (rule R153). -/
def State.beginString (s : State) (o : Outer) (str : List Byte) : State :=
  { s with enqRem := str, enqCnt := 0 }.atStep (.enqNext o)

/-- The first micro-step of an operation. Operations of one micro-step (`ISEMPTY`, `ISFULL`, `KICK`,
`INC`, `WORK`, `WAITP`) are complete with it; `RXSVC` and `TXSVC` are no operations of FG and run
whole. -/
def fgBegin (i : Instr) (s : State) : Result :=
  match i with
  | .push f b =>
    match (s.fifo f).pushP1 with
    | none => .next (s.retire (.push f b) (resultWord false false 0)).finish
    | some (tw, tn) => .next (s.atStep (.pushP2 f b tw tn))
  | .pop f =>
    match (s.fifo f).popC1 with
    | none => .next (s.retire (.pop f) (popResult none)).finish
    | some tr => .next (s.atStep (.popC2 f tr))
  | .isempty f => mapNext State.finish (execIsempty f s)
  | .isfull f => mapNext State.finish (execIsfull f s)
  | .enqb b => .next (s.beginEnqb .single b)
  | .kick => mapNext State.finish (execKick s)
  | .rxsvc => mapNext State.finish (execRxsvc s)
  | .txsvc => mapNext State.finish (execTxsvc s)
  | .inc => mapNext State.finish (execInc s)
  | .disp t =>
    match s.task t with
    | none => .next (s.rejectWord (operationWord 0xB t 0)).finish
    | some task =>
      if s.counter t = task.thresh then .next (s.atStep (.dispD2 t))
      else .next (s.retire (.disp t) (resultWord false false 0)).finish
  | .work => mapNext State.finish (execWork s)
  | .waitp => mapNext State.finish (execWaitp s)
  | .enq str => .next (s.beginString .enq str)

/-- D3 of `DISP #t`: the first micro-step of the action of task `t` (`43_scheduler.md` rules R172, R173,
R176). A1 of `REPORT` asks the formatter. -/
def State.beginAction (s : State) (t : Nat) : State :=
  match s.task t with
  | none => s.finish
  | some task =>
    match task.action with
    | .toggle => { s.toggle with fgResult := resultWord false true 0 }.finish
    | .report => { s with fmtCalls := s.fmtCalls + 1 }.beginString (.report t) s.sentence

/-- The string FG is enqueuing has no byte left: what it is part of is complete. -/
def State.endString (s : State) (o : Outer) : State :=
  match o with
  | .single => s.finish
  | .report _ => { s with fgResult := resultWord false true 0 }.finish
  | .enq => s.finish

/-- The micro-step at FG's position inside an operation. -/
def fgContinue (s : State) : Result :=
  match s.fg with
  | .idle => .next s
  | .pushP2 f b tw tn => .next ((s.setFifo f ((s.fifo f).pushP2 tw b)).atStep (.pushP3 f b tn))
  | .pushP3 f b tn =>
    .next ((s.setFifo f ((s.fifo f).pushP3 tn)).retire (.push f b) (resultWord false true 0)).finish
  | .popC2 f tr =>
    match (s.fifo f).popC2 tr with
    | .error e => .fault e
    | .ok b => .next (s.atStep (.popC3 f tr b))
  | .popC3 f tr b =>
    .next ((s.setFifo f ((s.fifo f).popC3 tr)).retire (.pop f) (popResult (some b))).finish
  | .enqNext o =>
    match s.enqRem with
    | [] => .next (s.endString o)
    | b :: _ => .next (s.beginEnqb o b)
  | .enqbP2 o b tw tn => .next ({ s with txf := s.txf.pushP2 tw b }.atStep (.enqbP3 o b tn))
  | .enqbP3 o b tn => .next ({ s with txf := s.txf.pushP3 tn }.atStep (.enqbB4 o b))
  | .enqbB4 o b =>
    if s.manualTrigger then .next (s.atStep (.enqbB5 o b)) else .next (s.endEnqb o b true)
  | .enqbB5 o b => .next ({ s with manualTrigger := false }.atStep (.enqbB6 o b))
  | .enqbB6 o b => .next (s.requestTx.endEnqb o b true)
  | .dispD2 t =>
    .next (((s.fire t).log .foreground (.disp t) (resultWord false true 0)).atStep (.dispD3 t))
  | .dispD3 t => .next (s.beginAction t)

end Sys2Proof.Machine
end

