-- ==== Sys2Proof/Machine/Fetch.lean ====
section
/-! DEFINITION. Where FG's operations come from (`43_scheduler.md` rule R170, `30_encoding.md` rules R94,
R97, R100): the sequencer's fixed program, or the words of a test driver; and FG's turns, whole and by
micro-steps (`60_exceptions.md` rule R211). -/

namespace Sys2Proof.Machine

/-- The word in slot `pc` of the sequencer's program (`43_scheduler.md` rule R170, `30_encoding.md` rule
R100): `INC`, one `DISP` per task, `WORK`, `WAITP`. -/
def sequencerWord (ntask pc : Nat) : Option Word :=
  if pc = 0 then some (operationWord 0xA 0 0)
  else if pc ≤ ntask then some (operationWord 0xB (pc - 1) 0)
  else if pc = ntask + 1 then some (operationWord 0xC 0 0)
  else if pc = ntask + 2 then some (operationWord 0xD 0 0)
  else none

/-- The word on the foreground bus at FG's operation boundary; `none` when a test driver has none (an
idle bus is no operation, rule R95) or `sch_pc` names no slot. -/
def State.nextWord (s : State) : Option Word :=
  match s.source with
  | .sequencer => sequencerWord s.cfg.ntask s.schPc
  | .testDriver => s.driver.head?
  | .standalone => s.driver.head?

/-- The state once that word is taken: the sequencer's program stays, a test driver's word is used up. -/
def State.takeWord (s : State) : State :=
  match s.source with
  | .sequencer => s
  | .testDriver => { s with driver := s.driver.tail }
  | .standalone => { s with driver := s.driver.tail }

/-- FG has no step for `i`: `WAITP` while `period_elapsed = 0` (`43_scheduler.md` rule R175). -/
def State.holds (s : State) (i : Instr) : Bool := decide (i = .waitp) && !s.periodElapsed

/-- FG at an operation boundary with no word to run: an idle bus passes; a `sch_pc` outside the program
(`10_state.md` rule R29) is a fault. -/
def fgNoWord (s : State) : Result :=
  match s.source with
  | .sequencer => .fault .sequencerPosition
  | .testDriver => .next s
  | .standalone => .next s

/-- FG at an operation boundary: fetch, decode with the bus check (rule R97), then `run` the operation.
An illegal word changes nothing and returns 0x0200 (rule R95). While `WAITP` holds, nothing happens. -/
def fgIssue (run : Instr → State → Result) (s : State) : Result :=
  match s.nextWord with
  | none => fgNoWord s
  | some ow =>
    match decodeOn s.cfg.ntask s.source .foreground ow with
    | .error _ => .next (s.takeWord.rejectWord ow)
    | .ok i => if s.holds i then .next s else run i s.takeWord

/-- A whole operation, complete. -/
def runWhole (i : Instr) (s : State) : Result := mapNext State.finish (exec i s)

/-- FG's turn for a whole operation; inside an operation, its next micro-step. -/
def fgOpTurn (s : State) : Result :=
  match s.fg with
  | .idle => fgIssue runWhole s
  | _ => fgContinue s

/-- FG's turn for one micro-step (rule R211). -/
def fgMicroTurn (s : State) : Result :=
  match s.fg with
  | .idle => fgIssue fgBegin s
  | _ => fgContinue s

end Sys2Proof.Machine
end

