-- ==== Sys2Proof/Machine/Turns.lean ====
section
/-! DEFINITION. The step table of `60_exceptions.md` rule R211, one row per agent, and the choice of the
agent that moves: the head of `agenda`, else a free value (log entry 4). -/

namespace Sys2Proof.Machine

/-- The step of the agent a turn names (rule R211). -/
def takeTurn (t : Turn) (s : State) : Result :=
  match t with
  | .op => fgOpTurn s
  | .micro => fgMicroTurn s
  | .rxc => rxcTurn s
  | .rxcMicro => rxcMicroTurn s
  | .txc => txcTurn s
  | .txcMicro => txcMicroTurn s
  | .uartRx v => uartRxTurn v s
  | .uartTx => uartTxTurn s
  | .timer => timerTurn s
  | .syncFclk => syncFclkTurn s
  | .syncSclk => syncSclkTurn s
  | .reset => resetTurn s

/-- Who moves next, and the state with that choice used up. -/
def nextTurn (s : State) : Turn × State :=
  match s.agenda with
  | t :: rest => (t, { s with agenda := rest })
  | [] => (Config.freeTurn s.turnNo, { s with turnNo := s.turnNo + 1 })

/-- The configuration in which a test driver may issue `ow`: as it is if it is a test configuration that
accepts the word, else a test driver's, else the standalone-FIFO test configuration, which alone accepts
a foreign handle (`30_encoding.md` rule R94). -/
def driverSource (ntask : Nat) (source : FgSource) (ow : Word) : FgSource :=
  match decodeOn ntask .testDriver .foreground ow with
  | .error .forbiddenBus => .standalone
  | .error _ => if source = .sequencer then .testDriver else source
  | .ok _ => if source = .sequencer then .testDriver else source

/-- A test driver is about to issue `ow` on the foreground bus, and FG's next step runs it. -/
def State.placeForeground (s : State) (ow : Word) : State :=
  { s with
    source := driverSource s.cfg.ntask s.source ow
    driver := ow :: s.driver
    fg := .idle
    agenda := .op :: s.agenda }

/-- The interrupt logic is about to issue `RXSVC` on the service bus, and the next step runs it. -/
def State.placeRxsvc (s : State) : State :=
  { s with rxPending := true, rxc := .idle, agenda := .rxc :: s.agenda }

/-- The interrupt logic is about to issue `TXSVC` on the service bus, and the next step runs it. -/
def State.placeTxsvc (s : State) : State :=
  { s with txPending := true, txc := .idle, agenda := .txc :: s.agenda }

/-- The operation word `ow` is placed where the next step takes it from. -/
def State.place (s : State) (ow : Word) : State :=
  if ow = 0x8000 then s.placeRxsvc
  else if ow = 0x9000 then s.placeTxsvc
  else s.placeForeground ow

end Sys2Proof.Machine
end

