-- ==== Sys2Proof/Machine/Step.lean ====
section
/-! DEFINITION. One step of the machine: the agent that is to move takes its step of the table of
`60_exceptions.md` rule R211. -/

namespace Sys2Proof.Machine

/-- One step of one agent. -/
def step (s : State) : Host.Outcome State Fault Refusal :=
  takeTurn (nextTurn s).1 (nextTurn s).2

/-- `s` with an operation word placed where the next step takes it from (log entry 23): a word of the
foreground bus is given to a test driver, `RXSVC` and `TXSVC` to the interrupt logic with their pending
flag set. An operation is one 16-bit word, so `nbits` adds nothing. -/
def State.withFetchWord (s : State) (nbits w : Nat) : State :=
  s.place (BitVec.ofNat 16 (w % 2 ^ nbits))

end Sys2Proof.Machine
end

