-- ==== Sys2Proof/Safety.lean ====
section
/-! DEFINITION. The terms in which claims about the machine are stated: the abstract queue of a FIFO
(`10_state.md` rule R24), each side's view of the other's cursor (`20_memory.md` rule R70), well-formed
storage, the partition discipline of one producer and one consumer
(rule R25) at every position of the three contexts, the kick-restart invariant of
`42_tx_controller.md` rule R156, the sequencer's counters (`43_scheduler.md` rule R179), the byte streams
of `20_memory.md` rule R75, runs of FG's micro-steps or of a schedule, and the fairness of an infinite run
(`60_exceptions.md` rule R212). -/

namespace Sys2Proof.Machine

/-! ## One FIFO -/

/-- The slot of the `k`-th queued byte (`10_state.md` rule R24). -/
def Fifo.queueSlot (f : Fifo) (k : Nat) : Nat := (f.readIndex.val + k) % f.capacity

/-- Every queued slot has been written (rule R24). -/
abbrev Fifo.written (f : Fifo) : Prop := ∀ k < f.count, (f.slot (f.queueSlot k)).isSome = true

/-- The abstract queue `q(f)`, oldest first (rule R24). -/
def Fifo.queue (f : Fifo) : List Byte :=
  (List.range f.count).filterMap (fun k => f.slot (f.queueSlot k))

/-- The storage is in canonical form and lists only slots of the instance (rule R63). -/
abbrev Fifo.storageOk (f : Fifo) : Prop :=
  f.storage.wf = true ∧ ∀ c ∈ f.storage, c.1 < f.capacity

/-- Views are stale in the safe direction only (`20_memory.md` rule R70): along each chain, and from its end to
the cursor itself, what the producer sees queued never grows and what the consumer sees queued never
shrinks. -/
abbrev Fifo.viewsOk (f : Fifo) : Prop :=
  (f.readSync.map (f.behind f.writeIndex) ++ [f.count]).Pairwise (fun a b => b ≤ a) ∧
  (f.writeSync.map (fun w => f.behind w f.readIndex) ++ [f.count]).Pairwise (fun a b => a ≤ b)

/-- Every queued slot is written and the views are sound. -/
abbrev Fifo.sound (f : Fifo) : Prop := f.written ∧ f.viewsOk

/-- Both chains have `n` registers. -/
abbrev Fifo.lagIs (n : Nat) (f : Fifo) : Prop := f.readSync.length = n ∧ f.writeSync.length = n

/-- Every register of the chains holds the current cursor: no cursor moved for the length of the lag. -/
abbrev Fifo.viewsCurrent (f : Fifo) : Prop :=
  (∀ v ∈ f.readSync, v = f.readIndex) ∧ ∀ v ∈ f.writeSync, v = f.writeIndex

/-- The registers of the two chains as numbers, for comparing two instances. -/
def Fifo.views (f : Fifo) : List Nat × List Nat := (f.readSync.map (·.val), f.writeSync.map (·.val))

/-- The bytes that still fit as the producer sees it: `capacity - 1 - count` (rules R23, R24, R70). -/
def Fifo.room (f : Fifo) : Nat := f.capacity - 1 - f.producerCount

/-- The FIFO after the bytes of `l` were pushed one after another, and how many were stored. -/
def Fifo.pushAll : List Byte → Fifo → Fifo × Nat
  | [], f => (f, 0)
  | b :: rest, f =>
    let r := f.push b
    let q := Fifo.pushAll rest r.1
    (q.1, if r.2 then q.2 + 1 else q.2)

/-! ## The discipline of one producer and one consumer -/

/-- A producer between P1 and P3 with snapshot `tw`, `tn`: its own cursor is where it was and there is
room (`40_fifo.md` rule R120). -/
abbrev Fifo.pushing (f : Fifo) (tw tn : Nat) : Prop :=
  tw = f.writeIndex.val ∧ tn = f.succ f.writeIndex.val ∧ f.producerFull = false

/-- A consumer between C1 and C3 with snapshot `tr` (`40_fifo.md` rule R121). -/
abbrev Fifo.popping (f : Fifo) (tr : Nat) : Prop :=
  tr = f.readIndex.val ∧ f.consumerEmpty = false

/-- FG's temporaries agree with its cursors, and FG only produces into TXF and only consumes from RXF
(`10_state.md` rule R25). -/
def State.fgOk (s : State) : Prop :=
  match s.fg with
  | .pushP2 f _ tw tn => f = .txf ∧ s.txf.pushing tw tn
  | .pushP3 f b tn =>
    f = .txf ∧ s.txf.pushing s.txf.writeIndex.val tn ∧ s.txf.slot s.txf.writeIndex.val = some b
  | .popC2 f tr => f = .rxf ∧ s.rxf.popping tr
  | .popC3 f tr b => f = .rxf ∧ s.rxf.popping tr ∧ s.rxf.slot tr = some b
  | .enqbP2 _ _ tw tn => s.txf.pushing tw tn
  | .enqbP3 _ b tn =>
    s.txf.pushing s.txf.writeIndex.val tn ∧ s.txf.slot s.txf.writeIndex.val = some b
  | .idle => True
  | .enqNext _ => True
  | .enqbB4 _ _ => True
  | .enqbB5 _ _ => True
  | .enqbB6 _ _ => True
  | .dispD2 _ => True
  | .dispD3 _ => True

/-- RXC's temporaries agree with its cursor (`41_rx_controller.md` rule R140). -/
def State.rxOk (s : State) : Prop :=
  match s.rxc with
  | .idle => True
  | .x2 => True
  | .x3 => s.urx ≠ []
  | .x4P1 _ => True
  | .x4P2 _ tw tn => s.rxf.pushing tw tn
  | .x4P3 tn =>
    s.rxf.pushing s.rxf.writeIndex.val tn ∧ (s.rxf.slot s.rxf.writeIndex.val).isSome = true

/-- TXC's temporaries agree with its cursor, and it writes `UTXREG` only with room
(`42_tx_controller.md` rule R150). -/
def State.txOk (s : State) : Prop :=
  match s.txc with
  | .idle => True
  | .t2Read => True
  | .t2Write => True
  | .t3Room => True
  | .t3Empty => s.utxFull = false
  | .t4C1 => s.utxFull = false ∧ s.txf.consumerEmpty = false
  | .t4C2 tr => s.utxFull = false ∧ s.txf.popping tr
  | .t4C3 tr b => s.utxFull = false ∧ s.txf.popping tr ∧ s.txf.slot tr = some b
  | .t5 _ => s.utxFull = false

/-- With `ISR_ATOMIC = true` no activation is in progress between two steps (`60_exceptions.md` rule
R201). -/
abbrev State.atomicOk (s : State) : Prop :=
  s.cfg.isrAtomic = true → s.rxc = .idle ∧ s.txc = .idle

/-- The invariant of the block outside the standalone-FIFO test configuration, for every lag: capacities at
least 2, queues within their depths, every queued slot written, views stale in the safe direction only,
`sch_pc` in range, and every context's temporaries in agreement with the cursors. -/
structure State.Disciplined (s : State) : Prop where
  source : s.source ≠ .standalone
  capRx : 2 ≤ s.rxf.capacity
  capTx : 2 ≤ s.txf.capacity
  urx : s.urx.length ≤ s.cfg.urxDepth
  utx : s.utx.length ≤ s.cfg.utxDepth
  rxSound : s.rxf.sound
  txSound : s.txf.sound
  rxLag : s.rxf.lagIs s.cfg.syncLag
  txLag : s.txf.lagIs s.cfg.syncLag
  schPc : s.schPc < s.cfg.ntask + 3
  fg : s.fgOk
  rxc : s.rxOk
  txc : s.txOk
  atomic : s.atomicOk

/-- Both storages are well formed. -/
abbrev State.storageOk (s : State) : Prop := s.rxf.storageOk ∧ s.txf.storageOk

/-! ## The kick-restart invariant -/

/-- TXF's cursors are seen without a lag (`SYNC_LAG = 0`, which `42_tx_controller.md` rule R156 asks for). -/
abbrev State.noLag (s : State) : Prop := s.cfg.syncLag = 0 ∧ s.txf.lagIs 0

/-- FG is between B3 and B6 of an `ENQB` that read or will read `manual_trigger = 1`
(`42_tx_controller.md` rule R156). -/
def State.kicking (s : State) : Prop :=
  match s.fg with
  | .enqbB4 _ _ => s.manualTrigger = true
  | .enqbB5 _ _ => True
  | .enqbB6 _ _ => True
  | _ => False

/-- FG is before B6 of an `ENQB`. -/
def State.beforeB6 (s : State) : Prop :=
  match s.fg with
  | .enqbB6 _ _ => True
  | _ => False

/-- FG is inside no bare `PUSH` or `POP`, which only a test driver issues (`43_scheduler.md` rule R170). -/
def State.noBareFifo (s : State) : Prop :=
  match s.fg with
  | .pushP2 _ _ _ _ => False
  | .pushP3 _ _ _ => False
  | .popC2 _ _ => False
  | .popC3 _ _ _ => False
  | _ => True

/-- No stall (`42_tx_controller.md` rule R156): a queued byte has an activation owed, a byte in flight
whose finish will raise one, or FG about to kick. -/
abbrev State.notStalled (s : State) : Prop :=
  s.txf.isEmpty = false → s.txPending = true ∨ s.utx ≠ [] ∨ s.kicking

/-- The inductive form of rule R156: with it, the armed flag says that no event is owed (rule R155). -/
structure State.Restartable (s : State) : Prop where
  source : s.source = .sequencer
  atomic : s.cfg.isrAtomic = true
  noLag : s.noLag
  depth : 1 ≤ s.cfg.utxDepth
  txc : s.txc = .idle
  fifo : s.noBareFifo
  stall : s.notStalled
  armed : s.manualTrigger = false → s.txPending = true ∨ s.utx ≠ [] ∨ s.beforeB6

/-- TXC is inside an activation that will still send, arm the flag, or find a byte in flight. -/
def State.txBusy (s : State) : Prop :=
  match s.txc with
  | .idle => False
  | .t3Room => s.txf.isEmpty = false
  | .t3Empty => s.txf.isEmpty = false
  | _ => True

/-- The inductive form of `70_reset_and_hazards.md` rule R239, for both values of `ISR_ATOMIC`: an activation
in progress may also be what moves a queued byte. -/
structure State.Unstranded (s : State) : Prop where
  source : s.source = .sequencer
  noLag : s.noLag
  depth : 1 ≤ s.cfg.utxDepth
  fifo : s.noBareFifo
  stall : s.txf.isEmpty = false → s.txPending = true ∨ s.utx ≠ [] ∨ s.kicking ∨ s.txc ≠ .idle
  armed : s.manualTrigger = false → s.txPending = true ∨ s.utx ≠ [] ∨ s.beforeB6 ∨ s.txBusy

/-! ## The receive side -/

/-- No received byte is left (`41_rx_controller.md` rule R142): a byte that waits in `urx` has an activation
owed or in progress. -/
abbrev State.rxOwed (s : State) : Prop := s.urx ≠ [] → s.rxPending = true ∨ s.rxc ≠ .idle

/-! ## The sequencer's counters -/

/-- Between `DISP #t`'s reset of its counter and its end, the counter is below its threshold. -/
abbrev State.taskReset (s : State) (t : Nat) : Prop :=
  s.schPc = t + 1 ∧ ∀ k, s.task t = some k → s.counter t < k.thresh

/-- FG's position belongs to the operation of the sequencer's current slot (`43_scheduler.md` rule
R170). -/
def State.inSlot (s : State) : Prop :=
  match s.fg with
  | .idle => True
  | .dispD2 t => s.schPc = t + 1
  | .dispD3 t => s.taskReset t
  | .enqNext (.report t) => s.taskReset t
  | .enqbP2 (.report t) _ _ _ => s.taskReset t
  | .enqbP3 (.report t) _ _ => s.taskReset t
  | .enqbB4 (.report t) _ => s.taskReset t
  | .enqbB5 (.report t) _ => s.taskReset t
  | .enqbB6 (.report t) _ => s.taskReset t
  | _ => False

/-- The inductive form of `43_scheduler.md` rule R179: each counter is below its threshold, or at it
between `INC` and the end of its own `DISP`. -/
structure State.Scheduled (s : State) : Prop where
  source : s.source = .sequencer
  legal : s.cfg.legal = true
  length : s.counters.length = s.cfg.ntask
  schPc : s.schPc < s.cfg.ntask + 3
  slot : s.inSlot
  counter : ∀ t k, s.task t = some k →
    s.counter t < k.thresh ∨ (s.counter t = k.thresh ∧ 1 ≤ s.schPc ∧ s.schPc ≤ t + 1)

/-! ## Byte streams -/

/-- The byte TXC holds between C3 and T5. -/
def State.txHeld (s : State) : List Byte :=
  match s.txc with
  | .t5 b => [b]
  | _ => []

/-- The byte RXC holds between X3 and P3. -/
def State.rxHeld (s : State) : List Byte :=
  match s.rxc with
  | .x4P1 b => [b]
  | .x4P2 b _ _ => [b]
  | .x4P3 _ => (s.rxf.slot s.rxf.writeIndex.val).toList
  | _ => []

/-- Every byte stored in TXF since reset, oldest first: on the wire, in the transmitter, in TXC's hand, or
still queued (`20_memory.md` rule R75). -/
def State.txStream (s : State) : List Byte := s.wireOut ++ s.utx ++ s.txHeld ++ s.txf.queue

/-- The byte FG has stored in TXF by an `ENQB` that has not returned yet. -/
def State.fgStored (s : State) : List Byte :=
  match s.fg with
  | .enqbB4 _ b => [b]
  | .enqbB5 _ b => [b]
  | .enqbB6 _ b => [b]
  | _ => []

/-- The byte a trace entry says TXF accepted: an `ENQB`, or a test driver's `PUSH TXF`, that returned `true`
(`42_tx_controller.md` rule R157). -/
def TraceEntry.accepted (e : TraceEntry) : Option Byte :=
  if e.bus = .foreground ∧ e.rw = 0x0100 ∧
      (opField e.ow = 0x5 ∨ opField e.ow = 0x1 ∧ selField e.ow = 1) then some (immField e.ow)
  else none

/-- The bytes TXF accepted in the operations of a trace, oldest first. -/
def acceptedBytes (l : List TraceEntry) : List Byte := l.filterMap TraceEntry.accepted

/-- Every byte of the transmit stream is one that TXF accepted, once and in order (rule R157). -/
abbrev State.Accounted (s : State) : Prop := s.txStream = acceptedBytes s.trace ++ s.fgStored

/-- Received bytes with the sequencer as the only FG (`41_rx_controller.md` rule R143): nothing is popped,
so what arrived is what RXF holds, then what was dropped, then what is still on its way; and nothing is
dropped before RXF is full. -/
structure State.Saturating (s : State) : Prop where
  source : s.source = .sequencer
  fifo : s.noBareFifo
  start : s.rxf.readIndex.val = 0
  seen : ∀ v ∈ s.rxf.readSync, v.val = 0
  bytes : s.wireIn = s.rxf.queue ++ s.rxDropped ++ s.rxHeld ++ s.urx
  full : s.rxDropped ≠ [] → s.rxf.isFull = true

/-! ## Runs -/

/-- `n` further micro-steps of FG with no other agent's step between them. -/
def fgContinueN : Nat → State → Result
  | 0, s => .next s
  | n + 1, s => andThen (fgContinue s) (fgContinueN n)

/-- `n` micro-steps of RXC with no other agent's step between them (`ISR_ATOMIC = false`). -/
def rxcMicroN : Nat → State → Result
  | 0, s => .next s
  | n + 1, s => andThen (rxcMicro s) (rxcMicroN n)

/-- `n` micro-steps of TXC with no other agent's step between them (`ISR_ATOMIC = false`). -/
def txcMicroN : Nat → State → Result
  | 0, s => .next s
  | n + 1, s => andThen (txcMicro s) (txcMicroN n)

/-- `n` edges of SCLK. -/
def State.syncSclkN : Nat → State → State
  | 0, s => s
  | n + 1, s => State.syncSclkN n s.syncSclk

/-- `n` edges of the producer's clock. -/
def Fifo.syncProducerN : Nat → Fifo → Fifo
  | 0, f => f
  | n + 1, f => Fifo.syncProducerN n f.syncProducer

/-- `n` edges of the consumer's clock. -/
def Fifo.syncConsumerN : Nat → Fifo → Fifo
  | 0, f => f
  | n + 1, f => Fifo.syncConsumerN n f.syncConsumer

/-- The steps of a schedule, one turn after another. -/
def runTurns : List Turn → State → Result
  | [], s => .next s
  | t :: rest, s => andThen (takeTurn t s) (runTurns rest)

/-- A schedule that gives TXC and the transmitter `n` turns each, in alternation. -/
def drainSchedule : Nat → List Turn
  | 0 => []
  | n + 1 => .txc :: .uartTx :: drainSchedule n

/-- One iteration of the sequencer with a period boundary before its `WAITP` (`43_scheduler.md` rule
R170). -/
def iterationSchedule (ntask : Nat) : List Turn :=
  List.replicate (ntask + 2) .op ++ [.timer, .op]

/-- The tasks that fire in the iteration about to start: those whose next count is their threshold. -/
def State.dueTasks (s : State) : List Nat :=
  (List.range s.cfg.ntask).filter fun t =>
    match s.task t with
    | some k => decide (s.counter t + 1 = k.thresh)
    | none => false

/-- `k` iterations, one after another. -/
def runIterations : Nat → State → Result
  | 0, s => .next s
  | k + 1, s => andThen (runTurns (iterationSchedule s.cfg.ntask) s) (runIterations k)

/-! ## Fairness of an infinite run -/

/-- The agents that weak fairness is asked of (`60_exceptions.md` rule R212). TIMER has its own clause. -/
inductive Agent where
  | fg
  | rxc
  | txc
  | uartTx
deriving DecidableEq, Repr

/-- FG has a next micro-step: it is inside an operation, or a word is on its bus that it is not held at. -/
def State.fgEnabled (s : State) : Bool :=
  decide (s.fg ≠ .idle) ||
    match s.nextWord with
    | none => false
    | some ow =>
      match decodeOn s.cfg.ntask s.source .foreground ow with
      | .error _ => true
      | .ok i => !s.holds i

/-- RXC has a micro-step of its own: `ISR_ATOMIC = false`, and an activation is pending or in progress. -/
def State.rxMicroEnabled (s : State) : Bool :=
  !s.cfg.isrAtomic && (s.rxPending || decide (s.rxc ≠ .idle))

/-- TXC has a micro-step of its own. -/
def State.txMicroEnabled (s : State) : Bool :=
  !s.cfg.isrAtomic && (s.txPending || decide (s.txc ≠ .idle))

/-- The agent has an enabled step (`60_exceptions.md` rules R197, R211). -/
def State.canMove (s : State) : Agent → Bool
  | .fg => s.fgEnabled
  | .rxc => s.rxEnabled || s.rxMicroEnabled
  | .txc => s.txEnabled || s.txMicroEnabled
  | .uartTx => !s.utx.isEmpty

/-- The turn `t` is a step of the agent, and an enabled one, not a turn that passes (log entry 6). -/
def State.moves (s : State) (t : Turn) : Agent → Bool
  | .fg => (decide (t = .op) || decide (t = .micro)) && s.fgEnabled
  | .rxc => (decide (t = .rxc) && s.rxEnabled) || (decide (t = .rxcMicro) && s.rxMicroEnabled)
  | .txc => (decide (t = .txc) && s.txEnabled) || (decide (t = .txcMicro) && s.txMicroEnabled)
  | .uartTx => decide (t = .uartTx) && !s.utx.isEmpty

/-- An infinite run: the turns that are taken and the states they lead through. -/
def IsRun (turns : Nat → Turn) (r : Nat → State) : Prop :=
  ∀ n, takeTurn (turns n) (r n) = .next (r (n + 1))

/-- Weak fairness to an agent: if it has an enabled step from some point on, it is taken after that point. -/
def WeaklyFair (turns : Nat → Turn) (r : Nat → State) (a : Agent) : Prop :=
  ∀ n, (∀ m, n ≤ m → (r m).canMove a = true) → ∃ m, n ≤ m ∧ (r m).moves (turns m) a = true

/-- A fair run (`60_exceptions.md` rule R212): weakly fair to FG, RXC, TXC and UART-TX, and TIMER steps recur for
ever. UART-RX is free. -/
structure FairRun (turns : Nat → Turn) (r : Nat → State) : Prop where
  run : IsRun turns r
  fair : ∀ a, WeaklyFair turns r a
  timer : ∀ n, ∃ m, n ≤ m ∧ turns m = .timer

end Sys2Proof.Machine
end

