-- ==== Sys2Proof/Certificates/Slice0/Obligations.lean ====
section
/-! DEFINITION. The statements for the provers: encoding, reset, one family of operations after another,
the environment, frames, and the invariants, refinements and streams of the whole block. -/

section

open Sys2Proof Sys2Proof.Machine

/-! ## Encoding -/

/-- `95_test_vectors.md` 2.10 and `30_encoding.md` rules R93, R100: words written out from the opcode
map decode to the operations they stand for, and words of no row are refused. -/
def Obligations.OpcodeMapWordsDecode : Prop :=
  decode 2 0x1141 = .ok (.push .txf 0x41) ∧ decode 2 0x10FF = .ok (.push .rxf 0xFF) ∧
  decode 2 0x2000 = .ok (.pop .rxf) ∧ decode 2 0x3100 = .ok (.isempty .txf) ∧
  decode 2 0x4000 = .ok (.isfull .rxf) ∧ decode 2 0x5024 = .ok (.enqb 0x24) ∧
  decode 2 0x6000 = .ok .kick ∧ decode 2 0x8000 = .ok .rxsvc ∧ decode 2 0x9000 = .ok .txsvc ∧
  decode 2 0xA000 = .ok .inc ∧ decode 2 0xB100 = .ok (.disp 1) ∧ decode 2 0xC000 = .ok .work ∧
  decode 2 0xD000 = .ok .waitp ∧ decode 2 0x0000 = .error .reservedOp ∧
  decode 2 0x1241 = .error .reservedSel ∧ decode 2 0x5158 = .error .nonzeroSel ∧
  decode 2 0x6001 = .error .nonzeroImm ∧ decode 2 0xB200 = .error .reservedSel

/-- Decode and encode agree (`30_encoding.md` rules R90 to R93, R97, R99): every well-formed operation
that has a word is what its one word decodes to, with every operand at every value, and the words of
`ENQ "s"` decode to one `ENQB` per byte, in order. -/
def Obligations.DecodeOfEncode : Prop :=
  (∀ (n : Nat) (i : Instr), i.hasWord = true → i.wellFormed n = true →
    ∃ w, encode i = [w] ∧ decode n w = .ok i) ∧
  ∀ (n : Nat) (str : List Byte),
    (encode (.enq str)).map (decode n) = str.map (fun b => .ok (.enqb b))

/-- Each legal word has one meaning (`30_encoding.md` rules R93, R97): a word that decodes is the word
of the operation it decodes to, and that operation is well formed. -/
def Obligations.EncodeOfDecode : Prop :=
  ∀ (n : Nat) (w : Word) (i : Instr), decode n w = .ok i →
    encode i = [w] ∧ i.wellFormed n = true ∧ i.hasWord = true

/-- The decoder agrees with the opcode map's masks and matches (`30_encoding.md` rule R97: the first row
with `OW & mask = match`; the patterns are disjoint, so order does not matter). -/
def Obligations.DecoderAgreesWithOpcodeMap : Prop :=
  (∀ (w : Word) (m : String),
    (∃ i, decode 2 w = .ok i ∧ i.mnemonic = m) ↔
      ∃ r ∈ opcodeMap, r.matches w = true ∧ r.mnemonic = m) ∧
  opcodeMap.Pairwise (fun r q => ∀ w : Word, ¬ (r.matches w = true ∧ q.matches w = true))

/-- Which words are illegal (`30_encoding.md` rules R92, R95), bus check apart: exactly those with a
reserved `op`, a reserved or non-zero `sel`, or a non-zero must-be-zero `imm8`. -/
def Obligations.IllegalWordsExactly : Prop :=
  ∀ (n : Nat) (w : Word), (∃ r, decode n w = .error r) ↔
    opField w ∈ [0x0, 0x7, 0xE, 0xF] ∨
    (opField w ∈ [0x1, 0x2, 0x3, 0x4] ∧ 2 ≤ selField w) ∨
    (opField w = 0xB ∧ n ≤ selField w) ∨
    (opField w ∈ [0x5, 0x6, 0x8, 0x9, 0xA, 0xC, 0xD] ∧ selField w ≠ 0) ∨
    (opField w ∈ [0x2, 0x3, 0x4, 0x6, 0x8, 0x9, 0xA, 0xB, 0xC, 0xD] ∧ immField w ≠ 0)

/-- Who may issue what (`30_encoding.md` rule R94, `60_exceptions.md` rule R203): the foreground bus
refuses `RXSVC` and `TXSVC` always, and outside the standalone-FIFO test configuration the foreign
handles `PUSH RXF` and `POP TXF`; the service bus carries `RXSVC` and `TXSVC` only. -/
def Obligations.BusRights : Prop :=
  ∀ (n : Nat) (src : FgSource) (w : Word) (i : Instr), decode n w = .ok i →
    (decodeOn n src .foreground w = .ok i ↔
      i ≠ .rxsvc ∧ i ≠ .txsvc ∧
      (src ≠ .standalone → (∀ b, i ≠ .push .rxf b) ∧ i ≠ .pop .txf)) ∧
    (decodeOn n src .service w = .ok i ↔ i = .rxsvc ∨ i = .txsvc)

/-! ## Steps -/

/-- A step runs the decoded operation. On the foreground bus, for a word of a test driver or of the
sequencer's program: `exec` of it whole (the model's own turn, log entry 5; R211 gives FG one micro-step
a step), then `finish`, which advances `sch_pc` if the sequencer issued the word (`43_scheduler.md` rule
R177) and leaves it if a test driver did (the model's reading, log entry 11). On the service bus: `exec`
of `RXSVC` or `TXSVC` while the pending flag is 1 and no activation of that controller is in progress
(`60_exceptions.md` rule R197). The turn stands at the head of the agenda (log entry 4). -/
def Obligations.StepRunsDecodedOperation : Prop :=
  ∀ (s : State) (rest : List Turn),
    (∀ (ow : Word) (words : List Word) (i : Instr),
      s.agenda = .op :: rest → s.fg = .idle → s.source ≠ .sequencer → s.driver = ow :: words →
      decodeOn s.cfg.ntask s.source .foreground ow = .ok i →
      (i = .waitp → s.periodElapsed = true) →
      step s = mapNext State.finish (exec i { s with agenda := rest, driver := words })) ∧
    (∀ (ow : Word) (i : Instr),
      s.agenda = .op :: rest → s.fg = .idle → s.source = .sequencer →
      sequencerWord s.cfg.ntask s.schPc = some ow → decode s.cfg.ntask ow = .ok i →
      (i = .waitp → s.periodElapsed = true) →
      step s = mapNext State.finish (exec i { s with agenda := rest })) ∧
    (s.agenda = .rxc :: rest → s.rxPending = true → s.rxc = .idle →
      step s = exec .rxsvc { s with agenda := rest }) ∧
    (s.agenda = .txc :: rest → s.txPending = true → s.txc = .idle →
      step s = exec .txsvc { s with agenda := rest })

/-- Illegal operation words (`60_exceptions.md` rule R192): on the foreground bus of a test configuration
one changes no state and returns `RW = 0x0200`, nothing else happens (the word leaves the driver's queue
and shows in the trace); and the block's own sequencer never issues one. -/
def Obligations.IllegalWordChangesNothing : Prop :=
  (∀ (s : State) (rest : List Turn) (ow : Word) (words : List Word) (r : Reject),
    s.agenda = .op :: rest ∨ s.agenda = .micro :: rest → s.fg = .idle → s.source ≠ .sequencer →
    s.driver = ow :: words → decodeOn s.cfg.ntask s.source .foreground ow = .error r →
    step s = .next { s with
      agenda := rest
      driver := words
      fgResult := 0x0200
      trace := s.trace ++ [⟨.foreground, ow, 0x0200⟩] }) ∧
  ∀ (n pc : Nat), n ≤ 16 → pc < n + 3 →
    ∃ w i, sequencerWord n pc = some w ∧ decodeOn n .sequencer .foreground w = .ok i

/-- The sequencer program (`43_scheduler.md` rule R170, `30_encoding.md` rule R100): `INC`, one `DISP`
per task in index order, `WORK`, `WAITP`; for two tasks the five words of rule R100. -/
def Obligations.SequencerProgram : Prop :=
  (∀ n, n ≤ 16 →
    (∃ w, sequencerWord n 0 = some w ∧ decode n w = .ok .inc) ∧
    (∀ t, t < n → ∃ w, sequencerWord n (1 + t) = some w ∧ decode n w = .ok (.disp t)) ∧
    (∃ w, sequencerWord n (n + 1) = some w ∧ decode n w = .ok .work) ∧
    (∃ w, sequencerWord n (n + 2) = some w ∧ decode n w = .ok .waitp) ∧
    ∀ pc, n + 3 ≤ pc → sequencerWord n pc = none) ∧
  (List.range 5).map (sequencerWord 2) =
    [some 0xA000, some 0xB000, some 0xB100, some 0xC000, some 0xD000]

/-- The advance of `sch_pc` (`43_scheduler.md` rule R177; `60_exceptions.md` rule R213): after the whole
operation of its slot FG is at the next slot modulo `NTASK + 3`, and an iteration ends at the return to
slot 0; while `WAITP` holds, nothing changes (log entry 6). -/
def Obligations.SequencerAdvances : Prop :=
  ∀ (s : State), s.source = .sequencer → s.fg = .idle → s.cfg.ntask ≤ 16 →
    s.schPc < s.cfg.ntask + 3 →
    ((s.schPc = s.cfg.ntask + 2 → s.periodElapsed = true) →
      ∃ t, fgOpTurn s = .next t ∧ t.schPc = (s.schPc + 1) % (s.cfg.ntask + 3) ∧ t.fg = .idle ∧
        t.iteration = if s.schPc = s.cfg.ntask + 2 then s.iteration + 1 else s.iteration) ∧
    (s.schPc = s.cfg.ntask + 2 → s.periodElapsed = false → fgOpTurn s = .next s)

/-! ## Reset -/

/-- Reset values (`10_state.md` rule R45). -/
def Obligations.ResetValues : Prop :=
  let s := State.reset
  s.rxf.readIndex.val = 0 ∧ s.rxf.writeIndex.val = 0 ∧
  s.txf.readIndex.val = 0 ∧ s.txf.writeIndex.val = 0 ∧
  (∀ i, s.rxf.slot i = none) ∧ (∀ i, s.txf.slot i = none) ∧
  s.manualTrigger = true ∧ s.rxPending = false ∧ s.txPending = false ∧ s.periodElapsed = false ∧
  s.counters.length = s.cfg.ntask ∧ (∀ c ∈ s.counters, c = 0) ∧ s.indicator = false ∧
  s.schPc = 0 ∧ s.fg = .idle ∧ s.rxc = .idle ∧ s.txc = .idle ∧ s.urx = [] ∧ s.utx = [] ∧
  s.wireOut = [] ∧ s.wireIn = [] ∧ s.rxDropped = [] ∧ s.fireLog = [] ∧ s.workLog = 0

/-- Reset (`70_reset_and_hazards.md` rule R230): from any state it puts at once every piece of state of the
block to its value of `10_state.md` rule R45 and abandons any operation or activation in progress. -/
def Obligations.ResetFromAnyState : Prop :=
  ∀ (s : State) (rest : List Turn), s.agenda = .reset :: rest → ∃ t, step s = .next t ∧
    t.cfg = s.cfg ∧ t.rxf.capacity = s.rxf.capacity ∧ t.txf.capacity = s.txf.capacity ∧
    t.rxf.readIndex.val = 0 ∧ t.rxf.writeIndex.val = 0 ∧
    t.txf.readIndex.val = 0 ∧ t.txf.writeIndex.val = 0 ∧
    (∀ i, t.rxf.slot i = none) ∧ (∀ i, t.txf.slot i = none) ∧
    t.manualTrigger = true ∧ t.rxPending = false ∧ t.txPending = false ∧
    t.periodElapsed = false ∧ t.counters = List.replicate s.cfg.ntask 0 ∧ t.indicator = false ∧
    t.schPc = 0 ∧ t.fg = .idle ∧ t.rxc = .idle ∧ t.txc = .idle ∧ t.urx = [] ∧ t.utx = [] ∧
    t.wireOut = [] ∧ t.wireIn = [] ∧ t.rxDropped = [] ∧ t.fireLog = [] ∧ t.workLog = 0

/-- Building a machine: a zero threshold (`70_reset_and_hazards.md` rule R244, U8), a capacity below 2 (U9), and,
by the model's reading of R9, R37 and R92 (log entry 22), a threshold of `2^CNT_W` or more, a depth of 0
and more than 16 tasks are refused; every other configuration, whatever its lag, gives an empty, armed
machine with both sides' views current. -/
def Obligations.IllegalConfigurationRefused : Prop :=
  ∀ (cfg : Config) (capRx capTx : Nat),
    ((∃ k ∈ cfg.tasks, k.thresh = 0 ∨ 2 ^ cfg.cntW ≤ k.thresh) ∨ capRx < 2 ∨ capTx < 2 ∨
        cfg.urxDepth = 0 ∨ cfg.utxDepth = 0 ∨ 16 < cfg.tasks.length →
      State.boot cfg capRx capTx = .refused .illegalConfiguration) ∧
    ((∀ k ∈ cfg.tasks, 1 ≤ k.thresh ∧ k.thresh < 2 ^ cfg.cntW) → 2 ≤ capRx → 2 ≤ capTx →
      1 ≤ cfg.urxDepth → 1 ≤ cfg.utxDepth → cfg.tasks.length ≤ 16 →
      ∃ s, State.boot cfg capRx capTx = .next s ∧
        s.cfg = cfg ∧ s.rxf.capacity = capRx ∧ s.txf.capacity = capTx ∧ s.rxf.isEmpty = true ∧
        s.txf.isEmpty = true ∧ s.rxf.lagIs cfg.syncLag ∧ s.txf.lagIs cfg.syncLag ∧
        s.rxf.viewsCurrent ∧ s.txf.viewsCurrent ∧ s.manualTrigger = true ∧
        s.counters = List.replicate cfg.ntask 0)

/-! ## The ring buffer -/

/-- `PUSH` with room (`40_fifo.md` rule R120; the room is what the producer sees, `20_memory.md` rule R70): the
byte goes to the write cursor's slot, the cursor to its successor, and the result is `0x0100`; no other
slot and no read cursor moves. -/
def Obligations.PushStoresByte : Prop :=
  ∀ (s : State) (f : FifoSel) (b : Byte), (s.fifo f).producerFull = false →
    ∃ t, exec (.push f b) s = .next t ∧
      (t.fifo f).slot (s.fifo f).writeIndex.val = some b ∧
      (∀ i, i ≠ (s.fifo f).writeIndex.val → (t.fifo f).slot i = (s.fifo f).slot i) ∧
      (t.fifo f).writeIndex.val = ((s.fifo f).writeIndex.val + 1) % (s.fifo f).capacity ∧
      (t.fifo f).readIndex.val = (s.fifo f).readIndex.val ∧
      (t.fifo f).capacity = (s.fifo f).capacity ∧ t.fgResult = 0x0100

/-- Idempotent failure (`40_fifo.md` rule R125): a `PUSH` into a full FIFO and a `POP` of an empty one, and with a
lag into one that its side sees full or empty, change nothing; they return `0x0000`. -/
def Obligations.IdempotentFailure : Prop :=
  ∀ (s : State) (f : FifoSel),
    (∀ b, (s.fifo f).producerFull = true ∨
        ((s.fifo f).isFull = true ∧ (s.fifo f).viewsOk) → exec (.push f b) s = .next { s with
      fgResult := 0x0000
      trace := s.trace ++ [⟨.foreground, operationWord 0x1 f.number b, 0x0000⟩] }) ∧
    ((s.fifo f).consumerEmpty = true ∨
        ((s.fifo f).isEmpty = true ∧ (s.fifo f).viewsOk) → exec (.pop f) s = .next { s with
      fgResult := 0x0000
      trace := s.trace ++ [⟨.foreground, operationWord 0x2 f.number 0, 0x0000⟩] })

/-- `POP` of a FIFO its consumer sees non-empty (`40_fifo.md` rule R121, `20_memory.md` rule R70): the byte of the read cursor's slot is returned
with `flag = 1`, the read cursor goes to its successor, the slot keeps its byte. A slot that was never
written is the model's fault (log entry 1). -/
def Obligations.PopReturnsOldestByte : Prop :=
  ∀ (s : State) (f : FifoSel), (s.fifo f).consumerEmpty = false →
    (∀ b, (s.fifo f).slot (s.fifo f).readIndex.val = some b → ∃ t, exec (.pop f) s = .next t ∧
      t.fgResult = 0x0100 ||| b.setWidth 16 ∧
      (t.fifo f).readIndex.val = ((s.fifo f).readIndex.val + 1) % (s.fifo f).capacity ∧
      (t.fifo f).writeIndex.val = (s.fifo f).writeIndex.val ∧
      (t.fifo f).storage = (s.fifo f).storage ∧ (t.fifo f).capacity = (s.fifo f).capacity) ∧
    ((s.fifo f).slot (s.fifo f).readIndex.val = none →
      exec (.pop f) s = .fault .unwrittenSlot)

/-- `ISEMPTY` and `ISFULL` (`40_fifo.md` rules R122, R123; `10_state.md` rules R22, R23) compare FG's own cursor with
the other side's as FG reads it (`20_memory.md` rule R70; FG consumes RXF and produces TXF, R27), and
write nothing; without a lag that is `empty(f)` and `full(f)`. -/
def Obligations.PredicatesReadCursors : Prop :=
  ∀ (s : State) (f : FifoSel), ∃ e u : Bool,
    exec (.isempty f) s = .next { s with
      fgResult := if e then 0x0100 else 0x0000
      trace := s.trace ++
        [⟨.foreground, operationWord 0x3 f.number 0, if e then 0x0100 else 0x0000⟩] } ∧
    exec (.isfull f) s = .next { s with
      fgResult := if u then 0x0100 else 0x0000
      trace := s.trace ++
        [⟨.foreground, operationWord 0x4 f.number 0, if u then 0x0100 else 0x0000⟩] } ∧
    (f = .rxf → (e = true ↔ s.rxf.readIndex = s.rxf.writeSeen) ∧
      (u = true ↔ (s.rxf.writeSeen.val + 1) % s.rxf.capacity = s.rxf.readIndex.val)) ∧
    (f = .txf → (e = true ↔ s.txf.readSeen = s.txf.writeIndex) ∧
      (u = true ↔ (s.txf.writeIndex.val + 1) % s.txf.capacity = s.txf.readSeen.val)) ∧
    ((s.fifo f).lagIs 0 → e = (s.fifo f).isEmpty ∧ u = (s.fifo f).isFull)

/-- Queue law (`40_fifo.md` rule R127): when every queued slot is written and the views are sound, for every lag, a
successful `PUSH` appends its byte to the queue, a successful `POP` removes and returns the head, a
failed one leaves the queue, and the queue is never longer than `capacity - 1`. Without a lag a `PUSH`
fails only at `capacity - 1` bytes, and a `POP` only at none. -/
def Obligations.QueueLaw : Prop :=
  ∀ (s : State) (f : FifoSel), (s.fifo f).sound →
    (s.fifo f).queue.length ≤ (s.fifo f).capacity - 1 ∧
    (∀ b, ∃ t, exec (.push f b) s = .next t ∧ (t.fifo f).sound ∧
      (t.fgResult = 0x0100 → (t.fifo f).queue = (s.fifo f).queue ++ [b]) ∧
      (t.fgResult ≠ 0x0100 → (t.fifo f).queue = (s.fifo f).queue ∧
        ((s.fifo f).lagIs 0 → (s.fifo f).queue.length = (s.fifo f).capacity - 1))) ∧
    ∃ t, exec (.pop f) s = .next t ∧ (t.fifo f).sound ∧
      ((t.fgResult = 0x0000 ∧ (t.fifo f).queue = (s.fifo f).queue ∧
          ((s.fifo f).lagIs 0 → (s.fifo f).queue = [])) ∨
        ∃ b rest, (s.fifo f).queue = b :: rest ∧ t.fgResult = 0x0100 ||| b.setWidth 16 ∧
          (t.fifo f).queue = rest)

/-- The reserved slot (`40_fifo.md` rule R124, `70_reset_and_hazards.md` rule R236): an empty FIFO of capacity `N`
with current views stores `N - 1` bytes and no more. Once the consumer has seen them it pops the first,
and once the producer has seen that pop, the next push succeeds: after the lag, at once without one
(R240). -/
def Obligations.ReservedSlot : Prop :=
  ∀ (f : Fifo) (n : Nat) (l : List Byte), 2 ≤ f.capacity → f.isEmpty = true → f.lagIs n →
    f.viewsCurrent → l.length = f.capacity - 1 →
    let g := (Fifo.pushAll l f).1
    (Fifo.pushAll l f).2 = f.capacity - 1 ∧ g.queue = l ∧ g.isFull = true ∧
    (∀ b, g.push b = (g, false)) ∧
    ∃ b h, (Fifo.syncConsumerN n g).pop = .ok (some b, h) ∧ l.head? = some b ∧
      ∀ c, ((Fifo.syncProducerN n h).push c).2 = true

/-- A pop inside a push (`40_fifo.md` rule R120, `20_memory.md` rule R76; vector 4.1): whichever boundary
between P1, P2 and P3 the consumer's `POP` falls at, it takes the oldest byte and the push still appends
its own. -/
def Obligations.PopInsidePushDisturbsNothing : Prop :=
  ∀ (f : Fifo) (b c : Byte) (l : List Byte) (tw tn : Nat), f.sound → f.queue = c :: l →
    f.consumerEmpty = false → f.pushP1 = some (tw, tn) →
    (f.pop = .ok (some c, f.popC3 f.readIndex.val) ∧
      (((f.popC3 f.readIndex.val).pushP2 tw b).pushP3 tn).queue = l ++ [b]) ∧
    ((f.pushP2 tw b).pop = .ok (some c, (f.pushP2 tw b).popC3 f.readIndex.val) ∧
      (((f.pushP2 tw b).popC3 f.readIndex.val).pushP3 tn).queue = l ++ [b])

/-- What a predicate's answer is worth (`40_fifo.md` rule R126): the producer's "not full" survives every `POP`
and every edge of its clock, so its next `PUSH` stores; the consumer's "not empty" survives every `PUSH`
and every edge of its clock, so its next `POP` takes the head. -/
def Obligations.PredicateAnswersAreStable : Prop :=
  ∀ (f : Fifo) (b : Byte), f.sound →
    (f.producerFull = false →
      (∀ c g, f.pop = .ok (c, g) → g.producerFull = false ∧ (g.push b).2 = true) ∧
      f.syncProducer.producerFull = false ∧ (f.syncProducer.push b).2 = true) ∧
    (f.consumerEmpty = false →
      (∃ c g, (f.push b).1.pop = .ok (some c, g) ∧ f.queue.head? = some c) ∧
      ∃ c g, f.syncConsumer.pop = .ok (some c, g) ∧ f.queue.head? = some c)

/-- Synchroniser lag (`70_reset_and_hazards.md` rule R240; the chain of registers is log entry 16). No data is
corrupted: an edge leaves the queue and keeps soundness, and after as many edges as the lag the view is
current. But a `PUSH` fails although a slot has just been freed; and the `TXSVC` that a kick raised sees
TXF still empty, sets `manual_trigger` and leaves the byte queued, with no event owed, until the next
`ENQB` that stores kicks again. If the kick's `TXSVC` comes only after the lag, it sends the byte. -/
def Obligations.SynchroniserLag : Prop :=
  (∀ (f : Fifo) (n : Nat), f.sound → f.lagIs n →
    f.syncProducer.sound ∧ f.syncConsumer.sound ∧ f.syncProducer.queue = f.queue ∧
    f.syncConsumer.queue = f.queue ∧ (Fifo.syncProducerN n f).readSeen.val = f.readIndex.val ∧
    (Fifo.syncConsumerN n f).writeSeen.val = f.writeIndex.val) ∧
  (∀ (f g : Fifo) (b c : Byte), f.sound → f.readSync ≠ [] → f.producerFull = true →
    f.pop = .ok (some b, g) → g.isFull = false ∧ g.push c = (g, false)) ∧
  ∀ (s : State) (n : Nat) (b : Byte), s.txf.sound → s.txf.isEmpty = true →
    s.txf.lagIs n → 0 < n → s.txf.producerFull = false → s.manualTrigger = true →
    s.utx = [] → 1 ≤ s.cfg.utxDepth →
    ∃ t u v, exec (.enqb b) s = .next t ∧ t.txPending = true ∧ t.txf.queue = [b] ∧
      (exec .txsvc t = .next u ∧ u.manualTrigger = true ∧ u.txPending = false ∧ u.utx = [] ∧
        u.txf.queue = [b] ∧
        ∀ c w, exec (.enqb c) u = .next w → w.fgResult = 0x0100 → w.txPending = true) ∧
      exec .txsvc (State.syncSclkN n t) = .next v ∧ v.utx = [b] ∧ v.txf.queue = []

/-- Data before cursor (`20_memory.md` rules R68, R69): every P2, of FG's `PUSH` and `ENQB` and of RXC's X4, writes
the byte and moves no cursor, and every P3 moves the write cursor and writes no slot; every C2, of FG's
`POP` and of TXC's T4, reads the byte and changes nothing else, and every C3 moves the read cursor and
writes no slot. Snapshots are taken modulo the capacity (log entry 26). -/
def Obligations.DataBeforeCursor : Prop :=
  ∀ (s : State),
    (∀ f b tw tn, s.fg = .pushP2 f b tw tn → ∃ t, fgContinue s = .next t ∧
      t.fg = .pushP3 f b tn ∧ (t.fifo f).slot (tw % (s.fifo f).capacity) = some b ∧
      (t.fifo f).writeIndex.val = (s.fifo f).writeIndex.val ∧
      (t.fifo f).readIndex.val = (s.fifo f).readIndex.val) ∧
    (∀ f b tn, s.fg = .pushP3 f b tn → ∃ t, fgContinue s = .next t ∧ t.fg = .idle ∧
      (t.fifo f).storage = (s.fifo f).storage ∧
      (t.fifo f).writeIndex.val = tn % (s.fifo f).capacity ∧
      (t.fifo f).readIndex.val = (s.fifo f).readIndex.val) ∧
    (∀ o b tw tn, s.fg = .enqbP2 o b tw tn → ∃ t, fgContinue s = .next t ∧
      t.fg = .enqbP3 o b tn ∧ t.txf.slot (tw % s.txf.capacity) = some b ∧
      t.txf.writeIndex.val = s.txf.writeIndex.val ∧
      t.txf.readIndex.val = s.txf.readIndex.val) ∧
    (∀ o b tn, s.fg = .enqbP3 o b tn → ∃ t, fgContinue s = .next t ∧ t.fg = .enqbB4 o b ∧
      t.txf.storage = s.txf.storage ∧ t.txf.writeIndex.val = tn % s.txf.capacity ∧
      t.txf.readIndex.val = s.txf.readIndex.val) ∧
    (∀ b tw tn, s.rxc = .x4P2 b tw tn → ∃ t, rxcMicro s = .next t ∧
      t.rxc = .x4P3 tn ∧ t.rxf.slot (tw % s.rxf.capacity) = some b ∧
      t.rxf.writeIndex.val = s.rxf.writeIndex.val ∧
      t.rxf.readIndex.val = s.rxf.readIndex.val) ∧
    (∀ tn, s.rxc = .x4P3 tn → ∃ t, rxcMicro s = .next t ∧ t.rxc = .x2 ∧
      t.rxf.storage = s.rxf.storage ∧ t.rxf.writeIndex.val = tn % s.rxf.capacity ∧
      t.rxf.readIndex.val = s.rxf.readIndex.val) ∧
    (∀ f tr b, s.fg = .popC2 f tr → (s.fifo f).slot (tr % (s.fifo f).capacity) = some b →
      fgContinue s = .next { s with fg := .popC3 f tr b }) ∧
    (∀ f tr b, s.fg = .popC3 f tr b → ∃ t, fgContinue s = .next t ∧ t.fg = .idle ∧
      (t.fifo f).storage = (s.fifo f).storage ∧
      (t.fifo f).readIndex.val = (s.fifo f).succ tr % (s.fifo f).capacity ∧
      (t.fifo f).writeIndex.val = (s.fifo f).writeIndex.val ∧
      t.fgResult = 0x0100 ||| b.setWidth 16) ∧
    (∀ tr b, s.txc = .t4C2 tr → s.txf.slot (tr % s.txf.capacity) = some b →
      txcMicro s = .next { s with txc := .t4C3 tr b }) ∧
    (∀ tr b, s.txc = .t4C3 tr b → ∃ t, txcMicro s = .next t ∧ t.txc = .t5 b ∧
      t.txf.storage = s.txf.storage ∧ t.txf.readIndex.val = s.txf.succ tr % s.txf.capacity ∧
      t.txf.writeIndex.val = s.txf.writeIndex.val)

/-! ## The receive controller -/

/-- `RXSVC` (`41_rx_controller.md` rules R140 to R142): with `k` free slots in RXC's view it stores the first `k` of the
pending bytes in arrival order and drops the rest, and leaves `urx` empty and `rx_pending` 0. -/
def Obligations.RxsvcStoresThenDrops : Prop :=
  ∀ (s : State), s.rxf.sound → ∃ t, exec .rxsvc s = .next t ∧
    t.rxPending = false ∧ t.urx = [] ∧ t.rxf.sound ∧
    t.rxf.queue = s.rxf.queue ++ s.urx.take s.rxf.room ∧
    t.rxDropped = s.rxDropped ++ s.urx.drop s.rxf.room ∧
    t.rxf.readIndex.val = s.rxf.readIndex.val ∧
    t.rxf.writeIndex.val =
      (s.rxf.writeIndex.val + min s.urx.length s.rxf.room) % s.rxf.capacity ∧
    t.svcResult = 0x0000

/-! ## The transmit controller and the bridge -/

/-- `TXSVC` (`42_tx_controller.md` rule R150): clears its pending flag, arms `manual_trigger` exactly when TXC sees
TXF empty at entry, and moves as many of the bytes it sees as the transmitter has room for, oldest
first; without a lag it sees every queued byte. -/
def Obligations.TxsvcMovesBytes : Prop :=
  ∀ (s : State), s.txf.sound → s.utx.length ≤ s.cfg.utxDepth →
    let k := min (s.cfg.utxDepth - s.utx.length) s.txf.consumerCount
    (∃ t, exec .txsvc s = .next t ∧ t.txPending = false ∧
      t.manualTrigger = (s.manualTrigger || s.txf.consumerEmpty) ∧ t.txf.sound ∧
      t.utx = s.utx ++ s.txf.queue.take k ∧ t.txf.queue = s.txf.queue.drop k ∧
      t.txf.readIndex.val = (s.txf.readIndex.val + k) % s.txf.capacity ∧
      t.svcResult = 0x0000) ∧
    (s.txf.lagIs 0 →
      s.txf.consumerCount = s.txf.queue.length ∧ s.txf.consumerEmpty = s.txf.isEmpty)

/-- Spurious activation (`42_tx_controller.md` rule R154): `TXSVC` that finds TXF empty at entry arms
`manual_trigger` and moves nothing, and running it again from there gives the same state (the trace apart,
which shows each activation). -/
def Obligations.SpuriousTxsvcArms : Prop :=
  ∀ (s : State), s.txf.consumerEmpty = true → ∃ t, exec .txsvc s = .next t ∧
    t = { s with
      txPending := false
      manualTrigger := true
      svcResult := 0x0000
      trace := s.trace ++ [⟨.service, 0x9000, 0x0000⟩] } ∧
    exec .txsvc t = .next { t with trace := t.trace ++ [⟨.service, 0x9000, 0x0000⟩] }

/-- `KICK` (`42_tx_controller.md` rule R151): requests an activation, and reads and writes nothing else of
the block. -/
def Obligations.KickRequestsActivation : Prop :=
  ∀ (s : State), exec .kick s = .next { s with
    txPending := true
    fgResult := 0x0000
    trace := s.trace ++ [⟨.foreground, 0x6000, 0x0000⟩] }

/-- `ENQB` with room in FG's view (`42_tx_controller.md` rule R152): the byte is stored; a request of the transmitter is
honoured once, by clearing it and kicking; without one nothing is kicked. With no room the byte is
dropped and there is no kick check. -/
def Obligations.EnqbStoresAndKicks : Prop :=
  ∀ (s : State) (b : Byte),
    (s.txf.producerFull = false → ∃ t, exec (.enqb b) s = .next t ∧
      t.txf.slot s.txf.writeIndex.val = some b ∧
      t.txf.writeIndex.val = (s.txf.writeIndex.val + 1) % s.txf.capacity ∧
      t.txf.readIndex.val = s.txf.readIndex.val ∧ t.manualTrigger = false ∧
      t.txPending = (s.txPending || s.manualTrigger) ∧ t.fgResult = 0x0100) ∧
    (s.txf.producerFull = true → exec (.enqb b) s = .next { s with
      fgResult := 0x0000
      trace := s.trace ++ [⟨.foreground, operationWord 0x5 0 b, 0x0000⟩] })

/-- `ENQ` with no activation inside it (`42_tx_controller.md` rule R153): under both policies the stored
bytes are the first `k` of the string, with `k` the smaller of its length and the room, and the result
is `k`; the first stored byte honours a request; `enq_rem` is left empty (under `stop_on_full` the bytes
not attempted are discarded, the model's reading, log entry 27). With the spec's policy every byte's `ENQB` word goes
on the bus, in order, stored ones with `0x0100` and dropped ones with `0x0000`. -/
def Obligations.EnqStoresWhatFits : Prop :=
  ∀ (s : State) (str : List Byte), ∃ t, exec (.enq str) s = .next t ∧
    t.enqCnt = min str.length s.txf.room ∧ t.enqRem = [] ∧
    (s.txf.sound → t.txf.sound ∧
      t.txf.queue = s.txf.queue ++ str.take s.txf.room) ∧
    t.txf.readIndex.val = s.txf.readIndex.val ∧
    t.manualTrigger = (s.manualTrigger && decide (min str.length s.txf.room = 0)) ∧
    t.txPending = (s.txPending || s.manualTrigger && decide (0 < min str.length s.txf.room)) ∧
    (s.cfg.enqPolicy = .attemptEach → t.trace = s.trace ++
      (str.take s.txf.room).map (fun b => ⟨.foreground, operationWord 0x5 0 b, 0x0100⟩) ++
      (str.drop s.txf.room).map (fun b => ⟨.foreground, operationWord 0x5 0 b, 0x0000⟩))

/-- The restart scenario (`42_tx_controller.md` rule R158): `TXSVC` with TXF empty arms the flag; `ENQB #b`
then stores `b`, clears the flag and sets `tx_pending`; the one `TXSVC` that this enables hands `b` to
the transmitter, which has room, and leaves TXF empty again. This is the scenario without a lag; with one
it fails as SynchroniserLag says. -/
def Obligations.RestartScenario : Prop :=
  ∀ (s : State) (b : Byte), s.txf.lagIs 0 → s.txf.isEmpty = true → 2 ≤ s.txf.capacity →
    s.utx.length < s.cfg.utxDepth →
    ∃ t u v, exec .txsvc s = .next t ∧ t.manualTrigger = true ∧
      exec (.enqb b) t = .next u ∧ u.fgResult = 0x0100 ∧
      u.txf.slot t.txf.writeIndex.val = some b ∧ u.txf.isEmpty = false ∧
      u.manualTrigger = false ∧ u.txPending = true ∧
      exec .txsvc u = .next v ∧ v.utx = s.utx ++ [b] ∧ v.txf.isEmpty = true

/-! ## The scheduler -/

/-- `INC` (`43_scheduler.md` rule R171): every counter plus one, at the register's width; within the width
nothing wraps. -/
def Obligations.IncIncrementsEveryCounter : Prop :=
  ∀ (s : State), ∃ t, exec .inc s = .next t ∧
    t = { s with
      counters := t.counters
      fgResult := 0x0000
      trace := s.trace ++ [⟨.foreground, 0xA000, 0x0000⟩] } ∧
    t.counters.length = s.counters.length ∧
    ∀ i, i < s.counters.length → t.counter i = (s.counter i + 1) % 2 ^ s.cfg.cntW ∧
      (s.counter i + 1 < 2 ^ s.cfg.cntW → t.counter i = s.counter i + 1)

/-- `DISP` of a task that is not due (`43_scheduler.md` rule R172): nothing happens, result `0x0000`. An
index that names no task is an illegal word (`30_encoding.md` rule R95): nothing happens, `0x0200` (the
decoder refuses such a word first, log entry 15). -/
def Obligations.DispNotDueDoesNothing : Prop :=
  ∀ (s : State) (t : Nat),
    (∀ k, s.task t = some k → s.counter t ≠ k.thresh → exec (.disp t) s = .next { s with
      fgResult := 0x0000
      trace := s.trace ++ [⟨.foreground, operationWord 0xB t 0, 0x0000⟩] }) ∧
    (s.task t = none → exec (.disp t) s = .next { s with
      fgResult := 0x0200
      trace := s.trace ++ [⟨.foreground, operationWord 0xB t 0, 0x0200⟩] })

/-- `DISP` of a due task with action `TOGGLE` (`43_scheduler.md` rules R172, R173): the counter is reset, the
firing is logged, the indicator inverted, and the result is `0x0100`. -/
def Obligations.DispTogglesIndicator : Prop :=
  ∀ (s : State) (t : Nat) (k : Sys2Proof.Task), s.task t = some k → s.counter t = k.thresh →
    k.action = .toggle → exec (.disp t) s = .next { s with
      counters := s.counters.set t 0
      indicator := !s.indicator
      fireLog := s.fireLog ++ [(s.iteration, t)]
      fgResult := 0x0100
      trace := s.trace ++ [⟨.foreground, operationWord 0xB t 0, 0x0100⟩] }

/-- `DISP` of a due task with action `REPORT` (`43_scheduler.md` rules R172, R176; `60_exceptions.md` rule
R209): the counter is reset, the firing logged, and the formatter asked once; the string it returns,
whatever it is, has at most `SENT_MAX` bytes and is enqueued as `ENQ` enqueues it. -/
def Obligations.DispReportsSentence : Prop :=
  ∀ (s : State) (t : Nat) (k : Sys2Proof.Task), s.task t = some k → s.counter t = k.thresh →
    k.action = .report → ∃ u, exec (.disp t) s = .next u ∧
      s.sentence.length ≤ s.cfg.sentMax ∧ u.counters = s.counters.set t 0 ∧
      u.fireLog = s.fireLog ++ [(s.iteration, t)] ∧ u.fmtCalls = s.fmtCalls + 1 ∧
      u.indicator = s.indicator ∧ u.fgResult = 0x0100 ∧
      u.enqCnt = min s.sentence.length s.txf.room ∧
      (s.txf.sound → u.txf.queue = s.txf.queue ++ s.sentence.take s.txf.room) ∧
      u.manualTrigger =
        (s.manualTrigger && decide (min s.sentence.length s.txf.room = 0)) ∧
      u.txPending =
        (s.txPending || s.manualTrigger && decide (0 < min s.sentence.length s.txf.room))

/-- `WORK` (`43_scheduler.md` rule R174): one strobe to the collaborator, no state of the block. -/
def Obligations.WorkStrobesOnce : Prop :=
  ∀ (s : State), exec .work s = .next { s with
    workLog := s.workLog + 1
    fgResult := 0x0000
    trace := s.trace ++ [⟨.foreground, 0xC000, 0x0000⟩] }

/-- `WAITP` (`43_scheduler.md` rule R175): clears `period_elapsed` when it is 1; while it is 0 FG has
no step, and the model's turn of it changes nothing (log entry 6). -/
def Obligations.WaitpConsumesPeriod : Prop :=
  ∀ (s : State),
    (s.periodElapsed = true → exec .waitp s = .next { s with
      periodElapsed := false
      fgResult := 0x0000
      trace := s.trace ++ [⟨.foreground, 0xD000, 0x0000⟩] }) ∧
    (s.periodElapsed = false → exec .waitp s = .next s)

/-! ## The environment and the activations -/

/-- The environment's steps (`60_exceptions.md` rules R194, R195, R204, R208): an arriving byte joins `urx`
and raises `rx_pending`; a finished byte leaves `utx` for the wire and raises `tx_pending`; a period
boundary sets `period_elapsed`, already set or not. The model's own: a byte on a full `urx`, which has
no step in the spec, is refused (log entry 7); UART-TX with nothing in flight passes (log entry 6); a
clock edge moves the views of its domain one register on, and a reset leaves all views current (log entry
16). -/
def Obligations.EnvironmentSteps : Prop :=
  ∀ (s : State) (rest : List Turn),
    (∀ v, s.agenda = .uartRx v :: rest → s.urx.length < s.cfg.urxDepth →
      step s = .next { s with
        agenda := rest, urx := s.urx ++ [v], wireIn := s.wireIn ++ [v], rxPending := true }) ∧
    (∀ v, s.agenda = .uartRx v :: rest → s.cfg.urxDepth ≤ s.urx.length →
      step s = .refused .receiverOverrun) ∧
    (∀ v l, s.agenda = .uartTx :: rest → s.utx = v :: l →
      step s = .next { s with
        agenda := rest, utx := l, wireOut := s.wireOut ++ [v], txPending := true }) ∧
    (s.agenda = .uartTx :: rest → s.utx = [] → step s = .next { s with agenda := rest }) ∧
    (s.agenda = .timer :: rest →
      step s = .next { s with agenda := rest, periodElapsed := true }) ∧
    (s.agenda = .syncFclk :: rest → step s = .next { s with
      agenda := rest, rxf := s.rxf.syncConsumer, txf := s.txf.syncProducer }) ∧
    (s.agenda = .syncSclk :: rest → step s = .next { s with
      agenda := rest, rxf := s.rxf.syncProducer, txf := s.txf.syncConsumer }) ∧
    (s.agenda = .reset :: rest → ∃ t, step s = .next t ∧
      t.rxf.lagIs s.cfg.syncLag ∧ t.rxf.viewsCurrent ∧
      t.txf.lagIs s.cfg.syncLag ∧ t.txf.viewsCurrent)

/-- When an activation may start (`60_exceptions.md` rules R197, R201): with the pending flag 0, or one of its
own in progress, no whole activation of RXC or TXC starts, and the turn changes nothing (log entry 6). At
micro-step granularity, which only `ISR_ATOMIC = false` has, an idle controller whose flag is 0 starts
nothing; one whose flag is 1 starts, by clearing it; and a step inside an activation in progress clears
no flag, so it starts no second one. -/
def Obligations.ActivationOnlyWhilePending : Prop :=
  ∀ (s : State) (rest : List Turn),
    (s.agenda = .rxc :: rest → s.rxPending = false ∨ s.rxc ≠ .idle →
      step s = .next { s with agenda := rest }) ∧
    (s.agenda = .txc :: rest → s.txPending = false ∨ s.txc ≠ .idle →
      step s = .next { s with agenda := rest }) ∧
    (s.agenda = .rxcMicro :: rest →
      (s.cfg.isrAtomic = true ∨ (s.rxPending = false ∧ s.rxc = .idle) →
        step s = .next { s with agenda := rest }) ∧
      (s.cfg.isrAtomic = false → s.rxPending = true → s.rxc = .idle →
        step s = .next { s with agenda := rest, rxPending := false, rxc := .x2 }) ∧
      (∀ t, s.rxc ≠ .idle → step s = .next t → t.rxPending = s.rxPending)) ∧
    (s.agenda = .txcMicro :: rest →
      (s.cfg.isrAtomic = true ∨ (s.txPending = false ∧ s.txc = .idle) →
        step s = .next { s with agenda := rest }) ∧
      (s.cfg.isrAtomic = false → s.txPending = true → s.txc = .idle →
        step s = .next { s with agenda := rest, txPending := false, txc := .t2Read }) ∧
      (∀ t, s.txc ≠ .idle → step s = .next t → t.txPending = s.txPending))

/-- Priority (`60_exceptions.md` rule R199): the two activations commute; the order cannot be observed but
in the trace. -/
def Obligations.ActivationsCommute : Prop :=
  ∀ (s a b : State),
    andThen (exec .rxsvc s) (exec .txsvc) = .next a →
    andThen (exec .txsvc s) (exec .rxsvc) = .next b →
    b = { a with trace := b.trace }

/-! ## Frames -/

/-- Frame of the ring buffer's operations (`40_fifo.md` rules R120 to R123): only the named instance, the
result word and the trace may change. `PUSH` writes no slot but the write cursor's, and none when full;
`POP` moves the read cursor only; the predicates move nothing. -/
def Obligations.FifoFamilyFrame : Prop :=
  ∀ (s t : State) (f : FifoSel),
    (∀ b, exec (.push f b) s = .next t →
      t = { s.setFifo f (t.fifo f) with fgResult := t.fgResult, trace := t.trace } ∧
      (t.fifo f).capacity = (s.fifo f).capacity ∧
      (t.fifo f).readIndex.val = (s.fifo f).readIndex.val ∧
      (t.fifo f).views = (s.fifo f).views ∧
      ((s.fifo f).producerFull = true →
        (t.fifo f).writeIndex.val = (s.fifo f).writeIndex.val) ∧
      (∀ i, i ≠ (s.fifo f).writeIndex.val ∨ (s.fifo f).producerFull = true →
        (t.fifo f).slot i = (s.fifo f).slot i)) ∧
    (exec (.pop f) s = .next t →
      t = { s.setFifo f (t.fifo f) with fgResult := t.fgResult, trace := t.trace } ∧
      (t.fifo f).capacity = (s.fifo f).capacity ∧
      (t.fifo f).writeIndex.val = (s.fifo f).writeIndex.val ∧
      (t.fifo f).views = (s.fifo f).views ∧
      ∀ i, (t.fifo f).slot i = (s.fifo f).slot i) ∧
    (exec (.isempty f) s = .next t → t = { s with fgResult := t.fgResult, trace := t.trace }) ∧
    (exec (.isfull f) s = .next t → t = { s with fgResult := t.fgResult, trace := t.trace })

/-- Frame of the bridge (`42_tx_controller.md` rules R151 to R153): `KICK`, `ENQB` and `ENQ` change only TXF,
`manual_trigger` (never set), `tx_pending` (never cleared), the count and rest of a string (`ENQ`), the
result word and the trace; no read cursor moves, and no slot outside those of the stored bytes. -/
def Obligations.BridgeFrame : Prop :=
  ∀ (s t : State),
    (exec .kick s = .next t →
      t = { s with txPending := true, fgResult := t.fgResult, trace := t.trace }) ∧
    (∀ b, exec (.enqb b) s = .next t →
      t = { s with
        txf := t.txf, manualTrigger := t.manualTrigger, txPending := t.txPending
        fgResult := t.fgResult, trace := t.trace } ∧
      (s.manualTrigger = false → t.manualTrigger = false) ∧
      (s.txPending = true → t.txPending = true) ∧
      t.txf.capacity = s.txf.capacity ∧ t.txf.readIndex.val = s.txf.readIndex.val ∧
      t.txf.views = s.txf.views ∧
      (∀ i, i ≠ s.txf.writeIndex.val ∨ s.txf.producerFull = true → t.txf.slot i = s.txf.slot i)) ∧
    (∀ str, exec (.enq str) s = .next t →
      t = { s with
        txf := t.txf, manualTrigger := t.manualTrigger, txPending := t.txPending
        enqRem := t.enqRem, enqCnt := t.enqCnt, fgResult := t.fgResult, trace := t.trace } ∧
      (s.manualTrigger = false → t.manualTrigger = false) ∧
      (s.txPending = true → t.txPending = true) ∧
      t.txf.capacity = s.txf.capacity ∧ t.txf.readIndex.val = s.txf.readIndex.val ∧
      t.txf.views = s.txf.views ∧
      (∀ i, (∀ j, j < min str.length s.txf.room →
          i ≠ (s.txf.writeIndex.val + j) % s.txf.capacity) →
        t.txf.slot i = s.txf.slot i))

/-- Frame of the activations (`60_exceptions.md` rules R199, R200): `RXSVC` touches only `rx_pending`, `urx`,
the producer side of RXF, its drop ghost, its result and the trace; `TXSVC` only `tx_pending`,
`manual_trigger` (never cleared), `utx`, TXF's read cursor, its result and the trace. FG keeps all its
state through both. -/
def Obligations.ActivationFrame : Prop :=
  ∀ (s t : State),
    (exec .rxsvc s = .next t →
      t = { s with
        rxPending := false, rxf := t.rxf, urx := t.urx, rxDropped := t.rxDropped
        svcResult := t.svcResult, trace := t.trace } ∧
      t.rxf.capacity = s.rxf.capacity ∧ t.rxf.readIndex.val = s.rxf.readIndex.val ∧
      t.rxf.views = s.rxf.views ∧
      (∀ i, (∀ j, j < min s.urx.length s.rxf.room →
          i ≠ (s.rxf.writeIndex.val + j) % s.rxf.capacity) →
        t.rxf.slot i = s.rxf.slot i)) ∧
    (exec .txsvc s = .next t →
      t = { s with
        txPending := false, manualTrigger := t.manualTrigger, txf := t.txf, utx := t.utx
        svcResult := t.svcResult, trace := t.trace } ∧
      (s.manualTrigger = true → t.manualTrigger = true) ∧
      t.txf.capacity = s.txf.capacity ∧ t.txf.writeIndex.val = s.txf.writeIndex.val ∧
      t.txf.views = s.txf.views ∧
      ∀ i, t.txf.slot i = s.txf.slot i)

/-- Frame of the scheduler's operations (`43_scheduler.md` rules R171 to R175): `INC` writes the counters,
`WORK` the strobe count, `WAITP` `period_elapsed`; `DISP #t` writes no other counter than its own, and
what its action writes: `TOGGLE` the indicator only, `REPORT` what `ENQ` of the formatter's string
writes. None moves a received byte or `sch_pc`. -/
def Obligations.SchedulerFrame : Prop :=
  ∀ (s t : State),
    (exec .inc s = .next t →
      t = { s with counters := t.counters, fgResult := t.fgResult, trace := t.trace }) ∧
    (∀ n, exec (.disp n) s = .next t →
      t = { s with
        counters := t.counters, indicator := t.indicator, fireLog := t.fireLog, txf := t.txf
        manualTrigger := t.manualTrigger, txPending := t.txPending
        enqRem := t.enqRem, enqCnt := t.enqCnt, fmtCalls := t.fmtCalls
        fgResult := t.fgResult, trace := t.trace } ∧
      (∀ i, i ≠ n → t.counter i = s.counter i) ∧
      t.txf.capacity = s.txf.capacity ∧ t.txf.readIndex.val = s.txf.readIndex.val ∧
      t.txf.views = s.txf.views ∧
      (∀ i, (∀ j, j < min s.sentence.length s.txf.room →
          i ≠ (s.txf.writeIndex.val + j) % s.txf.capacity) →
        t.txf.slot i = s.txf.slot i) ∧
      ((∀ k, s.task n = some k → k.action = .toggle) → t.txf = s.txf ∧
        t.manualTrigger = s.manualTrigger ∧ t.txPending = s.txPending ∧
        t.enqRem = s.enqRem ∧ t.enqCnt = s.enqCnt ∧ t.fmtCalls = s.fmtCalls) ∧
      ((∀ k, s.task n = some k → k.action = .report) → t.indicator = s.indicator)) ∧
    (exec .work s = .next t →
      t = { s with workLog := t.workLog, fgResult := t.fgResult, trace := t.trace }) ∧
    (exec .waitp s = .next t →
      t = { s with periodElapsed := false, fgResult := t.fgResult, trace := t.trace })

/-! ## The whole block -/

/-- The configuration, and the capacities of the two instances, are constants (`10_state.md` rules R20,
R26, R37): no step of any agent writes them. Nor does one change who drives the foreground bus: that is
the model's reading of the three configurations of R94 (log entry 25). -/
def Obligations.ConfigurationConstant : Prop :=
  ∀ (s t : State), step s = .next t →
    t.cfg = s.cfg ∧ t.source = s.source ∧ t.rxf.capacity = s.rxf.capacity ∧
    t.txf.capacity = s.txf.capacity

/-- The storages' canonical form, and that only slots of the instance are listed (`20_memory.md` rule
R63), is kept by every step. -/
def Obligations.StepKeepsStorageForm : Prop :=
  ∀ (s t : State), s.storageOk → step s = .next t → t.storageOk

/-- One producer and one consumer (`10_state.md` rules R21, R24, R25; `20_memory.md` rules R70, R76;
`60_exceptions.md` rule R201): for every lag, with either value of `ISR_ATOMIC`, and outside the standalone-FIFO test configuration, every step of every agent,
micro-step by micro-step, keeps the block's invariant, never faults, and is refused only for a byte that
arrives on a full `urx`. So no queued slot is ever unwritten and no dropped byte is a fault. -/
def Obligations.DisciplineKept : Prop :=
  ∀ (s : State), s.Disciplined →
    (∀ t, step s = .next t → t.Disciplined) ∧ (∀ e, step s ≠ .fault e) ∧
    ∀ e, step s = .refused e → e = .receiverOverrun

/-- Writer partition (`10_state.md` rule R25), outside the standalone-FIFO test configuration: whatever turn FG
takes, it writes neither RXF's storage and write cursor nor TXF's read cursor; RXC writes nothing of TXF
and not RXF's read cursor; TXC writes nothing of RXF and neither TXF's storage nor its write cursor;
UART-RX, UART-TX and TIMER write nothing of either FIFO; a clock edge moves views only. Reset apart, that
is every turn. -/
def Obligations.WriterPartition : Prop :=
  ∀ (s t : State), s.Disciplined →
    (fgOpTurn s = .next t ∨ fgMicroTurn s = .next t →
      t.rxf.storage = s.rxf.storage ∧ t.rxf.writeIndex.val = s.rxf.writeIndex.val ∧
      t.txf.readIndex.val = s.txf.readIndex.val) ∧
    (rxcTurn s = .next t ∨ rxcMicroTurn s = .next t →
      t.txf = s.txf ∧ t.rxf.readIndex.val = s.rxf.readIndex.val) ∧
    (txcTurn s = .next t ∨ txcMicroTurn s = .next t →
      t.rxf = s.rxf ∧ t.txf.storage = s.txf.storage ∧
      t.txf.writeIndex.val = s.txf.writeIndex.val) ∧
    (∀ v, uartRxTurn v s = .next t → t.rxf = s.rxf ∧ t.txf = s.txf) ∧
    (uartTxTurn s = .next t ∨ timerTurn s = .next t → t.rxf = s.rxf ∧ t.txf = s.txf) ∧
    (syncFclkTurn s = .next t ∨ syncSclkTurn s = .next t →
      (t.rxf.storage = s.rxf.storage ∧ t.rxf.writeIndex.val = s.rxf.writeIndex.val ∧
        t.rxf.readIndex.val = s.rxf.readIndex.val) ∧
      t.txf.storage = s.txf.storage ∧ t.txf.writeIndex.val = s.txf.writeIndex.val ∧
        t.txf.readIndex.val = s.txf.readIndex.val)

/-- Observation only (`10_state.md` rule R42, `30_encoding.md` rule R101): no rule of the block reads the ghost
sequences, the iteration number or the trace: from any other values of them the same step is taken, and
everything else comes out the same. -/
def Obligations.GhostsAreNeverRead : Prop :=
  ∀ (s t : State) (wo wi rd : List Byte) (fl : List (Nat × Nat)) (wl it : Nat)
    (tr : List TraceEntry), step s = .next t →
    ∃ u, step { s with
        wireOut := wo, wireIn := wi, rxDropped := rd, fireLog := fl, workLog := wl
        iteration := it, trace := tr } = .next u ∧
      t = { u with
        wireOut := t.wireOut, wireIn := t.wireIn, rxDropped := t.rxDropped
        fireLog := t.fireLog, workLog := t.workLog, iteration := t.iteration
        trace := t.trace }

/-- No stall (`42_tx_controller.md` rule R156): with `ISR_ATOMIC = true`, `SYNC_LAG = 0` and the
sequencer as the foreground, every step keeps the kick-restart invariant: a byte queued in TXF has an activation owed, a
byte in flight whose finish raises one, or FG about to kick. -/
def Obligations.NoStallKept : Prop :=
  ∀ (s t : State), s.Restartable → step s = .next t → t.Restartable ∧ t.notStalled

/-- No byte stranded, on either side, with either value of `ISR_ATOMIC`, micro-step by micro-step and in every
interleaving. Transmit (`60_exceptions.md` rule R201, `70_reset_and_hazards.md` rule R239), without a lag: a byte
queued in TXF has an activation owed or in progress, a byte in flight, or FG about to kick. Receive
(`41_rx_controller.md` rule R142), for every lag and in every configuration: a byte in `urx` has an
activation owed or in progress, and an activation that returns leaves `urx` empty. -/
def Obligations.NoByteStranded : Prop :=
  (∀ (s t : State), s.Disciplined → s.Unstranded → step s = .next t → t.Unstranded) ∧
  ∀ (s t : State), step s = .next t →
    (s.rxOwed → t.rxOwed) ∧ (s.rxc ≠ .idle → t.rxc = .idle → t.urx = [])

/-- One iteration (`43_scheduler.md` rules R170, R177, R178, R179): from slot 0, along the schedule of the
sequencer's whole operations (log entry 5) with one period boundary before `WAITP`, FG comes back to
slot 0, one iteration on and one work strobe later; every counter counts one tick or starts again at its
threshold, and exactly the due tasks fire, in index order. -/
def Obligations.IterationRunsEveryTask : Prop :=
  ∀ (s : State), s.Scheduled → s.schPc = 0 → s.fg = .idle →
    ∃ t, runTurns (iterationSchedule s.cfg.ntask) s = .next t ∧ t.schPc = 0 ∧ t.fg = .idle ∧
      t.iteration = s.iteration + 1 ∧ t.workLog = s.workLog + 1 ∧ t.periodElapsed = false ∧
      t.fireLog = s.fireLog ++ s.dueTasks.map (fun i => (s.iteration, i)) ∧
      ∀ i k, s.task i = some k →
        t.counter i = if s.counter i + 1 = k.thresh then 0 else s.counter i + 1

/-- Period (`43_scheduler.md` rule R180): with iterations numbered from 1 and all counters 0, as reset leaves them,
after `k` iterations along the schedule of IterationRunsEveryTask task `i` has fired in exactly the
iterations `j` of `1 .. k` that its threshold divides. -/
def Obligations.TaskFiresEveryThreshold : Prop :=
  ∀ (s : State) (k : Nat), s.Scheduled → s.schPc = 0 → s.fg = .idle → s.iteration = 1 →
    s.fireLog = [] → (∀ c ∈ s.counters, c = 0) →
    ∃ t, runIterations k s = .next t ∧ t.iteration = k + 1 ∧
      ∀ i a, s.task i = some a →
        (t.fireLog.filter (fun e => decide (e.2 = i))).map Prod.fst =
          ((List.range k).map (· + 1)).filter (fun j => decide (j % a.thresh = 0))

/-- Counter invariant (`43_scheduler.md` rule R179): every step keeps that each counter is below its
threshold but between `INC` and its own `DISP`; so at slot 0 every counter is below its threshold, and
equality in D1 never misses. -/
def Obligations.CountersStayBelowThreshold : Prop :=
  ∀ (s : State), s.Scheduled →
    (∀ t, step s = .next t → t.Scheduled) ∧
    (s.schPc = 0 → ∀ i k, s.task i = some k → s.counter i < k.thresh)

/-- What reset leaves satisfies every invariant above. -/
def Obligations.InvariantsHoldAtReset : Prop :=
  State.reset.storageOk ∧ State.reset.Disciplined ∧ State.reset.Restartable ∧
    State.reset.Unstranded ∧ State.reset.Scheduled ∧ State.reset.Saturating ∧
    State.reset.Accounted ∧ State.reset.rxOwed

/-- Order on the wire (`42_tx_controller.md` rule R157, `20_memory.md` rule R75), for every lag, outside the
standalone-FIFO test configuration. The transmit stream is what is on the wire, in the transmitter, in
TXC's hand and queued. Every turn but FG's and reset leaves it as it is; an FG turn appends exactly the
bytes whose `ENQB` or `PUSH` returned `true`, a byte counting from P3 on until its `ENQB` returns. So
the stream stays the sequence of accepted bytes: none is lost, repeated or reordered. -/
def Obligations.TransmitStreamOnlyGrows : Prop :=
  ∀ (s t : State), s.Disciplined → step s = .next t →
    ((nextTurn s).1 = .reset → t.txStream = []) ∧
    ((nextTurn s).1 ≠ .reset → (nextTurn s).1 ≠ .op → (nextTurn s).1 ≠ .micro →
      t.txStream = s.txStream) ∧
    ((nextTurn s).1 = .op ∨ (nextTurn s).1 = .micro →
      ∃ words bytes, t.trace = s.trace ++ words ∧ t.txStream = s.txStream ++ bytes ∧
        s.fgStored ++ bytes = acceptedBytes words ++ t.fgStored) ∧
    (s.Accounted → t.Accounted)

/-- Receive order and saturation (`41_rx_controller.md` rule R143, `20_memory.md` rule R75): with the
sequencer as the only FG, RXF is never popped; the bytes that arrived are those in RXF, then those
dropped, then those on their way, and a byte is dropped only once RXF is full. Every step keeps it. -/
def Obligations.ReceiveSaturates : Prop :=
  ∀ (s t : State), s.Disciplined → s.Saturating → step s = .next t → t.Saturating

/-- Micro-steps refine whole operations and activations (`00_scope.md` rule R13, `60_exceptions.md` rules R201, R211;
the whole-operation turn is log entry 5, the split of `DISP` and `ENQ` log entry 31, that of `RXSVC` and
`TXSVC` log entry 17): the micro-steps of an operation of FG, of an `RXSVC` and of a `TXSVC` with nothing
between them end as its meaning does. -/
def Obligations.MicroStepsRefineOperation : Prop :=
  ∀ (s : State),
    (∀ i, s.fg = .idle → ∃ n, andThen (fgBegin i s) (fgContinueN n) = runWhole i s) ∧
    (s.rxc = .idle → s.rxPending = true → ∃ n, rxcMicroN n s = exec .rxsvc s) ∧
    (s.txc = .idle → s.txPending = true → ∃ n, txcMicroN n s = exec .txsvc s)

/-- Every stored byte reaches the wire (`42_tx_controller.md` rule R156), along one bounded schedule (log entry
28; on every fair run, FairRunsSendEveryByte): from a state that meets the invariants, with FG wherever
it is but about to kick, as many alternating turns of TXC and the transmitter as there are bytes waiting
put all of them on the wire, in order. -/
def Obligations.QueuedBytesReachTheWire : Prop :=
  ∀ (s : State) (n : Nat), s.Disciplined → s.Restartable → ¬ s.kicking →
    s.utx.length + s.txf.count ≤ n →
    ∃ t, runTurns (drainSchedule n) s = .next t ∧
      t.wireOut = s.wireOut ++ s.utx ++ s.txf.queue ∧ t.utx = [] ∧ t.txf.isEmpty = true

/-- On a fair run without a reset (`60_exceptions.md` rule R212) every wait ends: FG held at `WAITP` comes to
slot 0 of the next iteration; and a pending activation with none of its controller's in progress, under
either value of `ISR_ATOMIC`, is taken: the idle controller steps, and the step clears its flag (R197, R200). -/
def Obligations.FairRunsEndEveryWait : Prop :=
  ∀ (turns : Nat → Turn) (r : Nat → State) (n : Nat), FairRun turns r →
    (∀ k, turns k ≠ .reset) →
    ((r n).source = .sequencer → (r n).fg = .idle → (r n).schPc = (r n).cfg.ntask + 2 →
      ∃ m, n ≤ m ∧ (r m).schPc = 0 ∧ (r m).fg = .idle ∧
        (r m).iteration = (r n).iteration + 1) ∧
    ((r n).rxc = .idle → (r n).rxPending = true →
      ∃ m, n ≤ m ∧ (r m).rxc = .idle ∧ (r m).moves (turns m) .rxc = true ∧
        (r (m + 1)).rxPending = false) ∧
    ((r n).txc = .idle → (r n).txPending = true →
      ∃ m, n ≤ m ∧ (r m).txc = .idle ∧ (r m).moves (turns m) .txc = true ∧
        (r (m + 1)).txPending = false)

/-- On a fair run without a reset every stored byte is sent (`42_tx_controller.md` rule R156, `60_exceptions.md`
rule R212): from a state that meets the invariants, whatever bytes the transmit stream holds at some
moment are on the wire, in order, at some later one. -/
def Obligations.FairRunsSendEveryByte : Prop :=
  ∀ (turns : Nat → Turn) (r : Nat → State), FairRun turns r → (∀ n, turns n ≠ .reset) →
    (r 0).Disciplined → (r 0).Restartable →
    ∀ n, ∃ m, n ≤ m ∧ (r n).txStream <+: (r m).wireOut

end
end

