-- ==== Sys2Proof/Laws/Decode.lean ====
section
/-! SUPPORT. The fields of an operation word: what each field of an encoded word is, and that a word is
made of its fields. -/

namespace Sys2Proof

theorem operationWord_getLsbD (op sel : Nat) (imm : Byte) (i : Nat) :
    (operationWord op sel imm).getLsbD i =
      if i < 8 then imm.getLsbD i
      else if i < 12 then (BitVec.ofNat 4 sel).getLsbD (i - 8)
      else (BitVec.ofNat 4 op).getLsbD (i - 12) := by
  have h1 : (operationWord op sel imm).getLsbD i = _ :=
    BitVec.getLsbD_append (x := BitVec.ofNat 4 op ++ BitVec.ofNat 4 sel) (y := imm) (i := i)
  have h2 := BitVec.getLsbD_append (x := BitVec.ofNat 4 op) (y := BitVec.ofNat 4 sel) (i := i - 8)
  rw [h1, h2]
  by_cases h8 : i < 8
  · simp [h8]
  · by_cases h12 : i < 12
    · simp [h8, h12, show i - 8 < 4 by omega]
    · simp [h8, h12, show ¬ (i - 8 < 4) by omega, show i - 8 - 4 = i - 12 by omega]

@[simp] theorem immField_operationWord (op sel : Nat) (imm : Byte) :
    immField (operationWord op sel imm) = imm := by
  apply BitVec.eq_of_getLsbD_eq
  intro i hi
  rw [immField, BitVec.getLsbD_extractLsb', operationWord_getLsbD]
  simp [hi]

theorem selField_operationWord (op : Nat) {sel : Nat} (imm : Byte) (h : sel < 16) :
    selField (operationWord op sel imm) = sel := by
  have he : (operationWord op sel imm).extractLsb' 8 4 = BitVec.ofNat 4 sel := by
    apply BitVec.eq_of_getLsbD_eq
    intro i hi
    rw [BitVec.getLsbD_extractLsb', operationWord_getLsbD]
    simp [hi, show 8 + i < 12 by omega]
  rw [selField, he, BitVec.toNat_ofNat]
  exact Nat.mod_eq_of_lt h

theorem opField_operationWord {op : Nat} (sel : Nat) (imm : Byte) (h : op < 16) :
    opField (operationWord op sel imm) = op := by
  have he : (operationWord op sel imm).extractLsb' 12 4 = BitVec.ofNat 4 op := by
    apply BitVec.eq_of_getLsbD_eq
    intro i hi
    rw [BitVec.getLsbD_extractLsb', operationWord_getLsbD]
    simp [hi, show ¬ (12 + i < 8) by omega]
  rw [opField, he, BitVec.toNat_ofNat]
  exact Nat.mod_eq_of_lt h

theorem opField_lt (w : Word) : opField w < 16 := (w.extractLsb' 12 4).isLt

theorem selField_lt (w : Word) : selField w < 16 := (w.extractLsb' 8 4).isLt

/-- A word is the word of its three fields. -/
theorem operationWord_fields (w : Word) :
    operationWord (opField w) (selField w) (immField w) = w := by
  apply BitVec.eq_of_getLsbD_eq
  intro i hi
  rw [operationWord_getLsbD, immField, opField, selField]
  simp only [BitVec.ofNat_toNat, BitVec.setWidth_eq, BitVec.getLsbD_extractLsb']
  by_cases h8 : i < 8
  · simp [h8]
  · by_cases h12 : i < 12
    · simp [h8, h12, show i - 8 < 4 by omega, show 8 + (i - 8) = i by omega]
    · simp [h8, h12, show i - 12 < 4 by omega, show 12 + (i - 12) = i by omega]

end Sys2Proof
end

