-- ==== Sys2Proof/Laws/Memory.lean ====
section
/-! SUPPORT. The laws of a FIFO's storage: a read after a write, other slots alone, and that a write
keeps the canonical form and the range of the listed slots. -/

namespace Sys2Proof.Machine

theorem Memory.read_write_same (m : Memory) (i : Nat) (v : Byte) :
    Memory.read (Memory.write m i v) i = some v := by
  induction m with
  | nil => simp [Memory.write, Memory.read]
  | cons c m ih =>
    obtain ⟨a, u⟩ := c
    simp only [Memory.write]
    split
    · simp [Memory.read]
    · split
      · simp [Memory.read]
      · simpa [Memory.read, ‹¬i = a›] using ih

theorem Memory.read_write_other (m : Memory) {i j : Nat} (v : Byte) (h : j ≠ i) :
    Memory.read (Memory.write m i v) j = Memory.read m j := by
  induction m with
  | nil => simp [Memory.write, Memory.read, h]
  | cons c m ih =>
    obtain ⟨a, u⟩ := c
    simp only [Memory.write]
    split
    · simp [Memory.read, h]
    · split
      · subst i; simp [Memory.read, h]
      · simp [Memory.read, ih]

/-- The canonical form as "the head is below every later slot". -/
theorem Memory.wf_cons (a : Nat) (u : Byte) (m : Memory) :
    Memory.wf ((a, u) :: m) = true ↔ (∀ c ∈ m, a < c.1) ∧ Memory.wf m = true := by
  induction m generalizing a u with
  | nil => simp [Memory.wf]
  | cons c m ih =>
    obtain ⟨b, w⟩ := c
    simp only [Memory.wf, Bool.and_eq_true, decide_eq_true_eq, ih, List.mem_cons, forall_eq_or_imp]
    constructor
    · rintro ⟨hab, hb, hm⟩
      exact ⟨⟨hab, fun c hc => hab.trans (hb c hc)⟩, hb, hm⟩
    · rintro ⟨⟨hab, -⟩, hb, hm⟩
      exact ⟨hab, hb, hm⟩

theorem Memory.mem_write {m : Memory} {i : Nat} {v : Byte} {c : Host.Cell}
    (h : c ∈ Memory.write m i v) : c = (i, v) ∨ c ∈ m := by
  induction m with
  | nil => simpa [Memory.write] using h
  | cons d m ih =>
    obtain ⟨a, u⟩ := d
    simp only [Memory.write] at h
    split at h
    · simpa using h
    · split at h
      · rcases List.mem_cons.mp h with h | h
        · exact .inl h
        · exact .inr (List.mem_cons_of_mem _ h)
      · rcases List.mem_cons.mp h with h | h
        · exact .inr (by simp [h])
        · exact (ih h).imp id (List.mem_cons_of_mem _)

/-- A write keeps the canonical form. -/
theorem Memory.wf_write {m : Memory} (i : Nat) (v : Byte) (h : Memory.wf m = true) :
    Memory.wf (Memory.write m i v) = true := by
  induction m with
  | nil => rfl
  | cons c m ih =>
    obtain ⟨a, u⟩ := c
    obtain ⟨hlt, hm⟩ := (Memory.wf_cons a u m).mp h
    simp only [Memory.write]
    split
    · refine (Memory.wf_cons _ _ _).mpr ⟨?_, h⟩
      rintro c hc
      rcases List.mem_cons.mp hc with rfl | hc
      · assumption
      · exact (by assumption : i < a).trans (hlt c hc)
    · split
      · subst i; exact (Memory.wf_cons _ _ _).mpr ⟨hlt, hm⟩
      · refine (Memory.wf_cons _ _ _).mpr ⟨fun c hc => ?_, ih hm⟩
        rcases Memory.mem_write hc with rfl | hc
        · simp only; omega
        · exact hlt c hc

/-- Canonical memories that read alike are equal data. -/
theorem Memory.eq_of_read_eq {m n : Memory} (hm : Memory.wf m = true) (hn : Memory.wf n = true)
    (h : ∀ i, Memory.read m i = Memory.read n i) : m = n := by
  induction m generalizing n with
  | nil =>
    cases n with
    | nil => rfl
    | cons c n => have := h c.1; simp [Memory.read, Memory.unlisted] at this
  | cons c m ih =>
    obtain ⟨a, u⟩ := c
    have below : ∀ {k : Memory} {i : Nat}, (∀ c ∈ k, i < c.1) → Memory.read k i = none := by
      intro k i hk
      induction k with
      | nil => rfl
      | cons d k ihk =>
        have hd := hk d (by simp)
        simp only [Memory.read]
        rw [if_neg (by omega), ihk fun c hc => hk c (List.mem_cons_of_mem _ hc)]
    cases n with
    | nil => have := h a; simp [Memory.read, Memory.unlisted] at this
    | cons d n =>
      obtain ⟨b, w⟩ := d
      obtain ⟨hma, hm'⟩ := (Memory.wf_cons a u m).mp hm
      obtain ⟨hnb, hn'⟩ := (Memory.wf_cons b w n).mp hn
      have ha := h a
      have hb := h b
      simp only [Memory.read, if_true] at ha hb
      have hab : a = b := by
        rcases Nat.lt_trichotomy a b with hlt | heq | hgt
        · rw [if_neg (by omega), below fun c hc => hlt.trans (hnb c hc)] at ha
          exact absurd ha (by simp)
        · exact heq
        · rw [if_neg (by omega), below fun c hc => hgt.trans (hma c hc)] at hb
          exact absurd hb (by simp)
      subst hab
      simp only [if_true] at ha
      obtain rfl : u = w := by simpa using ha
      congr 1
      refine ih hm' hn' fun i => ?_
      by_cases hi : i = a
      · subst hi; rw [below hma, below hnb]
      · simpa [Memory.read, hi] using h i

end Sys2Proof.Machine
end

