-- ==== Sys2Proof/Laws/Fifo.lean ====
section
/-! SUPPORT. What the operations of one FIFO do: index arithmetic, occupancy, and for `PUSH` and `POP`
one lemma each for success and for failure, cursors, storage and queue; and the soundness of the two
sides' views. -/

namespace Sys2Proof.Machine

variable (f : Fifo)

/-! ## Index arithmetic and occupancy -/

theorem Fifo.capacity_pos : 0 < f.capacity := f.readIndex.pos

@[simp] theorem Fifo.cursor_val (n : Nat) : (f.cursor n).val = n % f.capacity := rfl

theorem Fifo.succ_eq_mod {i : Nat} (h : i < f.capacity) : f.succ i = (i + 1) % f.capacity := by
  unfold Fifo.succ
  split
  · have : i + 1 = f.capacity := by omega
    simp [this]
  · exact (Nat.mod_eq_of_lt (by omega)).symm

theorem Fifo.succ_lt {i : Nat} (h : i < f.capacity) : f.succ i < f.capacity := by
  rw [f.succ_eq_mod h]; exact Nat.mod_lt _ f.capacity_pos

theorem Fifo.behind_eq (w r : Fin f.capacity) : f.behind w r =
    if r.val ≤ w.val then w.val - r.val else w.val + f.capacity - r.val := by
  have hr := r.isLt
  have hw := w.isLt
  unfold Fifo.behind
  split
  · rw [show w.val + f.capacity - r.val = (w.val - r.val) + f.capacity by omega, Nat.add_mod_right]
    exact Nat.mod_eq_of_lt (by omega)
  · exact Nat.mod_eq_of_lt (by omega)

theorem Fifo.behind_lt (w r : Fin f.capacity) : f.behind w r < f.capacity :=
  Nat.mod_lt _ f.capacity_pos

@[simp] theorem Fifo.behind_self (w : Fin f.capacity) : f.behind w w = 0 := by
  rw [f.behind_eq]; simp

theorem Fifo.behind_eq_zero_iff (w r : Fin f.capacity) : f.behind w r = 0 ↔ r.val = w.val := by
  have hr := r.isLt
  have hw := w.isLt
  rw [f.behind_eq]
  split <;> omega

theorem Fifo.behind_full_iff (w r : Fin f.capacity) :
    f.behind w r + 1 = f.capacity ↔ (w.val + 1) % f.capacity = r.val := by
  have hr := r.isLt
  have hw := w.isLt
  have hs := f.succ_eq_mod hw
  unfold Fifo.succ at hs
  rw [f.behind_eq, ← hs]
  split <;> split <;> omega

/-- The write cursor moves on: one more is behind it. -/
theorem Fifo.behind_succ_left {w w' r : Fin f.capacity} (hw : w'.val = f.succ w.val)
    (h : f.behind w r + 1 < f.capacity) : f.behind w' r = f.behind w r + 1 := by
  have h1 := w.isLt
  have h2 := r.isLt
  rw [f.behind_eq] at h ⊢
  rw [f.behind_eq, hw]
  unfold Fifo.succ
  split at h <;> split <;> split <;> omega

/-- The read cursor moves on: one less is behind. -/
theorem Fifo.behind_succ_right {w r r' : Fin f.capacity} (hr : r'.val = f.succ r.val)
    (h : 0 < f.behind w r) : f.behind w r' + 1 = f.behind w r := by
  have h1 := w.isLt
  have h2 := r.isLt
  rw [f.behind_eq] at h ⊢
  rw [f.behind_eq, hr]
  unfold Fifo.succ
  split at h <;> split <;> split <;> omega

theorem Fifo.count_eq : f.count =
    if f.readIndex.val ≤ f.writeIndex.val then f.writeIndex.val - f.readIndex.val
    else f.writeIndex.val + f.capacity - f.readIndex.val := f.behind_eq _ _

theorem Fifo.count_lt : f.count < f.capacity := f.behind_lt _ _

theorem Fifo.isEmpty_iff : f.isEmpty = true ↔ f.count = 0 := by
  rw [Fifo.count, f.behind_eq_zero_iff]; simp [Fifo.isEmpty]

theorem Fifo.isFull_iff : f.isFull = true ↔ f.count + 1 = f.capacity := by
  rw [Fifo.count, f.behind_full_iff]; simp [Fifo.isFull]

theorem Fifo.isEmpty_eq_false_iff : f.isEmpty = false ↔ 0 < f.count := by
  rw [← Bool.not_eq_true, f.isEmpty_iff]; omega

theorem Fifo.isFull_eq_false_iff : f.isFull = false ↔ f.count + 1 < f.capacity := by
  have := f.count_lt
  rw [← Bool.not_eq_true, f.isFull_iff]; omega

theorem Fifo.producerFull_iff : f.producerFull = true ↔ f.producerCount + 1 = f.capacity := by
  rw [Fifo.producerCount, f.behind_full_iff]; simp [Fifo.producerFull]

theorem Fifo.producerFull_eq_false_iff :
    f.producerFull = false ↔ f.producerCount + 1 < f.capacity := by
  have := f.behind_lt f.writeIndex f.readSeen
  rw [← Bool.not_eq_true, f.producerFull_iff]
  unfold Fifo.producerCount
  omega

theorem Fifo.consumerEmpty_iff : f.consumerEmpty = true ↔ f.consumerCount = 0 := by
  rw [Fifo.consumerCount, f.behind_eq_zero_iff]; simp [Fifo.consumerEmpty]

theorem Fifo.consumerEmpty_eq_false_iff : f.consumerEmpty = false ↔ 0 < f.consumerCount := by
  rw [← Bool.not_eq_true, f.consumerEmpty_iff]; omega

/-! ## The two sides' views -/

variable {f} in
/-- What the producer sees queued is at least what is queued (`20_memory.md` rule R70). -/
theorem Fifo.viewsOk.count_le_producerCount (h : f.viewsOk) : f.count ≤ f.producerCount := by
  have h1 := h.1
  unfold Fifo.producerCount Fifo.readSeen
  cases hl : f.readSync with
  | nil => simp [Fifo.count]
  | cons v l =>
    rw [hl] at h1
    exact (List.pairwise_cons.mp h1).1 _ (by simp)

variable {f} in
theorem Fifo.viewsOk.behind_le_producerCount (h : f.viewsOk) {v : Fin f.capacity}
    (hv : v ∈ f.readSync) : f.behind f.writeIndex v ≤ f.producerCount := by
  have h1 := h.1
  unfold Fifo.producerCount Fifo.readSeen
  cases hl : f.readSync with
  | nil => simp [hl] at hv
  | cons u l =>
    rw [hl] at h1 hv
    rcases List.mem_cons.mp hv with rfl | hv
    · exact Nat.le_refl _
    · exact (List.pairwise_cons.mp h1).1 _ (by simp; exact .inl ⟨v, hv, rfl⟩)

variable {f} in
/-- What the consumer sees queued is at most what is queued. -/
theorem Fifo.viewsOk.consumerCount_le_count (h : f.viewsOk) : f.consumerCount ≤ f.count := by
  have h1 := h.2
  unfold Fifo.consumerCount Fifo.writeSeen
  cases hl : f.writeSync with
  | nil => simp [Fifo.count]
  | cons v l =>
    rw [hl] at h1
    exact (List.pairwise_cons.mp h1).1 _ (by simp)

variable {f} in
theorem Fifo.viewsOk.consumerCount_le_behind (h : f.viewsOk) {v : Fin f.capacity}
    (hv : v ∈ f.writeSync) : f.consumerCount ≤ f.behind v f.readIndex := by
  have h1 := h.2
  unfold Fifo.consumerCount Fifo.writeSeen
  cases hl : f.writeSync with
  | nil => simp [hl] at hv
  | cons u l =>
    rw [hl] at h1 hv
    rcases List.mem_cons.mp hv with rfl | hv
    · exact Nat.le_refl _
    · exact (List.pairwise_cons.mp h1).1 _ (by simp; exact .inl ⟨v, hv, rfl⟩)

variable {f} in
/-- A FIFO with room in the producer's view has room. -/
theorem Fifo.viewsOk.isFull_eq_false (h : f.viewsOk) (hf : f.producerFull = false) :
    f.isFull = false := by
  have := h.count_le_producerCount
  rw [f.producerFull_eq_false_iff] at hf
  rw [f.isFull_eq_false_iff]; omega

variable {f} in
/-- A FIFO with a byte in the consumer's view has one. -/
theorem Fifo.viewsOk.isEmpty_eq_false (h : f.viewsOk) (he : f.consumerEmpty = false) :
    f.isEmpty = false := by
  have := h.consumerCount_le_count
  rw [f.consumerEmpty_eq_false_iff] at he
  rw [f.isEmpty_eq_false_iff]; omega

/-- Moving a sorted chain one register on, with the current value behind it twice, keeps it sorted. -/
theorem pairwise_shift {α : Type} {R : α → α → Prop} (l : List α) (x : α) (hr : R x x)
    (h : (l ++ [x]).Pairwise R) : ((l ++ [x]).tail ++ [x]).Pairwise R := by
  have h2 : ((l ++ [x]) ++ [x]).Pairwise R := by
    rw [List.pairwise_append]
    refine ⟨h, List.pairwise_singleton _ _, fun a ha b hb => ?_⟩
    rw [List.mem_singleton] at hb
    subst hb
    rcases List.mem_append.mp ha with ha | ha
    · exact (List.pairwise_append.mp h).2.2 a ha b (by simp)
    · rw [List.mem_singleton] at ha; rwa [ha]
  cases l with
  | nil => exact h
  | cons a l => exact (List.pairwise_cons.mp h2).2

variable {f} in
theorem Fifo.viewsOk.syncProducer (h : f.viewsOk) : f.syncProducer.viewsOk := by
  refine ⟨?_, h.2⟩
  have := pairwise_shift (R := fun a b => b ≤ a) _ _ (Nat.le_refl _) h.1
  rwa [← show f.syncProducer.readSync.map (f.behind f.writeIndex) =
    (f.readSync.map (f.behind f.writeIndex) ++ [f.count]).tail by
      simp [Fifo.syncProducer, List.map_tail, Fifo.count]] at this

variable {f} in
theorem Fifo.viewsOk.syncConsumer (h : f.viewsOk) : f.syncConsumer.viewsOk := by
  refine ⟨h.1, ?_⟩
  have := pairwise_shift (R := fun a b => a ≤ b) _ _ (Nat.le_refl _) h.2
  rwa [← show f.syncConsumer.writeSync.map (fun w => f.behind w f.readIndex) =
    (f.writeSync.map (fun w => f.behind w f.readIndex) ++ [f.count]).tail by
      simp [Fifo.syncConsumer, List.map_tail, Fifo.count]] at this

theorem Fifo.syncProducer_lagIs {n : Nat} (h : f.lagIs n) : f.syncProducer.lagIs n :=
  ⟨by simp [Fifo.syncProducer, h.1], h.2⟩

theorem Fifo.syncConsumer_lagIs {n : Nat} (h : f.lagIs n) : f.syncConsumer.lagIs n :=
  ⟨h.1, by simp [Fifo.syncConsumer, h.2]⟩

/-- The slot after the queued region is the write cursor's. -/
theorem Fifo.queueSlot_count : f.queueSlot f.count = f.writeIndex.val := by
  have hr := f.readIndex.isLt
  have hw := f.writeIndex.isLt
  unfold Fifo.queueSlot
  rw [f.count_eq]
  split
  · rw [Nat.add_sub_cancel' (by omega)]; exact Nat.mod_eq_of_lt hw
  · rw [show f.readIndex.val + (f.writeIndex.val + f.capacity - f.readIndex.val)
      = f.writeIndex.val + f.capacity by omega, Nat.add_mod_right]
    exact Nat.mod_eq_of_lt hw

theorem Fifo.queueSlot_lt (k : Nat) : f.queueSlot k < f.capacity := Nat.mod_lt _ f.capacity_pos

/-- Distinct queue positions below the capacity have distinct slots. -/
theorem Fifo.queueSlot_inj {j k : Nat} (hj : j < f.capacity) (hk : k < f.capacity)
    (h : f.queueSlot j = f.queueSlot k) : j = k := by
  have hr := f.readIndex.isLt
  unfold Fifo.queueSlot at h
  have key : ∀ {x : Nat}, x < f.capacity → (f.readIndex.val + x) % f.capacity =
      if f.readIndex.val + x < f.capacity then f.readIndex.val + x
      else f.readIndex.val + x - f.capacity := by
    intro x hx
    split
    · exact Nat.mod_eq_of_lt ‹_›
    · rw [Nat.mod_eq_sub_mod (by omega)]; exact Nat.mod_eq_of_lt (by omega)
  rw [key hj, key hk] at h
  split at h <;> split at h <;> omega

/-- No queued byte lies in the write cursor's slot (`20_memory.md` rule R76). -/
theorem Fifo.queueSlot_ne_write {k : Nat} (h : k < f.count) : f.queueSlot k ≠ f.writeIndex.val := by
  intro he
  rw [← f.queueSlot_count] at he
  have := f.queueSlot_inj (h.trans f.count_lt) f.count_lt he
  omega

theorem Fifo.queueSlot_zero : f.queueSlot 0 = f.readIndex.val := by
  simp [Fifo.queueSlot, Nat.mod_eq_of_lt f.readIndex.isLt]

/-! ## The queue as a list -/

theorem Fifo.queue_getElem? (hw : f.written) {k : Nat} (hk : k < f.count) :
    f.queue[k]? = f.slot (f.queueSlot k) := by
  have aux : ∀ n, (∀ j < n, (f.slot (f.queueSlot j)).isSome = true) →
      ((List.range n).filterMap fun j => f.slot (f.queueSlot j)).length = n ∧
      ∀ j < n, ((List.range n).filterMap fun j => f.slot (f.queueSlot j))[j]?
        = f.slot (f.queueSlot j) := by
    intro n
    induction n with
    | zero => simp
    | succ n ih =>
      intro h
      obtain ⟨hlen, hget⟩ := ih fun j hj => h j (by omega)
      obtain ⟨b, hb⟩ := Option.isSome_iff_exists.mp (h n (by omega))
      rw [List.range_succ, List.filterMap_append]
      simp only [List.filterMap_cons, hb, List.filterMap_nil]
      refine ⟨by simp [hlen], fun j hj => ?_⟩
      rcases Nat.lt_or_eq_of_le (Nat.lt_succ_iff.mp hj) with hj | rfl
      · rw [List.getElem?_append_left (by omega)]; exact hget j hj
      · rw [List.getElem?_append_right (by omega)]; simp [hlen, hb]
  exact (aux f.count hw).2 k hk

theorem Fifo.queue_length (hw : f.written) : f.queue.length = f.count := by
  have aux : ∀ n, (∀ j < n, (f.slot (f.queueSlot j)).isSome = true) →
      ((List.range n).filterMap fun j => f.slot (f.queueSlot j)).length = n := by
    intro n
    induction n with
    | zero => simp
    | succ n ih =>
      intro h
      obtain ⟨b, hb⟩ := Option.isSome_iff_exists.mp (h n (by omega))
      rw [List.range_succ, List.filterMap_append]
      simp [hb, ih fun j hj => h j (by omega)]
  exact aux f.count hw

/-- Equal occupancy and equal slots give equal queues. -/
theorem Fifo.queue_congr {f g : Fifo} (hc : g.count = f.count)
    (hs : ∀ k < f.count, g.slot (g.queueSlot k) = f.slot (f.queueSlot k)) : g.queue = f.queue := by
  unfold Fifo.queue
  rw [hc]
  exact List.filterMap_congr fun k hk => hs k (List.mem_range.mp hk)

/-! ## The micro-steps of PUSH -/

theorem Fifo.pushP1_of_full (h : f.producerFull = true) : f.pushP1 = none := by
  have hs := f.succ_eq_mod f.writeIndex.isLt
  simp only [Fifo.producerFull, decide_eq_true_eq] at h
  simp [Fifo.pushP1, hs, h]

theorem Fifo.pushP1_of_not_full (h : f.producerFull = false) :
    f.pushP1 = some (f.writeIndex.val, f.succ f.writeIndex.val) := by
  have hs := f.succ_eq_mod f.writeIndex.isLt
  simp only [Fifo.producerFull, decide_eq_false_iff_not] at h
  simp [Fifo.pushP1, hs, h]

theorem Fifo.pushP2_capacity (tw : Nat) (b : Byte) : (f.pushP2 tw b).capacity = f.capacity := rfl
theorem Fifo.pushP2_readIndex (tw : Nat) (b : Byte) :
    (f.pushP2 tw b).readIndex = f.readIndex := rfl
theorem Fifo.pushP2_writeIndex (tw : Nat) (b : Byte) :
    (f.pushP2 tw b).writeIndex = f.writeIndex := rfl
theorem Fifo.pushP2_count (tw : Nat) (b : Byte) : (f.pushP2 tw b).count = f.count := rfl
theorem Fifo.pushP2_isFull (tw : Nat) (b : Byte) : (f.pushP2 tw b).isFull = f.isFull := rfl
theorem Fifo.pushP2_producerFull (tw : Nat) (b : Byte) :
    (f.pushP2 tw b).producerFull = f.producerFull := rfl
theorem Fifo.pushP2_consumerEmpty (tw : Nat) (b : Byte) :
    (f.pushP2 tw b).consumerEmpty = f.consumerEmpty := rfl
theorem Fifo.pushP2_views (tw : Nat) (b : Byte) : (f.pushP2 tw b).views = f.views := rfl
theorem Fifo.pushP2_isEmpty (tw : Nat) (b : Byte) : (f.pushP2 tw b).isEmpty = f.isEmpty := rfl
theorem Fifo.pushP2_queueSlot (tw : Nat) (b : Byte) (k : Nat) :
    (f.pushP2 tw b).queueSlot k = f.queueSlot k := rfl

theorem Fifo.pushP2_slot_write (b : Byte) :
    (f.pushP2 f.writeIndex.val b).slot f.writeIndex.val = some b := by
  simp [Fifo.pushP2, Fifo.slot, Nat.mod_eq_of_lt f.writeIndex.isLt, Memory.read_write_same]

theorem Fifo.pushP2_slot_other (b : Byte) {i : Nat} (h : i ≠ f.writeIndex.val) :
    (f.pushP2 f.writeIndex.val b).slot i = f.slot i := by
  simp only [Fifo.pushP2, Fifo.slot, Fifo.cursor_val, Nat.mod_eq_of_lt f.writeIndex.isLt]
  exact Memory.read_write_other _ _ h

/-- P2 touches no queued byte. -/
theorem Fifo.pushP2_queue (b : Byte) : (f.pushP2 f.writeIndex.val b).queue = f.queue :=
  Fifo.queue_congr rfl fun _ hk => f.pushP2_slot_other b (f.queueSlot_ne_write hk)

theorem Fifo.pushP2_written (b : Byte) (h : f.written) :
    (f.pushP2 f.writeIndex.val b).written := fun k hk => by
  rw [Fifo.pushP2_queueSlot, f.pushP2_slot_other b (f.queueSlot_ne_write hk)]
  exact h k hk

theorem Fifo.pushP3_writeIndex :
    (f.pushP3 (f.succ f.writeIndex.val)).writeIndex.val = f.succ f.writeIndex.val :=
  Nat.mod_eq_of_lt (f.succ_lt f.writeIndex.isLt)

theorem Fifo.pushP3_count (h : f.isFull = false) :
    (f.pushP3 (f.succ f.writeIndex.val)).count = f.count + 1 :=
  f.behind_succ_left f.pushP3_writeIndex (f.isFull_eq_false_iff.mp h)

theorem Fifo.pushP3_producerCount (h : f.producerFull = false) :
    (f.pushP3 (f.succ f.writeIndex.val)).producerCount = f.producerCount + 1 :=
  f.behind_succ_left f.pushP3_writeIndex (f.producerFull_eq_false_iff.mp h)

theorem Fifo.pushP3_views (tn : Nat) : (f.pushP3 tn).views = f.views := rfl

/-- P3 keeps the views sound: the producer counts its own byte in every register of its chain. -/
theorem Fifo.pushP3_viewsOk (h : f.producerFull = false) (hv : f.viewsOk) :
    (f.pushP3 (f.succ f.writeIndex.val)).viewsOk := by
  have hc := f.pushP3_count (hv.isFull_eq_false h)
  have hf := f.producerFull_eq_false_iff.mp h
  constructor
  · have hm : (f.pushP3 (f.succ f.writeIndex.val)).readSync.map
        ((f.pushP3 (f.succ f.writeIndex.val)).behind
          (f.pushP3 (f.succ f.writeIndex.val)).writeIndex) =
        (f.readSync.map (f.behind f.writeIndex)).map (· + 1) := by
      rw [List.map_map]
      refine List.map_congr_left fun v hmem => ?_
      have := hv.behind_le_producerCount hmem
      exact f.behind_succ_left f.pushP3_writeIndex (by omega)
    rw [hm, hc, show [f.count + 1] = [f.count].map (· + 1) from rfl, ← List.map_append,
      List.pairwise_map]
    exact hv.1.imp (by intro a b hab; omega)
  · rw [hc]
    have h2 := List.pairwise_append.mp hv.2
    refine List.pairwise_append.mpr ⟨h2.1, List.pairwise_singleton _ _, fun a ha b hb => ?_⟩
    rw [List.mem_singleton] at hb
    have := h2.2.2 a ha f.count (by simp)
    omega

theorem Fifo.pushP3_queueSlot (tn k : Nat) : (f.pushP3 tn).queueSlot k = f.queueSlot k := rfl
theorem Fifo.pushP3_slot (tn i : Nat) : (f.pushP3 tn).slot i = f.slot i := rfl

/-- P3 appends the byte that stands in the write cursor's slot (`40_fifo.md` rule R127). -/
theorem Fifo.pushP3_queue {b : Byte} (h : f.isFull = false)
    (hb : f.slot f.writeIndex.val = some b) :
    (f.pushP3 (f.succ f.writeIndex.val)).queue = f.queue ++ [b] := by
  unfold Fifo.queue
  rw [f.pushP3_count h, List.range_succ, List.filterMap_append]
  simp only [Fifo.pushP3_queueSlot, Fifo.pushP3_slot, List.filterMap_cons, f.queueSlot_count, hb,
    List.filterMap_nil]

theorem Fifo.pushP3_written {b : Byte} (h : f.isFull = false)
    (hb : f.slot f.writeIndex.val = some b) (hw : f.written) :
    (f.pushP3 (f.succ f.writeIndex.val)).written := fun k hk => by
  rw [f.pushP3_count h] at hk
  rw [Fifo.pushP3_queueSlot, Fifo.pushP3_slot]
  rcases Nat.lt_or_eq_of_le (Nat.lt_succ_iff.mp hk) with hk | rfl
  · exact hw k hk
  · rw [f.queueSlot_count, hb]; rfl

/-! ## PUSH whole -/

theorem Fifo.push_of_full (b : Byte) (h : f.producerFull = true) : f.push b = (f, false) := by
  simp [Fifo.push, f.pushP1_of_full h]

theorem Fifo.push_of_not_full (b : Byte) (h : f.producerFull = false) :
    f.push b = ((f.pushP2 f.writeIndex.val b).pushP3 (f.succ f.writeIndex.val), true) := by
  simp [Fifo.push, f.pushP1_of_not_full h]

theorem Fifo.push_stored (b : Byte) : (f.push b).2 = !f.producerFull := by
  cases h : f.producerFull
  · simp [f.push_of_not_full b h]
  · simp [f.push_of_full b h]

theorem Fifo.push_capacity (b : Byte) : (f.push b).1.capacity = f.capacity := by
  cases h : f.producerFull
  · simp [f.push_of_not_full b h, Fifo.pushP3, Fifo.pushP2]
  · simp [f.push_of_full b h]

theorem Fifo.push_readIndex (b : Byte) : (f.push b).1.readIndex.val = f.readIndex.val := by
  cases h : f.producerFull
  · rw [f.push_of_not_full b h]; rfl
  · rw [f.push_of_full b h]

theorem Fifo.push_views (b : Byte) : (f.push b).1.views = f.views := by
  cases h : f.producerFull
  · rw [f.push_of_not_full b h]; rfl
  · rw [f.push_of_full b h]

theorem Fifo.push_lagIs {n : Nat} (b : Byte) (hl : f.lagIs n) : (f.push b).1.lagIs n := by
  cases h : f.producerFull
  · rw [f.push_of_not_full b h]; exact hl
  · rw [f.push_of_full b h]; exact hl

theorem Fifo.push_writeIndex (b : Byte) (h : f.producerFull = false) :
    (f.push b).1.writeIndex.val = f.succ f.writeIndex.val := by
  rw [f.push_of_not_full b h]
  exact (f.pushP2 f.writeIndex.val b).pushP3_writeIndex

theorem Fifo.push_producerCount (b : Byte) (h : f.producerFull = false) :
    (f.push b).1.producerCount = f.producerCount + 1 := by
  rw [f.push_of_not_full b h]
  exact (f.pushP2 f.writeIndex.val b).pushP3_producerCount h

theorem Fifo.push_count (b : Byte) (h : f.producerFull = false) (hf : f.isFull = false) :
    (f.push b).1.count = f.count + 1 := by
  rw [f.push_of_not_full b h]
  exact (f.pushP2 f.writeIndex.val b).pushP3_count hf

theorem Fifo.push_queue (b : Byte) (h : f.producerFull = false) (hf : f.isFull = false) :
    (f.push b).1.queue = f.queue ++ [b] := by
  rw [f.push_of_not_full b h, ← f.pushP2_queue b]
  exact (f.pushP2 f.writeIndex.val b).pushP3_queue hf (f.pushP2_slot_write b)

/-- A `PUSH` keeps every queued slot written and the views sound. -/
theorem Fifo.push_sound (b : Byte) (hs : f.sound) : (f.push b).1.sound := by
  cases h : f.producerFull
  · rw [f.push_of_not_full b h]
    exact ⟨(f.pushP2 f.writeIndex.val b).pushP3_written (hs.2.isFull_eq_false h)
      (f.pushP2_slot_write b) (f.pushP2_written b hs.1),
      (f.pushP2 f.writeIndex.val b).pushP3_viewsOk h hs.2⟩
  · rw [f.push_of_full b h]; exact hs

theorem Fifo.push_slot_write (b : Byte) (h : f.producerFull = false) :
    (f.push b).1.slot f.writeIndex.val = some b := by
  rw [f.push_of_not_full b h]; exact f.pushP2_slot_write b

theorem Fifo.push_slot_other (b : Byte) {i : Nat} (hi : i ≠ f.writeIndex.val) :
    (f.push b).1.slot i = f.slot i := by
  cases h : f.producerFull
  · rw [f.push_of_not_full b h]; exact f.pushP2_slot_other b hi
  · rw [f.push_of_full b h]

/-! ## The micro-steps of POP -/

theorem Fifo.popC1_of_empty (h : f.consumerEmpty = true) : f.popC1 = none := by
  simp only [Fifo.consumerEmpty, decide_eq_true_eq] at h
  simp [Fifo.popC1, h]

theorem Fifo.popC1_of_not_empty (h : f.consumerEmpty = false) :
    f.popC1 = some f.readIndex.val := by
  simp only [Fifo.consumerEmpty, decide_eq_false_iff_not] at h
  simp [Fifo.popC1, h]

theorem Fifo.popC2_of_slot {b : Byte} (h : f.slot f.readIndex.val = some b) :
    f.popC2 f.readIndex.val = .ok b := by
  simp [Fifo.popC2, Nat.mod_eq_of_lt f.readIndex.isLt, h]

theorem Fifo.slot_read (hw : f.written) (h : f.isEmpty = false) :
    ∃ b, f.slot f.readIndex.val = some b := by
  have := hw 0 (f.isEmpty_eq_false_iff.mp h)
  rw [f.queueSlot_zero] at this
  exact Option.isSome_iff_exists.mp this

theorem Fifo.popC3_readIndex :
    (f.popC3 f.readIndex.val).readIndex.val = f.succ f.readIndex.val :=
  Nat.mod_eq_of_lt (f.succ_lt f.readIndex.isLt)

theorem Fifo.popC3_slot (tr i : Nat) : (f.popC3 tr).slot i = f.slot i := rfl
theorem Fifo.popC3_writeIndex (tr : Nat) : (f.popC3 tr).writeIndex = f.writeIndex := rfl

theorem Fifo.popC3_count (h : f.isEmpty = false) :
    (f.popC3 f.readIndex.val).count + 1 = f.count :=
  f.behind_succ_right f.popC3_readIndex (f.isEmpty_eq_false_iff.mp h)

theorem Fifo.popC3_consumerCount (h : f.consumerEmpty = false) :
    (f.popC3 f.readIndex.val).consumerCount + 1 = f.consumerCount :=
  f.behind_succ_right f.popC3_readIndex (f.consumerEmpty_eq_false_iff.mp h)

theorem Fifo.popC3_views (tr : Nat) : (f.popC3 tr).views = f.views := rfl

/-- C3 keeps the views sound: the consumer counts its own byte off in every register of its chain. -/
theorem Fifo.popC3_viewsOk (h : f.consumerEmpty = false) (hv : f.viewsOk) :
    (f.popC3 f.readIndex.val).viewsOk := by
  have hc := f.popC3_count (hv.isEmpty_eq_false h)
  have he := f.consumerEmpty_eq_false_iff.mp h
  constructor
  · have h1 := List.pairwise_append.mp hv.1
    refine List.pairwise_append.mpr ⟨h1.1, List.pairwise_singleton _ _, fun a ha b hb => ?_⟩
    rw [List.mem_singleton] at hb
    have := h1.2.2 a ha f.count (by simp)
    omega
  · have hm : (f.writeSync.map (fun w => f.behind w f.readIndex)) =
        ((f.popC3 f.readIndex.val).writeSync.map fun w =>
          (f.popC3 f.readIndex.val).behind w (f.popC3 f.readIndex.val).readIndex).map (· + 1) := by
      rw [List.map_map]
      refine List.map_congr_left fun v hmem => ?_
      have := hv.consumerCount_le_behind hmem
      exact (f.behind_succ_right f.popC3_readIndex (by omega)).symm
    have h2 := hv.2
    rw [hm, ← hc, show [(f.popC3 f.readIndex.val).count + 1] =
      [(f.popC3 f.readIndex.val).count].map (· + 1) from rfl, ← List.map_append,
      List.pairwise_map] at h2
    exact h2.imp (by intro a b hab; omega)

theorem Fifo.popC3_queueSlot (k : Nat) :
    (f.popC3 f.readIndex.val).queueSlot k = f.queueSlot (k + 1) := by
  unfold Fifo.queueSlot
  rw [f.popC3_readIndex, f.succ_eq_mod f.readIndex.isLt]
  show (_ % f.capacity + k) % f.capacity = _
  rw [Nat.mod_add_mod]
  congr 1
  omega

/-- C3 removes the head of the queue (`40_fifo.md` rule R127). -/
theorem Fifo.popC3_queue {b : Byte} (h : f.isEmpty = false)
    (hb : f.slot f.readIndex.val = some b) :
    f.queue = b :: (f.popC3 f.readIndex.val).queue := by
  unfold Fifo.queue
  rw [← f.popC3_count h, List.range_succ_eq_map, List.filterMap_cons, f.queueSlot_zero, hb]
  simp only [List.filterMap_map]
  congr 1
  exact List.filterMap_congr fun k _ => by
    rw [f.popC3_queueSlot, Fifo.popC3_slot]; rfl

theorem Fifo.popC3_written (h : f.isEmpty = false) (hw : f.written) :
    (f.popC3 f.readIndex.val).written := fun k hk => by
  rw [f.popC3_queueSlot, Fifo.popC3_slot]
  exact hw (k + 1) (by have := f.popC3_count h; omega)

/-! ## POP whole -/

theorem Fifo.pop_of_empty (h : f.consumerEmpty = true) : f.pop = .ok (none, f) := by
  simp [Fifo.pop, f.popC1_of_empty h]

theorem Fifo.pop_of_slot {b : Byte} (h : f.consumerEmpty = false)
    (hb : f.slot f.readIndex.val = some b) :
    f.pop = .ok (some b, f.popC3 f.readIndex.val) := by
  simp [Fifo.pop, f.popC1_of_not_empty h, f.popC2_of_slot hb]

/-- Everything a `POP` can do: nothing on a FIFO its consumer sees empty, else the byte at the read cursor,
else a read of a slot that was never written. -/
theorem Fifo.pop_cases :
    (f.consumerEmpty = true ∧ f.pop = .ok (none, f)) ∨
    (∃ b, f.consumerEmpty = false ∧ f.slot f.readIndex.val = some b ∧
      f.pop = .ok (some b, f.popC3 f.readIndex.val)) ∨
    (f.consumerEmpty = false ∧ f.slot f.readIndex.val = none ∧
      f.pop = .error .unwrittenSlot) := by
  cases he : f.consumerEmpty
  · cases hs : f.slot f.readIndex.val with
    | none =>
      refine .inr (.inr ⟨rfl, rfl, ?_⟩)
      simp [Fifo.pop, f.popC1_of_not_empty he, Fifo.popC2, Nat.mod_eq_of_lt f.readIndex.isLt, hs]
    | some b => exact .inr (.inl ⟨b, rfl, rfl, f.pop_of_slot he hs⟩)
  · exact .inl ⟨rfl, f.pop_of_empty he⟩

theorem Fifo.popC3_sound (h : f.consumerEmpty = false) (hs : f.sound) :
    (f.popC3 f.readIndex.val).sound :=
  ⟨f.popC3_written (hs.2.isEmpty_eq_false h) hs.1, f.popC3_viewsOk h hs.2⟩

end Sys2Proof.Machine
end

