-- ==== Sys2Proof/Laws/State.lean ====
section
/-! SUPPORT. One lemma per field for each named update of the state: the value the update writes, or
that it leaves the field alone. With them no proof unfolds a record update. -/

namespace Sys2Proof.Machine

variable (s : State)


/-! ## `State.log` -/

@[simp] theorem State.log_cfg (bus : Bus) (i : Instr) (rw : Word) :
    (s.log bus i rw).cfg = s.cfg :=
  rfl
@[simp] theorem State.log_source (bus : Bus) (i : Instr) (rw : Word) :
    (s.log bus i rw).source = s.source :=
  rfl
@[simp] theorem State.log_rxf (bus : Bus) (i : Instr) (rw : Word) :
    (s.log bus i rw).rxf = s.rxf :=
  rfl
@[simp] theorem State.log_txf (bus : Bus) (i : Instr) (rw : Word) :
    (s.log bus i rw).txf = s.txf :=
  rfl
@[simp] theorem State.log_manualTrigger (bus : Bus) (i : Instr) (rw : Word) :
    (s.log bus i rw).manualTrigger = s.manualTrigger :=
  rfl
@[simp] theorem State.log_rxPending (bus : Bus) (i : Instr) (rw : Word) :
    (s.log bus i rw).rxPending = s.rxPending :=
  rfl
@[simp] theorem State.log_txPending (bus : Bus) (i : Instr) (rw : Word) :
    (s.log bus i rw).txPending = s.txPending :=
  rfl
@[simp] theorem State.log_periodElapsed (bus : Bus) (i : Instr) (rw : Word) :
    (s.log bus i rw).periodElapsed = s.periodElapsed :=
  rfl
@[simp] theorem State.log_indicator (bus : Bus) (i : Instr) (rw : Word) :
    (s.log bus i rw).indicator = s.indicator :=
  rfl
@[simp] theorem State.log_counters (bus : Bus) (i : Instr) (rw : Word) :
    (s.log bus i rw).counters = s.counters :=
  rfl
@[simp] theorem State.log_schPc (bus : Bus) (i : Instr) (rw : Word) :
    (s.log bus i rw).schPc = s.schPc :=
  rfl
@[simp] theorem State.log_fg (bus : Bus) (i : Instr) (rw : Word) : (s.log bus i rw).fg = s.fg := rfl
@[simp] theorem State.log_rxc (bus : Bus) (i : Instr) (rw : Word) :
    (s.log bus i rw).rxc = s.rxc :=
  rfl
@[simp] theorem State.log_txc (bus : Bus) (i : Instr) (rw : Word) :
    (s.log bus i rw).txc = s.txc :=
  rfl
@[simp] theorem State.log_enqRem (bus : Bus) (i : Instr) (rw : Word) :
    (s.log bus i rw).enqRem = s.enqRem :=
  rfl
@[simp] theorem State.log_enqCnt (bus : Bus) (i : Instr) (rw : Word) :
    (s.log bus i rw).enqCnt = s.enqCnt :=
  rfl
@[simp] theorem State.log_fgResult (bus : Bus) (i : Instr) (rw : Word) :
    (s.log bus i rw).fgResult = s.fgResult :=
  rfl
@[simp] theorem State.log_svcResult (bus : Bus) (i : Instr) (rw : Word) :
    (s.log bus i rw).svcResult = s.svcResult :=
  rfl
@[simp] theorem State.log_urx (bus : Bus) (i : Instr) (rw : Word) :
    (s.log bus i rw).urx = s.urx :=
  rfl
@[simp] theorem State.log_utx (bus : Bus) (i : Instr) (rw : Word) :
    (s.log bus i rw).utx = s.utx :=
  rfl
@[simp] theorem State.log_wireOut (bus : Bus) (i : Instr) (rw : Word) :
    (s.log bus i rw).wireOut = s.wireOut :=
  rfl
@[simp] theorem State.log_wireIn (bus : Bus) (i : Instr) (rw : Word) :
    (s.log bus i rw).wireIn = s.wireIn :=
  rfl
@[simp] theorem State.log_rxDropped (bus : Bus) (i : Instr) (rw : Word) :
    (s.log bus i rw).rxDropped = s.rxDropped :=
  rfl
@[simp] theorem State.log_fireLog (bus : Bus) (i : Instr) (rw : Word) :
    (s.log bus i rw).fireLog = s.fireLog :=
  rfl
@[simp] theorem State.log_workLog (bus : Bus) (i : Instr) (rw : Word) :
    (s.log bus i rw).workLog = s.workLog :=
  rfl
@[simp] theorem State.log_iteration (bus : Bus) (i : Instr) (rw : Word) :
    (s.log bus i rw).iteration = s.iteration :=
  rfl
@[simp] theorem State.log_trace (bus : Bus) (i : Instr) (rw : Word) :
    (s.log bus i rw).trace = s.trace ++ (encode i).map (fun ow => ⟨bus, ow, rw⟩) :=
  rfl
@[simp] theorem State.log_agenda (bus : Bus) (i : Instr) (rw : Word) :
    (s.log bus i rw).agenda = s.agenda :=
  rfl
@[simp] theorem State.log_turnNo (bus : Bus) (i : Instr) (rw : Word) :
    (s.log bus i rw).turnNo = s.turnNo :=
  rfl
@[simp] theorem State.log_driver (bus : Bus) (i : Instr) (rw : Word) :
    (s.log bus i rw).driver = s.driver :=
  rfl
@[simp] theorem State.log_fmtCalls (bus : Bus) (i : Instr) (rw : Word) :
    (s.log bus i rw).fmtCalls = s.fmtCalls :=
  rfl

/-! ## `State.retire` -/

@[simp] theorem State.retire_cfg (i : Instr) (rw : Word) : (s.retire i rw).cfg = s.cfg := rfl
@[simp] theorem State.retire_source (i : Instr) (rw : Word) :
    (s.retire i rw).source = s.source :=
  rfl
@[simp] theorem State.retire_rxf (i : Instr) (rw : Word) : (s.retire i rw).rxf = s.rxf := rfl
@[simp] theorem State.retire_txf (i : Instr) (rw : Word) : (s.retire i rw).txf = s.txf := rfl
@[simp] theorem State.retire_manualTrigger (i : Instr) (rw : Word) :
    (s.retire i rw).manualTrigger = s.manualTrigger :=
  rfl
@[simp] theorem State.retire_rxPending (i : Instr) (rw : Word) :
    (s.retire i rw).rxPending = s.rxPending :=
  rfl
@[simp] theorem State.retire_txPending (i : Instr) (rw : Word) :
    (s.retire i rw).txPending = s.txPending :=
  rfl
@[simp] theorem State.retire_periodElapsed (i : Instr) (rw : Word) :
    (s.retire i rw).periodElapsed = s.periodElapsed :=
  rfl
@[simp] theorem State.retire_indicator (i : Instr) (rw : Word) :
    (s.retire i rw).indicator = s.indicator :=
  rfl
@[simp] theorem State.retire_counters (i : Instr) (rw : Word) :
    (s.retire i rw).counters = s.counters :=
  rfl
@[simp] theorem State.retire_schPc (i : Instr) (rw : Word) : (s.retire i rw).schPc = s.schPc := rfl
@[simp] theorem State.retire_fg (i : Instr) (rw : Word) : (s.retire i rw).fg = s.fg := rfl
@[simp] theorem State.retire_rxc (i : Instr) (rw : Word) : (s.retire i rw).rxc = s.rxc := rfl
@[simp] theorem State.retire_txc (i : Instr) (rw : Word) : (s.retire i rw).txc = s.txc := rfl
@[simp] theorem State.retire_enqRem (i : Instr) (rw : Word) :
    (s.retire i rw).enqRem = s.enqRem :=
  rfl
@[simp] theorem State.retire_enqCnt (i : Instr) (rw : Word) :
    (s.retire i rw).enqCnt = s.enqCnt :=
  rfl
@[simp] theorem State.retire_fgResult (i : Instr) (rw : Word) : (s.retire i rw).fgResult = rw := rfl
@[simp] theorem State.retire_svcResult (i : Instr) (rw : Word) :
    (s.retire i rw).svcResult = s.svcResult :=
  rfl
@[simp] theorem State.retire_urx (i : Instr) (rw : Word) : (s.retire i rw).urx = s.urx := rfl
@[simp] theorem State.retire_utx (i : Instr) (rw : Word) : (s.retire i rw).utx = s.utx := rfl
@[simp] theorem State.retire_wireOut (i : Instr) (rw : Word) :
    (s.retire i rw).wireOut = s.wireOut :=
  rfl
@[simp] theorem State.retire_wireIn (i : Instr) (rw : Word) :
    (s.retire i rw).wireIn = s.wireIn :=
  rfl
@[simp] theorem State.retire_rxDropped (i : Instr) (rw : Word) :
    (s.retire i rw).rxDropped = s.rxDropped :=
  rfl
@[simp] theorem State.retire_fireLog (i : Instr) (rw : Word) :
    (s.retire i rw).fireLog = s.fireLog :=
  rfl
@[simp] theorem State.retire_workLog (i : Instr) (rw : Word) :
    (s.retire i rw).workLog = s.workLog :=
  rfl
@[simp] theorem State.retire_iteration (i : Instr) (rw : Word) :
    (s.retire i rw).iteration = s.iteration :=
  rfl
@[simp] theorem State.retire_trace (i : Instr) (rw : Word) :
    (s.retire i rw).trace = s.trace ++ (encode i).map (fun ow => ⟨.foreground, ow, rw⟩) :=
  rfl
@[simp] theorem State.retire_agenda (i : Instr) (rw : Word) :
    (s.retire i rw).agenda = s.agenda :=
  rfl
@[simp] theorem State.retire_turnNo (i : Instr) (rw : Word) :
    (s.retire i rw).turnNo = s.turnNo :=
  rfl
@[simp] theorem State.retire_driver (i : Instr) (rw : Word) :
    (s.retire i rw).driver = s.driver :=
  rfl
@[simp] theorem State.retire_fmtCalls (i : Instr) (rw : Word) :
    (s.retire i rw).fmtCalls = s.fmtCalls :=
  rfl

/-! ## `State.retireService` -/

@[simp] theorem State.retireService_cfg (i : Instr) (rw : Word) :
    (s.retireService i rw).cfg = s.cfg :=
  rfl
@[simp] theorem State.retireService_source (i : Instr) (rw : Word) :
    (s.retireService i rw).source = s.source :=
  rfl
@[simp] theorem State.retireService_rxf (i : Instr) (rw : Word) :
    (s.retireService i rw).rxf = s.rxf :=
  rfl
@[simp] theorem State.retireService_txf (i : Instr) (rw : Word) :
    (s.retireService i rw).txf = s.txf :=
  rfl
@[simp] theorem State.retireService_manualTrigger (i : Instr) (rw : Word) :
    (s.retireService i rw).manualTrigger = s.manualTrigger :=
  rfl
@[simp] theorem State.retireService_rxPending (i : Instr) (rw : Word) :
    (s.retireService i rw).rxPending = s.rxPending :=
  rfl
@[simp] theorem State.retireService_txPending (i : Instr) (rw : Word) :
    (s.retireService i rw).txPending = s.txPending :=
  rfl
@[simp] theorem State.retireService_periodElapsed (i : Instr) (rw : Word) :
    (s.retireService i rw).periodElapsed = s.periodElapsed :=
  rfl
@[simp] theorem State.retireService_indicator (i : Instr) (rw : Word) :
    (s.retireService i rw).indicator = s.indicator :=
  rfl
@[simp] theorem State.retireService_counters (i : Instr) (rw : Word) :
    (s.retireService i rw).counters = s.counters :=
  rfl
@[simp] theorem State.retireService_schPc (i : Instr) (rw : Word) :
    (s.retireService i rw).schPc = s.schPc :=
  rfl
@[simp] theorem State.retireService_fg (i : Instr) (rw : Word) :
    (s.retireService i rw).fg = s.fg :=
  rfl
@[simp] theorem State.retireService_rxc (i : Instr) (rw : Word) :
    (s.retireService i rw).rxc = s.rxc :=
  rfl
@[simp] theorem State.retireService_txc (i : Instr) (rw : Word) :
    (s.retireService i rw).txc = s.txc :=
  rfl
@[simp] theorem State.retireService_enqRem (i : Instr) (rw : Word) :
    (s.retireService i rw).enqRem = s.enqRem :=
  rfl
@[simp] theorem State.retireService_enqCnt (i : Instr) (rw : Word) :
    (s.retireService i rw).enqCnt = s.enqCnt :=
  rfl
@[simp] theorem State.retireService_fgResult (i : Instr) (rw : Word) :
    (s.retireService i rw).fgResult = s.fgResult :=
  rfl
@[simp] theorem State.retireService_svcResult (i : Instr) (rw : Word) :
    (s.retireService i rw).svcResult = rw :=
  rfl
@[simp] theorem State.retireService_urx (i : Instr) (rw : Word) :
    (s.retireService i rw).urx = s.urx :=
  rfl
@[simp] theorem State.retireService_utx (i : Instr) (rw : Word) :
    (s.retireService i rw).utx = s.utx :=
  rfl
@[simp] theorem State.retireService_wireOut (i : Instr) (rw : Word) :
    (s.retireService i rw).wireOut = s.wireOut :=
  rfl
@[simp] theorem State.retireService_wireIn (i : Instr) (rw : Word) :
    (s.retireService i rw).wireIn = s.wireIn :=
  rfl
@[simp] theorem State.retireService_rxDropped (i : Instr) (rw : Word) :
    (s.retireService i rw).rxDropped = s.rxDropped :=
  rfl
@[simp] theorem State.retireService_fireLog (i : Instr) (rw : Word) :
    (s.retireService i rw).fireLog = s.fireLog :=
  rfl
@[simp] theorem State.retireService_workLog (i : Instr) (rw : Word) :
    (s.retireService i rw).workLog = s.workLog :=
  rfl
@[simp] theorem State.retireService_iteration (i : Instr) (rw : Word) :
    (s.retireService i rw).iteration = s.iteration :=
  rfl
@[simp] theorem State.retireService_trace (i : Instr) (rw : Word) :
    (s.retireService i rw).trace = s.trace ++ (encode i).map (fun ow => ⟨.service, ow, rw⟩) :=
  rfl
@[simp] theorem State.retireService_agenda (i : Instr) (rw : Word) :
    (s.retireService i rw).agenda = s.agenda :=
  rfl
@[simp] theorem State.retireService_turnNo (i : Instr) (rw : Word) :
    (s.retireService i rw).turnNo = s.turnNo :=
  rfl
@[simp] theorem State.retireService_driver (i : Instr) (rw : Word) :
    (s.retireService i rw).driver = s.driver :=
  rfl
@[simp] theorem State.retireService_fmtCalls (i : Instr) (rw : Word) :
    (s.retireService i rw).fmtCalls = s.fmtCalls :=
  rfl

/-! ## `State.rejectWord` -/

@[simp] theorem State.rejectWord_cfg (ow : Word) : (s.rejectWord ow).cfg = s.cfg := rfl
@[simp] theorem State.rejectWord_source (ow : Word) : (s.rejectWord ow).source = s.source := rfl
@[simp] theorem State.rejectWord_rxf (ow : Word) : (s.rejectWord ow).rxf = s.rxf := rfl
@[simp] theorem State.rejectWord_txf (ow : Word) : (s.rejectWord ow).txf = s.txf := rfl
@[simp] theorem State.rejectWord_manualTrigger (ow : Word) :
    (s.rejectWord ow).manualTrigger = s.manualTrigger :=
  rfl
@[simp] theorem State.rejectWord_rxPending (ow : Word) :
    (s.rejectWord ow).rxPending = s.rxPending :=
  rfl
@[simp] theorem State.rejectWord_txPending (ow : Word) :
    (s.rejectWord ow).txPending = s.txPending :=
  rfl
@[simp] theorem State.rejectWord_periodElapsed (ow : Word) :
    (s.rejectWord ow).periodElapsed = s.periodElapsed :=
  rfl
@[simp] theorem State.rejectWord_indicator (ow : Word) :
    (s.rejectWord ow).indicator = s.indicator :=
  rfl
@[simp] theorem State.rejectWord_counters (ow : Word) :
    (s.rejectWord ow).counters = s.counters :=
  rfl
@[simp] theorem State.rejectWord_schPc (ow : Word) : (s.rejectWord ow).schPc = s.schPc := rfl
@[simp] theorem State.rejectWord_fg (ow : Word) : (s.rejectWord ow).fg = s.fg := rfl
@[simp] theorem State.rejectWord_rxc (ow : Word) : (s.rejectWord ow).rxc = s.rxc := rfl
@[simp] theorem State.rejectWord_txc (ow : Word) : (s.rejectWord ow).txc = s.txc := rfl
@[simp] theorem State.rejectWord_enqRem (ow : Word) : (s.rejectWord ow).enqRem = s.enqRem := rfl
@[simp] theorem State.rejectWord_enqCnt (ow : Word) : (s.rejectWord ow).enqCnt = s.enqCnt := rfl
@[simp] theorem State.rejectWord_fgResult (ow : Word) :
    (s.rejectWord ow).fgResult = resultWord true false 0 :=
  rfl
@[simp] theorem State.rejectWord_svcResult (ow : Word) :
    (s.rejectWord ow).svcResult = s.svcResult :=
  rfl
@[simp] theorem State.rejectWord_urx (ow : Word) : (s.rejectWord ow).urx = s.urx := rfl
@[simp] theorem State.rejectWord_utx (ow : Word) : (s.rejectWord ow).utx = s.utx := rfl
@[simp] theorem State.rejectWord_wireOut (ow : Word) : (s.rejectWord ow).wireOut = s.wireOut := rfl
@[simp] theorem State.rejectWord_wireIn (ow : Word) : (s.rejectWord ow).wireIn = s.wireIn := rfl
@[simp] theorem State.rejectWord_rxDropped (ow : Word) :
    (s.rejectWord ow).rxDropped = s.rxDropped :=
  rfl
@[simp] theorem State.rejectWord_fireLog (ow : Word) : (s.rejectWord ow).fireLog = s.fireLog := rfl
@[simp] theorem State.rejectWord_workLog (ow : Word) : (s.rejectWord ow).workLog = s.workLog := rfl
@[simp] theorem State.rejectWord_iteration (ow : Word) :
    (s.rejectWord ow).iteration = s.iteration :=
  rfl
@[simp] theorem State.rejectWord_trace (ow : Word) :
    (s.rejectWord ow).trace = s.trace ++ [⟨.foreground, ow, resultWord true false 0⟩] :=
  rfl
@[simp] theorem State.rejectWord_agenda (ow : Word) : (s.rejectWord ow).agenda = s.agenda := rfl
@[simp] theorem State.rejectWord_turnNo (ow : Word) : (s.rejectWord ow).turnNo = s.turnNo := rfl
@[simp] theorem State.rejectWord_driver (ow : Word) : (s.rejectWord ow).driver = s.driver := rfl
@[simp] theorem State.rejectWord_fmtCalls (ow : Word) :
    (s.rejectWord ow).fmtCalls = s.fmtCalls :=
  rfl

/-! ## `State.enterRx` -/

@[simp] theorem State.enterRx_cfg : s.enterRx.cfg = s.cfg := rfl
@[simp] theorem State.enterRx_source : s.enterRx.source = s.source := rfl
@[simp] theorem State.enterRx_rxf : s.enterRx.rxf = s.rxf := rfl
@[simp] theorem State.enterRx_txf : s.enterRx.txf = s.txf := rfl
@[simp] theorem State.enterRx_manualTrigger : s.enterRx.manualTrigger = s.manualTrigger := rfl
@[simp] theorem State.enterRx_rxPending : s.enterRx.rxPending = false := rfl
@[simp] theorem State.enterRx_txPending : s.enterRx.txPending = s.txPending := rfl
@[simp] theorem State.enterRx_periodElapsed : s.enterRx.periodElapsed = s.periodElapsed := rfl
@[simp] theorem State.enterRx_indicator : s.enterRx.indicator = s.indicator := rfl
@[simp] theorem State.enterRx_counters : s.enterRx.counters = s.counters := rfl
@[simp] theorem State.enterRx_schPc : s.enterRx.schPc = s.schPc := rfl
@[simp] theorem State.enterRx_fg : s.enterRx.fg = s.fg := rfl
@[simp] theorem State.enterRx_rxc : s.enterRx.rxc = s.rxc := rfl
@[simp] theorem State.enterRx_txc : s.enterRx.txc = s.txc := rfl
@[simp] theorem State.enterRx_enqRem : s.enterRx.enqRem = s.enqRem := rfl
@[simp] theorem State.enterRx_enqCnt : s.enterRx.enqCnt = s.enqCnt := rfl
@[simp] theorem State.enterRx_fgResult : s.enterRx.fgResult = s.fgResult := rfl
@[simp] theorem State.enterRx_svcResult : s.enterRx.svcResult = s.svcResult := rfl
@[simp] theorem State.enterRx_urx : s.enterRx.urx = s.urx := rfl
@[simp] theorem State.enterRx_utx : s.enterRx.utx = s.utx := rfl
@[simp] theorem State.enterRx_wireOut : s.enterRx.wireOut = s.wireOut := rfl
@[simp] theorem State.enterRx_wireIn : s.enterRx.wireIn = s.wireIn := rfl
@[simp] theorem State.enterRx_rxDropped : s.enterRx.rxDropped = s.rxDropped := rfl
@[simp] theorem State.enterRx_fireLog : s.enterRx.fireLog = s.fireLog := rfl
@[simp] theorem State.enterRx_workLog : s.enterRx.workLog = s.workLog := rfl
@[simp] theorem State.enterRx_iteration : s.enterRx.iteration = s.iteration := rfl
@[simp] theorem State.enterRx_trace : s.enterRx.trace = s.trace := rfl
@[simp] theorem State.enterRx_agenda : s.enterRx.agenda = s.agenda := rfl
@[simp] theorem State.enterRx_turnNo : s.enterRx.turnNo = s.turnNo := rfl
@[simp] theorem State.enterRx_driver : s.enterRx.driver = s.driver := rfl
@[simp] theorem State.enterRx_fmtCalls : s.enterRx.fmtCalls = s.fmtCalls := rfl

/-! ## `State.enterTx` -/

@[simp] theorem State.enterTx_cfg : s.enterTx.cfg = s.cfg := rfl
@[simp] theorem State.enterTx_source : s.enterTx.source = s.source := rfl
@[simp] theorem State.enterTx_rxf : s.enterTx.rxf = s.rxf := rfl
@[simp] theorem State.enterTx_txf : s.enterTx.txf = s.txf := rfl
@[simp] theorem State.enterTx_manualTrigger : s.enterTx.manualTrigger = s.manualTrigger := rfl
@[simp] theorem State.enterTx_rxPending : s.enterTx.rxPending = s.rxPending := rfl
@[simp] theorem State.enterTx_txPending : s.enterTx.txPending = false := rfl
@[simp] theorem State.enterTx_periodElapsed : s.enterTx.periodElapsed = s.periodElapsed := rfl
@[simp] theorem State.enterTx_indicator : s.enterTx.indicator = s.indicator := rfl
@[simp] theorem State.enterTx_counters : s.enterTx.counters = s.counters := rfl
@[simp] theorem State.enterTx_schPc : s.enterTx.schPc = s.schPc := rfl
@[simp] theorem State.enterTx_fg : s.enterTx.fg = s.fg := rfl
@[simp] theorem State.enterTx_rxc : s.enterTx.rxc = s.rxc := rfl
@[simp] theorem State.enterTx_txc : s.enterTx.txc = s.txc := rfl
@[simp] theorem State.enterTx_enqRem : s.enterTx.enqRem = s.enqRem := rfl
@[simp] theorem State.enterTx_enqCnt : s.enterTx.enqCnt = s.enqCnt := rfl
@[simp] theorem State.enterTx_fgResult : s.enterTx.fgResult = s.fgResult := rfl
@[simp] theorem State.enterTx_svcResult : s.enterTx.svcResult = s.svcResult := rfl
@[simp] theorem State.enterTx_urx : s.enterTx.urx = s.urx := rfl
@[simp] theorem State.enterTx_utx : s.enterTx.utx = s.utx := rfl
@[simp] theorem State.enterTx_wireOut : s.enterTx.wireOut = s.wireOut := rfl
@[simp] theorem State.enterTx_wireIn : s.enterTx.wireIn = s.wireIn := rfl
@[simp] theorem State.enterTx_rxDropped : s.enterTx.rxDropped = s.rxDropped := rfl
@[simp] theorem State.enterTx_fireLog : s.enterTx.fireLog = s.fireLog := rfl
@[simp] theorem State.enterTx_workLog : s.enterTx.workLog = s.workLog := rfl
@[simp] theorem State.enterTx_iteration : s.enterTx.iteration = s.iteration := rfl
@[simp] theorem State.enterTx_trace : s.enterTx.trace = s.trace := rfl
@[simp] theorem State.enterTx_agenda : s.enterTx.agenda = s.agenda := rfl
@[simp] theorem State.enterTx_turnNo : s.enterTx.turnNo = s.turnNo := rfl
@[simp] theorem State.enterTx_driver : s.enterTx.driver = s.driver := rfl
@[simp] theorem State.enterTx_fmtCalls : s.enterTx.fmtCalls = s.fmtCalls := rfl

/-! ## `State.requestTx` -/

@[simp] theorem State.requestTx_cfg : s.requestTx.cfg = s.cfg := rfl
@[simp] theorem State.requestTx_source : s.requestTx.source = s.source := rfl
@[simp] theorem State.requestTx_rxf : s.requestTx.rxf = s.rxf := rfl
@[simp] theorem State.requestTx_txf : s.requestTx.txf = s.txf := rfl
@[simp] theorem State.requestTx_manualTrigger : s.requestTx.manualTrigger = s.manualTrigger := rfl
@[simp] theorem State.requestTx_rxPending : s.requestTx.rxPending = s.rxPending := rfl
@[simp] theorem State.requestTx_txPending : s.requestTx.txPending = true := rfl
@[simp] theorem State.requestTx_periodElapsed : s.requestTx.periodElapsed = s.periodElapsed := rfl
@[simp] theorem State.requestTx_indicator : s.requestTx.indicator = s.indicator := rfl
@[simp] theorem State.requestTx_counters : s.requestTx.counters = s.counters := rfl
@[simp] theorem State.requestTx_schPc : s.requestTx.schPc = s.schPc := rfl
@[simp] theorem State.requestTx_fg : s.requestTx.fg = s.fg := rfl
@[simp] theorem State.requestTx_rxc : s.requestTx.rxc = s.rxc := rfl
@[simp] theorem State.requestTx_txc : s.requestTx.txc = s.txc := rfl
@[simp] theorem State.requestTx_enqRem : s.requestTx.enqRem = s.enqRem := rfl
@[simp] theorem State.requestTx_enqCnt : s.requestTx.enqCnt = s.enqCnt := rfl
@[simp] theorem State.requestTx_fgResult : s.requestTx.fgResult = s.fgResult := rfl
@[simp] theorem State.requestTx_svcResult : s.requestTx.svcResult = s.svcResult := rfl
@[simp] theorem State.requestTx_urx : s.requestTx.urx = s.urx := rfl
@[simp] theorem State.requestTx_utx : s.requestTx.utx = s.utx := rfl
@[simp] theorem State.requestTx_wireOut : s.requestTx.wireOut = s.wireOut := rfl
@[simp] theorem State.requestTx_wireIn : s.requestTx.wireIn = s.wireIn := rfl
@[simp] theorem State.requestTx_rxDropped : s.requestTx.rxDropped = s.rxDropped := rfl
@[simp] theorem State.requestTx_fireLog : s.requestTx.fireLog = s.fireLog := rfl
@[simp] theorem State.requestTx_workLog : s.requestTx.workLog = s.workLog := rfl
@[simp] theorem State.requestTx_iteration : s.requestTx.iteration = s.iteration := rfl
@[simp] theorem State.requestTx_trace : s.requestTx.trace = s.trace := rfl
@[simp] theorem State.requestTx_agenda : s.requestTx.agenda = s.agenda := rfl
@[simp] theorem State.requestTx_turnNo : s.requestTx.turnNo = s.turnNo := rfl
@[simp] theorem State.requestTx_driver : s.requestTx.driver = s.driver := rfl
@[simp] theorem State.requestTx_fmtCalls : s.requestTx.fmtCalls = s.fmtCalls := rfl

/-! ## `State.ioWrite` -/

@[simp] theorem State.ioWrite_cfg (v : Byte) : (s.ioWrite v).cfg = s.cfg := rfl
@[simp] theorem State.ioWrite_source (v : Byte) : (s.ioWrite v).source = s.source := rfl
@[simp] theorem State.ioWrite_rxf (v : Byte) : (s.ioWrite v).rxf = s.rxf := rfl
@[simp] theorem State.ioWrite_txf (v : Byte) : (s.ioWrite v).txf = s.txf := rfl
@[simp] theorem State.ioWrite_manualTrigger (v : Byte) :
    (s.ioWrite v).manualTrigger = s.manualTrigger :=
  rfl
@[simp] theorem State.ioWrite_rxPending (v : Byte) : (s.ioWrite v).rxPending = s.rxPending := rfl
@[simp] theorem State.ioWrite_txPending (v : Byte) : (s.ioWrite v).txPending = s.txPending := rfl
@[simp] theorem State.ioWrite_periodElapsed (v : Byte) :
    (s.ioWrite v).periodElapsed = s.periodElapsed :=
  rfl
@[simp] theorem State.ioWrite_indicator (v : Byte) : (s.ioWrite v).indicator = s.indicator := rfl
@[simp] theorem State.ioWrite_counters (v : Byte) : (s.ioWrite v).counters = s.counters := rfl
@[simp] theorem State.ioWrite_schPc (v : Byte) : (s.ioWrite v).schPc = s.schPc := rfl
@[simp] theorem State.ioWrite_fg (v : Byte) : (s.ioWrite v).fg = s.fg := rfl
@[simp] theorem State.ioWrite_rxc (v : Byte) : (s.ioWrite v).rxc = s.rxc := rfl
@[simp] theorem State.ioWrite_txc (v : Byte) : (s.ioWrite v).txc = s.txc := rfl
@[simp] theorem State.ioWrite_enqRem (v : Byte) : (s.ioWrite v).enqRem = s.enqRem := rfl
@[simp] theorem State.ioWrite_enqCnt (v : Byte) : (s.ioWrite v).enqCnt = s.enqCnt := rfl
@[simp] theorem State.ioWrite_fgResult (v : Byte) : (s.ioWrite v).fgResult = s.fgResult := rfl
@[simp] theorem State.ioWrite_svcResult (v : Byte) : (s.ioWrite v).svcResult = s.svcResult := rfl
@[simp] theorem State.ioWrite_urx (v : Byte) : (s.ioWrite v).urx = s.urx := rfl
@[simp] theorem State.ioWrite_utx (v : Byte) : (s.ioWrite v).utx = s.utx ++ [v] := rfl
@[simp] theorem State.ioWrite_wireOut (v : Byte) : (s.ioWrite v).wireOut = s.wireOut := rfl
@[simp] theorem State.ioWrite_wireIn (v : Byte) : (s.ioWrite v).wireIn = s.wireIn := rfl
@[simp] theorem State.ioWrite_rxDropped (v : Byte) : (s.ioWrite v).rxDropped = s.rxDropped := rfl
@[simp] theorem State.ioWrite_fireLog (v : Byte) : (s.ioWrite v).fireLog = s.fireLog := rfl
@[simp] theorem State.ioWrite_workLog (v : Byte) : (s.ioWrite v).workLog = s.workLog := rfl
@[simp] theorem State.ioWrite_iteration (v : Byte) : (s.ioWrite v).iteration = s.iteration := rfl
@[simp] theorem State.ioWrite_trace (v : Byte) : (s.ioWrite v).trace = s.trace := rfl
@[simp] theorem State.ioWrite_agenda (v : Byte) : (s.ioWrite v).agenda = s.agenda := rfl
@[simp] theorem State.ioWrite_turnNo (v : Byte) : (s.ioWrite v).turnNo = s.turnNo := rfl
@[simp] theorem State.ioWrite_driver (v : Byte) : (s.ioWrite v).driver = s.driver := rfl
@[simp] theorem State.ioWrite_fmtCalls (v : Byte) : (s.ioWrite v).fmtCalls = s.fmtCalls := rfl

/-! ## `State.setCounter` -/

@[simp] theorem State.setCounter_cfg (t v : Nat) : (s.setCounter t v).cfg = s.cfg := rfl
@[simp] theorem State.setCounter_source (t v : Nat) : (s.setCounter t v).source = s.source := rfl
@[simp] theorem State.setCounter_rxf (t v : Nat) : (s.setCounter t v).rxf = s.rxf := rfl
@[simp] theorem State.setCounter_txf (t v : Nat) : (s.setCounter t v).txf = s.txf := rfl
@[simp] theorem State.setCounter_manualTrigger (t v : Nat) :
    (s.setCounter t v).manualTrigger = s.manualTrigger :=
  rfl
@[simp] theorem State.setCounter_rxPending (t v : Nat) :
    (s.setCounter t v).rxPending = s.rxPending :=
  rfl
@[simp] theorem State.setCounter_txPending (t v : Nat) :
    (s.setCounter t v).txPending = s.txPending :=
  rfl
@[simp] theorem State.setCounter_periodElapsed (t v : Nat) :
    (s.setCounter t v).periodElapsed = s.periodElapsed :=
  rfl
@[simp] theorem State.setCounter_indicator (t v : Nat) :
    (s.setCounter t v).indicator = s.indicator :=
  rfl
@[simp] theorem State.setCounter_counters (t v : Nat) :
    (s.setCounter t v).counters = s.counters.set t v :=
  rfl
@[simp] theorem State.setCounter_schPc (t v : Nat) : (s.setCounter t v).schPc = s.schPc := rfl
@[simp] theorem State.setCounter_fg (t v : Nat) : (s.setCounter t v).fg = s.fg := rfl
@[simp] theorem State.setCounter_rxc (t v : Nat) : (s.setCounter t v).rxc = s.rxc := rfl
@[simp] theorem State.setCounter_txc (t v : Nat) : (s.setCounter t v).txc = s.txc := rfl
@[simp] theorem State.setCounter_enqRem (t v : Nat) : (s.setCounter t v).enqRem = s.enqRem := rfl
@[simp] theorem State.setCounter_enqCnt (t v : Nat) : (s.setCounter t v).enqCnt = s.enqCnt := rfl
@[simp] theorem State.setCounter_fgResult (t v : Nat) :
    (s.setCounter t v).fgResult = s.fgResult :=
  rfl
@[simp] theorem State.setCounter_svcResult (t v : Nat) :
    (s.setCounter t v).svcResult = s.svcResult :=
  rfl
@[simp] theorem State.setCounter_urx (t v : Nat) : (s.setCounter t v).urx = s.urx := rfl
@[simp] theorem State.setCounter_utx (t v : Nat) : (s.setCounter t v).utx = s.utx := rfl
@[simp] theorem State.setCounter_wireOut (t v : Nat) : (s.setCounter t v).wireOut = s.wireOut := rfl
@[simp] theorem State.setCounter_wireIn (t v : Nat) : (s.setCounter t v).wireIn = s.wireIn := rfl
@[simp] theorem State.setCounter_rxDropped (t v : Nat) :
    (s.setCounter t v).rxDropped = s.rxDropped :=
  rfl
@[simp] theorem State.setCounter_fireLog (t v : Nat) : (s.setCounter t v).fireLog = s.fireLog := rfl
@[simp] theorem State.setCounter_workLog (t v : Nat) : (s.setCounter t v).workLog = s.workLog := rfl
@[simp] theorem State.setCounter_iteration (t v : Nat) :
    (s.setCounter t v).iteration = s.iteration :=
  rfl
@[simp] theorem State.setCounter_trace (t v : Nat) : (s.setCounter t v).trace = s.trace := rfl
@[simp] theorem State.setCounter_agenda (t v : Nat) : (s.setCounter t v).agenda = s.agenda := rfl
@[simp] theorem State.setCounter_turnNo (t v : Nat) : (s.setCounter t v).turnNo = s.turnNo := rfl
@[simp] theorem State.setCounter_driver (t v : Nat) : (s.setCounter t v).driver = s.driver := rfl
@[simp] theorem State.setCounter_fmtCalls (t v : Nat) :
    (s.setCounter t v).fmtCalls = s.fmtCalls :=
  rfl

/-! ## `State.fire` -/

@[simp] theorem State.fire_cfg (t : Nat) : (s.fire t).cfg = s.cfg := rfl
@[simp] theorem State.fire_source (t : Nat) : (s.fire t).source = s.source := rfl
@[simp] theorem State.fire_rxf (t : Nat) : (s.fire t).rxf = s.rxf := rfl
@[simp] theorem State.fire_txf (t : Nat) : (s.fire t).txf = s.txf := rfl
@[simp] theorem State.fire_manualTrigger (t : Nat) :
    (s.fire t).manualTrigger = s.manualTrigger :=
  rfl
@[simp] theorem State.fire_rxPending (t : Nat) : (s.fire t).rxPending = s.rxPending := rfl
@[simp] theorem State.fire_txPending (t : Nat) : (s.fire t).txPending = s.txPending := rfl
@[simp] theorem State.fire_periodElapsed (t : Nat) :
    (s.fire t).periodElapsed = s.periodElapsed :=
  rfl
@[simp] theorem State.fire_indicator (t : Nat) : (s.fire t).indicator = s.indicator := rfl
@[simp] theorem State.fire_counters (t : Nat) : (s.fire t).counters = s.counters.set t 0 := rfl
@[simp] theorem State.fire_schPc (t : Nat) : (s.fire t).schPc = s.schPc := rfl
@[simp] theorem State.fire_fg (t : Nat) : (s.fire t).fg = s.fg := rfl
@[simp] theorem State.fire_rxc (t : Nat) : (s.fire t).rxc = s.rxc := rfl
@[simp] theorem State.fire_txc (t : Nat) : (s.fire t).txc = s.txc := rfl
@[simp] theorem State.fire_enqRem (t : Nat) : (s.fire t).enqRem = s.enqRem := rfl
@[simp] theorem State.fire_enqCnt (t : Nat) : (s.fire t).enqCnt = s.enqCnt := rfl
@[simp] theorem State.fire_fgResult (t : Nat) : (s.fire t).fgResult = s.fgResult := rfl
@[simp] theorem State.fire_svcResult (t : Nat) : (s.fire t).svcResult = s.svcResult := rfl
@[simp] theorem State.fire_urx (t : Nat) : (s.fire t).urx = s.urx := rfl
@[simp] theorem State.fire_utx (t : Nat) : (s.fire t).utx = s.utx := rfl
@[simp] theorem State.fire_wireOut (t : Nat) : (s.fire t).wireOut = s.wireOut := rfl
@[simp] theorem State.fire_wireIn (t : Nat) : (s.fire t).wireIn = s.wireIn := rfl
@[simp] theorem State.fire_rxDropped (t : Nat) : (s.fire t).rxDropped = s.rxDropped := rfl
@[simp] theorem State.fire_fireLog (t : Nat) :
    (s.fire t).fireLog = s.fireLog ++ [(s.iteration, t)] :=
  rfl
@[simp] theorem State.fire_workLog (t : Nat) : (s.fire t).workLog = s.workLog := rfl
@[simp] theorem State.fire_iteration (t : Nat) : (s.fire t).iteration = s.iteration := rfl
@[simp] theorem State.fire_trace (t : Nat) : (s.fire t).trace = s.trace := rfl
@[simp] theorem State.fire_agenda (t : Nat) : (s.fire t).agenda = s.agenda := rfl
@[simp] theorem State.fire_turnNo (t : Nat) : (s.fire t).turnNo = s.turnNo := rfl
@[simp] theorem State.fire_driver (t : Nat) : (s.fire t).driver = s.driver := rfl
@[simp] theorem State.fire_fmtCalls (t : Nat) : (s.fire t).fmtCalls = s.fmtCalls := rfl

/-! ## `State.toggle` -/

@[simp] theorem State.toggle_cfg : s.toggle.cfg = s.cfg := rfl
@[simp] theorem State.toggle_source : s.toggle.source = s.source := rfl
@[simp] theorem State.toggle_rxf : s.toggle.rxf = s.rxf := rfl
@[simp] theorem State.toggle_txf : s.toggle.txf = s.txf := rfl
@[simp] theorem State.toggle_manualTrigger : s.toggle.manualTrigger = s.manualTrigger := rfl
@[simp] theorem State.toggle_rxPending : s.toggle.rxPending = s.rxPending := rfl
@[simp] theorem State.toggle_txPending : s.toggle.txPending = s.txPending := rfl
@[simp] theorem State.toggle_periodElapsed : s.toggle.periodElapsed = s.periodElapsed := rfl
@[simp] theorem State.toggle_indicator : s.toggle.indicator = !s.indicator := rfl
@[simp] theorem State.toggle_counters : s.toggle.counters = s.counters := rfl
@[simp] theorem State.toggle_schPc : s.toggle.schPc = s.schPc := rfl
@[simp] theorem State.toggle_fg : s.toggle.fg = s.fg := rfl
@[simp] theorem State.toggle_rxc : s.toggle.rxc = s.rxc := rfl
@[simp] theorem State.toggle_txc : s.toggle.txc = s.txc := rfl
@[simp] theorem State.toggle_enqRem : s.toggle.enqRem = s.enqRem := rfl
@[simp] theorem State.toggle_enqCnt : s.toggle.enqCnt = s.enqCnt := rfl
@[simp] theorem State.toggle_fgResult : s.toggle.fgResult = s.fgResult := rfl
@[simp] theorem State.toggle_svcResult : s.toggle.svcResult = s.svcResult := rfl
@[simp] theorem State.toggle_urx : s.toggle.urx = s.urx := rfl
@[simp] theorem State.toggle_utx : s.toggle.utx = s.utx := rfl
@[simp] theorem State.toggle_wireOut : s.toggle.wireOut = s.wireOut := rfl
@[simp] theorem State.toggle_wireIn : s.toggle.wireIn = s.wireIn := rfl
@[simp] theorem State.toggle_rxDropped : s.toggle.rxDropped = s.rxDropped := rfl
@[simp] theorem State.toggle_fireLog : s.toggle.fireLog = s.fireLog := rfl
@[simp] theorem State.toggle_workLog : s.toggle.workLog = s.workLog := rfl
@[simp] theorem State.toggle_iteration : s.toggle.iteration = s.iteration := rfl
@[simp] theorem State.toggle_trace : s.toggle.trace = s.trace := rfl
@[simp] theorem State.toggle_agenda : s.toggle.agenda = s.agenda := rfl
@[simp] theorem State.toggle_turnNo : s.toggle.turnNo = s.turnNo := rfl
@[simp] theorem State.toggle_driver : s.toggle.driver = s.driver := rfl
@[simp] theorem State.toggle_fmtCalls : s.toggle.fmtCalls = s.fmtCalls := rfl

/-! ## `State.atStep` -/

@[simp] theorem State.atStep_cfg (c : FgCtx) : (s.atStep c).cfg = s.cfg := rfl
@[simp] theorem State.atStep_source (c : FgCtx) : (s.atStep c).source = s.source := rfl
@[simp] theorem State.atStep_rxf (c : FgCtx) : (s.atStep c).rxf = s.rxf := rfl
@[simp] theorem State.atStep_txf (c : FgCtx) : (s.atStep c).txf = s.txf := rfl
@[simp] theorem State.atStep_manualTrigger (c : FgCtx) :
    (s.atStep c).manualTrigger = s.manualTrigger :=
  rfl
@[simp] theorem State.atStep_rxPending (c : FgCtx) : (s.atStep c).rxPending = s.rxPending := rfl
@[simp] theorem State.atStep_txPending (c : FgCtx) : (s.atStep c).txPending = s.txPending := rfl
@[simp] theorem State.atStep_periodElapsed (c : FgCtx) :
    (s.atStep c).periodElapsed = s.periodElapsed :=
  rfl
@[simp] theorem State.atStep_indicator (c : FgCtx) : (s.atStep c).indicator = s.indicator := rfl
@[simp] theorem State.atStep_counters (c : FgCtx) : (s.atStep c).counters = s.counters := rfl
@[simp] theorem State.atStep_schPc (c : FgCtx) : (s.atStep c).schPc = s.schPc := rfl
@[simp] theorem State.atStep_fg (c : FgCtx) : (s.atStep c).fg = c := rfl
@[simp] theorem State.atStep_rxc (c : FgCtx) : (s.atStep c).rxc = s.rxc := rfl
@[simp] theorem State.atStep_txc (c : FgCtx) : (s.atStep c).txc = s.txc := rfl
@[simp] theorem State.atStep_enqRem (c : FgCtx) : (s.atStep c).enqRem = s.enqRem := rfl
@[simp] theorem State.atStep_enqCnt (c : FgCtx) : (s.atStep c).enqCnt = s.enqCnt := rfl
@[simp] theorem State.atStep_fgResult (c : FgCtx) : (s.atStep c).fgResult = s.fgResult := rfl
@[simp] theorem State.atStep_svcResult (c : FgCtx) : (s.atStep c).svcResult = s.svcResult := rfl
@[simp] theorem State.atStep_urx (c : FgCtx) : (s.atStep c).urx = s.urx := rfl
@[simp] theorem State.atStep_utx (c : FgCtx) : (s.atStep c).utx = s.utx := rfl
@[simp] theorem State.atStep_wireOut (c : FgCtx) : (s.atStep c).wireOut = s.wireOut := rfl
@[simp] theorem State.atStep_wireIn (c : FgCtx) : (s.atStep c).wireIn = s.wireIn := rfl
@[simp] theorem State.atStep_rxDropped (c : FgCtx) : (s.atStep c).rxDropped = s.rxDropped := rfl
@[simp] theorem State.atStep_fireLog (c : FgCtx) : (s.atStep c).fireLog = s.fireLog := rfl
@[simp] theorem State.atStep_workLog (c : FgCtx) : (s.atStep c).workLog = s.workLog := rfl
@[simp] theorem State.atStep_iteration (c : FgCtx) : (s.atStep c).iteration = s.iteration := rfl
@[simp] theorem State.atStep_trace (c : FgCtx) : (s.atStep c).trace = s.trace := rfl
@[simp] theorem State.atStep_agenda (c : FgCtx) : (s.atStep c).agenda = s.agenda := rfl
@[simp] theorem State.atStep_turnNo (c : FgCtx) : (s.atStep c).turnNo = s.turnNo := rfl
@[simp] theorem State.atStep_driver (c : FgCtx) : (s.atStep c).driver = s.driver := rfl
@[simp] theorem State.atStep_fmtCalls (c : FgCtx) : (s.atStep c).fmtCalls = s.fmtCalls := rfl

/-! ## `State.countByte` -/

@[simp] theorem State.countByte_cfg (stored : Bool) (rest : List Byte) :
    (s.countByte stored rest).cfg = s.cfg :=
  rfl
@[simp] theorem State.countByte_source (stored : Bool) (rest : List Byte) :
    (s.countByte stored rest).source = s.source :=
  rfl
@[simp] theorem State.countByte_rxf (stored : Bool) (rest : List Byte) :
    (s.countByte stored rest).rxf = s.rxf :=
  rfl
@[simp] theorem State.countByte_txf (stored : Bool) (rest : List Byte) :
    (s.countByte stored rest).txf = s.txf :=
  rfl
@[simp] theorem State.countByte_manualTrigger (stored : Bool) (rest : List Byte) :
    (s.countByte stored rest).manualTrigger = s.manualTrigger :=
  rfl
@[simp] theorem State.countByte_rxPending (stored : Bool) (rest : List Byte) :
    (s.countByte stored rest).rxPending = s.rxPending :=
  rfl
@[simp] theorem State.countByte_txPending (stored : Bool) (rest : List Byte) :
    (s.countByte stored rest).txPending = s.txPending :=
  rfl
@[simp] theorem State.countByte_periodElapsed (stored : Bool) (rest : List Byte) :
    (s.countByte stored rest).periodElapsed = s.periodElapsed :=
  rfl
@[simp] theorem State.countByte_indicator (stored : Bool) (rest : List Byte) :
    (s.countByte stored rest).indicator = s.indicator :=
  rfl
@[simp] theorem State.countByte_counters (stored : Bool) (rest : List Byte) :
    (s.countByte stored rest).counters = s.counters :=
  rfl
@[simp] theorem State.countByte_schPc (stored : Bool) (rest : List Byte) :
    (s.countByte stored rest).schPc = s.schPc :=
  rfl
@[simp] theorem State.countByte_fg (stored : Bool) (rest : List Byte) :
    (s.countByte stored rest).fg = s.fg :=
  rfl
@[simp] theorem State.countByte_rxc (stored : Bool) (rest : List Byte) :
    (s.countByte stored rest).rxc = s.rxc :=
  rfl
@[simp] theorem State.countByte_txc (stored : Bool) (rest : List Byte) :
    (s.countByte stored rest).txc = s.txc :=
  rfl
@[simp] theorem State.countByte_fgResult (stored : Bool) (rest : List Byte) :
    (s.countByte stored rest).fgResult = s.fgResult :=
  rfl
@[simp] theorem State.countByte_svcResult (stored : Bool) (rest : List Byte) :
    (s.countByte stored rest).svcResult = s.svcResult :=
  rfl
@[simp] theorem State.countByte_urx (stored : Bool) (rest : List Byte) :
    (s.countByte stored rest).urx = s.urx :=
  rfl
@[simp] theorem State.countByte_utx (stored : Bool) (rest : List Byte) :
    (s.countByte stored rest).utx = s.utx :=
  rfl
@[simp] theorem State.countByte_wireOut (stored : Bool) (rest : List Byte) :
    (s.countByte stored rest).wireOut = s.wireOut :=
  rfl
@[simp] theorem State.countByte_wireIn (stored : Bool) (rest : List Byte) :
    (s.countByte stored rest).wireIn = s.wireIn :=
  rfl
@[simp] theorem State.countByte_rxDropped (stored : Bool) (rest : List Byte) :
    (s.countByte stored rest).rxDropped = s.rxDropped :=
  rfl
@[simp] theorem State.countByte_fireLog (stored : Bool) (rest : List Byte) :
    (s.countByte stored rest).fireLog = s.fireLog :=
  rfl
@[simp] theorem State.countByte_workLog (stored : Bool) (rest : List Byte) :
    (s.countByte stored rest).workLog = s.workLog :=
  rfl
@[simp] theorem State.countByte_iteration (stored : Bool) (rest : List Byte) :
    (s.countByte stored rest).iteration = s.iteration :=
  rfl
@[simp] theorem State.countByte_trace (stored : Bool) (rest : List Byte) :
    (s.countByte stored rest).trace = s.trace :=
  rfl
@[simp] theorem State.countByte_agenda (stored : Bool) (rest : List Byte) :
    (s.countByte stored rest).agenda = s.agenda :=
  rfl
@[simp] theorem State.countByte_turnNo (stored : Bool) (rest : List Byte) :
    (s.countByte stored rest).turnNo = s.turnNo :=
  rfl
@[simp] theorem State.countByte_driver (stored : Bool) (rest : List Byte) :
    (s.countByte stored rest).driver = s.driver :=
  rfl
@[simp] theorem State.countByte_fmtCalls (stored : Bool) (rest : List Byte) :
    (s.countByte stored rest).fmtCalls = s.fmtCalls :=
  rfl

/-! ## `State.receiveByte` -/

@[simp] theorem State.receiveByte_cfg (b : Byte) : (s.receiveByte b).cfg = s.cfg := rfl
@[simp] theorem State.receiveByte_source (b : Byte) : (s.receiveByte b).source = s.source := rfl
@[simp] theorem State.receiveByte_rxf (b : Byte) : (s.receiveByte b).rxf = (s.rxf.push b).1 := rfl
@[simp] theorem State.receiveByte_txf (b : Byte) : (s.receiveByte b).txf = s.txf := rfl
@[simp] theorem State.receiveByte_manualTrigger (b : Byte) :
    (s.receiveByte b).manualTrigger = s.manualTrigger :=
  rfl
@[simp] theorem State.receiveByte_rxPending (b : Byte) :
    (s.receiveByte b).rxPending = s.rxPending :=
  rfl
@[simp] theorem State.receiveByte_txPending (b : Byte) :
    (s.receiveByte b).txPending = s.txPending :=
  rfl
@[simp] theorem State.receiveByte_periodElapsed (b : Byte) :
    (s.receiveByte b).periodElapsed = s.periodElapsed :=
  rfl
@[simp] theorem State.receiveByte_indicator (b : Byte) :
    (s.receiveByte b).indicator = s.indicator :=
  rfl
@[simp] theorem State.receiveByte_counters (b : Byte) :
    (s.receiveByte b).counters = s.counters :=
  rfl
@[simp] theorem State.receiveByte_schPc (b : Byte) : (s.receiveByte b).schPc = s.schPc := rfl
@[simp] theorem State.receiveByte_fg (b : Byte) : (s.receiveByte b).fg = s.fg := rfl
@[simp] theorem State.receiveByte_rxc (b : Byte) : (s.receiveByte b).rxc = s.rxc := rfl
@[simp] theorem State.receiveByte_txc (b : Byte) : (s.receiveByte b).txc = s.txc := rfl
@[simp] theorem State.receiveByte_enqRem (b : Byte) : (s.receiveByte b).enqRem = s.enqRem := rfl
@[simp] theorem State.receiveByte_enqCnt (b : Byte) : (s.receiveByte b).enqCnt = s.enqCnt := rfl
@[simp] theorem State.receiveByte_fgResult (b : Byte) :
    (s.receiveByte b).fgResult = s.fgResult :=
  rfl
@[simp] theorem State.receiveByte_svcResult (b : Byte) :
    (s.receiveByte b).svcResult = s.svcResult :=
  rfl
@[simp] theorem State.receiveByte_urx (b : Byte) : (s.receiveByte b).urx = s.urx := rfl
@[simp] theorem State.receiveByte_utx (b : Byte) : (s.receiveByte b).utx = s.utx := rfl
@[simp] theorem State.receiveByte_wireOut (b : Byte) : (s.receiveByte b).wireOut = s.wireOut := rfl
@[simp] theorem State.receiveByte_wireIn (b : Byte) : (s.receiveByte b).wireIn = s.wireIn := rfl
@[simp] theorem State.receiveByte_fireLog (b : Byte) : (s.receiveByte b).fireLog = s.fireLog := rfl
@[simp] theorem State.receiveByte_workLog (b : Byte) : (s.receiveByte b).workLog = s.workLog := rfl
@[simp] theorem State.receiveByte_iteration (b : Byte) :
    (s.receiveByte b).iteration = s.iteration :=
  rfl
@[simp] theorem State.receiveByte_trace (b : Byte) : (s.receiveByte b).trace = s.trace := rfl
@[simp] theorem State.receiveByte_agenda (b : Byte) : (s.receiveByte b).agenda = s.agenda := rfl
@[simp] theorem State.receiveByte_turnNo (b : Byte) : (s.receiveByte b).turnNo = s.turnNo := rfl
@[simp] theorem State.receiveByte_driver (b : Byte) : (s.receiveByte b).driver = s.driver := rfl
@[simp] theorem State.receiveByte_fmtCalls (b : Byte) :
    (s.receiveByte b).fmtCalls = s.fmtCalls :=
  rfl

/-! ## `State.advance` -/

@[simp] theorem State.advance_cfg : s.advance.cfg = s.cfg := rfl
@[simp] theorem State.advance_source : s.advance.source = s.source := rfl
@[simp] theorem State.advance_rxf : s.advance.rxf = s.rxf := rfl
@[simp] theorem State.advance_txf : s.advance.txf = s.txf := rfl
@[simp] theorem State.advance_manualTrigger : s.advance.manualTrigger = s.manualTrigger := rfl
@[simp] theorem State.advance_rxPending : s.advance.rxPending = s.rxPending := rfl
@[simp] theorem State.advance_txPending : s.advance.txPending = s.txPending := rfl
@[simp] theorem State.advance_periodElapsed : s.advance.periodElapsed = s.periodElapsed := rfl
@[simp] theorem State.advance_indicator : s.advance.indicator = s.indicator := rfl
@[simp] theorem State.advance_counters : s.advance.counters = s.counters := rfl
@[simp] theorem State.advance_schPc : s.advance.schPc = (s.schPc + 1) % (s.cfg.ntask + 3) := rfl
@[simp] theorem State.advance_fg : s.advance.fg = s.fg := rfl
@[simp] theorem State.advance_rxc : s.advance.rxc = s.rxc := rfl
@[simp] theorem State.advance_txc : s.advance.txc = s.txc := rfl
@[simp] theorem State.advance_enqRem : s.advance.enqRem = s.enqRem := rfl
@[simp] theorem State.advance_enqCnt : s.advance.enqCnt = s.enqCnt := rfl
@[simp] theorem State.advance_fgResult : s.advance.fgResult = s.fgResult := rfl
@[simp] theorem State.advance_svcResult : s.advance.svcResult = s.svcResult := rfl
@[simp] theorem State.advance_urx : s.advance.urx = s.urx := rfl
@[simp] theorem State.advance_utx : s.advance.utx = s.utx := rfl
@[simp] theorem State.advance_wireOut : s.advance.wireOut = s.wireOut := rfl
@[simp] theorem State.advance_wireIn : s.advance.wireIn = s.wireIn := rfl
@[simp] theorem State.advance_rxDropped : s.advance.rxDropped = s.rxDropped := rfl
@[simp] theorem State.advance_fireLog : s.advance.fireLog = s.fireLog := rfl
@[simp] theorem State.advance_workLog : s.advance.workLog = s.workLog := rfl
@[simp] theorem State.advance_trace : s.advance.trace = s.trace := rfl
@[simp] theorem State.advance_agenda : s.advance.agenda = s.agenda := rfl
@[simp] theorem State.advance_turnNo : s.advance.turnNo = s.turnNo := rfl
@[simp] theorem State.advance_driver : s.advance.driver = s.driver := rfl
@[simp] theorem State.advance_fmtCalls : s.advance.fmtCalls = s.fmtCalls := rfl

/-! ## `State.setFifo` -/

@[simp] theorem State.setFifo_cfg (f : FifoSel) (q : Fifo) :
    (s.setFifo f q).cfg = s.cfg :=
  by cases f <;> rfl
@[simp] theorem State.setFifo_source (f : FifoSel) (q : Fifo) :
    (s.setFifo f q).source = s.source :=
  by cases f <;> rfl
@[simp] theorem State.setFifo_manualTrigger (f : FifoSel) (q : Fifo) :
    (s.setFifo f q).manualTrigger = s.manualTrigger :=
  by cases f <;> rfl
@[simp] theorem State.setFifo_rxPending (f : FifoSel) (q : Fifo) :
    (s.setFifo f q).rxPending = s.rxPending :=
  by cases f <;> rfl
@[simp] theorem State.setFifo_txPending (f : FifoSel) (q : Fifo) :
    (s.setFifo f q).txPending = s.txPending :=
  by cases f <;> rfl
@[simp] theorem State.setFifo_periodElapsed (f : FifoSel) (q : Fifo) :
    (s.setFifo f q).periodElapsed = s.periodElapsed :=
  by cases f <;> rfl
@[simp] theorem State.setFifo_indicator (f : FifoSel) (q : Fifo) :
    (s.setFifo f q).indicator = s.indicator :=
  by cases f <;> rfl
@[simp] theorem State.setFifo_counters (f : FifoSel) (q : Fifo) :
    (s.setFifo f q).counters = s.counters :=
  by cases f <;> rfl
@[simp] theorem State.setFifo_schPc (f : FifoSel) (q : Fifo) :
    (s.setFifo f q).schPc = s.schPc :=
  by cases f <;> rfl
@[simp] theorem State.setFifo_fg (f : FifoSel) (q : Fifo) :
    (s.setFifo f q).fg = s.fg :=
  by cases f <;> rfl
@[simp] theorem State.setFifo_rxc (f : FifoSel) (q : Fifo) :
    (s.setFifo f q).rxc = s.rxc :=
  by cases f <;> rfl
@[simp] theorem State.setFifo_txc (f : FifoSel) (q : Fifo) :
    (s.setFifo f q).txc = s.txc :=
  by cases f <;> rfl
@[simp] theorem State.setFifo_enqRem (f : FifoSel) (q : Fifo) :
    (s.setFifo f q).enqRem = s.enqRem :=
  by cases f <;> rfl
@[simp] theorem State.setFifo_enqCnt (f : FifoSel) (q : Fifo) :
    (s.setFifo f q).enqCnt = s.enqCnt :=
  by cases f <;> rfl
@[simp] theorem State.setFifo_fgResult (f : FifoSel) (q : Fifo) :
    (s.setFifo f q).fgResult = s.fgResult :=
  by cases f <;> rfl
@[simp] theorem State.setFifo_svcResult (f : FifoSel) (q : Fifo) :
    (s.setFifo f q).svcResult = s.svcResult :=
  by cases f <;> rfl
@[simp] theorem State.setFifo_urx (f : FifoSel) (q : Fifo) :
    (s.setFifo f q).urx = s.urx :=
  by cases f <;> rfl
@[simp] theorem State.setFifo_utx (f : FifoSel) (q : Fifo) :
    (s.setFifo f q).utx = s.utx :=
  by cases f <;> rfl
@[simp] theorem State.setFifo_wireOut (f : FifoSel) (q : Fifo) :
    (s.setFifo f q).wireOut = s.wireOut :=
  by cases f <;> rfl
@[simp] theorem State.setFifo_wireIn (f : FifoSel) (q : Fifo) :
    (s.setFifo f q).wireIn = s.wireIn :=
  by cases f <;> rfl
@[simp] theorem State.setFifo_rxDropped (f : FifoSel) (q : Fifo) :
    (s.setFifo f q).rxDropped = s.rxDropped :=
  by cases f <;> rfl
@[simp] theorem State.setFifo_fireLog (f : FifoSel) (q : Fifo) :
    (s.setFifo f q).fireLog = s.fireLog :=
  by cases f <;> rfl
@[simp] theorem State.setFifo_workLog (f : FifoSel) (q : Fifo) :
    (s.setFifo f q).workLog = s.workLog :=
  by cases f <;> rfl
@[simp] theorem State.setFifo_iteration (f : FifoSel) (q : Fifo) :
    (s.setFifo f q).iteration = s.iteration :=
  by cases f <;> rfl
@[simp] theorem State.setFifo_trace (f : FifoSel) (q : Fifo) :
    (s.setFifo f q).trace = s.trace :=
  by cases f <;> rfl
@[simp] theorem State.setFifo_agenda (f : FifoSel) (q : Fifo) :
    (s.setFifo f q).agenda = s.agenda :=
  by cases f <;> rfl
@[simp] theorem State.setFifo_turnNo (f : FifoSel) (q : Fifo) :
    (s.setFifo f q).turnNo = s.turnNo :=
  by cases f <;> rfl
@[simp] theorem State.setFifo_driver (f : FifoSel) (q : Fifo) :
    (s.setFifo f q).driver = s.driver :=
  by cases f <;> rfl
@[simp] theorem State.setFifo_fmtCalls (f : FifoSel) (q : Fifo) :
    (s.setFifo f q).fmtCalls = s.fmtCalls :=
  by cases f <;> rfl

/-! ## `State.entryCheck` -/

@[simp] theorem State.entryCheck_cfg :
    s.entryCheck.cfg = s.cfg :=
  by unfold State.entryCheck; split <;> simp_all
@[simp] theorem State.entryCheck_source :
    s.entryCheck.source = s.source :=
  by unfold State.entryCheck; split <;> simp_all
@[simp] theorem State.entryCheck_rxf :
    s.entryCheck.rxf = s.rxf :=
  by unfold State.entryCheck; split <;> simp_all
@[simp] theorem State.entryCheck_txf :
    s.entryCheck.txf = s.txf :=
  by unfold State.entryCheck; split <;> simp_all
@[simp] theorem State.entryCheck_manualTrigger :
    s.entryCheck.manualTrigger = s.manualTrigger || s.txf.consumerEmpty :=
  by unfold State.entryCheck; split <;> simp_all
@[simp] theorem State.entryCheck_rxPending :
    s.entryCheck.rxPending = s.rxPending :=
  by unfold State.entryCheck; split <;> simp_all
@[simp] theorem State.entryCheck_txPending :
    s.entryCheck.txPending = s.txPending :=
  by unfold State.entryCheck; split <;> simp_all
@[simp] theorem State.entryCheck_periodElapsed :
    s.entryCheck.periodElapsed = s.periodElapsed :=
  by unfold State.entryCheck; split <;> simp_all
@[simp] theorem State.entryCheck_indicator :
    s.entryCheck.indicator = s.indicator :=
  by unfold State.entryCheck; split <;> simp_all
@[simp] theorem State.entryCheck_counters :
    s.entryCheck.counters = s.counters :=
  by unfold State.entryCheck; split <;> simp_all
@[simp] theorem State.entryCheck_schPc :
    s.entryCheck.schPc = s.schPc :=
  by unfold State.entryCheck; split <;> simp_all
@[simp] theorem State.entryCheck_fg :
    s.entryCheck.fg = s.fg :=
  by unfold State.entryCheck; split <;> simp_all
@[simp] theorem State.entryCheck_rxc :
    s.entryCheck.rxc = s.rxc :=
  by unfold State.entryCheck; split <;> simp_all
@[simp] theorem State.entryCheck_txc :
    s.entryCheck.txc = s.txc :=
  by unfold State.entryCheck; split <;> simp_all
@[simp] theorem State.entryCheck_enqRem :
    s.entryCheck.enqRem = s.enqRem :=
  by unfold State.entryCheck; split <;> simp_all
@[simp] theorem State.entryCheck_enqCnt :
    s.entryCheck.enqCnt = s.enqCnt :=
  by unfold State.entryCheck; split <;> simp_all
@[simp] theorem State.entryCheck_fgResult :
    s.entryCheck.fgResult = s.fgResult :=
  by unfold State.entryCheck; split <;> simp_all
@[simp] theorem State.entryCheck_svcResult :
    s.entryCheck.svcResult = s.svcResult :=
  by unfold State.entryCheck; split <;> simp_all
@[simp] theorem State.entryCheck_urx :
    s.entryCheck.urx = s.urx :=
  by unfold State.entryCheck; split <;> simp_all
@[simp] theorem State.entryCheck_utx :
    s.entryCheck.utx = s.utx :=
  by unfold State.entryCheck; split <;> simp_all
@[simp] theorem State.entryCheck_wireOut :
    s.entryCheck.wireOut = s.wireOut :=
  by unfold State.entryCheck; split <;> simp_all
@[simp] theorem State.entryCheck_wireIn :
    s.entryCheck.wireIn = s.wireIn :=
  by unfold State.entryCheck; split <;> simp_all
@[simp] theorem State.entryCheck_rxDropped :
    s.entryCheck.rxDropped = s.rxDropped :=
  by unfold State.entryCheck; split <;> simp_all
@[simp] theorem State.entryCheck_fireLog :
    s.entryCheck.fireLog = s.fireLog :=
  by unfold State.entryCheck; split <;> simp_all
@[simp] theorem State.entryCheck_workLog :
    s.entryCheck.workLog = s.workLog :=
  by unfold State.entryCheck; split <;> simp_all
@[simp] theorem State.entryCheck_iteration :
    s.entryCheck.iteration = s.iteration :=
  by unfold State.entryCheck; split <;> simp_all
@[simp] theorem State.entryCheck_trace :
    s.entryCheck.trace = s.trace :=
  by unfold State.entryCheck; split <;> simp_all
@[simp] theorem State.entryCheck_agenda :
    s.entryCheck.agenda = s.agenda :=
  by unfold State.entryCheck; split <;> simp_all
@[simp] theorem State.entryCheck_turnNo :
    s.entryCheck.turnNo = s.turnNo :=
  by unfold State.entryCheck; split <;> simp_all
@[simp] theorem State.entryCheck_driver :
    s.entryCheck.driver = s.driver :=
  by unfold State.entryCheck; split <;> simp_all
@[simp] theorem State.entryCheck_fmtCalls :
    s.entryCheck.fmtCalls = s.fmtCalls :=
  by unfold State.entryCheck; split <;> simp_all

/-! ## `State.kickCheck` -/

@[simp] theorem State.kickCheck_cfg :
    s.kickCheck.cfg = s.cfg :=
  by unfold State.kickCheck; split <;> simp_all [State.requestTx]
@[simp] theorem State.kickCheck_source :
    s.kickCheck.source = s.source :=
  by unfold State.kickCheck; split <;> simp_all [State.requestTx]
@[simp] theorem State.kickCheck_rxf :
    s.kickCheck.rxf = s.rxf :=
  by unfold State.kickCheck; split <;> simp_all [State.requestTx]
@[simp] theorem State.kickCheck_txf :
    s.kickCheck.txf = s.txf :=
  by unfold State.kickCheck; split <;> simp_all [State.requestTx]
@[simp] theorem State.kickCheck_manualTrigger :
    s.kickCheck.manualTrigger = false :=
  by unfold State.kickCheck; split <;> simp_all [State.requestTx]
@[simp] theorem State.kickCheck_rxPending :
    s.kickCheck.rxPending = s.rxPending :=
  by unfold State.kickCheck; split <;> simp_all [State.requestTx]
@[simp] theorem State.kickCheck_txPending :
    s.kickCheck.txPending = s.txPending || s.manualTrigger :=
  by unfold State.kickCheck; split <;> simp_all [State.requestTx]
@[simp] theorem State.kickCheck_periodElapsed :
    s.kickCheck.periodElapsed = s.periodElapsed :=
  by unfold State.kickCheck; split <;> simp_all [State.requestTx]
@[simp] theorem State.kickCheck_indicator :
    s.kickCheck.indicator = s.indicator :=
  by unfold State.kickCheck; split <;> simp_all [State.requestTx]
@[simp] theorem State.kickCheck_counters :
    s.kickCheck.counters = s.counters :=
  by unfold State.kickCheck; split <;> simp_all [State.requestTx]
@[simp] theorem State.kickCheck_schPc :
    s.kickCheck.schPc = s.schPc :=
  by unfold State.kickCheck; split <;> simp_all [State.requestTx]
@[simp] theorem State.kickCheck_fg :
    s.kickCheck.fg = s.fg :=
  by unfold State.kickCheck; split <;> simp_all [State.requestTx]
@[simp] theorem State.kickCheck_rxc :
    s.kickCheck.rxc = s.rxc :=
  by unfold State.kickCheck; split <;> simp_all [State.requestTx]
@[simp] theorem State.kickCheck_txc :
    s.kickCheck.txc = s.txc :=
  by unfold State.kickCheck; split <;> simp_all [State.requestTx]
@[simp] theorem State.kickCheck_enqRem :
    s.kickCheck.enqRem = s.enqRem :=
  by unfold State.kickCheck; split <;> simp_all [State.requestTx]
@[simp] theorem State.kickCheck_enqCnt :
    s.kickCheck.enqCnt = s.enqCnt :=
  by unfold State.kickCheck; split <;> simp_all [State.requestTx]
@[simp] theorem State.kickCheck_fgResult :
    s.kickCheck.fgResult = s.fgResult :=
  by unfold State.kickCheck; split <;> simp_all [State.requestTx]
@[simp] theorem State.kickCheck_svcResult :
    s.kickCheck.svcResult = s.svcResult :=
  by unfold State.kickCheck; split <;> simp_all [State.requestTx]
@[simp] theorem State.kickCheck_urx :
    s.kickCheck.urx = s.urx :=
  by unfold State.kickCheck; split <;> simp_all [State.requestTx]
@[simp] theorem State.kickCheck_utx :
    s.kickCheck.utx = s.utx :=
  by unfold State.kickCheck; split <;> simp_all [State.requestTx]
@[simp] theorem State.kickCheck_wireOut :
    s.kickCheck.wireOut = s.wireOut :=
  by unfold State.kickCheck; split <;> simp_all [State.requestTx]
@[simp] theorem State.kickCheck_wireIn :
    s.kickCheck.wireIn = s.wireIn :=
  by unfold State.kickCheck; split <;> simp_all [State.requestTx]
@[simp] theorem State.kickCheck_rxDropped :
    s.kickCheck.rxDropped = s.rxDropped :=
  by unfold State.kickCheck; split <;> simp_all [State.requestTx]
@[simp] theorem State.kickCheck_fireLog :
    s.kickCheck.fireLog = s.fireLog :=
  by unfold State.kickCheck; split <;> simp_all [State.requestTx]
@[simp] theorem State.kickCheck_workLog :
    s.kickCheck.workLog = s.workLog :=
  by unfold State.kickCheck; split <;> simp_all [State.requestTx]
@[simp] theorem State.kickCheck_iteration :
    s.kickCheck.iteration = s.iteration :=
  by unfold State.kickCheck; split <;> simp_all [State.requestTx]
@[simp] theorem State.kickCheck_trace :
    s.kickCheck.trace = s.trace :=
  by unfold State.kickCheck; split <;> simp_all [State.requestTx]
@[simp] theorem State.kickCheck_agenda :
    s.kickCheck.agenda = s.agenda :=
  by unfold State.kickCheck; split <;> simp_all [State.requestTx]
@[simp] theorem State.kickCheck_turnNo :
    s.kickCheck.turnNo = s.turnNo :=
  by unfold State.kickCheck; split <;> simp_all [State.requestTx]
@[simp] theorem State.kickCheck_driver :
    s.kickCheck.driver = s.driver :=
  by unfold State.kickCheck; split <;> simp_all [State.requestTx]
@[simp] theorem State.kickCheck_fmtCalls :
    s.kickCheck.fmtCalls = s.fmtCalls :=
  by unfold State.kickCheck; split <;> simp_all [State.requestTx]

/-! ## `State.syncFclk` -/

@[simp] theorem State.syncFclk_cfg : s.syncFclk.cfg = s.cfg := rfl
@[simp] theorem State.syncFclk_source : s.syncFclk.source = s.source := rfl
@[simp] theorem State.syncFclk_rxf : s.syncFclk.rxf = s.rxf.syncConsumer := rfl
@[simp] theorem State.syncFclk_txf : s.syncFclk.txf = s.txf.syncProducer := rfl
@[simp] theorem State.syncFclk_manualTrigger : s.syncFclk.manualTrigger = s.manualTrigger := rfl
@[simp] theorem State.syncFclk_rxPending : s.syncFclk.rxPending = s.rxPending := rfl
@[simp] theorem State.syncFclk_txPending : s.syncFclk.txPending = s.txPending := rfl
@[simp] theorem State.syncFclk_periodElapsed : s.syncFclk.periodElapsed = s.periodElapsed := rfl
@[simp] theorem State.syncFclk_indicator : s.syncFclk.indicator = s.indicator := rfl
@[simp] theorem State.syncFclk_counters : s.syncFclk.counters = s.counters := rfl
@[simp] theorem State.syncFclk_schPc : s.syncFclk.schPc = s.schPc := rfl
@[simp] theorem State.syncFclk_fg : s.syncFclk.fg = s.fg := rfl
@[simp] theorem State.syncFclk_rxc : s.syncFclk.rxc = s.rxc := rfl
@[simp] theorem State.syncFclk_txc : s.syncFclk.txc = s.txc := rfl
@[simp] theorem State.syncFclk_enqRem : s.syncFclk.enqRem = s.enqRem := rfl
@[simp] theorem State.syncFclk_enqCnt : s.syncFclk.enqCnt = s.enqCnt := rfl
@[simp] theorem State.syncFclk_fgResult : s.syncFclk.fgResult = s.fgResult := rfl
@[simp] theorem State.syncFclk_svcResult : s.syncFclk.svcResult = s.svcResult := rfl
@[simp] theorem State.syncFclk_urx : s.syncFclk.urx = s.urx := rfl
@[simp] theorem State.syncFclk_utx : s.syncFclk.utx = s.utx := rfl
@[simp] theorem State.syncFclk_wireOut : s.syncFclk.wireOut = s.wireOut := rfl
@[simp] theorem State.syncFclk_wireIn : s.syncFclk.wireIn = s.wireIn := rfl
@[simp] theorem State.syncFclk_rxDropped : s.syncFclk.rxDropped = s.rxDropped := rfl
@[simp] theorem State.syncFclk_fireLog : s.syncFclk.fireLog = s.fireLog := rfl
@[simp] theorem State.syncFclk_workLog : s.syncFclk.workLog = s.workLog := rfl
@[simp] theorem State.syncFclk_iteration : s.syncFclk.iteration = s.iteration := rfl
@[simp] theorem State.syncFclk_trace : s.syncFclk.trace = s.trace := rfl
@[simp] theorem State.syncFclk_agenda : s.syncFclk.agenda = s.agenda := rfl
@[simp] theorem State.syncFclk_turnNo : s.syncFclk.turnNo = s.turnNo := rfl
@[simp] theorem State.syncFclk_driver : s.syncFclk.driver = s.driver := rfl
@[simp] theorem State.syncFclk_fmtCalls : s.syncFclk.fmtCalls = s.fmtCalls := rfl

/-! ## `State.syncSclk` -/

@[simp] theorem State.syncSclk_cfg : s.syncSclk.cfg = s.cfg := rfl
@[simp] theorem State.syncSclk_source : s.syncSclk.source = s.source := rfl
@[simp] theorem State.syncSclk_rxf : s.syncSclk.rxf = s.rxf.syncProducer := rfl
@[simp] theorem State.syncSclk_txf : s.syncSclk.txf = s.txf.syncConsumer := rfl
@[simp] theorem State.syncSclk_manualTrigger : s.syncSclk.manualTrigger = s.manualTrigger := rfl
@[simp] theorem State.syncSclk_rxPending : s.syncSclk.rxPending = s.rxPending := rfl
@[simp] theorem State.syncSclk_txPending : s.syncSclk.txPending = s.txPending := rfl
@[simp] theorem State.syncSclk_periodElapsed : s.syncSclk.periodElapsed = s.periodElapsed := rfl
@[simp] theorem State.syncSclk_indicator : s.syncSclk.indicator = s.indicator := rfl
@[simp] theorem State.syncSclk_counters : s.syncSclk.counters = s.counters := rfl
@[simp] theorem State.syncSclk_schPc : s.syncSclk.schPc = s.schPc := rfl
@[simp] theorem State.syncSclk_fg : s.syncSclk.fg = s.fg := rfl
@[simp] theorem State.syncSclk_rxc : s.syncSclk.rxc = s.rxc := rfl
@[simp] theorem State.syncSclk_txc : s.syncSclk.txc = s.txc := rfl
@[simp] theorem State.syncSclk_enqRem : s.syncSclk.enqRem = s.enqRem := rfl
@[simp] theorem State.syncSclk_enqCnt : s.syncSclk.enqCnt = s.enqCnt := rfl
@[simp] theorem State.syncSclk_fgResult : s.syncSclk.fgResult = s.fgResult := rfl
@[simp] theorem State.syncSclk_svcResult : s.syncSclk.svcResult = s.svcResult := rfl
@[simp] theorem State.syncSclk_urx : s.syncSclk.urx = s.urx := rfl
@[simp] theorem State.syncSclk_utx : s.syncSclk.utx = s.utx := rfl
@[simp] theorem State.syncSclk_wireOut : s.syncSclk.wireOut = s.wireOut := rfl
@[simp] theorem State.syncSclk_wireIn : s.syncSclk.wireIn = s.wireIn := rfl
@[simp] theorem State.syncSclk_rxDropped : s.syncSclk.rxDropped = s.rxDropped := rfl
@[simp] theorem State.syncSclk_fireLog : s.syncSclk.fireLog = s.fireLog := rfl
@[simp] theorem State.syncSclk_workLog : s.syncSclk.workLog = s.workLog := rfl
@[simp] theorem State.syncSclk_iteration : s.syncSclk.iteration = s.iteration := rfl
@[simp] theorem State.syncSclk_trace : s.syncSclk.trace = s.trace := rfl
@[simp] theorem State.syncSclk_agenda : s.syncSclk.agenda = s.agenda := rfl
@[simp] theorem State.syncSclk_turnNo : s.syncSclk.turnNo = s.turnNo := rfl
@[simp] theorem State.syncSclk_driver : s.syncSclk.driver = s.driver := rfl
@[simp] theorem State.syncSclk_fmtCalls : s.syncSclk.fmtCalls = s.fmtCalls := rfl

/-! ## `State.finish` -/

@[simp] theorem State.finish_cfg : s.finish.cfg = s.cfg := by unfold State.finish; split <;> rfl
@[simp] theorem State.finish_source :
    s.finish.source = s.source :=
  by unfold State.finish; split <;> rfl
@[simp] theorem State.finish_rxf : s.finish.rxf = s.rxf := by unfold State.finish; split <;> rfl
@[simp] theorem State.finish_txf : s.finish.txf = s.txf := by unfold State.finish; split <;> rfl
@[simp] theorem State.finish_manualTrigger :
    s.finish.manualTrigger = s.manualTrigger :=
  by unfold State.finish; split <;> rfl
@[simp] theorem State.finish_rxPending :
    s.finish.rxPending = s.rxPending :=
  by unfold State.finish; split <;> rfl
@[simp] theorem State.finish_txPending :
    s.finish.txPending = s.txPending :=
  by unfold State.finish; split <;> rfl
@[simp] theorem State.finish_periodElapsed :
    s.finish.periodElapsed = s.periodElapsed :=
  by unfold State.finish; split <;> rfl
@[simp] theorem State.finish_indicator :
    s.finish.indicator = s.indicator :=
  by unfold State.finish; split <;> rfl
@[simp] theorem State.finish_counters :
    s.finish.counters = s.counters :=
  by unfold State.finish; split <;> rfl
@[simp] theorem State.finish_fg : s.finish.fg = .idle := by unfold State.finish; split <;> rfl
@[simp] theorem State.finish_rxc : s.finish.rxc = s.rxc := by unfold State.finish; split <;> rfl
@[simp] theorem State.finish_txc : s.finish.txc = s.txc := by unfold State.finish; split <;> rfl
@[simp] theorem State.finish_enqRem :
    s.finish.enqRem = s.enqRem :=
  by unfold State.finish; split <;> rfl
@[simp] theorem State.finish_enqCnt :
    s.finish.enqCnt = s.enqCnt :=
  by unfold State.finish; split <;> rfl
@[simp] theorem State.finish_fgResult :
    s.finish.fgResult = s.fgResult :=
  by unfold State.finish; split <;> rfl
@[simp] theorem State.finish_svcResult :
    s.finish.svcResult = s.svcResult :=
  by unfold State.finish; split <;> rfl
@[simp] theorem State.finish_urx : s.finish.urx = s.urx := by unfold State.finish; split <;> rfl
@[simp] theorem State.finish_utx : s.finish.utx = s.utx := by unfold State.finish; split <;> rfl
@[simp] theorem State.finish_wireOut :
    s.finish.wireOut = s.wireOut :=
  by unfold State.finish; split <;> rfl
@[simp] theorem State.finish_wireIn :
    s.finish.wireIn = s.wireIn :=
  by unfold State.finish; split <;> rfl
@[simp] theorem State.finish_rxDropped :
    s.finish.rxDropped = s.rxDropped :=
  by unfold State.finish; split <;> rfl
@[simp] theorem State.finish_fireLog :
    s.finish.fireLog = s.fireLog :=
  by unfold State.finish; split <;> rfl
@[simp] theorem State.finish_workLog :
    s.finish.workLog = s.workLog :=
  by unfold State.finish; split <;> rfl
@[simp] theorem State.finish_trace :
    s.finish.trace = s.trace :=
  by unfold State.finish; split <;> rfl
@[simp] theorem State.finish_agenda :
    s.finish.agenda = s.agenda :=
  by unfold State.finish; split <;> rfl
@[simp] theorem State.finish_turnNo :
    s.finish.turnNo = s.turnNo :=
  by unfold State.finish; split <;> rfl
@[simp] theorem State.finish_driver :
    s.finish.driver = s.driver :=
  by unfold State.finish; split <;> rfl
@[simp] theorem State.finish_fmtCalls :
    s.finish.fmtCalls = s.fmtCalls :=
  by unfold State.finish; split <;> rfl

/-! ## Selecting and replacing a FIFO -/

@[simp] theorem State.fifo_setFifo_same (f : FifoSel) (q : Fifo) : (s.setFifo f q).fifo f = q := by
  cases f <;> rfl

@[simp] theorem State.setFifo_rxf_eq (q : Fifo) : s.setFifo .rxf q = { s with rxf := q } := rfl
@[simp] theorem State.setFifo_txf_eq (q : Fifo) : s.setFifo .txf q = { s with txf := q } := rfl
@[simp] theorem State.fifo_rxf : s.fifo .rxf = s.rxf := rfl
@[simp] theorem State.fifo_txf : s.fifo .txf = s.txf := rfl

theorem State.fifo_setFifo_other {f g : FifoSel} (q : Fifo) (h : g ≠ f) :
    (s.setFifo f q).fifo g = s.fifo g := by
  cases f <;> cases g <;> first | rfl | exact absurd rfl h

end Sys2Proof.Machine
end

