-- ==== Sys2Proof/Laws/Loops.lean ====
section
/-! SUPPORT. What the three loops do: pushing a list of bytes into a FIFO, enqueuing a string
(`42_tx_controller.md` rule R153), draining `urx` into RXF (`41_rx_controller.md` rule R140) and draining
TXF into `utx` (`42_tx_controller.md` rule R150). One lemma each says everything the loop can do. -/

namespace Sys2Proof.Machine

/-! ## Pushing a list of bytes -/

theorem Fifo.room_eq_zero_iff (f : Fifo) : f.room = 0 ↔ f.producerFull = true := by
  have := f.behind_lt f.writeIndex f.readSeen
  rw [f.producerFull_iff]; unfold Fifo.room Fifo.producerCount; omega

theorem Fifo.room_pos_iff (f : Fifo) : 0 < f.room ↔ f.producerFull = false := by
  rw [← Bool.not_eq_true, ← f.room_eq_zero_iff]; omega

theorem Fifo.room_push {f : Fifo} (b : Byte) (h : f.producerFull = false) :
    (f.push b).1.room = f.room - 1 := by
  unfold Fifo.room
  rw [f.push_capacity, f.push_producerCount b h]; omega

theorem Fifo.pushAll_of_full {f : Fifo} (l : List Byte) (h : f.producerFull = true) :
    Fifo.pushAll l f = (f, 0) := by
  induction l with
  | nil => rfl
  | cons b l ih => simp [Fifo.pushAll, f.push_of_full b h, ih]

theorem Fifo.pushAll_cons_of_not_full {f : Fifo} (b : Byte) (l : List Byte)
    (h : f.producerFull = false) :
    Fifo.pushAll (b :: l) f =
      ((Fifo.pushAll l (f.push b).1).1, (Fifo.pushAll l (f.push b).1).2 + 1) := by
  simp [Fifo.pushAll, f.push_stored, h]

theorem Fifo.pushAll_stored (l : List Byte) (f : Fifo) :
    (Fifo.pushAll l f).2 = min l.length f.room := by
  induction l generalizing f with
  | nil => simp [Fifo.pushAll]
  | cons b l ih =>
    cases h : f.producerFull
    · rw [Fifo.pushAll_cons_of_not_full b l h, ih, Fifo.room_push b h]
      have := f.room_pos_iff.mpr h
      simp only [List.length_cons]; omega
    · rw [Fifo.pushAll_of_full _ h, f.room_eq_zero_iff.mpr h]; simp

theorem Fifo.pushAll_capacity (l : List Byte) (f : Fifo) :
    (Fifo.pushAll l f).1.capacity = f.capacity := by
  induction l generalizing f with
  | nil => rfl
  | cons b l ih => exact (ih _).trans (f.push_capacity b)

theorem Fifo.pushAll_readIndex (l : List Byte) (f : Fifo) :
    (Fifo.pushAll l f).1.readIndex.val = f.readIndex.val := by
  induction l generalizing f with
  | nil => rfl
  | cons b l ih => exact (ih _).trans (f.push_readIndex b)

theorem Fifo.pushAll_writeIndex (l : List Byte) (f : Fifo) :
    (Fifo.pushAll l f).1.writeIndex.val =
      (f.writeIndex.val + min l.length f.room) % f.capacity := by
  induction l generalizing f with
  | nil => simp [Fifo.pushAll, Nat.mod_eq_of_lt f.writeIndex.isLt]
  | cons b l ih =>
    cases h : f.producerFull
    · rw [Fifo.pushAll_cons_of_not_full b l h]
      simp only
      rw [ih, Fifo.room_push b h, f.push_writeIndex b h, f.push_capacity,
        f.succ_eq_mod f.writeIndex.isLt, Nat.mod_add_mod]
      have := f.room_pos_iff.mpr h
      congr 1
      simp only [List.length_cons]; omega
    · rw [Fifo.pushAll_of_full _ h, f.room_eq_zero_iff.mpr h]
      simp [Nat.mod_eq_of_lt f.writeIndex.isLt]

/-- Only the slots of the stored bytes are written. -/
theorem Fifo.pushAll_slot_other (l : List Byte) (f : Fifo) {i : Nat}
    (hi : ∀ j, j < min l.length f.room → i ≠ (f.writeIndex.val + j) % f.capacity) :
    (Fifo.pushAll l f).1.slot i = f.slot i := by
  induction l generalizing f with
  | nil => rfl
  | cons b l ih =>
    cases h : f.producerFull
    · have hr := f.room_pos_iff.mpr h
      have h0 := hi 0 (by simp only [List.length_cons]; omega)
      rw [Nat.add_zero, Nat.mod_eq_of_lt f.writeIndex.isLt] at h0
      rw [Fifo.pushAll_cons_of_not_full b l h]
      simp only
      rw [ih, f.push_slot_other b h0]
      intro j hj
      rw [f.push_writeIndex b h, f.push_capacity, f.succ_eq_mod f.writeIndex.isLt,
        Nat.mod_add_mod]
      rw [Fifo.room_push b h] at hj
      have := hi (j + 1) (by simp only [List.length_cons]; omega)
      rwa [show f.writeIndex.val + 1 + j = f.writeIndex.val + (j + 1) by omega]
    · rw [Fifo.pushAll_of_full _ h]

theorem Fifo.pushAll_views (l : List Byte) (f : Fifo) :
    (Fifo.pushAll l f).1.views = f.views := by
  induction l generalizing f with
  | nil => rfl
  | cons b l ih => exact (ih _).trans (f.push_views b)

theorem Fifo.pushAll_lagIs {n : Nat} (l : List Byte) (f : Fifo) (h : f.lagIs n) :
    (Fifo.pushAll l f).1.lagIs n := by
  induction l generalizing f with
  | nil => exact h
  | cons b l ih => exact ih _ (f.push_lagIs b h)

theorem Fifo.pushAll_sound (l : List Byte) (f : Fifo) (hs : f.sound) :
    (Fifo.pushAll l f).1.sound := by
  induction l generalizing f with
  | nil => exact hs
  | cons b l ih => exact ih _ (f.push_sound b hs)

/-- The bytes that fit join the queue, in order. -/
theorem Fifo.pushAll_queue (l : List Byte) (f : Fifo) (hs : f.sound) :
    (Fifo.pushAll l f).1.queue = f.queue ++ l.take f.room := by
  induction l generalizing f with
  | nil => simp [Fifo.pushAll]
  | cons b l ih =>
    cases h : f.producerFull
    · have hr := f.room_pos_iff.mpr h
      rw [Fifo.pushAll_cons_of_not_full b l h]
      simp only
      rw [ih _ (f.push_sound b hs), Fifo.room_push b h,
        f.push_queue b h (hs.2.isFull_eq_false h), List.append_assoc]
      obtain ⟨n, hn⟩ : ∃ n, f.room = n + 1 := ⟨f.room - 1, by omega⟩
      simp [hn]
    · rw [Fifo.pushAll_of_full _ h, f.room_eq_zero_iff.mpr h]; simp

/-! ## Storage form -/

theorem Fifo.pushP2_storageOk {f : Fifo} (tw : Nat) (b : Byte) (h : f.storageOk) :
    (f.pushP2 tw b).storageOk := by
  refine ⟨Memory.wf_write _ _ h.1, fun c hc => ?_⟩
  rcases Memory.mem_write hc with rfl | hc
  · exact (f.cursor tw).isLt
  · exact h.2 c hc

theorem Fifo.push_storageOk {f : Fifo} (b : Byte) (h : f.storageOk) : (f.push b).1.storageOk := by
  cases hf : f.producerFull
  · rw [f.push_of_not_full b hf]; exact Fifo.pushP2_storageOk _ b h
  · rw [f.push_of_full b hf]; exact h

theorem Fifo.pushAll_storageOk (l : List Byte) {f : Fifo} (h : f.storageOk) :
    (Fifo.pushAll l f).1.storageOk := by
  induction l generalizing f with
  | nil => exact h
  | cons b l ih => exact ih (Fifo.push_storageOk b h)

/-! ## The receive loop -/

/-- The bytes of `l` that fit go into RXF, the rest is dropped, and `urx` is left empty. -/
theorem State.drainUrx_eq (l : List Byte) (s : State) :
    State.drainUrx l s = { s with
      urx := []
      rxf := (Fifo.pushAll l s.rxf).1
      rxDropped := s.rxDropped ++ l.drop s.rxf.room } := by
  induction l generalizing s with
  | nil => simp [State.drainUrx, Fifo.pushAll]
  | cons b l ih =>
    cases h : s.rxf.producerFull
    · have hr := s.rxf.room_pos_iff.mpr h
      obtain ⟨n, hn⟩ : ∃ n, s.rxf.room = n + 1 := ⟨s.rxf.room - 1, by omega⟩
      rw [State.drainUrx, ih, Fifo.pushAll_cons_of_not_full b l h]
      simp [State.receiveByte, Fifo.room_push b h, hn, s.rxf.push_stored, h]
    · have hr := s.rxf.room_eq_zero_iff.mpr h
      rw [State.drainUrx, ih, Fifo.pushAll_of_full _ h]
      simp [State.receiveByte, s.rxf.push_of_full b h, hr, Fifo.pushAll_of_full l h]

/-! ## The transmit loop -/

/-- What a drained state keeps and what holds of it: TXF's producer side and storage stay, the bytes that
left the queue joined `utx` in order, and the loop ended because the transmitter is full or TXC sees TXF
empty. -/
structure State.Drained (s t : State) : Prop where
  frame : t = { s with txf := t.txf, utx := t.utx }
  capacity : t.txf.capacity = s.txf.capacity
  writeIndex : t.txf.writeIndex.val = s.txf.writeIndex.val
  storage : t.txf.storage = s.txf.storage
  views : t.txf.views = s.txf.views
  stream : s.txf.viewsOk → t.utx ++ t.txf.queue = s.utx ++ s.txf.queue
  grows : s.utx.length ≤ t.utx.length
  done : t.utxFull = true ∨ t.txf.consumerEmpty = true
  sound : s.txf.sound → t.txf.sound
  lagIs : ∀ n, s.txf.lagIs n → t.txf.lagIs n
  bound : s.utx.length ≤ s.cfg.utxDepth → t.utx.length ≤ s.cfg.utxDepth
  moved : s.utxFull = false → s.txf.consumerEmpty = false → s.utx.length < t.utx.length
  readIndex : t.txf.readIndex.val =
    (s.txf.readIndex.val + (t.utx.length - s.utx.length)) % s.txf.capacity

theorem State.Drained.refl {s : State} (h : s.utxFull = true ∨ s.txf.consumerEmpty = true) :
    s.Drained s where
  frame := rfl
  capacity := rfl
  writeIndex := rfl
  storage := rfl
  views := rfl
  stream := fun _ => rfl
  grows := Nat.le_refl _
  done := h
  sound := id
  lagIs := fun _ => id
  bound := id
  moved := fun hf he => by rcases h with h | h <;> simp_all
  readIndex := by simp [Nat.mod_eq_of_lt s.txf.readIndex.isLt]

/-- The pass of the transmit loop that moves the byte `b`. -/
def State.sendByte (s : State) (b : Byte) : State :=
  { s with txf := s.txf.popC3 s.txf.readIndex.val }.ioWrite b

theorem State.Drained.step {s t : State} {b : Byte} (hf : s.utxFull = false)
    (he : s.txf.consumerEmpty = false) (hb : s.txf.slot s.txf.readIndex.val = some b)
    (h : (s.sendByte b).Drained t) : s.Drained t where
  frame := by rw [h.frame]; rfl
  capacity := h.capacity
  writeIndex := h.writeIndex
  storage := h.storage
  views := h.views
  stream := fun hv => by
    rw [h.stream (s.txf.popC3_viewsOk he hv), s.txf.popC3_queue (hv.isEmpty_eq_false he) hb]
    simp [State.sendByte]
  grows := by have := h.grows; simp [State.sendByte] at this; omega
  done := h.done
  sound := fun hs => h.sound (s.txf.popC3_sound he hs)
  lagIs := h.lagIs
  bound := fun hu => by
    refine h.bound ?_
    simp only [State.utxFull, decide_eq_false_iff_not] at hf
    simp only [State.sendByte, State.ioWrite_utx, State.ioWrite_cfg, List.length_append,
      List.length_singleton]
    omega
  moved := fun _ _ => by have := h.grows; simp [State.sendByte] at this; omega
  readIndex := by
    have hg := h.grows
    have hi := h.readIndex
    simp only [State.sendByte, State.ioWrite_utx, State.ioWrite_txf, List.length_append,
      List.length_singleton] at hg hi
    rw [hi, s.txf.popC3_readIndex, s.txf.succ_eq_mod s.txf.readIndex.isLt]
    show (_ % s.txf.capacity + _) % s.txf.capacity = _
    rw [Nat.mod_add_mod]
    congr 1
    omega

/-- Everything the transmit loop can do with enough passes: end drained, or read a slot that was never
written. -/
theorem State.drainTxf_cases (fuel : Nat) (s : State) (h : s.txf.consumerCount ≤ fuel) :
    (∃ t, s.drainTxf fuel = .next t ∧ s.Drained t) ∨
    (¬ s.txf.sound ∧ s.drainTxf fuel = .fault .unwrittenSlot) := by
  induction fuel generalizing s with
  | zero =>
    exact .inl ⟨s, rfl, .refl (.inr (s.txf.consumerEmpty_iff.mpr (by omega)))⟩
  | succ fuel ih =>
    rw [State.drainTxf]
    cases hf : s.utxFull
    · rcases s.txf.pop_cases with ⟨he, hp⟩ | ⟨b, he, hb, hp⟩ | ⟨he, hb, hp⟩
      · exact .inl ⟨s, by simp [hp], .refl (.inr he)⟩
      · have hc := s.txf.popC3_consumerCount he
        have hle : (s.sendByte b).txf.consumerCount ≤ fuel := by
          show (s.txf.popC3 s.txf.readIndex.val).consumerCount ≤ fuel
          omega
        simp only [hp, Bool.false_eq_true, if_false]
        rcases ih (s.sendByte b) hle with ⟨t, ht, hd⟩ | ⟨hw, ht⟩
        · exact .inl ⟨t, ht, .step hf he hb hd⟩
        · exact .inr ⟨fun hs => hw (s.txf.popC3_sound he hs), ht⟩
      · refine .inr ⟨fun hs => ?_, by simp [hp]⟩
        obtain ⟨b, hb'⟩ := s.txf.slot_read hs.1 (hs.2.isEmpty_eq_false he)
        simp [hb] at hb'
    · exact .inl ⟨s, by simp, .refl (.inl hf)⟩

/-! ## The bridge's loop -/

/-- One `ENQB` as a record: the FIFO after the push, and the kick if the byte was stored. -/
theorem State.enqueueByte_of_not_full {s : State} (b : Byte) (h : s.txf.producerFull = false) :
    s.enqueueByte b = ({ s with
      txf := (s.txf.push b).1
      manualTrigger := false
      txPending := s.txPending || s.manualTrigger
      fgResult := resultWord false true 0
      trace := s.trace ++ [⟨.foreground, operationWord 0x5 0 b, resultWord false true 0⟩] },
      true) := by
  obtain hm | hm : s.manualTrigger = false ∨ s.manualTrigger = true := by
    cases s.manualTrigger <;> simp
  all_goals
    cases s
    simp only at hm h
    subst hm
    simp [State.enqueueByte, Fifo.push_stored, h, State.kickCheck, State.requestTx,
      State.retire, State.log, encode]

theorem State.enqueueByte_of_full {s : State} (b : Byte) (h : s.txf.producerFull = true) :
    s.enqueueByte b = ({ s with
      fgResult := resultWord false false 0
      trace := s.trace ++ [⟨.foreground, operationWord 0x5 0 b, resultWord false false 0⟩] },
      false) := by
  simp [State.enqueueByte, Fifo.push_stored, h, State.retire, State.log, encode]

/-- What the enqueue of the bytes `str` does: the bytes that fit are stored, a request is honoured by the
first of them, and nothing else of the block changes. -/
structure State.Enqueued (str : List Byte) (s t : State) : Prop where
  frame : t = { s with
    txf := (Fifo.pushAll str s.txf).1
    manualTrigger := s.manualTrigger && decide (min str.length s.txf.room = 0)
    txPending := s.txPending || s.manualTrigger && decide (0 < min str.length s.txf.room)
    enqRem := if str = [] then s.enqRem else []
    enqCnt := s.enqCnt + min str.length s.txf.room
    fgResult := t.fgResult
    trace := t.trace }
  words : s.cfg.enqPolicy = .attemptEach → t.trace = s.trace ++
    (str.take s.txf.room).map
      (fun b => ⟨.foreground, operationWord 0x5 0 b, resultWord false true 0⟩) ++
    (str.drop s.txf.room).map
      (fun b => ⟨.foreground, operationWord 0x5 0 b, resultWord false false 0⟩)

theorem State.enqueueLoop_spec (str : List Byte) (s : State) :
    s.Enqueued str (State.enqueueLoop str s) := by
  induction str generalizing s with
  | nil =>
    cases s
    constructor
    · simp [State.enqueueLoop, Fifo.pushAll]
    · simp [State.enqueueLoop]
  | cons b str ih =>
    cases h : s.txf.producerFull
    · have hr := s.txf.room_pos_iff.mpr h
      obtain ⟨n, hn⟩ : ∃ n, s.txf.room = n + 1 := ⟨s.txf.room - 1, by omega⟩
      have hrp := Fifo.room_push b h
      have hloop : State.enqueueLoop (b :: str) s =
          State.enqueueLoop str ((s.enqueueByte b).1.countByte true str) := by
        rw [State.enqueueLoop, State.enqueueByte_of_not_full b h]
      rw [hloop]
      obtain ⟨hf, hw⟩ := ih ((s.enqueueByte b).1.countByte true str)
      rw [State.enqueueByte_of_not_full b h] at hf hw ⊢
      constructor
      · rw [hf, Fifo.pushAll_cons_of_not_full b str h]
        simp only [State.countByte, hrp, hn, List.length_cons, if_true]
        cases str <;> cases s.manualTrigger <;> simp <;> omega
      · intro hp
        rw [hw hp]
        simp [State.countByte, hrp, hn]
    · have hr := s.txf.room_eq_zero_iff.mpr h
      cases hp : s.cfg.enqPolicy
      · have hloop : State.enqueueLoop (b :: str) s =
            State.enqueueLoop str ((s.enqueueByte b).1.countByte false str) := by
          rw [State.enqueueLoop, State.enqueueByte_of_full b h]
          simp only [hp]
        rw [hloop]
        obtain ⟨hf, hw⟩ := ih ((s.enqueueByte b).1.countByte false str)
        rw [State.enqueueByte_of_full b h] at hf hw ⊢
        constructor
        · rw [hf, Fifo.pushAll_of_full _ h]
          simp only [State.countByte, hr, hp]
          rw [Fifo.pushAll_of_full _ h]
          cases str <;> simp
        · intro _
          rw [hw hp]
          simp [State.countByte, hr]
      · have hloop : State.enqueueLoop (b :: str) s =
            (s.enqueueByte b).1.countByte false str := by
          rw [State.enqueueLoop, State.enqueueByte_of_full b h]
          simp only [hp]
        rw [hloop, State.enqueueByte_of_full b h]
        constructor
        · rw [Fifo.pushAll_of_full _ h]
          simp [State.countByte, hr, hp]
        · intro h'; simp [hp] at h'

theorem State.enqueueString_spec (str : List Byte) (s : State) :
    State.Enqueued str { s with enqRem := str, enqCnt := 0 } (s.enqueueString str) :=
  State.enqueueLoop_spec str _

end Sys2Proof.Machine
end

