-- ==== Sys2Proof/Laws/PerInstr.lean ====
section
/-! SUPPORT. One statement for every operation, one lemma per constructor: how many words an operation has,
and that none of them has a reserved `op` (`30_encoding.md` rules R90, R93, R95, R99). -/

namespace Sys2Proof.Laws.WordShape

/-- An operation with a word has exactly one, and no word of any operation has a reserved `op`. -/
def Statement (i : Instr) : Prop :=
  (i.hasWord = true → (encode i).length = 1) ∧
    ∀ w ∈ encode i, opField w ∈ [0x1, 0x2, 0x3, 0x4, 0x5, 0x6, 0x8, 0x9, 0xA, 0xB, 0xC, 0xD]

theorem of_single {i : Instr} {op sel : Nat} {imm : Byte} (he : encode i = [operationWord op sel imm])
    (hlt : op < 16)
    (hop : op ∈ [0x1, 0x2, 0x3, 0x4, 0x5, 0x6, 0x8, 0x9, 0xA, 0xB, 0xC, 0xD]) : Statement i := by
  refine ⟨fun _ => by rw [he]; rfl, fun w hw => ?_⟩
  rw [he, List.mem_singleton] at hw
  rwa [hw, opField_operationWord _ _ hlt]

theorem push (f : FifoSel) (b : Byte) : Statement (.push f b) :=
  of_single rfl (by decide) (by decide)

theorem pop (f : FifoSel) : Statement (.pop f) := of_single rfl (by decide) (by decide)

theorem isempty (f : FifoSel) : Statement (.isempty f) := of_single rfl (by decide) (by decide)

theorem isfull (f : FifoSel) : Statement (.isfull f) := of_single rfl (by decide) (by decide)

theorem enqb (b : Byte) : Statement (.enqb b) := of_single rfl (by decide) (by decide)

theorem kick : Statement .kick := of_single rfl (by decide) (by decide)

theorem rxsvc : Statement .rxsvc := of_single rfl (by decide) (by decide)

theorem txsvc : Statement .txsvc := of_single rfl (by decide) (by decide)

theorem inc : Statement .inc := of_single rfl (by decide) (by decide)

theorem disp (t : Nat) : Statement (.disp t) := of_single rfl (by decide) (by decide)

theorem work : Statement .work := of_single rfl (by decide) (by decide)

theorem waitp : Statement .waitp := of_single rfl (by decide) (by decide)

theorem enq (str : List Byte) : Statement (.enq str) := by
  refine ⟨fun h => absurd h Bool.false_ne_true, fun w hw => ?_⟩
  simp only [encode, List.mem_map] at hw
  obtain ⟨b, _, rfl⟩ := hw
  rw [opField_operationWord _ _ (by decide)]
  decide

end Sys2Proof.Laws.WordShape
end

