-- ==== Sys2Proof/Laws/Turns.lean ====
section
/-! SUPPORT. What choosing a turn, fetching a word and completing an operation can do: one lemma for each
case, so that no later proof unfolds `step`, `fgIssue` or `finish`. -/

namespace Sys2Proof.Machine

/-! ## Choosing the turn -/

theorem step_of_agenda {s : State} {t : Turn} {rest : List Turn} (h : s.agenda = t :: rest) :
    step s = takeTurn t { s with agenda := rest } := by
  unfold step nextTurn
  rw [h]

theorem step_of_agenda_nil {s : State} (h : s.agenda = []) :
    step s = takeTurn (Config.freeTurn s.turnNo) { s with turnNo := s.turnNo + 1 } := by
  unfold step nextTurn
  rw [h]

/-- A step is the turn of some agent, in the state with only the model's inputs moved on. -/
theorem step_eq_takeTurn (s : State) : ∃ (t : Turn) (l : List Turn) (n : Nat),
    step s = takeTurn t { s with agenda := l, turnNo := n } := by
  cases h : s.agenda with
  | nil =>
    refine ⟨Config.freeTurn s.turnNo, [], s.turnNo + 1, ?_⟩
    rw [step_of_agenda_nil h, ← h]
  | cons t rest => exact ⟨t, rest, s.turnNo, step_of_agenda h⟩

/-! ## Fetching and issuing -/

theorem fgOpTurn_of_idle {s : State} (h : s.fg = .idle) : fgOpTurn s = fgIssue runWhole s := by
  unfold fgOpTurn
  rw [h]

theorem fgMicroTurn_of_idle {s : State} (h : s.fg = .idle) : fgMicroTurn s = fgIssue fgBegin s := by
  unfold fgMicroTurn
  rw [h]

theorem fgOpTurn_of_ctx {s : State} (h : s.fg ≠ .idle) : fgOpTurn s = fgContinue s := by
  unfold fgOpTurn
  split
  · contradiction
  · rfl

theorem fgMicroTurn_of_ctx {s : State} (h : s.fg ≠ .idle) : fgMicroTurn s = fgContinue s := by
  unfold fgMicroTurn
  split
  · contradiction
  · rfl

variable {run : Instr → State → Result} {s : State} {ow : Word} {i : Instr}

theorem fgIssue_of_ok (hn : s.nextWord = some ow)
    (hd : decodeOn s.cfg.ntask s.source .foreground ow = .ok i) (hh : s.holds i = false) :
    fgIssue run s = run i s.takeWord := by
  simp only [fgIssue, hn, hd, hh, Bool.false_eq_true, if_false]

theorem fgIssue_of_holds (hn : s.nextWord = some ow)
    (hd : decodeOn s.cfg.ntask s.source .foreground ow = .ok i) (hh : s.holds i = true) :
    fgIssue run s = .next s := by
  simp only [fgIssue, hn, hd, hh, if_true]

theorem fgIssue_of_error {r : Reject} (hn : s.nextWord = some ow)
    (hd : decodeOn s.cfg.ntask s.source .foreground ow = .error r) :
    fgIssue run s = .next (s.takeWord.rejectWord ow) := by
  simp only [fgIssue, hn, hd]

theorem fgIssue_of_none (hn : s.nextWord = none) : fgIssue run s = fgNoWord s := by
  simp only [fgIssue, hn]

theorem nextWord_of_driver {words : List Word} (hs : s.source ≠ .sequencer)
    (hd : s.driver = ow :: words) : s.nextWord = some ow := by
  unfold State.nextWord
  split
  · contradiction
  · rw [hd]; rfl
  · rw [hd]; rfl

theorem takeWord_of_driver {words : List Word} (hs : s.source ≠ .sequencer)
    (hd : s.driver = ow :: words) : s.takeWord = { s with driver := words } := by
  unfold State.takeWord
  split
  · contradiction
  · rw [hd]; rfl
  · rw [hd]; rfl

theorem nextWord_of_sequencer (hs : s.source = .sequencer) :
    s.nextWord = sequencerWord s.cfg.ntask s.schPc := by
  unfold State.nextWord
  rw [hs]

theorem takeWord_of_sequencer (hs : s.source = .sequencer) : s.takeWord = s := by
  unfold State.takeWord
  rw [hs]

theorem holds_eq_false_of (h : i = .waitp → s.periodElapsed = true) : s.holds i = false := by
  unfold State.holds
  by_cases hi : i = .waitp
  · rw [h hi, Bool.not_true, Bool.and_false]
  · rw [decide_eq_false hi, Bool.false_and]

/-! ## Decoding on a bus -/

theorem decodeOn_eq_ok {n : Nat} {src : FgSource} {bus : Bus} :
    decodeOn n src bus ow = .ok i ↔ decode n ow = .ok i ∧ busAllows src bus i = true := by
  unfold decodeOn
  cases decode n ow with
  | error r => simp
  | ok j =>
    by_cases hj : j = i
    · subst hj; simp
    · simp only [Except.ok.injEq, hj, false_and, iff_false]
      split <;> simp [hj]

/-! ## Completing an operation -/

theorem finish_of_sequencer (hs : s.source = .sequencer) :
    s.finish = { s.advance with fg := .idle } := if_pos hs

theorem finish_of_driver (hs : s.source ≠ .sequencer) : s.finish = { s with fg := .idle } :=
  if_neg hs

end Sys2Proof.Machine
end

