-- ==== Sys2Proof/Tests/Slice0.lean ====
section
/-! SUPPORT. The model's own tests: words written out bit by bit from the encoding tables, single steps of the
spec's vectors (`95_test_vectors.md`), a smoke test of well-formedness, and for each statement with
hypotheses a witness that meets them. -/

namespace Sys2Proof.Tests

open Sys2Proof Machine

/-! ## Helpers: small states -/

/-- A FIFO of capacity `n + 1` with cursors `r` and `w`. -/
def fifoAt (n r w : Nat) (m : Memory) : Fifo :=
  { capacity := n + 1
    readIndex := ⟨r % (n + 1), Nat.mod_lt r (Nat.succ_pos n)⟩
    writeIndex := ⟨w % (n + 1), Nat.mod_lt w (Nat.succ_pos n)⟩
    storage := m
    readSync := []
    writeSync := [] }

/-- A FIFO whose sides see the other's cursor through two registers, which all hold the cursor values `r'` and
`w'`. -/
def laggedAt (n r w r' w' : Nat) (m : Memory) : Fifo :=
  { fifoAt n r w m with
    readSync := List.replicate 2 ⟨r' % (n + 1), Nat.mod_lt r' (Nat.succ_pos n)⟩
    writeSync := List.replicate 2 ⟨w' % (n + 1), Nat.mod_lt w' (Nat.succ_pos n)⟩ }

/-- The configuration of program P3, with the depths of vectors 1.5 and 2.4. -/
def testConfig : Config :=
  { Config.default with tasks := [⟨2, .toggle⟩, ⟨3, .report⟩], urxDepth := 4, utxDepth := 1, sentMax := 0 }

/-- The state right after reset in that configuration, driven by its sequencer. -/
def base : State := { State.reset with cfg := testConfig }

/-- `base` with a test driver that is about to issue `w`. -/
def driven (w : Word) : State :=
  { base with source := .testDriver, driver := [w], agenda := [.op] }

/-- `base` at slot `pc` of the sequencer's program. -/
def atSlot (pc : Nat) : State := { base with schPc := pc, agenda := [.op] }

/-- The outcome is a next state of which `p` holds. -/
def next? (r : Result) (p : State → Bool) : Bool :=
  match r with
  | .next t => p t
  | .fault _ => false
  | .refused _ => false

/-- TXF of capacity 4 holding `A`, `B`, `C` (vector 1.1, step 3): full. -/
def fullTxf : Fifo := fifoAt 3 0 3 [(0, 0x41), (1, 0x42), (2, 0x43)]

/-- RXF at vector 2.3's last cursor before a wrap: `(r, w) = (9, 4)`, five bytes queued. -/
def wrapRxf : Fifo := fifoAt 9 9 4 [(0, 1), (1, 2), (2, 3), (3, 4), (9, 0x7E)]

/-- `base` with `fullTxf`. -/
def baseFull : State := { base with txf := fullTxf }

/-- `base` with one byte queued in TXF (vector 2.6: `q = [62]`). -/
def baseOne : State := { base with txf := fifoAt 47 1 2 [(0, 0x61), (1, 0x62)] }

/-- `base` with `wrapRxf`. -/
def baseWrap : State := { base with rxf := wrapRxf }

/-- RXF one byte short of full, with three bytes pending (vector 2.4, before the third `RXSVC`). -/
def baseRx : State :=
  { base with
    rxf := fifoAt 9 0 8 [(0, 0x30), (1, 0x31), (2, 0x32), (3, 0x33), (4, 0x34), (5, 0x35), (6, 0x36), (7, 0x37)]
    urx := [0x38, 0x39, 0x3A, 0x3B]
    rxPending := true }

/-! ## Well-formedness -/

/-- `DISP #2` names no task of two (`30_encoding.md` rule R92). -/
theorem test_ill_formed_task : (Instr.disp 2).wellFormed 2 = false := by decide

/-- `DISP #16` does not fit `sel` (`30_encoding.md` rule R90), whatever `NTASK`. -/
theorem test_ill_formed_width : (Instr.disp 16).wellFormed 17 = false := by decide

/-- `DISP #15` of sixteen tasks is the last well-formed one. -/
theorem test_well_formed_task : (Instr.disp 15).wellFormed 16 = true := by decide

/-! ## Decoding: words written out bit by bit (`30_encoding.md` rules R90 to R93; vectors 2.10) -/

theorem test_decode_push : decode 2 0b0001_0001_01000001 = .ok (.push .txf 0x41) := by decide
theorem test_decode_push_rxf : decode 2 0b0001_0000_11111111 = .ok (.push .rxf 0xFF) := by decide
theorem test_decode_pop : decode 2 0b0010_0000_00000000 = .ok (.pop .rxf) := by decide
theorem test_decode_isempty : decode 2 0b0011_0001_00000000 = .ok (.isempty .txf) := by decide
theorem test_decode_isfull : decode 2 0b0100_0000_00000000 = .ok (.isfull .rxf) := by decide
theorem test_decode_enqb : decode 2 0b0101_0000_00100100 = .ok (.enqb 0x24) := by decide
theorem test_decode_kick : decode 2 0b0110_0000_00000000 = .ok .kick := by decide
theorem test_decode_rxsvc : decode 2 0b1000_0000_00000000 = .ok .rxsvc := by decide
theorem test_decode_txsvc : decode 2 0b1001_0000_00000000 = .ok .txsvc := by decide
theorem test_decode_inc : decode 2 0b1010_0000_00000000 = .ok .inc := by decide
theorem test_decode_disp : decode 2 0b1011_0001_00000000 = .ok (.disp 1) := by decide
theorem test_decode_work : decode 2 0b1100_0000_00000000 = .ok .work := by decide
theorem test_decode_waitp : decode 2 0b1101_0000_00000000 = .ok .waitp := by decide

/-- The illegal words of vector 2.10. -/
theorem test_decode_illegal :
    [0x0000, 0x7000, 0xE000, 0xF123, 0x1241, 0x2101, 0x3F00].map (decode 2) =
      [.error .reservedOp, .error .reservedOp, .error .reservedOp, .error .reservedOp,
        .error .reservedSel, .error .nonzeroImm, .error .reservedSel] ∧
    [0x5158, 0x6001, 0xA100, 0xB200, 0xB001].map (decode 2) =
      [.error .nonzeroSel, .error .nonzeroImm, .error .nonzeroSel, .error .reservedSel,
        .error .nonzeroImm] := by decide

/-- The foreign handles and the service words of vector 2.10. -/
theorem test_decode_bus :
    decodeOn 2 .sequencer .foreground 0x10FF = .error .forbiddenBus ∧
    decodeOn 2 .testDriver .foreground 0x2100 = .error .forbiddenBus ∧
    decodeOn 2 .standalone .foreground 0x2100 = .ok (.pop .txf) ∧
    decodeOn 2 .testDriver .foreground 0x8000 = .error .forbiddenBus ∧
    decodeOn 2 .sequencer .service 0x9000 = .ok .txsvc := by decide

/-- `ENQ "OK"` is the two `ENQB` words of program P2. -/
theorem test_encode_enq : encode (.enq [0x4F, 0x4B]) = [0x504F, 0x504B] := by decide

/-! ## Single steps of the spec's vectors -/

/-- Vector 1.1, step 1. -/
theorem test_push : next? (exec (.push .txf 0x41) { base with txf := fifoAt 3 0 0 [] })
    (fun t => decide (t.txf = fifoAt 3 0 1 [(0, 0x41)] ∧ t.fgResult = 0x0100)) = true := by decide

/-- Vector 1.1, step 6: the write wraps. -/
theorem test_push_wraps : next?
    (exec (.push .txf 0x44) { base with txf := fifoAt 3 1 3 [(0, 0x41), (1, 0x42), (2, 0x43)] })
    (fun t => decide (t.txf = fifoAt 3 1 0 [(0, 0x41), (1, 0x42), (2, 0x43), (3, 0x44)])) = true := by
  decide

/-- Vector 1.1, step 5. -/
theorem test_pop : next? (exec (.pop .txf) baseFull)
    (fun t => decide (t.fgResult = 0x0141 ∧ t.txf.readIndex.val = 1 ∧ t.txf.storage = fullTxf.storage))
      = true := by decide

/-- Vector 2.3: the read wraps. -/
theorem test_pop_wraps : next? (exec (.pop .rxf) baseWrap)
    (fun t => decide (t.fgResult = 0x017E ∧ t.rxf.readIndex.val = 0)) = true := by decide

/-- Vector 2.2, capacity 10: `(3, 3)` is empty, `(9, 0)` is not. -/
theorem test_isempty :
    next? (exec (.isempty .rxf) { base with rxf := fifoAt 9 3 3 [] })
      (fun t => decide (t.fgResult = 0x0100)) = true ∧
    next? (exec (.isempty .rxf) { base with rxf := fifoAt 9 9 0 [] })
      (fun t => decide (t.fgResult = 0x0000)) = true := by decide

/-- Vector 2.2, capacity 10: `(3, 2)` is full, `(9, 0)` is not. -/
theorem test_isfull :
    next? (exec (.isfull .rxf) { base with rxf := fifoAt 9 3 2 [] })
      (fun t => decide (t.fgResult = 0x0100)) = true ∧
    next? (exec (.isfull .rxf) { base with rxf := fifoAt 9 9 0 [] })
      (fun t => decide (t.fgResult = 0x0000)) = true := by decide

/-- Vector 2.4, the third `RXSVC`: one byte stored, three dropped. -/
theorem test_rxsvc : next? (exec .rxsvc baseRx)
    (fun t => decide (t.rxf.writeIndex.val = 9 ∧ t.rxf.slot 8 = some 0x38 ∧ t.rxf.slot 9 = none ∧
      t.rxDropped = [0x39, 0x3A, 0x3B] ∧ t.urx = [] ∧ t.rxPending = false)) = true := by decide

/-- Vector 2.4: a spurious `RXSVC` only clears its pending flag. -/
theorem test_rxsvc_spurious : next? (exec .rxsvc { base with rxPending := true })
    (fun t => decide (t = { base with trace := [⟨.service, 0x8000, 0x0000⟩] })) = true := by decide

/-- Vector 1.5, step 1: TXF empty at entry sets the flag. -/
theorem test_txsvc_arms : next? (exec .txsvc { base with manualTrigger := false, txPending := true })
    (fun t => decide (t.manualTrigger = true ∧ t.txPending = false ∧ t.utx = [])) = true := by decide

/-- Vector 2.6: no room, nothing moves. -/
theorem test_txsvc_no_room : next?
    (exec .txsvc { baseOne with utx := [0x61], manualTrigger := false, txPending := true })
    (fun t => decide (t.utx = [0x61] ∧ t.txf = baseOne.txf ∧ t.manualTrigger = false ∧
      t.txPending = false)) = true := by decide

/-- Vector 2.6: `KICK` raises `tx_pending`. -/
theorem test_kick : next? (exec .kick base)
    (fun t => decide (t.txPending = true ∧ t.fgResult = 0x0000 ∧ t.manualTrigger = true)) = true := by
  decide

/-- Vector 1.5, step 2: the stored byte honours the request. -/
theorem test_enqb_kicks : next? (exec (.enqb 0x58) base)
    (fun t => decide (t.txf.slot 0 = some 0x58 ∧ t.txf.writeIndex.val = 1 ∧ t.manualTrigger = false ∧
      t.txPending = true ∧ t.fgResult = 0x0100)) = true := by decide

/-- `42_tx_controller.md` rule R152: a dropped byte makes no kick check. -/
theorem test_enqb_dropped : next? (exec (.enqb 0x44) baseFull)
    (fun t => decide (t.txf = fullTxf ∧ t.manualTrigger = true ∧ t.txPending = false ∧
      t.fgResult = 0x0000)) = true := by decide

/-- Program P2, step 1. -/
theorem test_enq : next? (exec (.enq [0x4F, 0x4B]) base)
    (fun t => decide (t.enqCnt = 2 ∧ t.txf.writeIndex.val = 2 ∧ t.manualTrigger = false ∧
      t.txPending = true ∧ t.trace.map TraceEntry.rw = [0x0100, 0x0100])) = true := by decide

/-- Vector 2.9, `INC`; and at the register's width the count wraps (`43_scheduler.md` rule R171). -/
theorem test_inc : next? (exec .inc { base with counters := [49, 255] })
    (fun t => decide (t.counters = [50, 0])) = true := by decide

/-- Vector 2.9, `DISP #0` due: the indicator toggles. -/
theorem test_disp_toggle : next? (exec (.disp 0) { base with counters := [2, 2], iteration := 2 })
    (fun t => decide (t.counters = [0, 2] ∧ t.indicator = true ∧ t.fireLog = [(2, 0)] ∧
      t.fgResult = 0x0100)) = true := by decide

/-- Program P3, iteration 3: the report of `Hi`, with the trace order of `30_encoding.md` rule R100. -/
theorem test_disp_report :
    (({ base with counters := [1, 3] } : State).dispatch 1 [0x48, 0x69]).trace =
      [⟨.foreground, 0xB100, 0x0100⟩, ⟨.foreground, 0x5048, 0x0100⟩, ⟨.foreground, 0x5069, 0x0100⟩] := by
  decide

/-- Vector 2.9, `WORK`. -/
theorem test_work : next? (exec .work base) (fun t => decide (t.workLog = 1)) = true := by decide

/-- Vector 2.9, `WAITP` with `pe = 1`: `sch_pc` goes from 4 to 0. -/
theorem test_waitp : next? (step { atSlot 4 with periodElapsed := true })
    (fun t => decide (t.periodElapsed = false ∧ t.schPc = 0 ∧ t.iteration = 2)) = true := by decide

/-- Vector 2.9, `WAITP` with `pe = 0`: FG stays. -/
theorem test_waitp_holds : next? (step (atSlot 4))
    (fun t => decide (t = { atSlot 4 with agenda := [] })) = true := by decide

/-- Vector 4.1: TXC's `C3` between FG's `P2` and `P3`. -/
theorem test_pop_inside_push :
    ((((fifoAt 47 5 7 [(5, 0x11), (6, 0x22)]).pushP2 7 0x33).popC3 5).pushP3 8).queue = [0x22, 0x33] := by
  decide

/-- `70_reset_and_hazards.md` rule R240: with a lag the `TXSVC` of a kick sees TXF empty, arms the flag and sends
nothing; two edges of SCLK later it sees the byte. -/
theorem test_lag_strands :
    next? (exec .txsvc { base with txf := laggedAt 47 0 1 0 0 [(0, 0x58)], manualTrigger := false })
      (fun t => decide (t.manualTrigger = true ∧ t.utx = [] ∧ t.txf.count = 1)) = true ∧
    next? (exec .txsvc (State.syncSclkN 2
        { base with txf := laggedAt 47 0 1 0 0 [(0, 0x58)], manualTrigger := false }))
      (fun t => decide (t.manualTrigger = false ∧ t.utx = [0x58])) = true := by decide

/-- Rule R240: a `PUSH` fails although a slot has just been freed, until the lag is over. -/
theorem test_lag_refuses :
    ((laggedAt 3 1 3 0 3 fullTxf.storage).push 0x44).2 = false ∧
      ((Fifo.syncProducerN 1 (laggedAt 3 1 3 0 3 fullTxf.storage)).push 0x44).2 = false ∧
      ((Fifo.syncProducerN 2 (laggedAt 3 1 3 0 3 fullTxf.storage)).push 0x44).2 = true := by decide

/-- `State.withFetchWord` places the word where `step` takes it (log entry 23). -/
theorem test_fetch : next? (step (base.withFetchWord 16 0x5058))
    (fun t => decide (t.txf.slot 0 = some 0x58 ∧ t.agenda = [] ∧ t.driver = [])) = true := by decide

/-! ## Witnesses: encoding -/

theorem test_witness_encode_last_task :
    (Instr.disp 15).hasWord = true ∧ (Instr.disp 15).wellFormed 16 = true := by decide

theorem test_witness_encode_first_task :
    (Instr.disp 0).hasWord = true ∧ (Instr.disp 0).wellFormed 1 = true := by decide

theorem test_witness_decode : decode 16 0xBF00 = .ok (.disp 15) ∧ decode 2 0x1000 = .ok (.push .rxf 0) := by
  decide

/-- Both sides of each bound of the illegal-word statement. -/
theorem test_witness_illegal :
    [0x1100, 0x2100, 0x3100, 0x4100].map (fun w => (decode 2 w).toBool) = [true, true, true, true] ∧
    [0x1200, 0x2200, 0x3200, 0x4200].map (fun w => (decode 2 w).toBool) =
      [false, false, false, false] ∧
    [0x0000, 0x7000, 0xE000, 0xF000].map (fun w => (decode 2 w).toBool) =
      [false, false, false, false] ∧
    [0x5100, 0xB200, 0xB001, 0xD001].map (fun w => (decode 2 w).toBool) =
      [false, false, false, false] := by decide

theorem test_witness_bus :
    decode 2 0x1000 = .ok (.push .rxf 0) ∧ decode 2 0x2100 = .ok (.pop .txf) ∧
      decode 2 0x8000 = .ok .rxsvc ∧ FgSource.testDriver ≠ .standalone := by decide

/-! ## Witnesses: steps and the sequencer -/

theorem test_witness_step_driver :
    (driven 0xD000).agenda = [.op] ∧ (driven 0xD000).fg = .idle ∧ (driven 0xD000).source ≠ .sequencer ∧
      (driven 0xD000).driver = [0xD000] ∧
      decodeOn 2 (driven 0xD000).source .foreground 0xD000 = .ok .waitp ∧
      ({ driven 0xD000 with periodElapsed := true } : State).periodElapsed = true := by decide

theorem test_witness_step_sequencer :
    (atSlot 0).agenda = [.op] ∧ (atSlot 0).fg = .idle ∧ (atSlot 0).source = .sequencer ∧
      sequencerWord (atSlot 0).cfg.ntask (atSlot 0).schPc = some 0xA000 ∧ decode 2 0xA000 = .ok .inc ∧
      sequencerWord 2 4 = some 0xD000 ∧ decode 2 0xD000 = .ok .waitp := by decide

theorem test_witness_step_service :
    ({ base with agenda := [.rxc], rxPending := true } : State).rxEnabled = true ∧
      ({ base with agenda := [.txc], txPending := true } : State).txEnabled = true := by decide

theorem test_witness_illegal_word :
    (driven 0x0000).agenda = [.op] ∧ (driven 0x0000).fg = .idle ∧ (driven 0x0000).source ≠ .sequencer ∧
      (driven 0x0000).driver = [0x0000] ∧
      decodeOn 2 (driven 0x0000).source .foreground 0x0000 = .error .reservedOp ∧
      decodeOn 2 .testDriver .foreground 0x9000 = .error .forbiddenBus := by decide

theorem test_witness_sequencer_slots :
    sequencerWord 16 18 = some 0xD000 ∧ sequencerWord 16 16 = some 0xBF00 ∧ sequencerWord 0 1 = some 0xC000 ∧
      sequencerWord 2 5 = none := by decide

theorem test_witness_advance :
    (atSlot 4).source = .sequencer ∧ (atSlot 4).fg = .idle ∧ (atSlot 4).cfg.ntask ≤ 16 ∧
      (atSlot 4).schPc < (atSlot 4).cfg.ntask + 3 ∧ (atSlot 4).schPc = (atSlot 4).cfg.ntask + 2 ∧
      (atSlot 4).periodElapsed = false ∧ (atSlot 3).schPc ≠ (atSlot 3).cfg.ntask + 2 := by decide

/-! ## Witnesses: reset and building a machine -/

theorem test_witness_reset : ({ baseFull with agenda := [.reset] } : State).agenda = [.reset] := by decide

theorem test_witness_legal : testConfig.legal = true ∧
    ({ testConfig with tasks := List.replicate 16 ⟨1, .toggle⟩ } : Config).legal = true ∧
    ({ testConfig with tasks := List.replicate 17 ⟨1, .toggle⟩ } : Config).legal = false ∧
    ({ testConfig with utxDepth := 0 } : Config).legal = false ∧
    ({ testConfig with tasks := [⟨0, .toggle⟩] } : Config).legal = false ∧
    ({ testConfig with tasks := [⟨255, .toggle⟩] } : Config).legal = true ∧
    ({ testConfig with tasks := [⟨256, .toggle⟩] } : Config).legal = false := by decide

theorem test_witness_boot : next? (State.boot testConfig 2 2) (fun t => decide (t.rxf.capacity = 2)) = true ∧
    next? (State.boot { testConfig with syncLag := 2 } 2 2) (fun t => decide (t.txf.lagIs 2)) = true ∧
    next? (State.boot testConfig 2 1) (fun _ => true) = false := by decide

/-! ## Witnesses: the ring buffer -/

theorem test_witness_push : (base.fifo .txf).producerFull = false ∧
    (baseWrap.fifo .rxf).producerFull = false := by decide

theorem test_witness_push_full : (baseFull.fifo .txf).producerFull = true ∧
    (baseFull.fifo .txf).isFull = true ∧ (baseFull.fifo .txf).viewsOk := by decide

theorem test_witness_pop_empty : (base.fifo .rxf).consumerEmpty = true ∧
    (base.fifo .rxf).isEmpty = true ∧ (base.fifo .rxf).viewsOk := by decide

theorem test_witness_pop : (baseWrap.fifo .rxf).consumerEmpty = false ∧
    (baseWrap.fifo .rxf).slot (baseWrap.fifo .rxf).readIndex.val = some 0x7E := by decide

theorem test_witness_pop_unwritten :
    (fifoAt 9 3 4 []).consumerEmpty = false ∧ (fifoAt 9 3 4 []).slot 3 = none := by decide

theorem test_witness_queue : fullTxf.sound ∧ fullTxf.isFull = true ∧ wrapRxf.sound ∧
    (fifoAt 9 5 5 []).sound ∧ fullTxf.lagIs 0 := by decide

theorem test_witness_reserved_slot :
    2 ≤ (fifoAt 1 1 1 []).capacity ∧ (fifoAt 1 1 1 []).isEmpty = true ∧ (fifoAt 1 1 1 []).lagIs 0 ∧
      [(0x41 : Byte)].length = (fifoAt 1 1 1 []).capacity - 1 ∧
      (laggedAt 1 1 1 1 1 []).lagIs 2 ∧ (laggedAt 1 1 1 1 1 []).viewsCurrent := by decide

theorem test_witness_pop_inside_push :
    (fifoAt 2 2 0 [(2, 0x41)]).sound ∧ (fifoAt 2 2 0 [(2, 0x41)]).queue = 0x41 :: [] ∧
      (fifoAt 2 2 0 [(2, 0x41)]).consumerEmpty = false ∧
      (fifoAt 2 2 0 [(2, 0x41)]).pushP1 = some (0, 1) := by decide

theorem test_witness_data_before_cursor :
    (baseFull.atStep (.pushP2 .txf 0x44 3 0)).fg = .pushP2 .txf 0x44 3 0 ∧
      (baseFull.atStep (.pushP3 .txf 0x44 0)).fg = .pushP3 .txf 0x44 0 ∧
      (baseWrap.atStep (.popC2 .rxf 9)).fg = .popC2 .rxf 9 ∧ wrapRxf.slot (9 % wrapRxf.capacity) = some 0x7E ∧
      (baseWrap.atStep (.popC3 .rxf 9 0x7E)).fg = .popC3 .rxf 9 0x7E := by decide

theorem test_witness_data_before_cursor_controllers :
    (baseFull.atStep (.enqbP2 .single 0x44 3 0)).fg = .enqbP2 .single 0x44 3 0 ∧
      (baseFull.atStep (.enqbP3 .enq 0x44 0)).fg = .enqbP3 .enq 0x44 0 ∧
      ({ baseWrap with rxc := .x4P2 0x30 4 5 } : State).rxc = .x4P2 0x30 4 5 ∧
      ({ baseWrap with rxc := .x4P3 5 } : State).rxc = .x4P3 5 ∧
      ({ baseOne with txc := .t4C2 1 } : State).txc = .t4C2 1 ∧
      baseOne.txf.slot (1 % baseOne.txf.capacity) = some 0x62 ∧
      ({ baseOne with txc := .t4C3 1 0x62 } : State).txc = .t4C3 1 0x62 := by decide

theorem test_witness_lag_full :
    (laggedAt 3 0 3 0 3 fullTxf.storage).sound ∧ (laggedAt 3 0 3 0 3 fullTxf.storage).lagIs 2 ∧
      (laggedAt 3 0 3 0 3 fullTxf.storage).readSync ≠ [] ∧
      (laggedAt 3 0 3 0 3 fullTxf.storage).producerFull = true := by decide

theorem test_witness_lag_pop : (laggedAt 3 0 3 0 3 fullTxf.storage).pop =
    .ok (some 0x41, (laggedAt 3 0 3 0 3 fullTxf.storage).popC3 0) := rfl

theorem test_witness_lag_scenario :
    (laggedAt 47 5 5 5 5 []).sound ∧ (laggedAt 47 5 5 5 5 []).isEmpty = true ∧
      (laggedAt 47 5 5 5 5 []).lagIs 2 ∧ (laggedAt 47 5 5 5 5 []).producerFull = false ∧
      base.manualTrigger = true ∧ base.utx = [] ∧ 1 ≤ base.cfg.utxDepth := by decide

/-! ## Witnesses: the controllers and the bridge -/

theorem test_witness_rxsvc : baseRx.rxf.sound ∧ baseRx.rxf.room = 1 ∧ baseRx.urx.length = 4 := by decide

theorem test_witness_txsvc : baseOne.txf.sound ∧ baseOne.utx.length ≤ baseOne.cfg.utxDepth ∧
    baseOne.txf.consumerCount = 1 ∧ baseOne.txf.lagIs 0 := by decide

theorem test_witness_txsvc_empty : base.txf.consumerEmpty = true := by decide

theorem test_witness_enqb : base.txf.producerFull = false ∧ baseFull.txf.producerFull = true := by decide

theorem test_witness_enq : baseOne.txf.sound ∧ baseOne.cfg.enqPolicy = .attemptEach ∧
    baseFull.txf.room = 0 := by decide

theorem test_witness_restart : base.txf.lagIs 0 ∧ base.txf.isEmpty = true ∧ 2 ≤ base.txf.capacity ∧
    base.utx.length < base.cfg.utxDepth := by decide

/-! ## Witnesses: the scheduler -/

theorem test_witness_disp_not_due : base.task 1 = some ⟨3, .report⟩ ∧ base.counter 1 ≠ 3 ∧
    base.task 2 = none := by decide

theorem test_witness_disp_toggle : ({ base with counters := [2, 2] } : State).task 0 = some ⟨2, .toggle⟩ ∧
    ({ base with counters := [2, 2] } : State).counter 0 = 2 := by decide

theorem test_witness_disp_report : ({ base with counters := [0, 3] } : State).task 1 = some ⟨3, .report⟩ ∧
    ({ base with counters := [0, 3] } : State).counter 1 = 3 := by decide

theorem test_witness_inc : base.counters.length = 2 ∧ base.counter 1 + 1 < 2 ^ base.cfg.cntW := by decide

theorem test_witness_waitp : ({ base with periodElapsed := true } : State).periodElapsed = true ∧
    base.periodElapsed = false := by decide

/-! ## Witnesses: the environment and the activations -/

theorem test_witness_environment :
    ({ baseRx with agenda := [.uartRx 0x3C] } : State).cfg.urxDepth ≤ baseRx.urx.length ∧
      ({ base with agenda := [.uartRx 0x30], urx := [1, 2, 3] } : State).urx.length < base.cfg.urxDepth ∧
      ({ base with agenda := [.uartTx], utx := [0x61] } : State).utx = 0x61 :: [] ∧
      ({ base with agenda := [.uartTx] } : State).utx = [] ∧
      ({ base with agenda := [.timer] } : State).agenda = [.timer] ∧
      ({ base with agenda := [.syncFclk] } : State).agenda = [.syncFclk] ∧
      ({ base with agenda := [.syncSclk] } : State).agenda = [.syncSclk] ∧
      ({ base with agenda := [.reset] } : State).agenda = [.reset] := by decide

theorem test_witness_not_pending :
    ({ base with agenda := [.rxc] } : State).rxPending = false ∧
      ({ base with agenda := [.txc], txPending := true, txc := .t3Room } : State).txc ≠ .idle := by decide

/-- `base` with free-running controllers: a received byte pending, TXC owed an activation. -/
def freeState : State :=
  { base with cfg := { testConfig with isrAtomic := false }, urx := [0x7E], rxPending := true, txPending := true }

theorem test_witness_micro_entry :
    freeState.cfg.isrAtomic = false ∧ freeState.rxPending = true ∧ freeState.rxc = .idle ∧
      freeState.txPending = true ∧ freeState.txc = .idle ∧
      base.cfg.isrAtomic = true ∧ base.rxPending = false ∧ base.rxc = .idle ∧ base.txPending = false ∧
      base.txc = .idle := by decide

/-- A second byte's request, raised inside an activation, outlives the activation's micro-steps. -/
theorem test_witness_micro_inside :
    next? (step { freeState with agenda := [.rxcMicro], rxc := .x3 })
      (fun t => decide (t.rxPending = true ∧ t.rxc = .x4P1 0x7E)) = true ∧
    next? (step { freeState with agenda := [.txcMicro], txc := .t3Empty })
      (fun t => decide (t.txPending = true ∧ t.txc = .idle)) = true := by decide

/-- The last X2 finds `urx` empty, and the activation returns. -/
theorem test_witness_rx_owed : freeState.rxOwed ∧ freeState.urx ≠ [] ∧
    next? (step { freeState with agenda := [.rxc] }) (fun t => decide (t.urx = [])) = true ∧
    next? (step { freeState with agenda := [.rxcMicro], rxc := .x2, urx := [] })
      (fun t => decide (t.rxc = .idle)) = true := by decide

theorem test_witness_commute :
    next? (andThen (exec .rxsvc baseRx) (exec .txsvc)) (fun _ => true) = true ∧
      next? (andThen (exec .txsvc baseRx) (exec .rxsvc)) (fun _ => true) = true := by decide

/-! ## Witnesses: frames (each operation answers a next state there) -/

theorem test_witness_fifo_frame :
    next? (exec (.push .rxf 1) baseWrap) (fun _ => true) = true ∧
      next? (exec (.pop .rxf) baseWrap) (fun _ => true) = true ∧
      next? (exec (.isempty .txf) baseWrap) (fun _ => true) = true ∧
      next? (exec (.isfull .txf) baseWrap) (fun _ => true) = true := by decide

theorem test_witness_bridge_frame :
    next? (exec .kick baseFull) (fun _ => true) = true ∧
      next? (exec (.enqb 1) baseFull) (fun _ => true) = true ∧
      next? (exec (.enq [1, 2]) baseOne) (fun _ => true) = true := by decide

theorem test_witness_activation_frame :
    next? (exec .rxsvc baseRx) (fun _ => true) = true ∧
      next? (exec .txsvc baseOne) (fun _ => true) = true := by decide

theorem test_witness_scheduler_frame :
    next? (exec .inc base) (fun _ => true) = true ∧
      next? (exec (.disp 0) { base with counters := [2, 3] }) (fun t => t.indicator) = true ∧
      next? (exec .work base) (fun _ => true) = true ∧
      next? (exec .waitp { base with periodElapsed := true }) (fun _ => true) = true := by decide

/-! ## Witnesses: the invariants -/

/-- FG between P2 and P3 of an `ENQB`, TXC between C2 and C3: vector 4.1 inside the bridge. -/
def midway : State :=
  { base with
    cfg := { testConfig with isrAtomic := false }
    txf := fifoAt 47 5 7 [(5, 0x11), (6, 0x22), (7, 0x33)]
    fg := .enqbP3 .single 0x33 8
    txc := .t4C3 5 0x11
    agenda := [.micro] }

theorem test_witness_disciplined : midway.Disciplined where
  source := by decide
  capRx := by decide
  capTx := by decide
  urx := by decide
  utx := by decide
  rxSound := by decide
  txSound := by decide
  rxLag := by decide
  txLag := by decide
  schPc := by decide
  fg := by
    change midway.txf.pushing midway.txf.writeIndex.val 8 ∧
      midway.txf.slot midway.txf.writeIndex.val = some 0x33
    decide
  rxc := trivial
  txc := by
    change midway.utxFull = false ∧ midway.txf.popping 5 ∧ midway.txf.slot 5 = some 0x11
    decide
  atomic := by decide

theorem test_witness_disciplined_step : next? (step midway)
    (fun t => decide (t.fg = .enqbB4 .single 0x33)) = true := by decide

theorem test_witness_storage : midway.storageOk := by decide

/-- FG about to kick with a byte queued and nothing else owed. -/
def kickingState : State := { baseOne with manualTrigger := false, fg := .enqbB6 .enq 0x62, agenda := [.micro] }

theorem test_witness_restartable : kickingState.Restartable where
  source := by decide
  atomic := by decide
  noLag := by decide
  depth := by decide
  txc := by decide
  fifo := trivial
  stall := fun _ => Or.inr (Or.inr trivial)
  armed := fun _ => Or.inr (Or.inr trivial)

/-- Vector 4.3, order (c), after `T2r`: TXC has seen TXF empty and not yet armed the flag. -/
def raceState : State :=
  { baseOne with
    cfg := { testConfig with isrAtomic := false }
    manualTrigger := false
    fg := .enqbB4 .enq 0x62
    txc := .t2Write
    agenda := [.micro] }

theorem test_witness_unstranded : raceState.Unstranded where
  source := by decide
  noLag := by decide
  depth := by decide
  fifo := trivial
  stall := fun _ => Or.inr (Or.inr (Or.inr (by decide)))
  armed := fun _ => Or.inr (Or.inr (Or.inr trivial))

theorem test_witness_unstranded_disciplined : raceState.Disciplined where
  source := by decide
  capRx := by decide
  capTx := by decide
  urx := by decide
  utx := by decide
  rxSound := by decide
  txSound := by decide
  rxLag := by decide
  txLag := by decide
  schPc := by decide
  fg := trivial
  rxc := trivial
  txc := trivial
  atomic := by decide

theorem test_witness_unstranded_step : next? (step { raceState with agenda := [.txcMicro] })
    (fun t => decide (t.manualTrigger = true ∧ t.txc = .t3Room)) = true := by decide

theorem test_witness_restartable_step : next? (step kickingState)
    (fun t => decide (t.txPending = true)) = true := by decide

/-- At slot 2, with the second task due and the first just reset. -/
def dueState : State := { base with schPc := 2, counters := [0, 3], agenda := [.micro] }

theorem dueState_counter (t : Nat) (k : Task) (h : dueState.task t = some k) :
    dueState.counter t < k.thresh ∨
      (dueState.counter t = k.thresh ∧ 1 ≤ dueState.schPc ∧ dueState.schPc ≤ t + 1) := by
  match t with
  | 0 =>
    have hk : (⟨2, .toggle⟩ : Task) = k := Option.some.inj h
    subst hk; decide
  | 1 =>
    have hk : (⟨3, .report⟩ : Task) = k := Option.some.inj h
    subst hk; decide
  | n + 2 => exact absurd h (by simp [State.task, dueState, base, testConfig])

theorem test_witness_scheduled : dueState.Scheduled where
  source := by decide
  legal := by decide
  length := by decide
  schPc := by decide
  slot := trivial
  counter := dueState_counter

theorem test_witness_scheduled_step : next? (step dueState)
    (fun t => decide (t.fg = .dispD2 1)) = true := by decide

/-- RXF full with one byte dropped and one pending. -/
def saturated : State :=
  { base with
    rxf := fifoAt 1 0 1 [(0, 0x30)]
    wireIn := [0x30, 0x31, 0x32]
    rxDropped := [0x31]
    urx := [0x32]
    rxPending := true
    agenda := [.rxc] }

theorem test_witness_saturating : saturated.Saturating where
  source := by decide
  fifo := trivial
  start := by decide
  seen := by decide
  bytes := by decide
  full := by decide

theorem test_witness_saturating_disciplined : saturated.Disciplined where
  source := by decide
  capRx := by decide
  capTx := by decide
  urx := by decide
  utx := by decide
  rxSound := by decide
  txSound := by decide
  rxLag := by decide
  txLag := by decide
  schPc := by decide
  fg := trivial
  rxc := trivial
  txc := trivial
  atomic := by decide

theorem test_witness_saturating_step : next? (step saturated)
    (fun t => decide (t.rxDropped = [0x31, 0x32])) = true := by decide

/-- At slot 0 with both tasks due in the coming iteration. -/
def slotZero : State := { base with counters := [1, 2], periodElapsed := true }

theorem slotZero_counter (t : Nat) (k : Task) (h : slotZero.task t = some k) :
    slotZero.counter t < k.thresh ∨
      (slotZero.counter t = k.thresh ∧ 1 ≤ slotZero.schPc ∧ slotZero.schPc ≤ t + 1) := by
  match t with
  | 0 =>
    have hk : (⟨2, .toggle⟩ : Task) = k := Option.some.inj h
    subst hk; decide
  | 1 =>
    have hk : (⟨3, .report⟩ : Task) = k := Option.some.inj h
    subst hk; decide
  | n + 2 => exact absurd h (by simp [State.task, slotZero, base, testConfig])

theorem test_witness_iteration : slotZero.Scheduled where
  source := by decide
  legal := by decide
  length := by decide
  schPc := by decide
  slot := trivial
  counter := slotZero_counter

theorem test_witness_iteration_slot :
    slotZero.schPc = 0 ∧ slotZero.fg = .idle ∧ slotZero.dueTasks = [0, 1] := by decide

theorem test_witness_partition :
    next? (fgMicroTurn midway) (fun t => decide (t.txf.writeIndex.val = 8)) = true ∧
      next? (rxcMicroTurn { midway with rxPending := true }) (fun t => decide (t.rxc = .x2)) = true ∧
      next? (txcMicroTurn midway) (fun t => decide (t.txf.readIndex.val = 6)) = true := by decide

theorem test_witness_stable :
    wrapRxf.producerFull = false ∧ wrapRxf.consumerEmpty = false ∧ wrapRxf.sound := by decide

theorem test_witness_stable_pop : wrapRxf.pop = .ok (some 0x7E, wrapRxf.popC3 9) := rfl

theorem test_witness_micro : baseOne.fg = .idle ∧ baseRx.rxc = .idle ∧ baseRx.rxPending = true ∧
    ({ baseOne with txPending := true } : State).txc = .idle := by decide

/-- Right after reset in `base`'s configuration: what the period statement starts from. -/
theorem base_counter (t : Nat) (k : Task) (h : base.task t = some k) :
    base.counter t < k.thresh ∨
      (base.counter t = k.thresh ∧ 1 ≤ base.schPc ∧ base.schPc ≤ t + 1) := by
  match t with
  | 0 =>
    have hk : (⟨2, .toggle⟩ : Task) = k := Option.some.inj h
    subst hk; decide
  | 1 =>
    have hk : (⟨3, .report⟩ : Task) = k := Option.some.inj h
    subst hk; decide
  | n + 2 => exact absurd h (by simp [State.task, base, testConfig])

theorem test_witness_period : base.Scheduled where
  source := by decide
  legal := by decide
  length := by decide
  schPc := by decide
  slot := trivial
  counter := base_counter

theorem test_witness_period_start : base.schPc = 0 ∧ base.fg = .idle ∧ base.iteration = 1 ∧
    base.fireLog = [] ∧ ∀ c ∈ base.counters, c = 0 := by decide

/-- A byte FG has stored and not yet returned for, after one that was accepted. -/
def accountedState : State :=
  { baseOne with
    wireOut := [0x61]
    trace := [⟨.foreground, 0x5061, 0x0100⟩]
    fg := .enqbB4 .single 0x62
    agenda := [.micro] }

theorem test_witness_accounted : accountedState.Accounted ∧
    next? (step accountedState) (fun _ => true) = true := by decide

theorem test_witness_accounted_disciplined : accountedState.Disciplined where
  source := by decide
  capRx := by decide
  capTx := by decide
  urx := by decide
  utx := by decide
  rxSound := by decide
  txSound := by decide
  rxLag := by decide
  txLag := by decide
  schPc := by decide
  fg := trivial
  rxc := trivial
  txc := trivial
  atomic := by decide

/-- One byte in the transmitter and one queued, KICKED: nothing stalls. -/
def drainable : State := { baseOne with utx := [0x61], manualTrigger := false }

theorem test_witness_drain_disciplined : drainable.Disciplined where
  source := by decide
  capRx := by decide
  capTx := by decide
  urx := by decide
  utx := by decide
  rxSound := by decide
  txSound := by decide
  rxLag := by decide
  txLag := by decide
  schPc := by decide
  fg := trivial
  rxc := trivial
  txc := trivial
  atomic := by decide

theorem test_witness_drain_restartable : drainable.Restartable where
  source := by decide
  atomic := by decide
  noLag := by decide
  depth := by decide
  txc := by decide
  fifo := trivial
  stall := fun _ => Or.inr (Or.inl (by decide))
  armed := fun _ => Or.inr (Or.inl (by decide))

theorem test_witness_drain : ¬ drainable.kicking ∧ drainable.utx.length + drainable.txf.count ≤ 2 :=
  ⟨id, by decide⟩

/-! ## Witness: a fair run

No task, one byte received, one in the transmitter, and every agent in turn. -/

/-- The turns, round and round. -/
def roundRobin (n : Nat) : Turn :=
  match n % 5 with
  | 0 => .timer
  | 1 => .op
  | 2 => .rxc
  | 3 => .txc
  | _ => .uartTx

/-- What stays true along the run. -/
structure Calm (s : State) : Prop where
  source : s.source = .sequencer
  tasks : s.cfg.tasks = []
  atomic : s.cfg.isrAtomic = true
  schPc : s.schPc < 3
  fg : s.fg = .idle
  txc : s.txc = .idle
  txf : s.txf = fifoAt 47 0 0 []

/-- A whole operation that leaves the calm fields alone, then the advance. -/
theorem calm_issue {s v : State} {ow : Word} {i : Instr} (h : Calm s)
    (hw : sequencerWord 0 s.schPc = some ow)
    (hd : decodeOn 0 .sequencer .foreground ow = .ok i) (hv : exec i s = .next v)
    (hf : v.source = s.source ∧ v.cfg = s.cfg ∧ v.txc = s.txc ∧ v.txf = s.txf) : ∃ u, takeTurn .op s = .next u ∧ Calm u := by
  obtain ⟨v1, v2, v5, v6⟩ := hf
  have hn : s.cfg.ntask = 0 := by simp [Config.ntask, h.tasks]
  have hop : takeTurn .op s = fgIssue runWhole s := fgOpTurn_of_idle h.fg
  have hnw : s.nextWord = some ow := by rw [nextWord_of_sequencer h.source, hn, hw]
  have hdw : decodeOn s.cfg.ntask s.source .foreground ow = .ok i := by rw [hn, h.source, hd]
  rw [hop]
  cases hh : s.holds i
  · rw [fgIssue_of_ok hnw hdw hh, takeWord_of_sequencer h.source, runWhole, hv]
    refine ⟨v.finish, rfl, ?_⟩
    rw [finish_of_sequencer (v1.trans h.source)]
    refine ⟨v1.trans h.source, v2 ▸ h.tasks, v2 ▸ h.atomic, ?_, rfl, v5.trans h.txc,
       v6.trans h.txf⟩
    show (v.schPc + 1) % (v.cfg.ntask + 3) < 3
    rw [v2, hn]; exact Nat.mod_lt _ (by decide)
  · rw [fgIssue_of_holds hnw hdw hh]
    exact ⟨s, rfl, h⟩

theorem calm_step {s : State} {t : Turn} (h : Calm s)
    (ht : t = .timer ∨ t = .op ∨ t = .rxc ∨ t = .txc ∨ t = .uartTx) :
    ∃ u, takeTurn t s = .next u ∧ Calm u := by
  obtain ⟨h1, h2, h3, h4, h5, h7, h8⟩ := h
  have h : Calm s := ⟨h1, h2, h3, h4, h5, h7, h8⟩
  rcases ht with rfl | rfl | rfl | rfl | rfl
  · exact ⟨_, rfl, h1, h2, h3, h4, h5, h7, h8⟩
  · obtain hp | hp | hp : s.schPc = 0 ∨ s.schPc = 1 ∨ s.schPc = 2 := by omega
    · exact calm_issue h (ow := 0xA000) (i := .inc) (by rw [hp]; decide) (by decide) rfl
        ⟨rfl, rfl, rfl, rfl⟩
    · exact calm_issue h (ow := 0xC000) (i := .work) (by rw [hp]; decide) (by decide) rfl
        ⟨rfl, rfl, rfl, rfl⟩
    · have hw : ∃ v, exec .waitp s = .next v ∧ v.source = s.source ∧ v.cfg = s.cfg ∧
          v.txc = s.txc ∧ v.txf = s.txf := by
        show ∃ v, execWaitp s = .next v ∧ _
        unfold execWaitp
        split <;> exact ⟨_, rfl, rfl, rfl, rfl, rfl⟩
      obtain ⟨v, hv, hf⟩ := hw
      exact calm_issue h (ow := 0xD000) (i := .waitp) (by rw [hp]; decide) (by decide) hv hf
  · cases hr : s.rxEnabled
    · exact ⟨s, by simp [takeTurn, rxcTurn, hr], h⟩
    · refine ⟨(State.drainUrx s.urx s.enterRx).retireService .rxsvc 0, ?_, ?_⟩
      · simp only [takeTurn, rxcTurn, hr, if_true]; rfl
      · rw [State.drainUrx_eq]
        exact ⟨h1, h2, h3, h4, h5, h7, h8⟩
  · cases hp : s.txEnabled
    · exact ⟨s, by simp [takeTurn, txcTurn, hp], h⟩
    · have hc : s.txf.consumerCount = 0 := by rw [h8]; decide
      have he : takeTurn .txc s = exec .txsvc s := by
        simp only [takeTurn, txcTurn, hp, if_true]; rfl
      refine ⟨s.enterTx.entryCheck.retireService .txsvc 0, ?_, ?_⟩
      · rw [he]
        show execTxsvc s = _
        rw [execTxsvc, hc]; rfl
      · exact ⟨by simpa using h1, by simpa using h2, by simpa using h3, by simpa using h4,
          by simpa using h5, by simpa using h7, by simpa using h8⟩
  · show ∃ u, uartTxTurn s = .next u ∧ Calm u
    unfold uartTxTurn
    split
    · exact ⟨s, rfl, h⟩
    · exact ⟨_, rfl, h1, h2, h3, h4, h5, h7, h8⟩

theorem roundRobin_cases (n : Nat) : roundRobin n = .timer ∨ roundRobin n = .op ∨
    roundRobin n = .rxc ∨ roundRobin n = .txc ∨ roundRobin n = .uartTx := by
  unfold roundRobin
  split <;> simp

/-- The next state of a turn; the state itself where there is none. -/
def following (t : Turn) (s : State) : State :=
  match takeTurn t s with
  | .next u => u
  | .fault _ => s
  | .refused _ => s

/-- The run of `roundRobin` from `s`. -/
def calmRun (s : State) : Nat → State
  | 0 => s
  | n + 1 => following (roundRobin n) (calmRun s n)

theorem calmRun_calm {s : State} (h : Calm s) (n : Nat) : Calm (calmRun s n) := by
  induction n with
  | zero => exact h
  | succ n ih =>
    obtain ⟨u, hu, hc⟩ := calm_step ih (roundRobin_cases n)
    show Calm (following (roundRobin n) (calmRun s n))
    rw [following, hu]; exact hc

/-- Agent `a`'s place in the round. -/
def place (a : Agent) : Nat :=
  match a with
  | .fg => 1
  | .rxc => 2
  | .txc => 3
  | .uartTx => 4

theorem calmRun_fair {s : State} (h : Calm s) : FairRun roundRobin (calmRun s) where
  run n := by
    obtain ⟨u, hu, _⟩ := calm_step (calmRun_calm h n) (roundRobin_cases n)
    show takeTurn (roundRobin n) (calmRun s n) =
      .next (following (roundRobin n) (calmRun s n))
    rw [following, hu]
  fair a n hn := by
    refine ⟨5 * n + place a, by omega, ?_⟩
    have hm := hn (5 * n + place a) (by omega)
    have ha := (calmRun_calm h (5 * n + place a)).atomic
    generalize calmRun s (5 * n + place a) = t at hm ha
    cases a <;>
      simp_all [State.moves, State.canMove, roundRobin, place, State.rxMicroEnabled,
        State.txMicroEnabled]
  timer n := ⟨5 * n, by omega, by simp [roundRobin]⟩

/-- One byte received, one byte in the transmitter, FG at `WAITP`. -/
def waiting : State :=
  { base with
    cfg := { testConfig with tasks := [] }
    urx := [0x7E]
    utx := [0x61]
    rxPending := true
    txPending := true
    schPc := 2
    counters := [] }

theorem test_witness_fair_run : FairRun roundRobin (calmRun waiting) :=
  calmRun_fair ⟨by decide, by decide, by decide, by decide, by decide, by decide, by decide⟩

theorem test_witness_fair_no_reset (n : Nat) : roundRobin n ≠ .reset := by
  rcases roundRobin_cases n with h | h | h | h | h <;> rw [h] <;> decide

theorem test_witness_fair_wait : (calmRun waiting 0).source = .sequencer ∧ (calmRun waiting 0).fg = .idle ∧
    (calmRun waiting 0).schPc = (calmRun waiting 0).cfg.ntask + 2 ∧
    (calmRun waiting 0).txc = .idle ∧ (calmRun waiting 0).txPending = true ∧
    (calmRun waiting 0).rxc = .idle ∧ (calmRun waiting 0).rxPending = true := by decide

theorem test_witness_fair_disciplined : (calmRun waiting 0).Disciplined where
  source := by decide
  capRx := by decide
  capTx := by decide
  urx := by decide
  utx := by decide
  rxSound := by decide
  txSound := by decide
  rxLag := by decide
  txLag := by decide
  schPc := by decide
  fg := trivial
  rxc := trivial
  txc := trivial
  atomic := by decide

theorem test_witness_fair_restartable : (calmRun waiting 0).Restartable where
  source := by decide
  atomic := by decide
  noLag := by decide
  depth := by decide
  txc := by decide
  fifo := trivial
  stall := fun _ => Or.inl (by decide)
  armed := fun _ => Or.inl (by decide)

end Sys2Proof.Tests
end

section
/-! PROOF. Which configurations are refused when a machine is built (O13). -/

namespace Sys2Proof.Machine

/-! ## Building a machine (`70_reset_and_hazards.md` rule R244, U8, U9) -/

theorem Config.legal_iff (c : Config) : c.legal = true ↔
    (∀ k ∈ c.tasks, 1 ≤ k.thresh ∧ k.thresh < 2 ^ c.cntW) ∧
      1 ≤ c.urxDepth ∧ 1 ≤ c.utxDepth ∧ c.tasks.length ≤ 16 := by
  simp only [Config.legal, Bool.and_eq_true, List.all_eq_true, decide_eq_true_eq, and_assoc]
  rfl

theorem Fifo.ofCapacity_isEmpty (n lag : Nat) (h : 0 < n) :
    (Fifo.ofCapacity n lag h).isEmpty = true := by
  simp [Fifo.isEmpty, Fifo.ofCapacity]

theorem Fifo.ofCapacity_lagIs (n lag : Nat) (h : 0 < n) : (Fifo.ofCapacity n lag h).lagIs lag := by
  simp [Fifo.ofCapacity]

theorem Fifo.ofCapacity_viewsCurrent (n lag : Nat) (h : 0 < n) :
    (Fifo.ofCapacity n lag h).viewsCurrent :=
  ⟨fun _ hv => List.eq_of_mem_replicate hv, fun _ hv => List.eq_of_mem_replicate hv⟩

/-- Settles O13: `State.boot` tests exactly the bounds that `Config.legal_iff` names. -/
theorem illegalConfigurationRefused : Obligations.IllegalConfigurationRefused := by
  intro cfg capRx capTx
  constructor
  · intro hbad
    refine dif_neg fun ⟨hlegal, hrx, htx⟩ => ?_
    obtain ⟨htasks, hurx, hutx, hn⟩ := (Config.legal_iff cfg).mp hlegal
    rcases hbad with ⟨k, hk, hthresh⟩ | hbad
    · have := htasks k hk
      omega
    · omega
  · intro htasks hrx htx hurx hutx hn
    have hlegal := (Config.legal_iff cfg).mpr ⟨htasks, hurx, hutx, hn⟩
    exact ⟨_, dif_pos ⟨hlegal, hrx, htx⟩, rfl, rfl, rfl,
      Fifo.ofCapacity_isEmpty .., Fifo.ofCapacity_isEmpty ..,
      Fifo.ofCapacity_lagIs .., Fifo.ofCapacity_lagIs ..,
      Fifo.ofCapacity_viewsCurrent .., Fifo.ofCapacity_viewsCurrent .., rfl, rfl⟩

end Sys2Proof.Machine
end

section
/-! PROOF. The micro-steps of an operation and of an activation, with nothing between them, end as its
meaning does (O57). -/

namespace Sys2Proof.Machine

/-! ## Micro-steps one after another -/

/-- The micro-steps `step`, taken one after another from `s` with nothing between them, can end as
`r`: in the state reached after some of them, or in a fault. -/
inductive RunsTo (step : State → Result) : State → Result → Prop
  | done (s : State) : RunsTo step s (.next s)
  | fault {s : State} {e : Fault} : step s = .fault e → RunsTo step s (.fault e)
  | step {s t : State} {r : Result} : step s = .next t → RunsTo step t r → RunsTo step s r

theorem RunsTo.trans {step : State → Result} {s t : State} {r : Result}
    (h : RunsTo step s (.next t)) (hr : RunsTo step t r) : RunsTo step s r := by
  generalize hn : (Host.Outcome.next t : Result) = q at h
  induction h with
  | done => cases hn; exact hr
  | fault _ => cases hn
  | step hs _ ih => exact .step hs (ih hn)

/-- `run n` is `n` micro-steps: then a run that ends as `r` has a number of micro-steps. -/
theorem RunsTo.exists_count {step : State → Result} {run : Nat → State → Result}
    (zero : ∀ s, run 0 s = .next s) (succ : ∀ n s, run (n + 1) s = andThen (step s) (run n))
    {s : State} {r : Result} (h : RunsTo step s r) : ∃ n, run n s = r := by
  induction h with
  | done s => exact ⟨0, zero s⟩
  | fault hs => exact ⟨1, by rw [succ, hs]; rfl⟩
  | step hs _ ih =>
    obtain ⟨n, hn⟩ := ih
    exact ⟨n + 1, by rw [succ, hs]; exact hn⟩

/-! ## RXC: the micro-steps of `RXSVC` (`41_rx_controller.md` rule R140) -/

/-- X2 to X4 for the byte at the head of `urx`. -/
theorem rxcPass_runsTo {s : State} {b : Byte} {rest : List Byte} (h : s.urx = b :: rest) :
    RunsTo rxcMicro { s with rxc := .x2 }
      (.next { ({ s with urx := rest }.receiveByte b) with rxc := .x2 }) := by
  refine .step (t := { s with rxc := .x3 }) (by simp [rxcMicro, State.urxAvail, h]) ?_
  refine .step (t := { s with urx := rest, rxc := .x4P1 b }) (by simp [rxcMicro, State.ioRead, h]) ?_
  unfold State.receiveByte
  cases hf : s.rxf.producerFull
  · rw [s.rxf.push_of_not_full b hf]
    refine .step (by simp only [rxcMicro, s.rxf.pushP1_of_not_full hf]; rfl) ?_
    exact .step rfl (.step rfl (.done _))
  · rw [s.rxf.push_of_full b hf]
    exact .step (by simp only [rxcMicro, s.rxf.pushP1_of_full hf]; rfl) (.done _)

/-- The loop, and the return that finds `urx` empty. -/
theorem rxcLoop_runsTo {l : List Byte} {s : State} (h : s.urx = l) :
    RunsTo rxcMicro { s with rxc := .x2 }
      (.next { ((State.drainUrx l s).retireService .rxsvc 0) with rxc := .idle }) := by
  induction l generalizing s with
  | nil =>
    have hd : State.drainUrx [] s = s := by cases s; subst h; rfl
    rw [hd]
    exact .step (by simp [rxcMicro, State.urxAvail, h]) (.done _)
  | cons b rest ih => exact (rxcPass_runsTo h).trans (ih rfl)

theorem rxsvc_runsTo {s : State} (hc : s.rxc = .idle) (hp : s.rxPending = true) :
    RunsTo rxcMicro s (exec .rxsvc s) := by
  refine .step (t := { s.enterRx with rxc := .x2 }) (by simp [rxcMicro, hc, hp]) ?_
  have hl := rxcLoop_runsTo (s := s.enterRx) rfl
  have hrxc : (State.drainUrx s.urx s.enterRx).rxc = .idle := by rw [State.drainUrx_eq]; exact hc
  rw [← hrxc] at hl
  exact hl

/-! ## TXC: the micro-steps of `TXSVC` (`42_tx_controller.md` rule R150) -/

/-- A return from the loop, at either of T3's tests. -/
theorem txcReturn_runsTo {s : State} (hc : s.txc = .idle)
    (h : s.utxFull = true ∨ s.txf.consumerEmpty = true) :
    RunsTo txcMicro { s with txc := .t3Room } (.next (s.retireService .txsvc 0)) := by
  have hret : s.retireService .txsvc 0 =
      { ({ s with txc := .t3Room } : State).retireService .txsvc 0 with txc := .idle } := by
    rw [← hc]; rfl
  rw [hret]
  cases hf : s.utxFull
  · have he := h.resolve_left (by simp [hf])
    refine .step (t := { s with txc := .t3Empty }) (if_neg (Bool.eq_false_iff.mp hf)) ?_
    exact .step (if_pos he) (.done _)
  · exact .step (if_pos hf) (.done _)

/-- T3 to C1 of T4's `POP TXF`, with room in the transmitter and a byte in TXC's view of TXF. -/
theorem txcPass_runsTo_t4C2 {s : State} (hf : s.utxFull = false) (he : s.txf.consumerEmpty = false) :
    RunsTo txcMicro { s with txc := .t3Room }
      (.next { s with txc := .t4C2 s.txf.readIndex.val }) := by
  refine .step (t := { s with txc := .t3Empty }) (if_neg (Bool.eq_false_iff.mp hf)) ?_
  refine .step (t := { s with txc := .t4C1 }) (if_neg (Bool.eq_false_iff.mp he)) ?_
  exact .step (by simp only [txcMicro, s.txf.popC1_of_not_empty he]) (.done _)

theorem Fifo.popC2_of_unwritten (f : Fifo) (h : f.slot f.readIndex.val = none) :
    f.popC2 f.readIndex.val = .error .unwrittenSlot := by
  simp [Fifo.popC2, Nat.mod_eq_of_lt f.readIndex.isLt, h]

/-- One pass of the loop that moves the byte `b`. -/
theorem txcPass_runsTo {s : State} {b : Byte} (hf : s.utxFull = false)
    (he : s.txf.consumerEmpty = false) (hb : s.txf.slot s.txf.readIndex.val = some b) :
    RunsTo txcMicro { s with txc := .t3Room } (.next { s.sendByte b with txc := .t3Room }) := by
  refine (txcPass_runsTo_t4C2 hf he).trans ?_
  refine .step (by simp only [txcMicro, s.txf.popC2_of_slot hb]; rfl) (.step rfl ?_)
  exact .step (if_neg (Bool.eq_false_iff.mp hf)) (.done _)

/-- The passes of the loop: `fuel` bounds the bytes that TXC sees queued. -/
theorem txcLoop_runsTo {fuel : Nat} {s : State} (hc : s.txc = .idle)
    (hle : s.txf.consumerCount ≤ fuel) :
    RunsTo txcMicro { s with txc := .t3Room }
      (mapNext (fun t => t.retireService .txsvc 0) (s.drainTxf fuel)) := by
  induction fuel generalizing s with
  | zero => exact txcReturn_runsTo hc (.inr (s.txf.consumerEmpty_iff.mpr (by omega)))
  | succ fuel ih =>
    rw [State.drainTxf]
    cases hf : s.utxFull
    · rw [if_neg Bool.false_ne_true]
      rcases s.txf.pop_cases with ⟨he, hp⟩ | ⟨b, he, hb, hp⟩ | ⟨he, hb, hp⟩
      · rw [hp]
        exact txcReturn_runsTo hc (.inr he)
      · have hcount := s.txf.popC3_consumerCount he
        rw [hp]
        exact (txcPass_runsTo hf he hb).trans (ih (s := s.sendByte b) hc (by
          show (s.txf.popC3 s.txf.readIndex.val).consumerCount ≤ fuel
          omega))
      · rw [hp]
        exact (txcPass_runsTo_t4C2 hf he).trans
          (.fault (by simp only [txcMicro, s.txf.popC2_of_unwritten hb]))
    · exact txcReturn_runsTo hc (.inl hf)

theorem txsvc_runsTo {s : State} (hc : s.txc = .idle) (hp : s.txPending = true) :
    RunsTo txcMicro s (exec .txsvc s) := by
  refine .step (t := { s.enterTx with txc := .t2Read }) (by simp [txcMicro, hc, hp]) ?_
  have hentry : RunsTo txcMicro { s.enterTx with txc := .t2Read }
      (.next { s.enterTx.entryCheck with txc := .t3Room }) := by
    unfold State.entryCheck
    cases he : s.enterTx.txf.consumerEmpty
    · exact .step (by simp only [txcMicro, he]; rfl) (.done _)
    · exact .step (by simp only [txcMicro, he]; rfl) (.step rfl (.done _))
  exact hentry.trans (txcLoop_runsTo (by rw [State.entryCheck_txc]; exact hc)
    (by rw [State.entryCheck_txf]; exact Nat.le_refl _))

/-! ## FG: the micro-steps of an `ENQB` (`42_tx_controller.md` rule R152) -/

@[simp] theorem State.fifo_atStep (s : State) (c : FgCtx) (f : FifoSel) :
    (s.atStep c).fifo f = s.fifo f := by
  cases f <;> rfl

@[simp] theorem State.finish_atStep (s : State) (c : FgCtx) : (s.atStep c).finish = s.finish := by
  unfold State.finish
  rw [State.atStep_source]
  split <;> rfl

/-- The next step of what enqueues a string: its next `ENQB`, or its end when no byte is left. -/
def State.resumeString (s : State) (o : Outer) : State :=
  match s.enqRem with
  | [] => s.endString o
  | _ :: _ => s.atStep (.enqNext o)

/-- What an `ENQB` is part of goes on once its result word is on the bus. -/
def State.afterEnqb (s : State) (o : Outer) (stored : Bool) : State :=
  match o with
  | .single => s.finish
  | _ => (s.countByte stored s.enqRem.tail).resumeString o

theorem State.endEnqb_eq (s : State) (o : Outer) (b : Byte) (stored : Bool) :
    s.endEnqb o b stored = (s.retire (.enqb b) (resultWord false stored 0)).afterEnqb o stored := by
  cases o <;> rfl

theorem State.afterEnqb_of_string {s : State} {o : Outer} (ho : o ≠ .single) (stored : Bool) :
    s.afterEnqb o stored = (s.countByte stored s.enqRem.tail).resumeString o := by
  cases o with
  | single => exact absurd rfl ho
  | report t => rfl
  | enq => rfl

@[simp] theorem State.endString_atStep (s : State) (c : FgCtx) (o : Outer) :
    (s.atStep c).endString o = s.endString o := by
  cases o with
  | single => exact s.finish_atStep c
  | report t => exact State.finish_atStep { s with fgResult := resultWord false true 0 } c
  | enq => exact s.finish_atStep c

theorem State.resumeString_of_nil {s : State} {o : Outer} (h : s.enqRem = []) :
    s.resumeString o = s.endString o := by
  simp only [State.resumeString, h]

theorem State.resumeString_of_ne_nil {s : State} {o : Outer} (h : s.enqRem ≠ []) :
    s.resumeString o = s.atStep (.enqNext o) := by
  unfold State.resumeString
  split
  · contradiction
  · rfl

@[simp] theorem State.resumeString_atStep (s : State) (c : FgCtx) (o : Outer) :
    (s.atStep c).resumeString o = s.resumeString o := by
  unfold State.resumeString
  rw [State.atStep_enqRem, State.endString_atStep]
  rfl

/-- FG's position inside the operation is gone once its `ENQB` has returned. -/
@[simp] theorem State.afterEnqb_atStep (s : State) (c : FgCtx) (o : Outer) (stored : Bool) :
    (s.atStep c).afterEnqb o stored = s.afterEnqb o stored := by
  cases o with
  | single => exact s.finish_atStep c
  | report t => exact State.resumeString_atStep (s.countByte stored s.enqRem.tail) c _
  | enq => exact State.resumeString_atStep (s.countByte stored s.enqRem.tail) c _

@[simp] theorem State.endEnqb_atStep (s : State) (c : FgCtx) (o : Outer) (b : Byte) (stored : Bool) :
    (s.atStep c).endEnqb o b stored = s.endEnqb o b stored := by
  rw [State.endEnqb_eq, State.endEnqb_eq]
  exact State.afterEnqb_atStep (s.retire (.enqb b) (resultWord false stored 0)) c o stored

/-- B4 to B6: the kick check, and the return of a byte that was stored. -/
theorem kickCheck_runsTo (s : State) (o : Outer) (b : Byte) :
    RunsTo fgContinue (s.atStep (.enqbB4 o b)) (.next (s.kickCheck.endEnqb o b true)) := by
  unfold State.kickCheck
  cases hm : s.manualTrigger
  · rw [if_neg Bool.false_ne_true, ← s.endEnqb_atStep (.enqbB4 o b)]
    exact .step (if_neg (Bool.eq_false_iff.mp hm)) (.done _)
  · rw [if_pos rfl, ← State.endEnqb_atStep _ (.enqbB6 o b)]
    exact .step (if_pos hm) (.step rfl (.step rfl (.done _)))

@[simp] theorem State.beginEnqb_atStep (s : State) (c : FgCtx) (o : Outer) (b : Byte) :
    (s.atStep c).beginEnqb o b = s.beginEnqb o b := by
  unfold State.beginEnqb
  rw [State.atStep_txf]
  cases s.txf.pushP1 with
  | none => exact s.endEnqb_atStep c o b false
  | some p => rfl

/-- B1 to B6 of one `ENQB`. -/
theorem beginEnqb_runsTo (s : State) (o : Outer) (b : Byte) :
    RunsTo fgContinue (s.beginEnqb o b)
      (.next ((s.enqueueByte b).1.afterEnqb o (s.enqueueByte b).2)) := by
  unfold State.beginEnqb State.enqueueByte
  cases hf : s.txf.producerFull
  · rw [s.txf.pushP1_of_not_full hf, s.txf.push_of_not_full b hf]
    refine .step rfl (.step rfl ?_)
    have hkick := kickCheck_runsTo { s with txf := (s.txf.push b).1 } o b
    rw [State.endEnqb_eq, s.txf.push_of_not_full b hf] at hkick
    exact hkick
  · rw [s.txf.pushP1_of_full hf, s.txf.push_of_full b hf, State.endEnqb_eq]
    exact .done _

/-! ## FG: the micro-steps of the enqueue of a string (`42_tx_controller.md` rule R153) -/

theorem State.enqueueByte_cfg (s : State) (b : Byte) : (s.enqueueByte b).1.cfg = s.cfg := by
  cases hf : s.txf.producerFull
  · rw [State.enqueueByte_of_not_full b hf]
  · rw [State.enqueueByte_of_full b hf]

theorem State.enqueueByte_enqRem (s : State) (b : Byte) :
    (s.enqueueByte b).1.enqRem = s.enqRem := by
  cases hf : s.txf.producerFull
  · rw [State.enqueueByte_of_not_full b hf]
  · rw [State.enqueueByte_of_full b hf]

/-- One pass of the loop: the `ENQB` of `b`, whose string goes on with `rest`, and its count. -/
def State.enqueuePass (s : State) (b : Byte) (rest : List Byte) : State :=
  (s.enqueueByte b).1.countByte (s.enqueueByte b).2 rest

/-- A pass leaves the rest of the string, or, where a dropped byte ends it, nothing. -/
theorem State.enqueuePass_enqRem (s : State) (b : Byte) (rest : List Byte) :
    (s.enqueuePass b rest).enqRem = rest ∨ (s.enqueuePass b rest).enqRem = [] := by
  unfold State.enqueuePass State.countByte
  cases (s.enqueueByte b).2
  · cases (s.enqueueByte b).1.cfg.enqPolicy
    · exact .inl rfl
    · exact .inr rfl
  · exact .inl rfl

/-- The loop goes on with what the pass left in `enq_rem`. -/
theorem State.enqueueLoop_cons (s : State) (b : Byte) (rest : List Byte) :
    State.enqueueLoop (b :: rest) s =
      State.enqueueLoop (s.enqueuePass b rest).enqRem (s.enqueuePass b rest) := by
  unfold State.enqueuePass
  rw [State.enqueueLoop]
  cases hst : (s.enqueueByte b).2
  · cases hp : s.cfg.enqPolicy <;>
      simp [State.countByte, State.enqueueByte_cfg, hp, State.enqueueLoop]
  · rfl

/-- After the `ENQB` of the byte at the head of `enq_rem`, the string goes on as the pass left it. -/
theorem State.afterEnqb_enqueueByte {s : State} {o : Outer} (ho : o ≠ .single) {b : Byte}
    {rest : List Byte} (h : s.enqRem = b :: rest) :
    (s.enqueueByte b).1.afterEnqb o (s.enqueueByte b).2 =
      (s.enqueuePass b rest).resumeString o := by
  rw [State.afterEnqb_of_string ho, State.enqueueByte_enqRem, h]
  rfl

/-- The `ENQB`s of the bytes left in `enq_rem`, and the end of what they are part of. -/
theorem enqueueLoop_runsTo {o : Outer} (ho : o ≠ .single) {str : List Byte} {s : State}
    (h : s.enqRem = str) :
    RunsTo fgContinue (s.atStep (.enqNext o)) (.next ((State.enqueueLoop str s).endString o)) := by
  induction str generalizing s with
  | nil =>
    rw [State.enqueueLoop, ← s.endString_atStep (.enqNext o)]
    exact .step (by simp [fgContinue, h]) (.done _)
  | cons b rest ih =>
    refine .step (t := s.beginEnqb o b) (by simp [fgContinue, h, State.beginEnqb_atStep]) ?_
    refine (beginEnqb_runsTo s o b).trans ?_
    rw [State.afterEnqb_enqueueByte ho h, State.enqueueLoop_cons]
    by_cases hr : (s.enqueuePass b rest).enqRem = []
    · rw [State.resumeString_of_nil hr, hr]
      exact .done _
    · have hrest := (s.enqueuePass_enqRem b rest).resolve_right hr
      rw [State.resumeString_of_ne_nil hr, hrest]
      exact ih hrest

theorem beginString_runsTo {o : Outer} (ho : o ≠ .single) (s : State) (str : List Byte) :
    RunsTo fgContinue (s.beginString o str) (.next ((s.enqueueString str).endString o)) :=
  enqueueLoop_runsTo ho (s := { s with enqRem := str, enqCnt := 0 }) rfl

/-! ## FG: the micro-steps of each operation -/

/-- From FG's first micro-step of `i` on, the micro-steps end as the whole operation does. -/
def RefinesWhole (i : Instr) (s : State) : Prop :=
  ∃ n, andThen (fgBegin i s) (fgContinueN n) = runWhole i s

theorem RefinesWhole.of_begin {i : Instr} {s : State} (h : fgBegin i s = runWhole i s) :
    RefinesWhole i s := by
  refine ⟨0, ?_⟩
  rw [h]
  cases runWhole i s <;> rfl

theorem RefinesWhole.of_runsTo {i : Instr} {s t : State} (h : fgBegin i s = .next t)
    (hr : RunsTo fgContinue t (runWhole i s)) : RefinesWhole i s := by
  obtain ⟨n, hn⟩ := hr.exists_count (run := fgContinueN) (fun _ => rfl) (fun _ _ => rfl)
  exact ⟨n, by rw [h]; exact hn⟩

theorem runWhole_push (f : FifoSel) (b : Byte) (s : State) :
    runWhole (.push f b) s = .next ((s.setFifo f ((s.fifo f).push b).1).retire (.push f b)
      (resultWord false ((s.fifo f).push b).2 0)).finish := rfl

theorem runWhole_pop {f : FifoSel} {s : State} {b : Option Byte} {q : Fifo}
    (h : (s.fifo f).pop = .ok (b, q)) :
    runWhole (.pop f) s = .next ((s.setFifo f q).retire (.pop f) (popResult b)).finish := by
  simp only [runWhole, exec, execPop, h, mapNext]

theorem runWhole_pop_fault {f : FifoSel} {s : State} {e : Fault} (h : (s.fifo f).pop = .error e) :
    runWhole (.pop f) s = .fault e := by
  simp only [runWhole, exec, execPop, h, mapNext]

theorem fgBegin_pop_of_not_empty {f : FifoSel} {s : State}
    (h : (s.fifo f).consumerEmpty = false) :
    fgBegin (.pop f) s = .next (s.atStep (.popC2 f (s.fifo f).readIndex.val)) := by
  simp only [fgBegin, (s.fifo f).popC1_of_not_empty h]

theorem fgContinue_popC2_of_ok {f : FifoSel} {tr : Nat} {s : State} {b : Byte}
    (h : (s.fifo f).popC2 tr = .ok b) :
    fgContinue (s.atStep (.popC2 f tr)) = .next (s.atStep (.popC3 f tr b)) := by
  simp only [fgContinue, State.atStep_fg, State.fifo_atStep, h]
  rfl

theorem fgContinue_popC2_of_error {f : FifoSel} {tr : Nat} {s : State} {e : Fault}
    (h : (s.fifo f).popC2 tr = .error e) :
    fgContinue (s.atStep (.popC2 f tr)) = .fault e := by
  simp only [fgContinue, State.atStep_fg, State.fifo_atStep, h]

theorem push_refinesWhole (f : FifoSel) (b : Byte) (s : State) : RefinesWhole (.push f b) s := by
  cases hf : (s.fifo f).producerFull
  · refine .of_runsTo (by simp only [fgBegin, (s.fifo f).pushP1_of_not_full hf]; rfl) ?_
    rw [runWhole_push, (s.fifo f).push_of_not_full b hf,
      ← State.finish_atStep _ (.pushP3 f b ((s.fifo f).succ (s.fifo f).writeIndex.val))]
    cases f <;> exact .step rfl (.step rfl (.done _))
  · refine .of_begin ?_
    rw [runWhole_push, (s.fifo f).push_of_full b hf]
    simp only [fgBegin, (s.fifo f).pushP1_of_full hf]
    cases f <;> rfl

theorem pop_refinesWhole (f : FifoSel) (s : State) : RefinesWhole (.pop f) s := by
  rcases (s.fifo f).pop_cases with ⟨he, hp⟩ | ⟨b, he, hb, hp⟩ | ⟨he, hb, hp⟩
  · refine .of_begin ?_
    rw [runWhole_pop hp]
    simp only [fgBegin, (s.fifo f).popC1_of_empty he]
    cases f <;> rfl
  · refine .of_runsTo (fgBegin_pop_of_not_empty he) ?_
    rw [runWhole_pop hp, ← State.finish_atStep _ (.popC3 f (s.fifo f).readIndex.val b)]
    refine .step (fgContinue_popC2_of_ok ((s.fifo f).popC2_of_slot hb)) ?_
    cases f <;> exact .step rfl (.done _)
  · refine .of_runsTo (fgBegin_pop_of_not_empty he) ?_
    rw [runWhole_pop_fault hp]
    exact .fault (fgContinue_popC2_of_error ((s.fifo f).popC2_of_unwritten hb))

theorem enqb_refinesWhole (b : Byte) (s : State) : RefinesWhole (.enqb b) s :=
  .of_runsTo rfl (beginEnqb_runsTo s .single b)

/-- The state after D2 of `DISP #t`: the counter reset, the firing logged, the word on the trace. -/
def State.fired (s : State) (t : Nat) : State :=
  (s.fire t).log .foreground (.disp t) (resultWord false true 0)

theorem State.dispatch_of_due {s : State} {t : Nat} {task : Task} (ht : s.task t = some task)
    (hdue : s.counter t = task.thresh) (str : List Byte) :
    s.dispatch t str =
      { (s.fired t).runAction task.action str with fgResult := resultWord false true 0 } := by
  simp only [State.dispatch, ht, hdue, if_true, State.fired]

theorem State.beginAction_of_toggle {s : State} {t : Nat} {task : Task} (ht : s.task t = some task)
    (ha : task.action = .toggle) :
    s.beginAction t = { s.toggle with fgResult := resultWord false true 0 }.finish := by
  simp only [State.beginAction, ht, ha]

theorem State.beginAction_of_report {s : State} {t : Nat} {task : Task} (ht : s.task t = some task)
    (ha : task.action = .report) :
    s.beginAction t =
      { s with fmtCalls := s.fmtCalls + 1 }.beginString (.report t) s.sentence := by
  simp only [State.beginAction, ht, ha]

/-- D3: the body of a task of the table. -/
theorem dispD3_runsTo {s : State} {t : Nat} {task : Task} (ht : s.task t = some task) :
    RunsTo fgContinue (s.atStep (.dispD3 t)) (.next ({ s.runAction task.action s.sentence with
      fgResult := resultWord false true 0 } : State).finish) := by
  have hbegin : fgContinue (s.atStep (.dispD3 t)) =
      .next ((s.atStep (.dispD3 t)).beginAction t) := rfl
  cases ha : task.action
  case toggle =>
    rw [State.beginAction_of_toggle (s := s.atStep (.dispD3 t)) ht ha] at hbegin
    rw [← State.finish_atStep _ (.dispD3 t)]
    exact .step hbegin (.done _)
  case report =>
    rw [State.beginAction_of_report (s := s.atStep (.dispD3 t)) ht ha] at hbegin
    exact .step hbegin
      (beginString_runsTo (by simp) { s with fmtCalls := s.fmtCalls + 1 } s.sentence)

/-- D2 and D3 of a task that is due. -/
theorem dispD2_runsTo {s : State} {t : Nat} {task : Task} (ht : s.task t = some task)
    (hdue : s.counter t = task.thresh) :
    RunsTo fgContinue (s.atStep (.dispD2 t)) (runWhole (.disp t) s) := by
  have hwhole : runWhole (.disp t) s = .next (s.dispatch t s.sentence).finish := rfl
  rw [hwhole, State.dispatch_of_due ht hdue]
  exact .step rfl (dispD3_runsTo (s := s.fired t) ht)

theorem disp_refinesWhole (t : Nat) (s : State) : RefinesWhole (.disp t) s := by
  cases ht : s.task t with
  | none =>
    exact .of_begin (by simp only [fgBegin, ht, runWhole, exec, execDisp, State.dispatch, mapNext])
  | some task =>
    by_cases hdue : s.counter t = task.thresh
    · exact .of_runsTo (by simp only [fgBegin, ht, hdue, if_true]) (dispD2_runsTo ht hdue)
    · exact .of_begin (by
        simp only [fgBegin, ht, hdue, if_false, runWhole, exec, execDisp, State.dispatch, mapNext])

theorem enq_refinesWhole (str : List Byte) (s : State) : RefinesWhole (.enq str) s :=
  .of_runsTo rfl (beginString_runsTo (by decide) s str)

/-- Every operation; those of one micro-step, and the activations, are complete with their first. -/
theorem refinesWhole (i : Instr) (s : State) : RefinesWhole i s := by
  cases i with
  | push f b => exact push_refinesWhole f b s
  | pop f => exact pop_refinesWhole f s
  | enqb b => exact enqb_refinesWhole b s
  | disp t => exact disp_refinesWhole t s
  | enq str => exact enq_refinesWhole str s
  | isempty _ | isfull _ | kick | rxsvc | txsvc | inc | work | waitp => exact .of_begin rfl

/-- Settles O57: `refinesWhole` for FG, and `rxsvc_runsTo` and `txsvc_runsTo` for the controllers. -/
theorem microStepsRefineOperation : Obligations.MicroStepsRefineOperation := fun s =>
  ⟨fun i _ => refinesWhole i s,
    fun hc hp => (rxsvc_runsTo hc hp).exists_count (fun _ => rfl) (fun _ _ => rfl),
    fun hc hp => (txsvc_runsTo hc hp).exists_count (fun _ => rfl) (fun _ _ => rfl)⟩

end Sys2Proof.Machine
end

section
/-! PROOF. What each kind of turn does to a FIFO and to the rest of the block. -/

namespace Sys2Proof.Machine

/-! ## What one side's actions on a FIFO leave as it was (`10_state.md` rule R25) -/

/-- What every action on a FIFO keeps: its capacity, and the form of its storage. -/
structure Fifo.Kept (f g : Fifo) : Prop where
  capacity : g.capacity = f.capacity
  storageOk : f.storageOk → g.storageOk

/-- What a producer's actions on `f` keep: the consumer's cursor, what it sees queued, and the byte it is
to read next. -/
structure Fifo.ProducerKeeps (f g : Fifo) : Prop extends Fifo.Kept f g where
  readIndex : g.readIndex.val = f.readIndex.val
  lagIs : ∀ n, f.lagIs n → g.lagIs n
  sound : f.sound → g.sound
  consumerEmpty : f.sound → f.consumerEmpty = false → g.consumerEmpty = false
  slot : f.sound → f.consumerEmpty = false → g.slot f.readIndex.val = f.slot f.readIndex.val

/-- What a consumer's actions on `f` keep: the storage, the producer's cursor, and the room it sees. -/
structure Fifo.ConsumerKeeps (f g : Fifo) : Prop where
  capacity : g.capacity = f.capacity
  storage : g.storage = f.storage
  writeIndex : g.writeIndex.val = f.writeIndex.val
  lagIs : ∀ n, f.lagIs n → g.lagIs n
  sound : f.sound → g.sound
  producerFull : f.sound → f.producerFull = false → g.producerFull = false

theorem Fifo.Kept.refl (f : Fifo) : f.Kept f := ⟨rfl, id⟩

theorem Fifo.Kept.trans {f g h : Fifo} (hfg : f.Kept g) (hgh : g.Kept h) : f.Kept h :=
  ⟨hgh.capacity.trans hfg.capacity, hgh.storageOk ∘ hfg.storageOk⟩

/-- An action that writes no storage keeps its form. -/
theorem Fifo.Kept.of_storage_eq {f g : Fifo} (hc : g.capacity = f.capacity)
    (hs : g.storage = f.storage) : f.Kept g :=
  ⟨hc, fun h => by rw [Fifo.storageOk, hs, hc]; exact h⟩

theorem Fifo.ConsumerKeeps.kept {f g : Fifo} (h : f.ConsumerKeeps g) : f.Kept g :=
  .of_storage_eq h.capacity h.storage

theorem Fifo.ProducerKeeps.refl (f : Fifo) : f.ProducerKeeps f :=
  ⟨.refl f, rfl, fun _ => id, id, fun _ => id, fun _ _ => rfl⟩

theorem Fifo.ConsumerKeeps.refl (f : Fifo) : f.ConsumerKeeps f :=
  ⟨rfl, rfl, rfl, fun _ => id, id, fun _ => id⟩

theorem Fifo.ProducerKeeps.trans {f g h : Fifo} (hfg : f.ProducerKeeps g)
    (hgh : g.ProducerKeeps h) : f.ProducerKeeps h where
  toKept := hfg.toKept.trans hgh.toKept
  readIndex := hgh.readIndex.trans hfg.readIndex
  lagIs n := hgh.lagIs n ∘ hfg.lagIs n
  sound := hgh.sound ∘ hfg.sound
  consumerEmpty hs he := hgh.consumerEmpty (hfg.sound hs) (hfg.consumerEmpty hs he)
  slot hs he := by
    rw [← hfg.slot hs he, ← hfg.readIndex]
    exact hgh.slot (hfg.sound hs) (hfg.consumerEmpty hs he)

theorem Fifo.ConsumerKeeps.trans {f g h : Fifo} (hfg : f.ConsumerKeeps g)
    (hgh : g.ConsumerKeeps h) : f.ConsumerKeeps h where
  capacity := hgh.capacity.trans hfg.capacity
  storage := hgh.storage.trans hfg.storage
  writeIndex := hgh.writeIndex.trans hfg.writeIndex
  lagIs n := hgh.lagIs n ∘ hfg.lagIs n
  sound := hgh.sound ∘ hfg.sound
  producerFull hs hf := hgh.producerFull (hfg.sound hs) (hfg.producerFull hs hf)

/-- A consumer between C1 and C3 is not disturbed by the producer. -/
theorem Fifo.ProducerKeeps.popping {f g : Fifo} (h : f.ProducerKeeps g) (hs : f.sound) {tr : Nat}
    (hp : f.popping tr) : g.popping tr ∧ g.slot tr = f.slot tr := by
  obtain ⟨rfl, he⟩ := hp
  exact ⟨⟨h.readIndex.symm, h.consumerEmpty hs he⟩, h.slot hs he⟩

/-- The slot at the producer's cursor is not disturbed by the consumer. -/
theorem Fifo.ConsumerKeeps.slot_write {f g : Fifo} (h : f.ConsumerKeeps g) :
    g.slot g.writeIndex.val = f.slot f.writeIndex.val := by
  rw [h.writeIndex, Fifo.slot, h.storage, Fifo.slot]

/-- A producer between P1 and P3 is not disturbed by the consumer. -/
theorem Fifo.ConsumerKeeps.pushing {f g : Fifo} (h : f.ConsumerKeeps g) (hs : f.sound)
    {tw tn : Nat} (hp : f.pushing tw tn) : g.pushing tw tn := by
  obtain ⟨rfl, rfl, hf⟩ := hp
  refine ⟨h.writeIndex.symm, ?_, h.producerFull hs hf⟩
  simp only [h.writeIndex, Fifo.succ, h.capacity]

/-! ## The micro-steps of one FIFO -/

theorem Fifo.pushing_of_pushP1 {f : Fifo} {tw tn : Nat} (h : f.pushP1 = some (tw, tn)) :
    f.pushing tw tn := by
  cases hf : f.producerFull
  · rw [f.pushP1_of_not_full hf] at h
    cases h
    exact ⟨rfl, rfl, hf⟩
  · rw [f.pushP1_of_full hf] at h
    cases h

theorem Fifo.popping_of_popC1 {f : Fifo} {tr : Nat} (h : f.popC1 = some tr) : f.popping tr := by
  cases he : f.consumerEmpty
  · rw [f.popC1_of_not_empty he] at h
    cases h
    exact ⟨rfl, he⟩
  · rw [f.popC1_of_empty he] at h
    cases h

/-- Without a lag the producer reads the read cursor itself. -/
theorem Fifo.readSeen_of_nil {f : Fifo} (h : f.readSync = []) : f.readSeen = f.readIndex := by
  rw [Fifo.readSeen, h]; rfl

/-- Without a lag the consumer reads the write cursor itself. -/
theorem Fifo.writeSeen_of_nil {f : Fifo} (h : f.writeSync = []) : f.writeSeen = f.writeIndex := by
  rw [Fifo.writeSeen, h]; rfl

theorem Fifo.producerCount_of_nil {f : Fifo} (h : f.readSync = []) :
    f.producerCount = f.count := by
  rw [Fifo.producerCount, Fifo.readSeen_of_nil h]; rfl

theorem Fifo.consumerCount_of_nil {f : Fifo} (h : f.writeSync = []) :
    f.consumerCount = f.count := by
  rw [Fifo.consumerCount, Fifo.writeSeen_of_nil h]; rfl

theorem Fifo.kept_pushP2 (f : Fifo) (tw : Nat) (b : Byte) : f.Kept (f.pushP2 tw b) :=
  ⟨rfl, Fifo.pushP2_storageOk tw b⟩

theorem Fifo.kept_pushP3 (f : Fifo) (tn : Nat) : f.Kept (f.pushP3 tn) := ⟨rfl, id⟩

theorem Fifo.kept_popC3 (f : Fifo) (tr : Nat) : f.Kept (f.popC3 tr) := ⟨rfl, id⟩

theorem Fifo.kept_clear (f : Fifo) (lag : Nat) : f.Kept (f.clear lag) :=
  ⟨rfl, fun _ => ⟨rfl, fun _ hc => nomatch hc⟩⟩

/-- P2 writes the slot after the queue, not one a consumer is to read (`20_memory.md` rule R76). -/
theorem Fifo.producerKeeps_pushP2 (f : Fifo) (b : Byte) :
    f.ProducerKeeps (f.pushP2 f.writeIndex.val b) where
  toKept := f.kept_pushP2 _ b
  readIndex := rfl
  lagIs _ := id
  sound hs := ⟨f.pushP2_written b hs.1, hs.2⟩
  consumerEmpty _ := id
  slot hs he := f.pushP2_slot_other b (by
    have := hs.2.isEmpty_eq_false he
    simpa [Fifo.isEmpty] using this)

/-- P3 only adds to what the consumer sees. -/
theorem Fifo.producerKeeps_pushP3 (f : Fifo) (hf : f.producerFull = false)
    (hb : (f.slot f.writeIndex.val).isSome = true) :
    f.ProducerKeeps (f.pushP3 (f.succ f.writeIndex.val)) where
  toKept := f.kept_pushP3 _
  readIndex := rfl
  lagIs _ := id
  sound hs := by
    obtain ⟨b, hb⟩ := Option.isSome_iff_exists.mp hb
    exact ⟨f.pushP3_written (hs.2.isFull_eq_false hf) hb hs.1, f.pushP3_viewsOk hf hs.2⟩
  consumerEmpty hs he := by
    have hcount := f.pushP3_count (hs.2.isFull_eq_false hf)
    cases hl : f.writeSync with
    | nil =>
      rw [Fifo.consumerEmpty_eq_false_iff, Fifo.consumerCount_of_nil (f := f.pushP3 _) hl]
      omega
    | cons v l =>
      simp only [Fifo.consumerEmpty, Fifo.writeSeen, Fifo.pushP3, hl, List.headD_cons] at he ⊢
      exact he
  slot _ _ := rfl

theorem Fifo.producerKeeps_push (f : Fifo) (b : Byte) : f.ProducerKeeps (f.push b).1 := by
  cases hf : f.producerFull
  · rw [f.push_of_not_full b hf]
    exact (f.producerKeeps_pushP2 b).trans
      ((f.pushP2 f.writeIndex.val b).producerKeeps_pushP3 hf (by
        rw [Fifo.pushP2_writeIndex, f.pushP2_slot_write]; rfl))
  · rw [f.push_of_full b hf]
    exact .refl f

theorem Fifo.producerKeeps_pushAll (l : List Byte) (f : Fifo) :
    f.ProducerKeeps (Fifo.pushAll l f).1 := by
  induction l generalizing f with
  | nil => exact .refl f
  | cons b l ih => exact (f.producerKeeps_push b).trans (ih (f.push b).1)

/-- C3 only adds to the room the producer sees. -/
theorem Fifo.consumerKeeps_popC3 (f : Fifo) (he : f.consumerEmpty = false) :
    f.ConsumerKeeps (f.popC3 f.readIndex.val) where
  capacity := rfl
  storage := rfl
  writeIndex := rfl
  lagIs _ := id
  sound := f.popC3_sound he
  producerFull hs hf := by
    have hcount := f.popC3_count (hs.2.isEmpty_eq_false he)
    cases hl : f.readSync with
    | nil =>
      have hlt := f.count_lt
      rw [Fifo.producerFull_eq_false_iff, Fifo.producerCount_of_nil (f := f.popC3 _) hl]
      show _ < f.capacity
      omega
    | cons v l =>
      simp only [Fifo.producerFull, Fifo.readSeen, Fifo.popC3, hl, List.headD_cons] at hf ⊢
      exact hf

theorem Fifo.consumerKeeps_pop {f g : Fifo} {b : Option Byte} (h : f.pop = .ok (b, g)) :
    f.ConsumerKeeps g := by
  rcases f.pop_cases with ⟨_, hp⟩ | ⟨c, he, _, hp⟩ | ⟨_, _, hp⟩
  · rw [hp] at h; cases h; exact .refl f
  · rw [hp] at h; cases h; exact f.consumerKeeps_popC3 he
  · rw [hp] at h; cases h

/-! ## Clock edges (`70_reset_and_hazards.md` rule R240) -/

/-- After an edge of its clock a producer sees no less room. -/
theorem Fifo.viewsOk.syncProducer_producerFull {f : Fifo} (h : f.viewsOk)
    (hf : f.producerFull = false) : f.syncProducer.producerFull = false := by
  rw [Fifo.producerFull_eq_false_iff] at hf ⊢
  refine Nat.lt_of_le_of_lt (Nat.succ_le_succ ?_) hf
  show f.behind f.writeIndex f.syncProducer.readSeen ≤ f.producerCount
  have hseen : f.syncProducer.readSeen ∈ f.readSync ∨ f.syncProducer.readSeen = f.readIndex := by
    unfold Fifo.readSeen Fifo.syncProducer
    rcases f.readSync with _ | ⟨v, _ | ⟨w, l⟩⟩ <;> simp
  rcases hseen with hseen | hseen
  · exact h.behind_le_producerCount hseen
  · rw [hseen]; exact h.count_le_producerCount

/-- After an edge of its clock a consumer sees no fewer bytes. -/
theorem Fifo.viewsOk.syncConsumer_consumerEmpty {f : Fifo} (h : f.viewsOk)
    (he : f.consumerEmpty = false) : f.syncConsumer.consumerEmpty = false := by
  rw [Fifo.consumerEmpty_eq_false_iff] at he ⊢
  refine Nat.lt_of_lt_of_le he ?_
  show f.consumerCount ≤ f.behind f.syncConsumer.writeSeen f.readIndex
  have hseen : f.syncConsumer.writeSeen ∈ f.writeSync ∨
      f.syncConsumer.writeSeen = f.writeIndex := by
    unfold Fifo.writeSeen Fifo.syncConsumer
    rcases f.writeSync with _ | ⟨v, _ | ⟨w, l⟩⟩ <;> simp
  rcases hseen with hseen | hseen
  · exact h.consumerCount_le_behind hseen
  · rw [hseen]; exact h.consumerCount_le_count

theorem Fifo.producerKeeps_syncProducer (f : Fifo) : f.ProducerKeeps f.syncProducer :=
  ⟨.of_storage_eq rfl rfl, rfl, fun _ => f.syncProducer_lagIs,
    fun hs => ⟨hs.1, hs.2.syncProducer⟩, fun _ => id, fun _ _ => rfl⟩

theorem Fifo.consumerKeeps_syncProducer (f : Fifo) : f.ConsumerKeeps f.syncProducer :=
  ⟨rfl, rfl, rfl, fun _ => f.syncProducer_lagIs,
    fun hs => ⟨hs.1, hs.2.syncProducer⟩, fun hs => hs.2.syncProducer_producerFull⟩

theorem Fifo.producerKeeps_syncConsumer (f : Fifo) : f.ProducerKeeps f.syncConsumer :=
  ⟨.of_storage_eq rfl rfl, rfl, fun _ => f.syncConsumer_lagIs,
    fun hs => ⟨hs.1, hs.2.syncConsumer⟩, fun hs => hs.2.syncConsumer_consumerEmpty,
    fun _ _ => rfl⟩

theorem Fifo.consumerKeeps_syncConsumer (f : Fifo) : f.ConsumerKeeps f.syncConsumer :=
  ⟨rfl, rfl, rfl, fun _ => f.syncConsumer_lagIs,
    fun hs => ⟨hs.1, hs.2.syncConsumer⟩, fun _ => id⟩

end Sys2Proof.Machine
end

section
/-! PROOF. The reset state, the ring buffer's predicates and the queue law (O11, O17, O18). -/

namespace Sys2Proof.Machine

/-! ## The state after reset (`10_state.md` rule R45) -/

/-- Settles O11: each value as `State.reset` writes it. -/
theorem resetValues : Obligations.ResetValues := by
  unfold Obligations.ResetValues
  refine ⟨rfl, rfl, rfl, rfl, fun _ => rfl, fun _ => rfl, rfl, rfl, rfl, rfl, rfl, ?_, rfl, rfl, rfl,
    rfl, rfl, rfl, rfl, rfl, rfl, rfl, rfl, rfl⟩
  decide

/-! ## `ISEMPTY` and `ISFULL` (`40_fifo.md` rules R122, R123) -/

/-- A result word without data is `0x0100` or `0x0000`, as its flag says. -/
theorem resultWord_flag (flag : Bool) :
    resultWord false flag 0 = if flag then 0x0100 else 0x0000 := by
  cases flag <;> decide

/-- Without a lag FG sees both predicates as they are. -/
theorem State.seen_of_lagIs_zero (s : State) (f : FifoSel) (h : (s.fifo f).lagIs 0) :
    s.seenEmpty f = (s.fifo f).isEmpty ∧ s.seenFull f = (s.fifo f).isFull := by
  have hr := Fifo.readSeen_of_nil (List.length_eq_zero_iff.mp h.1)
  have hw := Fifo.writeSeen_of_nil (List.length_eq_zero_iff.mp h.2)
  cases f with
  | rxf =>
    simp only [State.fifo_rxf] at hw
    exact ⟨by simp only [State.seenEmpty, Fifo.consumerEmpty, hw]; rfl,
      by simp only [State.seenFull, Fifo.consumerFull, hw]; rfl⟩
  | txf =>
    simp only [State.fifo_txf] at hr
    exact ⟨by simp only [State.seenEmpty, Fifo.producerEmpty, hr]; rfl,
      by simp only [State.seenFull, Fifo.producerFull, hr]; rfl⟩

/-- Settles O17: the two answers are `seenEmpty` and `seenFull`, which compare the cursors. -/
theorem predicatesReadCursors : Obligations.PredicatesReadCursors := by
  intro s f
  refine ⟨s.seenEmpty f, s.seenFull f, ?_, ?_, ?_, ?_, s.seen_of_lagIs_zero f⟩
  · rw [← resultWord_flag]; rfl
  · rw [← resultWord_flag]; rfl
  · rintro rfl
    simp [State.seenEmpty, State.seenFull, Fifo.consumerEmpty, Fifo.consumerFull, Fin.ext_iff]
  · rintro rfl
    simp [State.seenEmpty, State.seenFull, Fifo.producerEmpty, Fifo.producerFull, Fin.ext_iff]

/-! ## The queue law (`40_fifo.md` rule R127) -/

/-- The result word of a `POP` that takes a byte (`30_encoding.md` rule R96). -/
theorem popResult_some (b : Byte) : popResult (some b) = 0x0100 ||| b.setWidth 16 := by
  have h : popResult (some b) = BitVec.append (1 : BitVec 8) b := rfl
  exact h.trans (BitVec.append_def ..)

theorem Fifo.queue_length_le (f : Fifo) (hs : f.sound) : f.queue.length ≤ f.capacity - 1 := by
  have := f.count_lt
  rw [f.queue_length hs.1]
  omega

/-- A `PUSH` that stores appends its byte; one that fails leaves the queue, and without a lag finds it
at `capacity - 1` bytes. -/
theorem queueLaw_push (s : State) (f : FifoSel) (b : Byte) (hs : (s.fifo f).sound) :
    ∃ t, exec (.push f b) s = .next t ∧ (t.fifo f).sound ∧
      (t.fgResult = 0x0100 → (t.fifo f).queue = (s.fifo f).queue ++ [b]) ∧
      (t.fgResult ≠ 0x0100 → (t.fifo f).queue = (s.fifo f).queue ∧
        ((s.fifo f).lagIs 0 → (s.fifo f).queue.length = (s.fifo f).capacity - 1)) := by
  obtain ⟨t, ht, hf, hr⟩ : ∃ t, exec (.push f b) s = .next t ∧
      t.fifo f = ((s.fifo f).push b).1 ∧
      t.fgResult = resultWord false ((s.fifo f).push b).2 0 :=
    ⟨_, rfl, by cases f <;> rfl, rfl⟩
  refine ⟨t, ht, ?_⟩
  rw [hf, hr, resultWord_flag, Fifo.push_stored]
  refine ⟨(s.fifo f).push_sound b hs, ?_⟩
  cases hfull : (s.fifo f).producerFull
  · exact ⟨fun _ => (s.fifo f).push_queue b hfull (hs.2.isFull_eq_false hfull),
      fun h => absurd rfl h⟩
  · refine ⟨fun h => absurd h (by decide), fun _ => ⟨?_, fun hl => ?_⟩⟩
    · rw [(s.fifo f).push_of_full b hfull]
    · have hc := (s.fifo f).producerFull_iff.mp hfull
      rw [Fifo.producerCount_of_nil (List.length_eq_zero_iff.mp hl.1)] at hc
      rw [(s.fifo f).queue_length hs.1]
      omega

/-- A `POP` takes the head of the queue, or leaves it, and without a lag finds it empty. -/
theorem queueLaw_pop (s : State) (f : FifoSel) (hs : (s.fifo f).sound) :
    ∃ t, exec (.pop f) s = .next t ∧ (t.fifo f).sound ∧
      ((t.fgResult = 0x0000 ∧ (t.fifo f).queue = (s.fifo f).queue ∧
          ((s.fifo f).lagIs 0 → (s.fifo f).queue = [])) ∨
        ∃ b rest, (s.fifo f).queue = b :: rest ∧ t.fgResult = 0x0100 ||| b.setWidth 16 ∧
          (t.fifo f).queue = rest) := by
  have answer : ∀ {b : Option Byte} {q : Fifo}, (s.fifo f).pop = .ok (b, q) →
      ∃ t, exec (.pop f) s = .next t ∧ t.fifo f = q ∧ t.fgResult = popResult b :=
    fun h => ⟨_, by simp only [exec, execPop, h]; rfl, by cases f <;> rfl, rfl⟩
  rcases (s.fifo f).pop_cases with ⟨he, hp⟩ | ⟨b, he, hb, hp⟩ | ⟨he, hb, -⟩
  · obtain ⟨t, ht, hf, hr⟩ := answer hp
    rw [← hf] at hs ⊢
    refine ⟨t, ht, hs, .inl ⟨hr.trans (by decide), rfl, fun hl => ?_⟩⟩
    have hc := (t.fifo f).consumerEmpty_iff.mp (hf ▸ he)
    rw [Fifo.consumerCount_of_nil (List.length_eq_zero_iff.mp hl.2)] at hc
    exact List.length_eq_zero_iff.mp (((t.fifo f).queue_length hs.1).trans hc)
  · obtain ⟨t, ht, hf, hr⟩ := answer hp
    refine ⟨t, ht, hf ▸ (s.fifo f).popC3_sound he hs, .inr ⟨b, (t.fifo f).queue, ?_, ?_, rfl⟩⟩
    · rw [hf]; exact (s.fifo f).popC3_queue (hs.2.isEmpty_eq_false he) hb
    · rw [hr, popResult_some]
  · obtain ⟨b, hb'⟩ := (s.fifo f).slot_read hs.1 (hs.2.isEmpty_eq_false he)
    rw [hb] at hb'
    cases hb'

/-- Settles O18: `PUSH` by `queueLaw_push`, `POP` by `queueLaw_pop`. -/
theorem queueLaw : Obligations.QueueLaw := fun s f hs =>
  ⟨(s.fifo f).queue_length_le hs, fun b => queueLaw_push s f b hs, queueLaw_pop s f hs⟩

end Sys2Proof.Machine
end

section
/-! PROOF. The frames of the agents: what the bookkeeping of FG leaves as it was, and what each agent's
actions can do to the block (`10_state.md` rule R25). -/

namespace Sys2Proof.Machine

/-! ## Frames -/

/-- `t` is `s` but for FG's registers, the requests and the observations: the FIFOs, the UART's queues and
the controllers' positions are the same, and `sch_pc` stays in range. -/
structure State.Bookkeeping (s t : State) : Prop where
  cfg : t.cfg = s.cfg := by simp
  source : t.source = s.source := by simp
  rxf : t.rxf = s.rxf := by simp
  txf : t.txf = s.txf := by simp
  urx : t.urx = s.urx := by simp
  utx : t.utx = s.utx := by simp
  rxc : t.rxc = s.rxc := by simp
  txc : t.txc = s.txc := by simp
  schPc : s.schPc < s.cfg.ntask + 3 → t.schPc < t.cfg.ntask + 3 := by simp

/-- What FG's actions can do with its own handles: it consumes RXF and produces TXF. -/
structure State.FgMoves (s t : State) : Prop where
  cfg : t.cfg = s.cfg := by simp
  source : t.source = s.source := by simp
  rxf : s.rxf.ConsumerKeeps t.rxf
  txf : s.txf.ProducerKeeps t.txf
  urx : t.urx = s.urx := by simp
  utx : t.utx = s.utx := by simp
  rxc : t.rxc = s.rxc := by simp
  txc : t.txc = s.txc := by simp
  schPc : s.schPc < s.cfg.ntask + 3 → t.schPc < t.cfg.ntask + 3 := by simp

/-- What RXC's actions can do: it produces RXF and empties `urx`. -/
structure State.RxMoves (s t : State) : Prop where
  cfg : t.cfg = s.cfg := by simp
  source : t.source = s.source := by simp
  rxf : s.rxf.ProducerKeeps t.rxf
  txf : t.txf = s.txf := by simp
  urx : t.urx.length ≤ s.urx.length := by simp
  utx : t.utx = s.utx := by simp
  schPc : t.schPc = s.schPc := by simp
  fg : t.fg = s.fg := by simp
  txc : t.txc = s.txc := by simp

/-- What TXC's actions can do: it consumes TXF and fills `utx` up to its depth. -/
structure State.TxMoves (s t : State) : Prop where
  cfg : t.cfg = s.cfg := by simp
  source : t.source = s.source := by simp
  rxf : t.rxf = s.rxf := by simp
  txf : s.txf.ConsumerKeeps t.txf
  urx : t.urx = s.urx := by simp
  utx : s.utx.length ≤ s.cfg.utxDepth → t.utx.length ≤ s.cfg.utxDepth := by simp
  schPc : t.schPc = s.schPc := by simp
  fg : t.fg = s.fg := by simp
  rxc : t.rxc = s.rxc := by simp

/-- What no step changes: the configuration, the driver of the foreground bus, the capacities and the
storages' form. -/
structure State.Kept (s t : State) : Prop where
  cfg : t.cfg = s.cfg := by simp
  source : t.source = s.source := by simp
  rxf : s.rxf.Kept t.rxf
  txf : s.txf.Kept t.txf

theorem State.Bookkeeping.refl (s : State) : s.Bookkeeping s := {}

theorem State.Bookkeeping.trans {s t u : State} (hst : s.Bookkeeping t) (htu : t.Bookkeeping u) :
    s.Bookkeeping u where
  cfg := htu.cfg.trans hst.cfg
  source := htu.source.trans hst.source
  rxf := htu.rxf.trans hst.rxf
  txf := htu.txf.trans hst.txf
  urx := htu.urx.trans hst.urx
  utx := htu.utx.trans hst.utx
  rxc := htu.rxc.trans hst.rxc
  txc := htu.txc.trans hst.txc
  schPc := htu.schPc ∘ hst.schPc

theorem State.FgMoves.trans {s t u : State} (hst : s.FgMoves t) (htu : t.FgMoves u) :
    s.FgMoves u where
  cfg := htu.cfg.trans hst.cfg
  source := htu.source.trans hst.source
  rxf := hst.rxf.trans htu.rxf
  txf := hst.txf.trans htu.txf
  urx := htu.urx.trans hst.urx
  utx := htu.utx.trans hst.utx
  rxc := htu.rxc.trans hst.rxc
  txc := htu.txc.trans hst.txc
  schPc := htu.schPc ∘ hst.schPc

theorem State.Bookkeeping.fgMoves {s t : State} (h : s.Bookkeeping t) : s.FgMoves t where
  cfg := h.cfg
  source := h.source
  rxf := by rw [h.rxf]; exact .refl s.rxf
  txf := by rw [h.txf]; exact .refl s.txf
  urx := h.urx
  utx := h.utx
  rxc := h.rxc
  txc := h.txc
  schPc := h.schPc

theorem State.Kept.refl (s : State) : s.Kept s := { rxf := .refl _, txf := .refl _ }

theorem State.Kept.trans {s t u : State} (hst : s.Kept t) (htu : t.Kept u) : s.Kept u where
  cfg := htu.cfg.trans hst.cfg
  source := htu.source.trans hst.source
  rxf := hst.rxf.trans htu.rxf
  txf := hst.txf.trans htu.txf

theorem State.FgMoves.kept {s t : State} (h : s.FgMoves t) : s.Kept t :=
  ⟨h.cfg, h.source, h.rxf.kept, h.txf.toKept⟩

theorem State.RxMoves.kept {s t : State} (h : s.RxMoves t) : s.Kept t :=
  ⟨h.cfg, h.source, h.rxf.toKept, h.txf ▸ .refl _⟩

theorem State.TxMoves.kept {s t : State} (h : s.TxMoves t) : s.Kept t :=
  ⟨h.cfg, h.source, h.rxf ▸ .refl _, h.txf.kept⟩

theorem State.Bookkeeping.kept {s t : State} (h : s.Bookkeeping t) : s.Kept t := h.fgMoves.kept

/-- Replacing a FIFO by one that keeps what every action keeps. -/
theorem State.Kept.setFifo {s : State} (f : FifoSel) {q : Fifo} (h : (s.fifo f).Kept q) :
    s.Kept (s.setFifo f q) := by
  cases f with
  | rxf => exact { rxf := h, txf := .refl _ }
  | txf => exact { rxf := .refl _, txf := h }

theorem State.FgMoves.setRxf {s : State} {q : Fifo} (h : s.rxf.ConsumerKeeps q) :
    s.FgMoves { s with rxf := q } :=
  { rxf := h, txf := .refl _ }

theorem State.FgMoves.setTxf {s : State} {q : Fifo} (h : s.txf.ProducerKeeps q) :
    s.FgMoves { s with txf := q } :=
  { rxf := .refl _, txf := h }

/-! ## FG's bookkeeping -/

theorem State.retire_bookkeeping (s : State) (i : Instr) (rw : Word) :
    s.Bookkeeping (s.retire i rw) := {}

theorem State.rejectWord_bookkeeping (s : State) (ow : Word) : s.Bookkeeping (s.rejectWord ow) := {}

theorem State.atStep_bookkeeping (s : State) (c : FgCtx) : s.Bookkeeping (s.atStep c) := {}

theorem State.takeWord_bookkeeping (s : State) : s.Bookkeeping s.takeWord := by
  unfold State.takeWord
  split <;> exact {}

theorem State.finish_bookkeeping (s : State) : s.Bookkeeping s.finish where
  schPc h := by
    by_cases hs : s.source = .sequencer
    · rw [finish_of_sequencer hs]
      exact Nat.mod_lt _ (Nat.succ_pos _)
    · rw [finish_of_driver hs]
      exact h

theorem State.endString_bookkeeping (s : State) (o : Outer) : s.Bookkeeping (s.endString o) := by
  cases o with
  | single => exact s.finish_bookkeeping
  | report t =>
    exact .trans (t := { s with fgResult := resultWord false true 0 }) {} (State.finish_bookkeeping _)
  | enq => exact s.finish_bookkeeping

theorem State.resumeString_bookkeeping (s : State) (o : Outer) :
    s.Bookkeeping (s.resumeString o) := by
  unfold State.resumeString
  split
  · exact s.endString_bookkeeping o
  · exact s.atStep_bookkeeping _

theorem State.afterEnqb_bookkeeping (s : State) (o : Outer) (stored : Bool) :
    s.Bookkeeping (s.afterEnqb o stored) := by
  by_cases ho : o = .single
  · subst ho; exact s.finish_bookkeeping
  · rw [State.afterEnqb_of_string ho]
    exact .trans (t := s.countByte stored s.enqRem.tail) {} (State.resumeString_bookkeeping _ o)

theorem State.endEnqb_bookkeeping (s : State) (o : Outer) (b : Byte) (stored : Bool) :
    s.Bookkeeping (s.endEnqb o b stored) := by
  rw [State.endEnqb_eq]
  exact (s.retire_bookkeeping _ _).trans (State.afterEnqb_bookkeeping _ o stored)

theorem State.beginEnqb_bookkeeping (s : State) (o : Outer) (b : Byte) :
    s.Bookkeeping (s.beginEnqb o b) := by
  unfold State.beginEnqb
  split
  · exact s.endEnqb_bookkeeping o b false
  · exact s.atStep_bookkeeping _

theorem State.beginString_bookkeeping (s : State) (o : Outer) (str : List Byte) :
    s.Bookkeeping (s.beginString o str) :=
  .trans (t := { s with enqRem := str, enqCnt := 0 }) {} (State.atStep_bookkeeping _ _)

theorem State.beginAction_bookkeeping (s : State) (t : Nat) : s.Bookkeeping (s.beginAction t) := by
  unfold State.beginAction
  split
  · exact s.finish_bookkeeping
  · split
    · exact .trans (t := { s.toggle with fgResult := resultWord false true 0 }) {}
        (State.finish_bookkeeping _)
    · exact .trans (t := { s with fmtCalls := s.fmtCalls + 1 }) {}
        (State.beginString_bookkeeping _ _ _)

theorem State.fired_bookkeeping (s : State) (t : Nat) : s.Bookkeeping (s.fired t) := by
  unfold State.fired
  exact {}

/-! ## Whole operations -/

/-- An operation FG may issue outside the standalone-FIFO test configuration (`30_encoding.md` rule R94):
no activation, and no foreign handle. -/
def Instr.ownHandles : Instr → Prop
  | .push f _ => f = .txf
  | .pop f => f = .rxf
  | .rxsvc => False
  | .txsvc => False
  | _ => True

theorem Instr.ownHandles_of_busAllows {src : FgSource} {i : Instr} (hs : src ≠ .standalone)
    (h : busAllows src .foreground i = true) : Instr.ownHandles i := by
  cases i <;> simp_all [busAllows, Instr.ownHandles]

theorem State.enqueueByte_fgMoves (s : State) (b : Byte) : s.FgMoves (s.enqueueByte b).1 := by
  cases hf : s.txf.producerFull
  · rw [State.enqueueByte_of_not_full b hf]
    exact { rxf := .refl _, txf := s.txf.producerKeeps_push b }
  · rw [State.enqueueByte_of_full b hf]
    exact { rxf := .refl _, txf := .refl _ }

theorem State.enqueueString_fgMoves (s : State) (str : List Byte) :
    s.FgMoves (s.enqueueString str) := by
  rw [(State.enqueueString_spec str s).frame]
  exact { rxf := .refl _, txf := s.txf.producerKeeps_pushAll str }

theorem State.dispatch_fgMoves (s : State) (t : Nat) (str : List Byte) :
    s.FgMoves (s.dispatch t str) := by
  cases ht : s.task t with
  | none =>
    simp only [State.dispatch, ht]
    exact (s.rejectWord_bookkeeping _).fgMoves
  | some task =>
    by_cases hdue : s.counter t = task.thresh
    · rw [State.dispatch_of_due ht hdue]
      refine (s.fired_bookkeeping t).fgMoves.trans ?_
      refine .trans (t := (s.fired t).runAction task.action str) ?_ (State.Bookkeeping.fgMoves {})
      cases task.action with
      | toggle => exact (show (s.fired t).Bookkeeping (s.fired t).toggle from {}).fgMoves
      | report =>
        exact .trans (t := { s.fired t with fmtCalls := (s.fired t).fmtCalls + 1 })
          (State.Bookkeeping.fgMoves {}) (State.enqueueString_fgMoves _ str)
    · simp only [State.dispatch, ht, hdue, if_false]
      exact (s.retire_bookkeeping _ _).fgMoves

/-- The operations that read or write no FIFO but to ask a predicate; each is one micro-step. -/
def Instr.leavesFifos : Instr → Prop
  | .isempty _ => True
  | .isfull _ => True
  | .kick => True
  | .inc => True
  | .work => True
  | .waitp => True
  | _ => False

theorem exec_leavesFifos {i : Instr} (hi : Instr.leavesFifos i) (s : State) :
    ∃ t, exec i s = .next t ∧ s.Bookkeeping t := by
  cases i with
  | isempty _ | isfull _ | kick | inc | work => exact ⟨_, rfl, {}⟩
  | waitp =>
    cases hp : s.periodElapsed
    · exact ⟨s, by simp only [exec, execWaitp, hp]; rfl, .refl s⟩
    · exact ⟨{ s with periodElapsed := false }.retire .waitp 0,
        by simp only [exec, execWaitp, hp]; rfl, {}⟩
  | push _ _ | pop _ | enqb _ | rxsvc | txsvc | disp _ | enq _ => exact hi.elim

/-- Everything a whole operation on FG's own handles can do: end within FG's frame, or read a slot that was
never written. -/
theorem exec_own_cases {i : Instr} (hi : Instr.ownHandles i) (s : State) :
    (∃ t, exec i s = .next t ∧ s.FgMoves t) ∨
    (¬ s.rxf.sound ∧ exec i s = .fault .unwrittenSlot) := by
  by_cases hl : Instr.leavesFifos i
  · obtain ⟨t, ht, hb⟩ := exec_leavesFifos hl s
    exact .inl ⟨t, ht, hb.fgMoves⟩
  cases i with
  | push f b =>
    obtain rfl : f = .txf := hi
    exact .inl ⟨_, rfl, (State.FgMoves.setTxf (s.txf.producerKeeps_push b)).trans
      (State.retire_bookkeeping _ _ _).fgMoves⟩
  | pop f =>
    obtain rfl : f = .rxf := hi
    have answer : ∀ {b : Option Byte} {q : Fifo}, s.rxf.pop = .ok (b, q) →
        ∃ t, exec (.pop .rxf) s = .next t ∧ s.FgMoves t := fun h =>
      ⟨_, by simp only [exec, execPop, State.fifo_rxf, h]; rfl,
        (State.FgMoves.setRxf (Fifo.consumerKeeps_pop h)).trans
          (State.retire_bookkeeping _ _ _).fgMoves⟩
    rcases s.rxf.pop_cases with ⟨_, hp⟩ | ⟨b, _, _, hp⟩ | ⟨he, hb, hp⟩
    · exact .inl (answer hp)
    · exact .inl (answer hp)
    · refine .inr ⟨fun hs => ?_, by simp only [exec, execPop, State.fifo_rxf, hp]⟩
      obtain ⟨b, hb'⟩ := s.rxf.slot_read hs.1 (hs.2.isEmpty_eq_false he)
      simp [hb] at hb'
  | enqb b => exact .inl ⟨_, rfl, s.enqueueByte_fgMoves b⟩
  | disp t => exact .inl ⟨_, rfl, s.dispatch_fgMoves t s.sentence⟩
  | enq str => exact .inl ⟨_, rfl, s.enqueueString_fgMoves str⟩
  | isempty _ | isfull _ | kick | inc | work | waitp => exact absurd trivial hl
  | rxsvc | txsvc => exact hi.elim

theorem execRxsvc_rxMoves (s : State) :
    ∃ t, exec .rxsvc s = .next t ∧ s.RxMoves t ∧ t.rxc = s.rxc := by
  refine ⟨_, rfl, ?_⟩
  rw [State.drainUrx_eq]
  exact ⟨{ rxf := s.rxf.producerKeeps_pushAll s.urx }, rfl⟩

theorem State.drainTxf_consumerKeeps {fuel : Nat} {s t : State} (h : s.drainTxf fuel = .next t) :
    s.txf.ConsumerKeeps t.txf := by
  induction fuel generalizing s with
  | zero => cases h; exact .refl _
  | succ fuel ih =>
    rw [State.drainTxf] at h
    split at h
    · cases h; exact .refl _
    · split at h
      · cases h
      · cases h; exact .refl _
      · exact (Fifo.consumerKeeps_pop ‹_›).trans (ih h)

/-- Everything a `TXSVC` can do: end within TXC's frame, or read a slot that was never written. -/
theorem execTxsvc_cases (s : State) :
    (∃ t, exec .txsvc s = .next t ∧ s.TxMoves t ∧ t.txc = s.txc) ∨
    (¬ s.txf.sound ∧ exec .txsvc s = .fault .unwrittenSlot) := by
  have hentry : s.enterTx.entryCheck.txf = s.txf := by simp
  have hexec : exec .txsvc s = mapNext (fun t => t.retireService .txsvc 0)
    (s.enterTx.entryCheck.drainTxf s.txf.consumerCount) := rfl
  rcases State.drainTxf_cases s.txf.consumerCount s.enterTx.entryCheck
    (by rw [hentry]) with ⟨t, ht, hd⟩ | ⟨hs, hf⟩
  · have hk := State.drainTxf_consumerKeeps ht
    have hu := hd.bound
    rw [hentry] at hk
    rw [State.entryCheck_utx, State.entryCheck_cfg] at hu
    rw [ht] at hexec
    refine .inl ⟨_, hexec, ?_⟩
    rw [hd.frame]
    exact ⟨{ txf := hk, utx := hu }, by simp⟩
  · rw [hentry] at hs
    rw [hf] at hexec
    exact .inr ⟨hs, hexec⟩

/-! ## FG's first micro-steps -/

theorem State.fgOk_of_idle {s : State} (h : s.fg = .idle) : s.fgOk := by
  unfold State.fgOk
  rw [h]
  trivial

theorem State.finish_fgOk (s : State) : s.finish.fgOk := State.fgOk_of_idle s.finish_fg

theorem State.endString_fgOk (s : State) (o : Outer) : (s.endString o).fgOk := by
  cases o <;> exact State.finish_fgOk _

theorem State.resumeString_fgOk (s : State) (o : Outer) : (s.resumeString o).fgOk := by
  unfold State.resumeString
  split
  · exact s.endString_fgOk o
  · trivial

theorem State.endEnqb_fgOk (s : State) (o : Outer) (b : Byte) (stored : Bool) :
    (s.endEnqb o b stored).fgOk := by
  rw [State.endEnqb_eq]
  cases o with
  | single => exact State.finish_fgOk _
  | report _ | enq => exact State.resumeString_fgOk _ _

theorem State.beginEnqb_fgOk (s : State) (o : Outer) (b : Byte) : (s.beginEnqb o b).fgOk := by
  unfold State.beginEnqb
  split
  · exact s.endEnqb_fgOk o b false
  · exact Fifo.pushing_of_pushP1 ‹_›

theorem State.beginAction_fgOk (s : State) (t : Nat) : (s.beginAction t).fgOk := by
  unfold State.beginAction
  split
  · exact s.finish_fgOk
  · split
    · exact State.finish_fgOk _
    · trivial

theorem fgBegin_of_leavesFifos {i : Instr} (hi : Instr.leavesFifos i) (s : State) :
    fgBegin i s = runWhole i s := by
  cases i with
  | isempty _ | isfull _ | kick | inc | work | waitp => rfl
  | push _ _ | pop _ | enqb _ | rxsvc | txsvc | disp _ | enq _ => exact hi.elim

/-- The first micro-step of an operation only takes snapshots; on FG's own handles they agree with its
cursors. -/
theorem fgBegin_bookkeeping {i : Instr} (hrx : i ≠ .rxsvc) (htx : i ≠ .txsvc) (s : State) :
    ∃ t, fgBegin i s = .next t ∧ s.Bookkeeping t ∧ (Instr.ownHandles i → t.fgOk) := by
  have retired : ∀ rw, s.Bookkeeping (s.retire i rw).finish := fun rw =>
    (s.retire_bookkeeping i rw).trans (State.finish_bookkeeping _)
  by_cases hl : Instr.leavesFifos i
  · obtain ⟨t, ht, hb⟩ := exec_leavesFifos hl s
    exact ⟨t.finish, by rw [fgBegin_of_leavesFifos hl, runWhole, ht]; rfl,
      hb.trans t.finish_bookkeeping, fun _ => t.finish_fgOk⟩
  cases i with
  | push f b =>
    cases hp : (s.fifo f).pushP1 with
    | none => exact ⟨_, by simp only [fgBegin, hp]; rfl, retired _, fun _ => State.finish_fgOk _⟩
    | some p =>
      refine ⟨_, by simp only [fgBegin, hp]; rfl, s.atStep_bookkeeping _, fun hi => ?_⟩
      obtain rfl : f = .txf := hi
      exact ⟨rfl, Fifo.pushing_of_pushP1 hp⟩
  | pop f =>
    cases hp : (s.fifo f).popC1 with
    | none => exact ⟨_, by simp only [fgBegin, hp]; rfl, retired _, fun _ => State.finish_fgOk _⟩
    | some tr =>
      refine ⟨_, by simp only [fgBegin, hp]; rfl, s.atStep_bookkeeping _, fun hi => ?_⟩
      obtain rfl : f = .rxf := hi
      exact ⟨rfl, Fifo.popping_of_popC1 hp⟩
  | enqb b => exact ⟨_, rfl, s.beginEnqb_bookkeeping _ b, fun _ => s.beginEnqb_fgOk _ b⟩
  | disp n =>
    cases ht : s.task n with
    | none =>
      exact ⟨_, by simp only [fgBegin, ht]; rfl, (s.rejectWord_bookkeeping _).trans
        (State.finish_bookkeeping _), fun _ => State.finish_fgOk _⟩
    | some task =>
      by_cases hdue : s.counter n = task.thresh
      · exact ⟨s.atStep (.dispD2 n), by simp only [fgBegin, ht, hdue, if_true],
          s.atStep_bookkeeping _, fun _ => trivial⟩
      · exact ⟨_, by simp only [fgBegin, ht, hdue, if_false]; rfl, retired _,
          fun _ => State.finish_fgOk _⟩
  | enq str => exact ⟨_, rfl, s.beginString_bookkeeping _ str, fun _ => trivial⟩
  | isempty _ | isfull _ | kick | inc | work | waitp => exact absurd trivial hl
  | rxsvc => exact absurd rfl hrx
  | txsvc => exact absurd rfl htx

/-- Everything FG can do at an operation boundary. -/
theorem fgIssue_cases (run : Instr → State → Result) (s : State) :
    (s.source = .sequencer ∧ s.nextWord = none ∧ fgIssue run s = .fault .sequencerPosition) ∨
    fgIssue run s = .next s ∨
    (∃ ow, fgIssue run s = .next (s.takeWord.rejectWord ow)) ∨
    ∃ ow i, decodeOn s.cfg.ntask s.source .foreground ow = .ok i ∧
      fgIssue run s = run i s.takeWord := by
  cases hn : s.nextWord with
  | none =>
    rw [fgIssue_of_none hn]
    cases hs : s.source <;> simp [fgNoWord, hs]
  | some ow =>
    cases hd : decodeOn s.cfg.ntask s.source .foreground ow with
    | error r => exact .inr (.inr (.inl ⟨ow, fgIssue_of_error hn hd⟩))
    | ok i =>
      cases hh : s.holds i
      · exact .inr (.inr (.inr ⟨ow, i, hd, fgIssue_of_ok hn hd hh⟩))
      · exact .inr (.inl (fgIssue_of_holds hn hd hh))

end Sys2Proof.Machine
end

section
/-! PROOF. What no step of any agent changes: the configuration, the driver of the foreground bus, the
capacities, and the storages' form (O44, O45). -/

namespace Sys2Proof.Machine

variable {s t : State}

/-- What is known of the state a step answers holds of any state it is seen to answer. -/
theorem of_next {r : Result} {P : State → Prop} (hr : ∃ u, r = .next u ∧ P u)
    (h : r = .next t) : P t := by
  obtain ⟨u, hu, hP⟩ := hr
  exact Host.Outcome.next.inj (hu.symm.trans h) ▸ hP

/-! ## FG -/

/-- Whole operations, foreign handles and activations included. -/
theorem exec_kept {i : Instr} (h : exec i s = .next t) : s.Kept t := by
  by_cases hi : Instr.ownHandles i
  · rcases exec_own_cases hi s with ht | ⟨_, hf⟩
    · exact (of_next ht h).kept
    · cases hf.symm.trans h
  cases i with
  | push f b =>
    obtain rfl := Host.Outcome.next.inj h
    exact (State.Kept.setFifo f ((s.fifo f).producerKeeps_push b).toKept).trans
      (State.retire_bookkeeping _ _ _).kept
  | pop f =>
    simp only [exec, execPop] at h
    split at h
    · cases h
    · obtain rfl := Host.Outcome.next.inj h
      exact (State.Kept.setFifo f (Fifo.consumerKeeps_pop ‹_›).kept).trans
        (State.retire_bookkeeping _ _ _).kept
  | rxsvc =>
    exact (of_next (execRxsvc_rxMoves s) h).1.kept
  | txsvc =>
    rcases execTxsvc_cases s with ht | ⟨_, hf⟩
    · exact (of_next ht h).1.kept
    · cases hf.symm.trans h
  | isempty _ | isfull _ | enqb _ | kick | inc | disp _ | work | waitp | enq _ =>
    exact absurd trivial hi

theorem runWhole_kept {i : Instr} (h : runWhole i s = .next t) : s.Kept t := by
  unfold runWhole mapNext at h
  split at h
  · obtain rfl := Host.Outcome.next.inj h
    exact (exec_kept ‹_›).trans (State.finish_bookkeeping _).kept
  · cases h
  · cases h

theorem fgBegin_kept {i : Instr} (h : fgBegin i s = .next t) : s.Kept t := by
  by_cases hsvc : i = .rxsvc ∨ i = .txsvc
  · have hw : fgBegin i s = runWhole i s := by rcases hsvc with rfl | rfl <;> rfl
    exact runWhole_kept (hw.symm.trans h)
  · rw [not_or] at hsvc
    exact (of_next (fgBegin_bookkeeping hsvc.1 hsvc.2 s) h).1.kept

theorem fgIssue_kept {run : Instr → State → Result}
    (hrun : ∀ {i : Instr} {s t : State}, run i s = .next t → s.Kept t)
    (h : fgIssue run s = .next t) : s.Kept t := by
  rcases fgIssue_cases run s with ⟨_, _, hf⟩ | hn | ⟨ow, hn⟩ | ⟨ow, i, _, hr⟩
  · cases hf.symm.trans h
  · obtain rfl := Host.Outcome.next.inj (hn.symm.trans h)
    exact .refl s
  · obtain rfl := Host.Outcome.next.inj (hn.symm.trans h)
    exact s.takeWord_bookkeeping.kept.trans (State.rejectWord_bookkeeping _ ow).kept
  · exact s.takeWord_bookkeeping.kept.trans (hrun (hr.symm.trans h))

/-- FG's later micro-steps, whatever snapshots they carry. -/
theorem fgContinue_kept (h : fgContinue s = .next t) : s.Kept t := by
  cases hc : s.fg <;> simp only [fgContinue, hc] at h
  case idle =>
    obtain rfl := Host.Outcome.next.inj h
    exact .refl s
  case pushP2 f b tw tn =>
    obtain rfl := Host.Outcome.next.inj h
    exact (State.Kept.setFifo f ((s.fifo f).kept_pushP2 tw b)).trans
      (State.atStep_bookkeeping _ _).kept
  case pushP3 f b tn =>
    obtain rfl := Host.Outcome.next.inj h
    exact (State.Kept.setFifo f ((s.fifo f).kept_pushP3 tn)).trans
      ((State.retire_bookkeeping _ _ _).trans (State.finish_bookkeeping _)).kept
  case popC2 f tr =>
    split at h
    · cases h
    · obtain rfl := Host.Outcome.next.inj h
      exact (s.atStep_bookkeeping _).kept
  case popC3 f tr b =>
    obtain rfl := Host.Outcome.next.inj h
    exact (State.Kept.setFifo f ((s.fifo f).kept_popC3 tr)).trans
      ((State.retire_bookkeeping _ _ _).trans (State.finish_bookkeeping _)).kept
  case enqNext o =>
    split at h
    · obtain rfl := Host.Outcome.next.inj h
      exact (s.endString_bookkeeping o).kept
    · obtain rfl := Host.Outcome.next.inj h
      exact (s.beginEnqb_bookkeeping o _).kept
  case enqbP2 o b tw tn =>
    obtain rfl := Host.Outcome.next.inj h
    exact (State.Kept.setFifo .txf (s.txf.kept_pushP2 tw b)).trans
      (State.atStep_bookkeeping _ _).kept
  case enqbP3 o b tn =>
    obtain rfl := Host.Outcome.next.inj h
    exact (State.Kept.setFifo .txf (s.txf.kept_pushP3 tn)).trans
      (State.atStep_bookkeeping _ _).kept
  case enqbB4 o b =>
    split at h
    · obtain rfl := Host.Outcome.next.inj h
      exact (s.atStep_bookkeeping _).kept
    · obtain rfl := Host.Outcome.next.inj h
      exact (s.endEnqb_bookkeeping o b true).kept
  case enqbB5 o b =>
    obtain rfl := Host.Outcome.next.inj h
    exact State.Bookkeeping.kept {}
  case enqbB6 o b =>
    obtain rfl := Host.Outcome.next.inj h
    exact (State.Bookkeeping.trans (t := s.requestTx) {} (State.endEnqb_bookkeeping _ o b true)).kept
  case dispD2 n =>
    obtain rfl := Host.Outcome.next.inj h
    exact ((s.fired_bookkeeping n).trans (State.atStep_bookkeeping _ _)).kept
  case dispD3 n =>
    obtain rfl := Host.Outcome.next.inj h
    exact (s.beginAction_bookkeeping n).kept

theorem fgOpTurn_kept (h : fgOpTurn s = .next t) : s.Kept t := by
  by_cases hc : s.fg = .idle
  · rw [fgOpTurn_of_idle hc] at h
    exact fgIssue_kept runWhole_kept h
  · rw [fgOpTurn_of_ctx hc] at h
    exact fgContinue_kept h

theorem fgMicroTurn_kept (h : fgMicroTurn s = .next t) : s.Kept t := by
  by_cases hc : s.fg = .idle
  · rw [fgMicroTurn_of_idle hc] at h
    exact fgIssue_kept fgBegin_kept h
  · rw [fgMicroTurn_of_ctx hc] at h
    exact fgContinue_kept h

/-! ## The controllers -/

/-- The interrupt logic's two words are those of the two activations. -/
theorem rxcTurn_eq (s : State) : rxcTurn s = if s.rxEnabled then exec .rxsvc s else .next s := rfl

theorem txcTurn_eq (s : State) : txcTurn s = if s.txEnabled then exec .txsvc s else .next s := rfl

/-- A step that leaves both FIFOs alone. -/
theorem State.Kept.of_fifos_eq (hcfg : t.cfg = s.cfg) (hsource : t.source = s.source)
    (hrxf : t.rxf = s.rxf) (htxf : t.txf = s.txf) : s.Kept t :=
  ⟨hcfg, hsource, hrxf ▸ .refl _, htxf ▸ .refl _⟩

theorem rxcMicro_kept (h : rxcMicro s = .next t) : s.Kept t := by
  cases hc : s.rxc <;> simp only [rxcMicro, hc] at h
  case idle | x2 | x4P1 b =>
    split at h <;> obtain rfl := Host.Outcome.next.inj h <;> exact .of_fifos_eq rfl rfl rfl rfl
  case x3 =>
    cases hu : s.urx with
    | nil => simp only [State.ioRead, hu] at h; cases h
    | cons b rest =>
      simp only [State.ioRead, hu] at h
      obtain rfl := Host.Outcome.next.inj h
      exact .of_fifos_eq rfl rfl rfl rfl
  case x4P2 b tw tn =>
    obtain rfl := Host.Outcome.next.inj h
    exact { rxf := s.rxf.kept_pushP2 tw b, txf := .refl _ }
  case x4P3 tn =>
    obtain rfl := Host.Outcome.next.inj h
    exact { rxf := s.rxf.kept_pushP3 tn, txf := .refl _ }

theorem txcMicro_kept (h : txcMicro s = .next t) : s.Kept t := by
  cases hc : s.txc <;> simp only [txcMicro, hc] at h
  case idle | t3Room | t3Empty =>
    split at h <;> obtain rfl := Host.Outcome.next.inj h <;> exact .of_fifos_eq rfl rfl rfl rfl
  case t2Read | t2Write =>
    obtain rfl := Host.Outcome.next.inj h
    exact .of_fifos_eq rfl rfl rfl rfl
  case t4C1 | t4C2 tr | t5 b =>
    split at h
    · cases h
    · obtain rfl := Host.Outcome.next.inj h
      exact .of_fifos_eq rfl rfl rfl rfl
  case t4C3 tr b =>
    obtain rfl := Host.Outcome.next.inj h
    exact { rxf := .refl _, txf := s.txf.kept_popC3 tr }

/-! ## Every turn -/

theorem takeTurn_kept {turn : Turn} (h : takeTurn turn s = .next t) : s.Kept t := by
  cases turn with
  | op => exact fgOpTurn_kept h
  | micro => exact fgMicroTurn_kept h
  | rxc =>
    simp only [takeTurn, rxcTurn_eq] at h
    split at h
    · exact exec_kept h
    · obtain rfl := Host.Outcome.next.inj h
      exact .refl s
  | rxcMicro =>
    simp only [takeTurn, rxcMicroTurn] at h
    split at h
    · obtain rfl := Host.Outcome.next.inj h
      exact .refl s
    · exact rxcMicro_kept h
  | txc =>
    simp only [takeTurn, txcTurn_eq] at h
    split at h
    · exact exec_kept h
    · obtain rfl := Host.Outcome.next.inj h
      exact .refl s
  | txcMicro =>
    simp only [takeTurn, txcMicroTurn] at h
    split at h
    · obtain rfl := Host.Outcome.next.inj h
      exact .refl s
    · exact txcMicro_kept h
  | uartRx v =>
    simp only [takeTurn, uartRxTurn] at h
    split at h
    · obtain rfl := Host.Outcome.next.inj h
      exact .of_fifos_eq rfl rfl rfl rfl
    · cases h
  | uartTx =>
    simp only [takeTurn, uartTxTurn] at h
    split at h <;> obtain rfl := Host.Outcome.next.inj h <;> exact .of_fifos_eq rfl rfl rfl rfl
  | timer =>
    obtain rfl := Host.Outcome.next.inj h
    exact .of_fifos_eq rfl rfl rfl rfl
  | syncFclk =>
    obtain rfl := Host.Outcome.next.inj h
    exact { rxf := s.rxf.consumerKeeps_syncConsumer.kept,
            txf := s.txf.consumerKeeps_syncProducer.kept }
  | syncSclk =>
    obtain rfl := Host.Outcome.next.inj h
    exact { rxf := s.rxf.consumerKeeps_syncProducer.kept,
            txf := s.txf.consumerKeeps_syncConsumer.kept }
  | reset =>
    obtain rfl := Host.Outcome.next.inj h
    exact { cfg := rfl, source := rfl, rxf := s.rxf.kept_clear _, txf := s.txf.kept_clear _ }

theorem step_kept (h : step s = .next t) : s.Kept t := by
  obtain ⟨turn, l, n, hs⟩ := step_eq_takeTurn s
  exact .trans (t := { s with agenda := l, turnNo := n }) (.of_fifos_eq rfl rfl rfl rfl)
    (takeTurn_kept (hs.symm.trans h))

/-- Settles O44: the configuration, the driver and the capacities are among what every step keeps. -/
theorem configurationConstant : Obligations.ConfigurationConstant := fun _ _ h =>
  ⟨(step_kept h).cfg, (step_kept h).source, (step_kept h).rxf.capacity, (step_kept h).txf.capacity⟩

/-- Settles O45: so is the form of each storage. -/
theorem stepKeepsStorageForm : Obligations.StepKeepsStorageForm := fun _ _ hs h =>
  ⟨(step_kept h).rxf.storageOk hs.1, (step_kept h).txf.storageOk hs.2⟩

end Sys2Proof.Machine
end

section
/-! PROOF. The discipline of one producer and one consumer: every turn of every agent stays within the
agent's frame, keeps the temporaries in agreement with the cursors, never faults, and is refused only for
a byte that arrives on a full `urx` (O46, O47, O54). -/

namespace Sys2Proof.Machine

variable {s t : State}

/-! ## What another agent's turn leaves in agreement -/

theorem State.fgOk_of_keeps (hok : s.fgOk) (hrs : s.rxf.sound) (hts : s.txf.sound)
    (hrx : s.rxf.ProducerKeeps t.rxf) (htx : s.txf.ConsumerKeeps t.txf) (hfg : t.fg = s.fg) :
    t.fgOk := by
  unfold State.fgOk at hok ⊢
  rw [hfg]
  cases hc : s.fg <;> simp only [hc] at hok ⊢
  case pushP2 f b tw tn =>
    obtain ⟨hf, hp⟩ := hok
    exact ⟨hf, htx.pushing hts hp⟩
  case pushP3 f b tn =>
    obtain ⟨hf, hp, hb⟩ := hok
    exact ⟨hf, htx.writeIndex ▸ htx.pushing hts hp, htx.slot_write.trans hb⟩
  case popC2 f tr =>
    obtain ⟨hf, hp⟩ := hok
    exact ⟨hf, (hrx.popping hrs hp).1⟩
  case popC3 f tr b =>
    obtain ⟨hf, hp, hb⟩ := hok
    obtain ⟨hp', hslot⟩ := hrx.popping hrs hp
    exact ⟨hf, hp', hslot.trans hb⟩
  case enqbP2 o b tw tn => exact htx.pushing hts hok
  case enqbP3 o b tn =>
    obtain ⟨hp, hb⟩ := hok
    exact ⟨htx.writeIndex ▸ htx.pushing hts hp, htx.slot_write.trans hb⟩

theorem State.rxOk_of_keeps (hok : s.rxOk) (hs : s.rxf.sound) (hrx : s.rxf.ConsumerKeeps t.rxf)
    (hurx : s.urx ≠ [] → t.urx ≠ []) (hrxc : t.rxc = s.rxc) : t.rxOk := by
  unfold State.rxOk at hok ⊢
  rw [hrxc]
  cases hc : s.rxc <;> simp only [hc] at hok ⊢
  case x3 => exact hurx hok
  case x4P2 b tw tn => exact hrx.pushing hs hok
  case x4P3 tn =>
    obtain ⟨hp, hb⟩ := hok
    exact ⟨hrx.writeIndex ▸ hrx.pushing hs hp, hrx.slot_write ▸ hb⟩

theorem State.txOk_of_keeps (hok : s.txOk) (hs : s.txf.sound) (htx : s.txf.ProducerKeeps t.txf)
    (hutx : s.utxFull = false → t.utxFull = false) (htxc : t.txc = s.txc) : t.txOk := by
  unfold State.txOk at hok ⊢
  rw [htxc]
  cases hc : s.txc <;> simp only [hc] at hok ⊢
  case t3Empty | t5 b => exact hutx hok
  case t4C1 =>
    obtain ⟨hf, he⟩ := hok
    exact ⟨hutx hf, htx.consumerEmpty hs he⟩
  case t4C2 tr =>
    obtain ⟨hf, hp⟩ := hok
    exact ⟨hutx hf, (htx.popping hs hp).1⟩
  case t4C3 tr b =>
    obtain ⟨hf, hp, hb⟩ := hok
    obtain ⟨hp', hslot⟩ := htx.popping hs hp
    exact ⟨hutx hf, hp', hslot.trans hb⟩

theorem State.utxFull_congr (hcfg : t.cfg = s.cfg) (hutx : t.utx = s.utx) :
    t.utxFull = s.utxFull := by
  rw [State.utxFull, hcfg, hutx, State.utxFull]

/-! ## Each agent's frame keeps the discipline -/

theorem State.Disciplined.fgMoves (hd : s.Disciplined) (hm : s.FgMoves t) (hfg : t.fgOk) :
    t.Disciplined where
  source := hm.source ▸ hd.source
  capRx := hm.rxf.capacity ▸ hd.capRx
  capTx := hm.txf.capacity ▸ hd.capTx
  urx := by rw [hm.urx, hm.cfg]; exact hd.urx
  utx := by rw [hm.utx, hm.cfg]; exact hd.utx
  rxSound := hm.rxf.sound hd.rxSound
  txSound := hm.txf.sound hd.txSound
  rxLag := hm.cfg ▸ hm.rxf.lagIs _ hd.rxLag
  txLag := hm.cfg ▸ hm.txf.lagIs _ hd.txLag
  schPc := hm.schPc hd.schPc
  fg := hfg
  rxc := s.rxOk_of_keeps hd.rxc hd.rxSound hm.rxf (by rw [hm.urx]; exact id) hm.rxc
  txc := s.txOk_of_keeps hd.txc hd.txSound hm.txf
    (by rw [State.utxFull_congr hm.cfg hm.utx]; exact id) hm.txc
  atomic := by rw [State.atomicOk, hm.cfg, hm.rxc, hm.txc]; exact hd.atomic

theorem State.Disciplined.rxMoves (hd : s.Disciplined) (hm : s.RxMoves t) (hrxc : t.rxOk)
    (hatomic : s.cfg.isrAtomic = true → t.rxc = .idle) : t.Disciplined where
  source := hm.source ▸ hd.source
  capRx := hm.rxf.capacity ▸ hd.capRx
  capTx := hm.txf ▸ hd.capTx
  urx := hm.cfg ▸ hm.urx.trans hd.urx
  utx := by rw [hm.utx, hm.cfg]; exact hd.utx
  rxSound := hm.rxf.sound hd.rxSound
  txSound := hm.txf ▸ hd.txSound
  rxLag := hm.cfg ▸ hm.rxf.lagIs _ hd.rxLag
  txLag := by rw [hm.txf, hm.cfg]; exact hd.txLag
  schPc := by rw [hm.schPc, hm.cfg]; exact hd.schPc
  fg := s.fgOk_of_keeps hd.fg hd.rxSound hd.txSound hm.rxf (hm.txf ▸ .refl _) hm.fg
  rxc := hrxc
  txc := s.txOk_of_keeps hd.txc hd.txSound (hm.txf ▸ .refl _)
    (by rw [State.utxFull_congr hm.cfg hm.utx]; exact id) hm.txc
  atomic h := by
    rw [hm.cfg] at h
    exact ⟨hatomic h, hm.txc.trans (hd.atomic h).2⟩

theorem State.Disciplined.txMoves (hd : s.Disciplined) (hm : s.TxMoves t) (htxc : t.txOk)
    (hatomic : s.cfg.isrAtomic = true → t.txc = .idle) : t.Disciplined where
  source := hm.source ▸ hd.source
  capRx := hm.rxf ▸ hd.capRx
  capTx := hm.txf.capacity ▸ hd.capTx
  urx := by rw [hm.urx, hm.cfg]; exact hd.urx
  utx := hm.cfg ▸ hm.utx hd.utx
  rxSound := hm.rxf ▸ hd.rxSound
  txSound := hm.txf.sound hd.txSound
  rxLag := by rw [hm.rxf, hm.cfg]; exact hd.rxLag
  txLag := hm.cfg ▸ hm.txf.lagIs _ hd.txLag
  schPc := by rw [hm.schPc, hm.cfg]; exact hd.schPc
  fg := s.fgOk_of_keeps hd.fg hd.rxSound hd.txSound (hm.rxf ▸ .refl _) hm.txf hm.fg
  rxc := s.rxOk_of_keeps hd.rxc hd.rxSound (hm.rxf ▸ .refl _) (by rw [hm.urx]; exact id) hm.rxc
  txc := htxc
  atomic h := by
    rw [hm.cfg] at h
    exact ⟨hm.rxc.trans (hd.atomic h).1, hatomic h⟩

/-! ## FG's turns -/

/-- Each operation on FG's own handles, whole. -/
theorem runWhole_disciplined {i : Instr} (hi : Instr.ownHandles i) (hd : s.Disciplined) :
    ∃ t, runWhole i s = .next t ∧ s.FgMoves t ∧ t.fgOk := by
  rcases exec_own_cases hi s with ⟨u, hu, hm⟩ | ⟨hs, _⟩
  · exact ⟨u.finish, by rw [runWhole, hu]; rfl, hm.trans u.finish_bookkeeping.fgMoves,
      u.finish_fgOk⟩
  · exact absurd hd.rxSound hs

/-- Its first micro-step. -/
theorem fgBegin_disciplined {i : Instr} (hi : Instr.ownHandles i) (_ : s.Disciplined) :
    ∃ t, fgBegin i s = .next t ∧ s.FgMoves t ∧ t.fgOk := by
  obtain ⟨t, ht, hb, hfg⟩ := fgBegin_bookkeeping (i := i)
    (by rintro rfl; exact hi) (by rintro rfl; exact hi) s
  exact ⟨t, ht, hb.fgMoves, hfg hi⟩

/-- P2 of a `PUSH TXF` or an `ENQB`, which FG goes on from at the position `c`. -/
theorem State.pushP2_fgMoves {tw tn : Nat} (b : Byte) (c : FgCtx) (hp : s.txf.pushing tw tn) :
    s.FgMoves ({ s with txf := s.txf.pushP2 tw b }.atStep c) := by
  obtain ⟨rfl, -, -⟩ := hp
  exact (State.FgMoves.setTxf (s.txf.producerKeeps_pushP2 b)).trans
    (State.atStep_bookkeeping _ c).fgMoves

/-- After P2 the byte stands in the write cursor's slot, and there still is room. -/
theorem Fifo.pushing_pushP2 {f : Fifo} {tw tn : Nat} (b : Byte) (hp : f.pushing tw tn) :
    (f.pushP2 tw b).pushing (f.pushP2 tw b).writeIndex.val tn ∧
      (f.pushP2 tw b).slot (f.pushP2 tw b).writeIndex.val = some b := by
  obtain ⟨rfl, rfl, hf⟩ := hp
  exact ⟨⟨rfl, rfl, hf⟩, f.pushP2_slot_write b⟩

theorem Fifo.producerKeeps_pushP3_of_pushing {f : Fifo} {tn : Nat}
    (hp : f.pushing f.writeIndex.val tn) (hb : (f.slot f.writeIndex.val).isSome = true) :
    f.ProducerKeeps (f.pushP3 tn) := by
  obtain ⟨-, rfl, hf⟩ := hp
  exact f.producerKeeps_pushP3 hf hb

theorem Fifo.popC2_of_popping {f : Fifo} {tr : Nat} (hs : f.sound) (hp : f.popping tr) :
    ∃ b, f.popC2 tr = .ok b ∧ f.slot tr = some b := by
  obtain ⟨rfl, he⟩ := hp
  obtain ⟨b, hb⟩ := f.slot_read hs.1 (hs.2.isEmpty_eq_false he)
  exact ⟨b, f.popC2_of_slot hb, hb⟩

theorem Fifo.consumerKeeps_popC3_of_popping {f : Fifo} {tr : Nat} (hp : f.popping tr) :
    f.ConsumerKeeps (f.popC3 tr) := by
  obtain ⟨rfl, he⟩ := hp
  exact f.consumerKeeps_popC3 he

/-- FG's later micro-steps: its snapshots are its cursors, so each acts on its own side only. -/
theorem fgContinue_disciplined (hd : s.Disciplined) :
    ∃ t, fgContinue s = .next t ∧ s.FgMoves t ∧ t.fgOk := by
  have hok := hd.fg
  unfold State.fgOk at hok
  cases hc : s.fg <;> simp only [hc] at hok <;> simp only [fgContinue, hc]
  case idle => exact ⟨s, rfl, (State.Bookkeeping.refl s).fgMoves, hd.fg⟩
  case pushP2 f b tw tn =>
    obtain ⟨rfl, hp⟩ := hok
    exact ⟨_, rfl, State.pushP2_fgMoves b _ hp, rfl, s.txf.pushing_pushP2 b hp⟩
  case pushP3 f b tn =>
    obtain ⟨rfl, hp, hb⟩ := hok
    have hk := Fifo.producerKeeps_pushP3_of_pushing hp (by rw [hb]; rfl)
    exact ⟨_, rfl, (State.FgMoves.setTxf hk).trans ((State.retire_bookkeeping _ _ _).trans
      (State.finish_bookkeeping _)).fgMoves, State.finish_fgOk _⟩
  case popC2 f tr =>
    obtain ⟨rfl, hp⟩ := hok
    obtain ⟨b, hb, hslot⟩ := Fifo.popC2_of_popping hd.rxSound hp
    exact ⟨s.atStep (.popC3 .rxf tr b), by simp only [State.fifo_rxf, hb],
      (s.atStep_bookkeeping _).fgMoves, rfl, hp, hslot⟩
  case popC3 f tr b =>
    obtain ⟨rfl, hp, -⟩ := hok
    exact ⟨_, rfl, (State.FgMoves.setRxf (Fifo.consumerKeeps_popC3_of_popping hp)).trans
      ((State.retire_bookkeeping _ _ _).trans (State.finish_bookkeeping _)).fgMoves,
      State.finish_fgOk _⟩
  case enqNext o =>
    split
    · exact ⟨_, rfl, (s.endString_bookkeeping o).fgMoves, s.endString_fgOk o⟩
    · exact ⟨_, rfl, (s.beginEnqb_bookkeeping o _).fgMoves, s.beginEnqb_fgOk o _⟩
  case enqbP2 o b tw tn =>
    exact ⟨_, rfl, State.pushP2_fgMoves b _ hok, s.txf.pushing_pushP2 b hok⟩
  case enqbP3 o b tn =>
    obtain ⟨hp, hb⟩ := hok
    have hk := Fifo.producerKeeps_pushP3_of_pushing hp (by rw [hb]; rfl)
    exact ⟨_, rfl, (State.FgMoves.setTxf hk).trans (State.atStep_bookkeeping _ _).fgMoves, trivial⟩
  case enqbB4 o b =>
    split
    · exact ⟨_, rfl, (s.atStep_bookkeeping _).fgMoves, trivial⟩
    · exact ⟨_, rfl, (s.endEnqb_bookkeeping o b true).fgMoves, s.endEnqb_fgOk o b true⟩
  case enqbB5 o b => exact ⟨_, rfl, State.Bookkeeping.fgMoves {}, trivial⟩
  case enqbB6 o b =>
    exact ⟨_, rfl, (State.Bookkeeping.trans (t := s.requestTx) {}
      (State.endEnqb_bookkeeping _ o b true)).fgMoves, State.endEnqb_fgOk _ o b true⟩
  case dispD2 n =>
    exact ⟨_, rfl, ((s.fired_bookkeeping n).trans (State.atStep_bookkeeping _ _)).fgMoves, trivial⟩
  case dispD3 n => exact ⟨_, rfl, (s.beginAction_bookkeeping n).fgMoves, s.beginAction_fgOk n⟩

theorem sequencerWord_ne_none {n pc : Nat} (h : pc < n + 3) : sequencerWord n pc ≠ none := by
  unfold sequencerWord
  split_ifs
  case neg => omega
  all_goals exact Option.some_ne_none _

theorem State.takeWord_fg (s : State) : s.takeWord.fg = s.fg := by
  unfold State.takeWord
  split <;> rfl

/-- FG at an operation boundary, for whichever granularity `run` of the operation. -/
theorem fgIssue_disciplined {run : Instr → State → Result}
    (hrun : ∀ {i : Instr} {s : State}, Instr.ownHandles i → s.Disciplined →
      ∃ t, run i s = .next t ∧ s.FgMoves t ∧ t.fgOk)
    (hd : s.Disciplined) (hfg : s.fg = .idle) :
    ∃ t, fgIssue run s = .next t ∧ s.FgMoves t ∧ t.fgOk := by
  have htake := s.takeWord_bookkeeping
  have hidle : s.takeWord.fg = .idle := s.takeWord_fg.trans hfg
  rcases fgIssue_cases run s with ⟨hs, hn, _⟩ | hn | ⟨ow, hn⟩ | ⟨ow, i, hi, hr⟩
  · rw [nextWord_of_sequencer hs] at hn
    exact absurd hn (sequencerWord_ne_none hd.schPc)
  · exact ⟨s, hn, (State.Bookkeeping.refl s).fgMoves, hd.fg⟩
  · exact ⟨_, hn, (htake.trans (State.rejectWord_bookkeeping _ ow)).fgMoves,
      State.fgOk_of_idle hidle⟩
  · have hown := Instr.ownHandles_of_busAllows hd.source (decodeOn_eq_ok.mp hi).2
    obtain ⟨t, ht, hm, hok⟩ :=
      hrun hown (hd.fgMoves htake.fgMoves (State.fgOk_of_idle hidle))
    exact ⟨t, hr.trans ht, htake.fgMoves.trans hm, hok⟩

theorem fgOpTurn_disciplined (hd : s.Disciplined) :
    ∃ t, fgOpTurn s = .next t ∧ s.FgMoves t ∧ t.fgOk := by
  by_cases hc : s.fg = .idle
  · rw [fgOpTurn_of_idle hc]
    exact fgIssue_disciplined runWhole_disciplined hd hc
  · rw [fgOpTurn_of_ctx hc]
    exact fgContinue_disciplined hd

theorem fgMicroTurn_disciplined (hd : s.Disciplined) :
    ∃ t, fgMicroTurn s = .next t ∧ s.FgMoves t ∧ t.fgOk := by
  by_cases hc : s.fg = .idle
  · rw [fgMicroTurn_of_idle hc]
    exact fgIssue_disciplined fgBegin_disciplined hd hc
  · rw [fgMicroTurn_of_ctx hc]
    exact fgContinue_disciplined hd

/-! ## RXC's turns -/

/-- A turn of RXC that leaves RXF alone. -/
theorem State.RxMoves.refl (s : State) : s.RxMoves s := { rxf := .refl _ }

theorem rxcMicro_disciplined (hd : s.Disciplined) :
    ∃ t, rxcMicro s = .next t ∧ s.RxMoves t ∧ t.rxOk := by
  have hok := hd.rxc
  unfold State.rxOk at hok
  cases hc : s.rxc <;> simp only [hc] at hok <;> simp only [rxcMicro, hc]
  case idle =>
    split
    · exact ⟨_, rfl, { rxf := .refl _ }, trivial⟩
    · exact ⟨s, rfl, .refl s, hd.rxc⟩
  case x2 =>
    split
    · exact ⟨_, rfl, { rxf := .refl _ }, by simp_all [State.rxOk, State.urxAvail]⟩
    · exact ⟨_, rfl, { rxf := .refl _ }, trivial⟩
  case x3 =>
    obtain ⟨b, rest, hu⟩ := List.exists_cons_of_ne_nil hok
    exact ⟨{ s with urx := rest, rxc := .x4P1 b }, by simp only [State.ioRead, hu],
      { rxf := .refl _, urx := by simp [hu] }, trivial⟩
  case x4P1 b =>
    cases hp : s.rxf.pushP1 with
    | none => exact ⟨_, rfl, { rxf := .refl _ }, trivial⟩
    | some p => exact ⟨_, rfl, { rxf := .refl _ }, Fifo.pushing_of_pushP1 hp⟩
  case x4P2 b tw tn =>
    obtain ⟨hp, hb⟩ := s.rxf.pushing_pushP2 b hok
    refine ⟨_, rfl, { rxf := ?_ }, hp, by rw [hb]; rfl⟩
    rw [hok.1]
    exact s.rxf.producerKeeps_pushP2 b
  case x4P3 tn =>
    exact ⟨_, rfl, { rxf := Fifo.producerKeeps_pushP3_of_pushing hok.1 hok.2 }, trivial⟩

theorem State.rxOk_of_idle (h : s.rxc = .idle) : s.rxOk := by
  unfold State.rxOk
  rw [h]
  trivial

theorem rxcTurn_disciplined (hd : s.Disciplined) :
    ∃ t, rxcTurn s = .next t ∧ s.RxMoves t ∧ t.Disciplined := by
  rw [rxcTurn_eq]
  split
  next hen =>
    obtain ⟨t, ht, hm, hrxc⟩ := execRxsvc_rxMoves s
    have hidle : t.rxc = .idle := by simp_all [State.rxEnabled]
    exact ⟨t, ht, hm, hd.rxMoves hm (State.rxOk_of_idle hidle) fun _ => hidle⟩
  next => exact ⟨s, rfl, .refl s, hd⟩

theorem rxcMicroTurn_disciplined (hd : s.Disciplined) :
    ∃ t, rxcMicroTurn s = .next t ∧ s.RxMoves t ∧ t.Disciplined := by
  unfold rxcMicroTurn
  split
  next => exact ⟨s, rfl, .refl s, hd⟩
  next ha =>
    obtain ⟨t, ht, hm, hok⟩ := rxcMicro_disciplined hd
    exact ⟨t, ht, hm, hd.rxMoves hm hok fun h => absurd h ha⟩

/-! ## TXC's turns -/

/-- A turn of TXC that leaves TXF alone. -/
theorem State.TxMoves.refl (s : State) : s.TxMoves s := { txf := .refl _ }

theorem txcMicro_disciplined (hd : s.Disciplined) :
    ∃ t, txcMicro s = .next t ∧ s.TxMoves t ∧ t.txOk := by
  have hok := hd.txc
  unfold State.txOk at hok
  cases hc : s.txc <;> simp only [hc] at hok <;> simp only [txcMicro, hc]
  case idle =>
    split
    · exact ⟨_, rfl, { txf := .refl _ }, trivial⟩
    · exact ⟨s, rfl, .refl s, hd.txc⟩
  case t2Read =>
    refine ⟨_, rfl, { txf := .refl _ }, ?_⟩
    unfold State.txOk
    cases s.txf.consumerEmpty <;> trivial
  case t2Write => exact ⟨_, rfl, { txf := .refl _ }, trivial⟩
  case t3Room =>
    cases hf : s.utxFull
    · exact ⟨_, rfl, { txf := .refl _ }, hf⟩
    · exact ⟨_, rfl, { txf := .refl _ }, trivial⟩
  case t3Empty =>
    cases he : s.txf.consumerEmpty
    · exact ⟨_, rfl, { txf := .refl _ }, hok, he⟩
    · exact ⟨_, rfl, { txf := .refl _ }, trivial⟩
  case t4C1 =>
    obtain ⟨hf, he⟩ := hok
    exact ⟨{ s with txc := .t4C2 s.txf.readIndex.val },
      by simp only [s.txf.popC1_of_not_empty he], { txf := .refl _ }, hf, rfl, he⟩
  case t4C2 tr =>
    obtain ⟨hf, hp⟩ := hok
    obtain ⟨b, hb, hslot⟩ := Fifo.popC2_of_popping hd.txSound hp
    exact ⟨{ s with txc := .t4C3 tr b }, by simp only [hb], { txf := .refl _ }, hf, hp, hslot⟩
  case t4C3 tr b =>
    obtain ⟨hf, hp, -⟩ := hok
    exact ⟨_, rfl, { txf := Fifo.consumerKeeps_popC3_of_popping hp }, hf⟩
  case t5 b =>
    refine ⟨{ s.ioWrite b with txc := .t3Room }, by simp only [hok]; rfl,
      { txf := .refl _, utx := fun hu => ?_ }, trivial⟩
    have hroom : s.utx.length ≠ s.cfg.utxDepth := by simpa [State.utxFull] using hok
    simp only [State.ioWrite_utx, List.length_append, List.length_singleton]
    omega

theorem State.txOk_of_idle (h : s.txc = .idle) : s.txOk := by
  unfold State.txOk
  rw [h]
  trivial

theorem txcTurn_disciplined (hd : s.Disciplined) :
    ∃ t, txcTurn s = .next t ∧ s.TxMoves t ∧ t.Disciplined := by
  rw [txcTurn_eq]
  split
  next hen =>
    rcases execTxsvc_cases s with ⟨t, ht, hm, htxc⟩ | ⟨hs, _⟩
    · have hidle : t.txc = .idle := by simp_all [State.txEnabled]
      exact ⟨t, ht, hm, hd.txMoves hm (State.txOk_of_idle hidle) fun _ => hidle⟩
    · exact absurd hd.txSound hs
  next => exact ⟨s, rfl, .refl s, hd⟩

theorem txcMicroTurn_disciplined (hd : s.Disciplined) :
    ∃ t, txcMicroTurn s = .next t ∧ s.TxMoves t ∧ t.Disciplined := by
  unfold txcMicroTurn
  split
  next => exact ⟨s, rfl, .refl s, hd⟩
  next ha =>
    obtain ⟨t, ht, hm, hok⟩ := txcMicro_disciplined hd
    exact ⟨t, ht, hm, hd.txMoves hm hok fun h => absurd h ha⟩

/-! ## The environment's turns -/

theorem uartRxTurn_disciplined (v : Byte) (hd : s.Disciplined) :
    (∃ t, uartRxTurn v s = .next t ∧ t.Disciplined) ∨
      uartRxTurn v s = .refused .receiverOverrun := by
  by_cases hroom : s.urx.length < s.cfg.urxDepth
  · refine .inl ⟨{ s with urx := s.urx ++ [v], wireIn := s.wireIn ++ [v], rxPending := true },
      if_pos hroom, ?_⟩
    exact { hd with
      urx := by simp only [List.length_append, List.length_singleton]; omega
      rxc := s.rxOk_of_keeps hd.rxc hd.rxSound (.refl _) (fun _ => by simp) rfl }
  · exact .inr (if_neg hroom)

theorem uartTxTurn_disciplined (hd : s.Disciplined) :
    ∃ t, uartTxTurn s = .next t ∧ t.Disciplined := by
  cases hu : s.utx with
  | nil => exact ⟨s, by simp only [uartTxTurn, hu], hd⟩
  | cons v rest =>
    have hlen := hd.utx
    rw [hu, List.length_cons] at hlen
    refine ⟨{ s with utx := rest, wireOut := s.wireOut ++ [v], txPending := true },
      by simp only [uartTxTurn, hu], ?_⟩
    exact { hd with
      utx := by show rest.length ≤ s.cfg.utxDepth; omega
      txc := s.txOk_of_keeps hd.txc hd.txSound (.refl _)
        (fun _ => by simp only [State.utxFull, decide_eq_false_iff_not]; omega) rfl }

theorem State.Disciplined.syncFclk (hd : s.Disciplined) : s.syncFclk.Disciplined :=
  { hd with
    rxSound := s.rxf.consumerKeeps_syncConsumer.sound hd.rxSound
    txSound := s.txf.consumerKeeps_syncProducer.sound hd.txSound
    rxLag := s.rxf.syncConsumer_lagIs hd.rxLag
    txLag := s.txf.syncProducer_lagIs hd.txLag
    fg := s.fgOk_of_keeps hd.fg hd.rxSound hd.txSound s.rxf.producerKeeps_syncConsumer
      s.txf.consumerKeeps_syncProducer rfl
    rxc := s.rxOk_of_keeps hd.rxc hd.rxSound s.rxf.consumerKeeps_syncConsumer id rfl
    txc := s.txOk_of_keeps hd.txc hd.txSound s.txf.producerKeeps_syncProducer id rfl }

theorem State.Disciplined.syncSclk (hd : s.Disciplined) : s.syncSclk.Disciplined :=
  { hd with
    rxSound := s.rxf.consumerKeeps_syncProducer.sound hd.rxSound
    txSound := s.txf.consumerKeeps_syncConsumer.sound hd.txSound
    rxLag := s.rxf.syncProducer_lagIs hd.rxLag
    txLag := s.txf.syncConsumer_lagIs hd.txLag
    fg := s.fgOk_of_keeps hd.fg hd.rxSound hd.txSound s.rxf.producerKeeps_syncProducer
      s.txf.consumerKeeps_syncConsumer rfl
    rxc := s.rxOk_of_keeps hd.rxc hd.rxSound s.rxf.consumerKeeps_syncProducer id rfl
    txc := s.txOk_of_keeps hd.txc hd.txSound s.txf.producerKeeps_syncConsumer id rfl }

/-! ## Reset -/

theorem Fifo.clear_lagIs (f : Fifo) (lag : Nat) : (f.clear lag).lagIs lag := by
  simp [Fifo.clear]

theorem Fifo.clear_count (f : Fifo) (lag : Nat) : (f.clear lag).count = 0 :=
  Fifo.behind_self _ _

theorem Fifo.clear_viewsCurrent (f : Fifo) (lag : Nat) : (f.clear lag).viewsCurrent :=
  ⟨fun _ hv => List.eq_of_mem_replicate hv, fun _ hv => List.eq_of_mem_replicate hv⟩

/-- Both sides see the queue as it is while no cursor is on its way. -/
theorem Fifo.viewsCurrent.viewsOk {f : Fifo} (h : f.viewsCurrent) : f.viewsOk := by
  have hr : ∀ a ∈ f.readSync.map (f.behind f.writeIndex) ++ [f.count], a = f.count := by
    simp only [List.mem_append, List.mem_map, List.mem_singleton]
    rintro a (⟨v, hv, rfl⟩ | rfl)
    · rw [h.1 v hv]; rfl
    · rfl
  have hw : ∀ a ∈ f.writeSync.map (fun w => f.behind w f.readIndex) ++ [f.count],
      a = f.count := by
    simp only [List.mem_append, List.mem_map, List.mem_singleton]
    rintro a (⟨v, hv, rfl⟩ | rfl)
    · rw [h.2 v hv]; rfl
    · rfl
  exact ⟨List.pairwise_of_forall_mem_list fun a ha b hb => ((hr b hb).trans (hr a ha).symm).le,
    List.pairwise_of_forall_mem_list fun a ha b hb => ((hw a ha).trans (hw b hb).symm).le⟩

/-- A cleared FIFO holds no byte, and both sides see it so. -/
theorem Fifo.clear_sound (f : Fifo) (lag : Nat) : (f.clear lag).sound := by
  refine ⟨fun k hk => ?_, (f.clear_viewsCurrent lag).viewsOk⟩
  rw [f.clear_count] at hk
  exact absurd hk (Nat.not_lt_zero k)

theorem State.hardReset_disciplined (hsource : s.source ≠ .standalone) (hrx : 2 ≤ s.rxf.capacity)
    (htx : 2 ≤ s.txf.capacity) : s.hardReset.Disciplined where
  source := hsource
  capRx := hrx
  capTx := htx
  urx := Nat.zero_le _
  utx := Nat.zero_le _
  rxSound := s.rxf.clear_sound _
  txSound := s.txf.clear_sound _
  rxLag := s.rxf.clear_lagIs _
  txLag := s.txf.clear_lagIs _
  schPc := Nat.succ_pos _
  fg := trivial
  rxc := trivial
  txc := trivial
  atomic _ := ⟨rfl, rfl⟩

/-! ## Every turn -/

/-- Every turn of every agent answers a state that keeps the discipline, but for a byte that arrives on a
full `urx`. -/
theorem takeTurn_disciplined (turn : Turn) (hd : s.Disciplined) :
    (∃ t, takeTurn turn s = .next t ∧ t.Disciplined) ∨
      takeTurn turn s = .refused .receiverOverrun := by
  cases turn with
  | op =>
    obtain ⟨t, ht, hm, hok⟩ := fgOpTurn_disciplined hd
    exact .inl ⟨t, ht, hd.fgMoves hm hok⟩
  | micro =>
    obtain ⟨t, ht, hm, hok⟩ := fgMicroTurn_disciplined hd
    exact .inl ⟨t, ht, hd.fgMoves hm hok⟩
  | rxc =>
    obtain ⟨t, ht, -, hd'⟩ := rxcTurn_disciplined hd
    exact .inl ⟨t, ht, hd'⟩
  | rxcMicro =>
    obtain ⟨t, ht, -, hd'⟩ := rxcMicroTurn_disciplined hd
    exact .inl ⟨t, ht, hd'⟩
  | txc =>
    obtain ⟨t, ht, -, hd'⟩ := txcTurn_disciplined hd
    exact .inl ⟨t, ht, hd'⟩
  | txcMicro =>
    obtain ⟨t, ht, -, hd'⟩ := txcMicroTurn_disciplined hd
    exact .inl ⟨t, ht, hd'⟩
  | uartRx v => exact uartRxTurn_disciplined v hd
  | uartTx => exact .inl (uartTxTurn_disciplined hd)
  | timer => exact .inl ⟨_, rfl, { hd with }⟩
  | syncFclk => exact .inl ⟨_, rfl, hd.syncFclk⟩
  | syncSclk => exact .inl ⟨_, rfl, hd.syncSclk⟩
  | reset => exact .inl ⟨_, rfl, State.hardReset_disciplined hd.source hd.capRx hd.capTx⟩

/-- Settles O46: the step is the turn of some agent (`takeTurn_disciplined`). -/
theorem disciplineKept : Obligations.DisciplineKept := by
  intro s hd
  obtain ⟨turn, l, n, hs⟩ := step_eq_takeTurn s
  rw [hs]
  rcases takeTurn_disciplined turn (s := { s with agenda := l, turnNo := n }) { hd with }
    with ⟨t, ht, hd'⟩ | hr
  · rw [ht]
    exact ⟨fun u hu => Host.Outcome.next.inj hu ▸ hd', fun _ h => (nomatch h), fun _ h => (nomatch h)⟩
  · rw [hr]
    exact ⟨fun _ h => (nomatch h), fun _ h => (nomatch h), fun e he => by cases he; rfl⟩

end Sys2Proof.Machine
end

section
/-! PROOF. Each side's turns leave the other side's cursor and storage (O47), and the state after reset
meets the invariants (O54). -/

namespace Sys2Proof.Machine

variable {s t : State}

/-! ## Writer partition (`10_state.md` rule R25) -/

theorem fgTurn_fgMoves (hd : s.Disciplined) (h : fgOpTurn s = .next t ∨ fgMicroTurn s = .next t) :
    s.FgMoves t :=
  h.elim (fun h => (of_next (fgOpTurn_disciplined hd) h).1)
    fun h => (of_next (fgMicroTurn_disciplined hd) h).1

theorem rxTurn_rxMoves (hd : s.Disciplined) (h : rxcTurn s = .next t ∨ rxcMicroTurn s = .next t) :
    s.RxMoves t :=
  h.elim (fun h => (of_next (rxcTurn_disciplined hd) h).1)
    fun h => (of_next (rxcMicroTurn_disciplined hd) h).1

theorem txTurn_txMoves (hd : s.Disciplined) (h : txcTurn s = .next t ∨ txcMicroTurn s = .next t) :
    s.TxMoves t :=
  h.elim (fun h => (of_next (txcTurn_disciplined hd) h).1)
    fun h => (of_next (txcMicroTurn_disciplined hd) h).1

theorem uartRxTurn_fifos {v : Byte} (h : uartRxTurn v s = .next t) :
    t.rxf = s.rxf ∧ t.txf = s.txf := by
  unfold uartRxTurn at h
  split at h
  · exact Host.Outcome.next.inj h ▸ ⟨rfl, rfl⟩
  · cases h

theorem uartTxTurn_fifos (h : uartTxTurn s = .next t) : t.rxf = s.rxf ∧ t.txf = s.txf := by
  unfold uartTxTurn at h
  split at h <;> exact Host.Outcome.next.inj h ▸ ⟨rfl, rfl⟩

/-- Settles O47: each agent's turn stays within its frame, and FG's, RXC's and TXC's frames keep what the
other side of each FIFO owns. -/
theorem writerPartition : Obligations.WriterPartition := by
  intro s t hd
  refine ⟨fun h => ?_, fun h => ?_, fun h => ?_, fun v h => uartRxTurn_fifos h, ?_, ?_⟩
  · have hm := fgTurn_fgMoves hd h
    exact ⟨hm.rxf.storage, hm.rxf.writeIndex, hm.txf.readIndex⟩
  · have hm := rxTurn_rxMoves hd h
    exact ⟨hm.txf, hm.rxf.readIndex⟩
  · have hm := txTurn_txMoves hd h
    exact ⟨hm.rxf, hm.txf.storage, hm.txf.writeIndex⟩
  · rintro (h | h)
    · exact uartTxTurn_fifos h
    · exact Host.Outcome.next.inj h ▸ ⟨rfl, rfl⟩
  · rintro (h | h) <;> exact Host.Outcome.next.inj h ▸ ⟨⟨rfl, rfl, rfl⟩, rfl, rfl, rfl⟩

/-! ## The state after reset (`10_state.md` rule R45) -/

/-- The machine as it is built is the machine that a reset leaves. -/
theorem State.reset_eq_hardReset : State.reset = State.reset.hardReset := rfl

theorem State.reset_disciplined : State.reset.Disciplined := by
  rw [State.reset_eq_hardReset]
  exact State.hardReset_disciplined (by decide) (by decide) (by decide)

theorem State.reset_noLag : State.reset.noLag := ⟨rfl, rfl, rfl⟩

/-- The default configuration is legal whatever the two open depths are. -/
theorem Config.default_legal : Config.default.legal = true :=
  (Config.legal_iff _).mpr ⟨by decide, Nat.succ_pos _, Nat.succ_pos _, by decide⟩

theorem State.reset_counter (n : Nat) : State.reset.counter n = 0 := by
  unfold State.counter State.reset
  rcases n with _ | _ | n <;> rfl

theorem State.reset_restartable : State.reset.Restartable where
  source := rfl
  atomic := rfl
  noLag := State.reset_noLag
  depth := Nat.succ_pos _
  txc := rfl
  fifo := trivial
  stall h := nomatch h
  armed h := nomatch h

theorem State.reset_unstranded : State.reset.Unstranded where
  source := rfl
  noLag := State.reset_noLag
  depth := Nat.succ_pos _
  fifo := trivial
  stall h := nomatch h
  armed h := nomatch h

/-- Every counter is 0, and every threshold of a legal configuration is positive. -/
theorem State.reset_scheduled : State.reset.Scheduled where
  source := rfl
  legal := Config.default_legal
  length := rfl
  schPc := Nat.succ_pos _
  slot := trivial
  counter n k hk := by
    obtain ⟨htasks, -⟩ := (Config.legal_iff _).mp Config.default_legal
    have hpos := (htasks k (List.mem_of_getElem? hk)).1
    rw [State.reset_counter]
    exact .inl hpos

theorem State.reset_saturating : State.reset.Saturating where
  source := rfl
  fifo := trivial
  start := rfl
  seen _ hv := nomatch hv
  bytes := rfl
  full h := absurd rfl h

/-- Settles O54: each invariant at the state a reset leaves. -/
theorem invariantsHoldAtReset : Obligations.InvariantsHoldAtReset :=
  ⟨⟨⟨rfl, fun _ hc => nomatch hc⟩, rfl, fun _ hc => nomatch hc⟩, State.reset_disciplined,
    State.reset_restartable, State.reset_unstranded, State.reset_scheduled,
    State.reset_saturating, rfl, fun h => absurd rfl h⟩

end Sys2Proof.Machine
end

section
/-! PROOF. No step reads the ghost sequences, the iteration number or the trace (O48). -/

namespace Sys2Proof.Machine

/-! ## States that agree but for what is only observed (`10_state.md` rule R42) -/

/-- `s` with every ghost, the iteration number and the trace forgotten. -/
def State.blind (s : State) : State :=
  { s with
    wireOut := []
    wireIn := []
    rxDropped := []
    fireLog := []
    workLog := 0
    iteration := 0
    trace := [] }

/-- `s` with the ghosts, the iteration number and the trace of `t`. -/
def State.withGhostsOf (s t : State) : State :=
  { s with
    wireOut := t.wireOut
    wireIn := t.wireIn
    rxDropped := t.rxDropped
    fireLog := t.fireLog
    workLog := t.workLog
    iteration := t.iteration
    trace := t.trace }

/-- What an update makes of the rest of the state does not depend on what is forgotten. -/
def Unseen (f : State → State) : Prop := ∀ s, (f s).blind = (f s.blind).blind

/-- Nor does the outcome of a step. -/
def UnseenBy (f : State → Result) : Prop :=
  ∀ s, mapNext State.blind (f s) = mapNext State.blind (f s.blind)

theorem State.eq_withGhostsOf {t u : State} (h : u.blind = t.blind) : t = u.withGhostsOf t :=
  congrArg (·.withGhostsOf t) h.symm

theorem Unseen.congr {f : State → State} (hf : Unseen f) {s u : State} (h : s.blind = u.blind) :
    (f s).blind = (f u).blind := by
  rw [hf s, h, ← hf u]

theorem UnseenBy.congr {f : State → Result} (hf : UnseenBy f) {s u : State}
    (h : s.blind = u.blind) : mapNext State.blind (f s) = mapNext State.blind (f u) := by
  rw [hf s, h, ← hf u]

theorem Unseen.comp {f g : State → State} (hg : Unseen g) (hf : Unseen f) :
    Unseen fun s => g (f s) :=
  fun s => hg.congr (hf s)

theorem UnseenBy.comp {f : State → Result} {g : State → State} (hf : UnseenBy f) (hg : Unseen g) :
    UnseenBy fun s => f (g s) :=
  fun s => hf.congr (hg s)

theorem Unseen.next {f : State → State} (hf : Unseen f) : UnseenBy fun s => .next (f s) :=
  fun s => congrArg Host.Outcome.next (hf s)

theorem UnseenBy.mapNext {f : State → Result} {g : State → State} (hf : UnseenBy f)
    (hg : Unseen g) : UnseenBy fun s => Machine.mapNext g (f s) := by
  intro s
  have h := hf s
  show Machine.mapNext State.blind (Machine.mapNext g (f s)) =
    Machine.mapNext State.blind (Machine.mapNext g (f s.blind))
  cases hs : f s <;> cases hb : f s.blind <;> simp only [hs, hb, Machine.mapNext] at h ⊢
  case next.next t u => exact congrArg _ (hg.congr (Host.Outcome.next.inj h))
  all_goals simp_all

theorem blind_ite {c : Prop} [Decidable c] {s t s' t' : State} (hs : s.blind = s'.blind)
    (ht : t.blind = t'.blind) : (if c then s else t).blind = (if c then s' else t').blind := by
  split
  · exact hs
  · exact ht

theorem mapNext_blind_ite {c : Prop} [Decidable c] {r q r' q' : Result}
    (hr : mapNext State.blind r = mapNext State.blind r')
    (hq : mapNext State.blind q = mapNext State.blind q') :
    mapNext State.blind (if c then r else q) = mapNext State.blind (if c then r' else q') := by
  split
  · exact hr
  · exact hq

/-! ## Updates of the state -/

theorem retire_unseen (i : Instr) (rw : Word) : Unseen (·.retire i rw) := fun _ => rfl

theorem rejectWord_unseen (ow : Word) : Unseen (·.rejectWord ow) := fun _ => rfl

theorem atStep_unseen (c : FgCtx) : Unseen (·.atStep c) := fun _ => rfl

theorem takeWord_unseen : Unseen State.takeWord := by
  intro s
  have hb : s.blind.source = s.source := rfl
  unfold State.takeWord
  rw [hb]
  cases s.source <;> rfl

theorem finish_unseen : Unseen State.finish := fun _ => blind_ite rfl rfl

theorem entryCheck_unseen : Unseen State.entryCheck := fun _ => blind_ite rfl rfl

/-- Whether the byte is stored does not depend on what is forgotten either. -/
theorem enqueueByte_blind (s : State) (b : Byte) :
    (s.enqueueByte b).1.blind = (s.blind.enqueueByte b).1.blind ∧
      (s.enqueueByte b).2 = (s.blind.enqueueByte b).2 := by
  cases hf : s.txf.producerFull
  · rw [State.enqueueByte_of_not_full b hf, State.enqueueByte_of_not_full (s := s.blind) b hf]
    exact ⟨rfl, rfl⟩
  · rw [State.enqueueByte_of_full b hf, State.enqueueByte_of_full (s := s.blind) b hf]
    exact ⟨rfl, rfl⟩

theorem countByte_unseen (stored : Bool) (rest : List Byte) : Unseen (·.countByte stored rest) :=
  fun _ => rfl

theorem enqueuePass_unseen (b : Byte) (rest : List Byte) : Unseen (·.enqueuePass b rest) := by
  intro s
  obtain ⟨hstate, hstored⟩ := enqueueByte_blind s b
  unfold State.enqueuePass
  beta_reduce
  rw [← hstored]
  exact (countByte_unseen _ rest).congr hstate

theorem enqueueLoop_unseen (str : List Byte) : Unseen (State.enqueueLoop str) := by
  induction str with
  | nil => exact fun _ => rfl
  | cons b rest ih =>
    intro s
    have hpass : (s.enqueuePass b rest).blind = (s.blind.enqueuePass b rest).blind :=
      enqueuePass_unseen b rest s
    have hrem : (s.enqueuePass b rest).enqRem = (s.blind.enqueuePass b rest).enqRem :=
      show (s.enqueuePass b rest).blind.enqRem = (s.blind.enqueuePass b rest).blind.enqRem by
        rw [hpass]
    rw [State.enqueueLoop_cons, State.enqueueLoop_cons, ← hrem]
    rcases s.enqueuePass_enqRem b rest with h | h <;> rw [h]
    · exact ih.congr hpass
    · exact hpass

theorem enqueueString_unseen (str : List Byte) : Unseen (·.enqueueString str) :=
  (enqueueLoop_unseen str).comp (f := fun s => { s with enqRem := str, enqCnt := 0 }) fun _ => rfl

theorem runAction_unseen (a : Action) (str : List Byte) : Unseen (·.runAction a str) := by
  cases a with
  | toggle => exact fun _ => rfl
  | report =>
    exact (enqueueString_unseen str).comp (f := fun s => { s with fmtCalls := s.fmtCalls + 1 })
      fun _ => rfl

theorem fired_unseen (n : Nat) : Unseen (·.fired n) := fun _ => rfl

theorem dispatch_unseen (n : Nat) (str : List Byte) : Unseen (·.dispatch n str) := by
  intro s
  beta_reduce
  cases ht : s.task n with
  | none =>
    have hb : s.blind.task n = none := ht
    simp only [State.dispatch, ht, hb]
    exact rejectWord_unseen _ s
  | some task =>
    by_cases hdue : s.counter n = task.thresh
    · rw [State.dispatch_of_due ht hdue, State.dispatch_of_due (s := s.blind) ht hdue]
      have hfired := (runAction_unseen task.action str).comp (fired_unseen n) s
      exact congrArg (fun u : State => { u with fgResult := resultWord false true 0 }) hfired
    · have hb : s.blind.task n = some task := ht
      have hdue' : s.blind.counter n ≠ task.thresh := hdue
      simp only [State.dispatch, ht, hb, hdue, hdue', if_false]
      exact retire_unseen _ _ s

theorem drainTxf_unseenBy (fuel : Nat) : UnseenBy (State.drainTxf fuel) := by
  induction fuel with
  | zero => exact fun _ => rfl
  | succ fuel ih =>
    intro s
    rw [State.drainTxf, State.drainTxf]
    refine mapNext_blind_ite rfl ?_
    have hb : s.blind.txf.pop = s.txf.pop := rfl
    rw [hb]
    rcases s.txf.pop with e | ⟨_ | b, q⟩
    · rfl
    · rfl
    · exact ih.congr rfl

/-! ## Operations -/

theorem exec_unseenBy (i : Instr) : UnseenBy (exec i) := by
  intro s
  cases i with
  | push f b | isempty f | isfull f => cases f <;> rfl
  | pop f =>
    have hb : s.blind.fifo f = s.fifo f := by cases f <;> rfl
    simp only [exec, execPop, hb]
    cases (s.fifo f).pop with
    | error e => rfl
    | ok p => cases f <;> rfl
  | enqb b => exact congrArg Host.Outcome.next (enqueueByte_blind s b).1
  | kick | inc | work => rfl
  | rxsvc =>
    show mapNext State.blind (.next ((State.drainUrx s.urx s.enterRx).retireService .rxsvc 0)) =
      mapNext State.blind
        (.next ((State.drainUrx s.blind.urx s.blind.enterRx).retireService .rxsvc 0))
    rw [State.drainUrx_eq, State.drainUrx_eq]
    rfl
  | txsvc =>
    have hentry : Unseen fun s => s.enterTx.entryCheck := entryCheck_unseen.comp fun _ => rfl
    have hloop := ((drainTxf_unseenBy s.txf.consumerCount).comp hentry).mapNext
      (g := fun t => t.retireService .txsvc 0) fun _ => rfl
    exact hloop s
  | disp n => exact (dispatch_unseen n s.sentence).next s
  | waitp => exact mapNext_blind_ite rfl rfl
  | enq str => exact (enqueueString_unseen str).next s

theorem runWhole_unseenBy (i : Instr) : UnseenBy (runWhole i) :=
  (exec_unseenBy i).mapNext finish_unseen

/-! ## FG's micro-steps -/

theorem endString_unseen (o : Outer) : Unseen (·.endString o) := by
  cases o with
  | single | enq => exact finish_unseen
  | report n =>
    exact finish_unseen.comp (f := fun s => { s with fgResult := resultWord false true 0 })
      fun _ => rfl

theorem resumeString_unseen (o : Outer) : Unseen (·.resumeString o) := by
  intro s
  beta_reduce
  have hb : s.blind.enqRem = s.enqRem := rfl
  by_cases h : s.enqRem = []
  · rw [State.resumeString_of_nil h, State.resumeString_of_nil (hb.trans h)]
    exact endString_unseen o s
  · rw [State.resumeString_of_ne_nil h, State.resumeString_of_ne_nil (s := s.blind) h]
    rfl

theorem afterEnqb_unseen (o : Outer) (stored : Bool) : Unseen (·.afterEnqb o stored) := by
  intro s
  beta_reduce
  by_cases ho : o = .single
  · subst ho
    exact finish_unseen s
  · rw [State.afterEnqb_of_string ho, State.afterEnqb_of_string ho]
    exact (resumeString_unseen o).comp (countByte_unseen stored s.enqRem.tail) s

theorem endEnqb_unseen (o : Outer) (b : Byte) (stored : Bool) : Unseen (·.endEnqb o b stored) := by
  intro s
  beta_reduce
  rw [State.endEnqb_eq, State.endEnqb_eq]
  exact (afterEnqb_unseen o stored).comp (retire_unseen _ _) s

theorem beginEnqb_unseen (o : Outer) (b : Byte) : Unseen (·.beginEnqb o b) := by
  intro s
  have hb : s.blind.txf.pushP1 = s.txf.pushP1 := rfl
  unfold State.beginEnqb
  beta_reduce
  rw [hb]
  cases s.txf.pushP1 with
  | none => exact endEnqb_unseen o b false s
  | some p => rfl

theorem beginAction_unseen (n : Nat) : Unseen (·.beginAction n) := by
  intro s
  beta_reduce
  cases ht : s.task n with
  | none =>
    have hb : s.blind.task n = none := ht
    simp only [State.beginAction, ht, hb]
    exact finish_unseen s
  | some task =>
    cases ha : task.action with
    | toggle =>
      rw [State.beginAction_of_toggle ht ha, State.beginAction_of_toggle (s := s.blind) ht ha]
      exact finish_unseen.congr rfl
    | report =>
      rw [State.beginAction_of_report ht ha, State.beginAction_of_report (s := s.blind) ht ha]
      rfl

theorem fgBegin_unseenBy (i : Instr) : UnseenBy (fgBegin i) := by
  have retired : ∀ rw, UnseenBy fun s => .next (s.retire i rw).finish := fun rw =>
    (finish_unseen.comp (retire_unseen i rw)).next
  have whole : fgBegin i = runWhole i → UnseenBy (fgBegin i) := fun h => h ▸ runWhole_unseenBy i
  intro s
  cases i with
  | push f b =>
    have hb : s.blind.fifo f = s.fifo f := by cases f <;> rfl
    simp only [fgBegin, hb]
    cases (s.fifo f).pushP1 with
    | none => exact retired _ s
    | some p => rfl
  | pop f =>
    have hb : s.blind.fifo f = s.fifo f := by cases f <;> rfl
    simp only [fgBegin, hb]
    cases (s.fifo f).popC1 with
    | none => exact retired _ s
    | some tr => rfl
  | enqb b => exact (beginEnqb_unseen .single b).next s
  | disp n =>
    have hb : s.blind.task n = s.task n := rfl
    simp only [fgBegin, hb]
    cases s.task n with
    | none => exact (finish_unseen.comp (rejectWord_unseen _)).next s
    | some task => exact mapNext_blind_ite rfl (retired _ s)
  | enq str => rfl
  | isempty _ | isfull _ | kick | rxsvc | txsvc | inc | work | waitp => exact whole rfl s

theorem fgContinue_unseenBy : UnseenBy fgContinue := by
  intro s
  have hb : s.blind.fg = s.fg := rfl
  unfold fgContinue
  rw [hb]
  cases s.fg with
  | idle => rfl
  | pushP2 f b tw tn => cases f <;> rfl
  | pushP3 f b tn => cases f <;> exact congrArg Host.Outcome.next (finish_unseen.congr rfl)
  | popC2 f tr =>
    have hf : s.blind.fifo f = s.fifo f := by cases f <;> rfl
    simp only [hf]
    cases (s.fifo f).popC2 tr <;> rfl
  | popC3 f tr b => cases f <;> exact congrArg Host.Outcome.next (finish_unseen.congr rfl)
  | enqNext o =>
    have hrem : s.blind.enqRem = s.enqRem := rfl
    simp only [hrem]
    cases s.enqRem with
    | nil => exact (endString_unseen o).next s
    | cons b rest => exact (beginEnqb_unseen o b).next s
  | enqbP2 o b tw tn | enqbP3 o b tn | enqbB5 o b | dispD2 n => rfl
  | enqbB4 o b => exact mapNext_blind_ite rfl ((endEnqb_unseen o b true).next s)
  | enqbB6 o b => exact congrArg Host.Outcome.next ((endEnqb_unseen o b true).congr rfl)
  | dispD3 n => exact (beginAction_unseen n).next s

theorem fgIssue_unseenBy {run : Instr → State → Result} (hrun : ∀ i, UnseenBy (run i)) :
    UnseenBy (fgIssue run) := by
  intro s
  cases hn : s.nextWord with
  | none =>
    rw [fgIssue_of_none hn, fgIssue_of_none (s := s.blind) hn]
    have hb : s.blind.source = s.source := rfl
    unfold fgNoWord
    rw [hb]
    cases s.source <;> rfl
  | some ow =>
    cases hd : decodeOn s.cfg.ntask s.source .foreground ow with
    | error r =>
      rw [fgIssue_of_error hn hd, fgIssue_of_error (s := s.blind) hn hd]
      exact ((rejectWord_unseen ow).comp takeWord_unseen).next s
    | ok i =>
      cases hh : s.holds i
      · rw [fgIssue_of_ok hn hd hh, fgIssue_of_ok (s := s.blind) hn hd hh]
        exact (hrun i).comp takeWord_unseen s
      · rw [fgIssue_of_holds hn hd hh, fgIssue_of_holds (s := s.blind) hn hd hh]
        rfl

theorem fgOpTurn_unseenBy : UnseenBy fgOpTurn := by
  intro s
  by_cases hc : s.fg = .idle
  · rw [fgOpTurn_of_idle hc, fgOpTurn_of_idle (s := s.blind) hc]
    exact fgIssue_unseenBy runWhole_unseenBy s
  · rw [fgOpTurn_of_ctx hc, fgOpTurn_of_ctx (s := s.blind) hc]
    exact fgContinue_unseenBy s

theorem fgMicroTurn_unseenBy : UnseenBy fgMicroTurn := by
  intro s
  by_cases hc : s.fg = .idle
  · rw [fgMicroTurn_of_idle hc, fgMicroTurn_of_idle (s := s.blind) hc]
    exact fgIssue_unseenBy fgBegin_unseenBy s
  · rw [fgMicroTurn_of_ctx hc, fgMicroTurn_of_ctx (s := s.blind) hc]
    exact fgContinue_unseenBy s

/-! ## The controllers -/

theorem rxcMicro_unseenBy : UnseenBy rxcMicro := by
  intro s
  have hb : s.blind.rxc = s.rxc := rfl
  unfold rxcMicro
  rw [hb]
  cases s.rxc with
  | idle | x2 => exact mapNext_blind_ite rfl rfl
  | x3 =>
    have hu : s.blind.urx = s.urx := rfl
    simp only [State.ioRead, hu]
    cases s.urx <;> rfl
  | x4P1 b =>
    have hp : s.blind.rxf.pushP1 = s.rxf.pushP1 := rfl
    simp only [hp]
    cases s.rxf.pushP1 <;> rfl
  | x4P2 b tw tn | x4P3 tn => rfl

theorem txcMicro_unseenBy : UnseenBy txcMicro := by
  intro s
  have hb : s.blind.txc = s.txc := rfl
  unfold txcMicro
  rw [hb]
  cases s.txc with
  | idle | t3Room | t3Empty | t5 b => exact mapNext_blind_ite rfl rfl
  | t2Read | t2Write | t4C3 tr b => rfl
  | t4C1 =>
    have hp : s.blind.txf.popC1 = s.txf.popC1 := rfl
    simp only [hp]
    cases s.txf.popC1 <;> rfl
  | t4C2 tr =>
    have hp : s.blind.txf.popC2 tr = s.txf.popC2 tr := rfl
    simp only [hp]
    cases s.txf.popC2 tr <;> rfl

/-! ## Every turn -/

theorem takeTurn_unseenBy (turn : Turn) : UnseenBy (takeTurn turn) := by
  intro s
  cases turn with
  | op => exact fgOpTurn_unseenBy s
  | micro => exact fgMicroTurn_unseenBy s
  | rxc => exact mapNext_blind_ite (exec_unseenBy .rxsvc s) rfl
  | rxcMicro => exact mapNext_blind_ite rfl (rxcMicro_unseenBy s)
  | txc => exact mapNext_blind_ite (exec_unseenBy .txsvc s) rfl
  | txcMicro => exact mapNext_blind_ite rfl (txcMicro_unseenBy s)
  | uartRx v => exact mapNext_blind_ite rfl rfl
  | uartTx =>
    have hu : s.blind.utx = s.utx := rfl
    simp only [takeTurn, uartTxTurn, hu]
    cases s.utx <;> rfl
  | timer | syncFclk | syncSclk | reset => rfl

theorem step_unseenBy : UnseenBy step := by
  intro s
  cases h : s.agenda with
  | nil =>
    rw [step_of_agenda_nil h, step_of_agenda_nil (s := s.blind) h]
    exact (takeTurn_unseenBy _).congr rfl
  | cons turn rest =>
    rw [step_of_agenda h, step_of_agenda (s := s.blind) h]
    exact (takeTurn_unseenBy turn).congr rfl

/-- Settles O48: both states are the same once the ghosts are forgotten, so both steps are. -/
theorem ghostsAreNeverRead : Obligations.GhostsAreNeverRead := by
  intro s t wo wi rd fl wl it tr h
  have hsame := step_unseenBy.congr (s := { s with
    wireOut := wo, wireIn := wi, rxDropped := rd, fireLog := fl, workLog := wl
    iteration := it, trace := tr }) (u := s) rfl
  rw [h] at hsame
  cases hu : step { s with
      wireOut := wo, wireIn := wi, rxDropped := rd, fireLog := fl, workLog := wl
      iteration := it, trace := tr } with
  | next u =>
    rw [hu] at hsame
    exact ⟨u, rfl, State.eq_withGhostsOf (Host.Outcome.next.inj hsame)⟩
  | fault e => rw [hu] at hsame; cases hsame
  | refused e => rw [hu] at hsame; cases hsame

end Sys2Proof.Machine
end

section
/-! PROOF. What FG's actions put on the trace and into TXF, and what they leave of the wire's ghosts. -/

namespace Sys2Proof.Machine

variable {s t u : State}

/-! ## The bytes that trace entries account for (`42_tx_controller.md` rule R157) -/

theorem acceptedBytes_append (l m : List TraceEntry) :
    acceptedBytes (l ++ m) = acceptedBytes l ++ acceptedBytes m :=
  List.filterMap_append

/-- The service bus carries no `ENQB` and no `PUSH`. -/
theorem acceptedBytes_service (words : List Word) (rw : Word) :
    acceptedBytes (words.map fun ow => ⟨.service, ow, rw⟩) = [] := by
  simp [acceptedBytes, TraceEntry.accepted]

/-- An operation that did not return `true` accounts for no byte. -/
theorem acceptedBytes_of_ne {bus : Bus} {ow rw : Word} (h : rw ≠ 0x0100) :
    acceptedBytes [⟨bus, ow, rw⟩] = [] :=
  List.filterMap_cons_none (if_neg fun ⟨_, hrw, _⟩ => h hrw)

/-- Nor does one other than `ENQB` and `PUSH`, whatever it returned. -/
theorem acceptedBytes_of_op {op sel : Nat} {imm : Byte} {rw : Word}
    (hop : op < 16 ∧ op ≠ 0x5 ∧ op ≠ 0x1) :
    acceptedBytes [⟨.foreground, operationWord op sel imm, rw⟩] = [] := by
  obtain ⟨hlt, henqb, hpush⟩ := hop
  simp [acceptedBytes, TraceEntry.accepted, opField_operationWord sel imm hlt, henqb, hpush]

/-- An `ENQB`, or a `PUSH TXF`, accounts for its byte exactly if it returned `true`. -/
theorem acceptedBytes_stored {op sel : Nat} (b : Byte) (stored : Bool)
    (hop : op = 0x5 ∨ op = 0x1 ∧ sel = 1) :
    acceptedBytes [⟨.foreground, operationWord op sel b, resultWord false stored 0⟩] =
      if stored then [b] else [] := by
  have hfields : opField (operationWord op sel b) = 0x5 ∨
      opField (operationWord op sel b) = 0x1 ∧ selField (operationWord op sel b) = 1 := by
    rcases hop with rfl | ⟨rfl, rfl⟩
    · exact .inl (opField_operationWord _ _ (by decide))
    · exact .inr ⟨opField_operationWord _ _ (by decide), selField_operationWord _ _ (by decide)⟩
  cases stored
  · exact acceptedBytes_of_ne (by decide)
  · have hrw : resultWord false true 0 = 0x0100 := by decide
    have haccepted : TraceEntry.accepted
        ⟨.foreground, operationWord op sel b, resultWord false true 0⟩ = some b := by
      rw [TraceEntry.accepted, if_pos ⟨rfl, hrw, hfields⟩, immField_operationWord]
    exact List.filterMap_cons_some haccepted

/-! ## What FG's bookkeeping notes on the trace -/

/-- `t` is `s` with `words` noted on the trace, and with the ghosts of the wire as they were. -/
structure State.Notes (s : State) (words : List TraceEntry) (t : State) : Prop where
  wireOut : t.wireOut = s.wireOut := by simp
  wireIn : t.wireIn = s.wireIn := by simp
  rxDropped : t.rxDropped = s.rxDropped := by simp
  trace : t.trace = s.trace ++ words := by simp

theorem State.Notes.trans {v w : List TraceEntry} (hst : s.Notes v t) (htu : t.Notes w u) :
    s.Notes (v ++ w) u where
  wireOut := htu.wireOut.trans hst.wireOut
  wireIn := htu.wireIn.trans hst.wireIn
  rxDropped := htu.rxDropped.trans hst.rxDropped
  trace := by rw [htu.trace, hst.trace, List.append_assoc]

theorem State.Notes.then_silent {w : List TraceEntry} (hst : s.Notes w t) (htu : t.Notes [] u) :
    s.Notes w u :=
  List.append_nil w ▸ hst.trans htu

theorem State.takeWord_notes (s : State) : s.Notes [] s.takeWord := by
  unfold State.takeWord
  split <;> exact {}

theorem State.finish_notes (s : State) : s.Notes [] s.finish := {}

theorem State.endString_notes (s : State) (o : Outer) : s.Notes [] (s.endString o) := by
  cases o with
  | single => exact s.finish_notes
  | report n =>
    exact .then_silent (t := { s with fgResult := resultWord false true 0 }) {} (State.finish_notes _)
  | enq => exact s.finish_notes

theorem State.resumeString_notes (s : State) (o : Outer) : s.Notes [] (s.resumeString o) := by
  unfold State.resumeString
  split
  · exact s.endString_notes o
  · exact {}

theorem State.afterEnqb_notes (s : State) (o : Outer) (stored : Bool) :
    s.Notes [] (s.afterEnqb o stored) := by
  by_cases ho : o = .single
  · subst ho; exact s.finish_notes
  · rw [State.afterEnqb_of_string ho]
    exact .then_silent (t := s.countByte stored s.enqRem.tail) {} (State.resumeString_notes _ o)

/-- The return of an `ENQB` notes its word. -/
theorem State.endEnqb_notes (s : State) (o : Outer) (b : Byte) (stored : Bool) :
    s.Notes [⟨.foreground, operationWord 0x5 0 b, resultWord false stored 0⟩]
      (s.endEnqb o b stored) := by
  rw [State.endEnqb_eq]
  exact .then_silent (t := s.retire (.enqb b) (resultWord false stored 0)) { trace := rfl }
    (State.afterEnqb_notes _ o stored)

theorem State.beginString_notes (s : State) (o : Outer) (str : List Byte) :
    s.Notes [] (s.beginString o str) := by
  unfold State.beginString
  exact {}

theorem State.beginAction_notes (s : State) (n : Nat) : s.Notes [] (s.beginAction n) := by
  unfold State.beginAction
  split
  · exact s.finish_notes
  · split
    · exact .then_silent (t := { s.toggle with fgResult := resultWord false true 0 }) {}
        (State.finish_notes _)
    · exact .then_silent (t := { s with fmtCalls := s.fmtCalls + 1 }) {}
        (State.beginString_notes _ _ _)

/-- The firing of a task notes the word of its `DISP`. -/
theorem State.fired_notes (s : State) (n : Nat) :
    s.Notes [⟨.foreground, operationWord 0xB n 0, resultWord false true 0⟩] (s.fired n) := by
  unfold State.fired
  exact { trace := rfl }

/-! ## Positions at which FG holds no byte and is inside no bare `PUSH` or `POP` -/

/-- FG has stored no byte that its `ENQB` has yet to account for, and is inside no bare `PUSH` or
`POP`. -/
abbrev State.fgClear (s : State) : Prop := s.fgStored = [] ∧ s.noBareFifo

theorem State.fgClear_of_idle (h : s.fg = .idle) : s.fgClear := by
  unfold State.fgClear State.fgStored State.noBareFifo
  rw [h]
  exact ⟨rfl, trivial⟩

theorem State.finish_fgClear (s : State) : s.finish.fgClear := State.fgClear_of_idle s.finish_fg

theorem State.endString_fgClear (s : State) (o : Outer) : (s.endString o).fgClear := by
  cases o <;> exact State.finish_fgClear _

theorem State.endEnqb_fgClear (s : State) (o : Outer) (b : Byte) (stored : Bool) :
    (s.endEnqb o b stored).fgClear := by
  have resumed : ∀ u : State, (u.resumeString o).fgClear := fun u => by
    unfold State.resumeString
    split
    · exact u.endString_fgClear o
    · exact ⟨rfl, trivial⟩
  rw [State.endEnqb_eq]
  cases o with
  | single => exact State.finish_fgClear _
  | report _ | enq => exact resumed _

theorem State.beginEnqb_fgClear (s : State) (o : Outer) (b : Byte) : (s.beginEnqb o b).fgClear := by
  unfold State.beginEnqb
  split
  · exact s.endEnqb_fgClear o b false
  · exact ⟨rfl, trivial⟩

theorem State.beginAction_fgClear (s : State) (n : Nat) : (s.beginAction n).fgClear := by
  unfold State.beginAction
  split
  · exact s.finish_fgClear
  · split
    · exact State.finish_fgClear _
    · exact ⟨rfl, trivial⟩

end Sys2Proof.Machine
end

section
/-! PROOF. The transmit stream only grows, by the bytes that FG's operations accept (O55). -/

namespace Sys2Proof.Machine

variable {s t u : State}

/-! ## Whole operations of FG -/

/-- TXF's queue grew by exactly the bytes that the words noted on the trace account for. -/
def State.Accepts (s t : State) : Prop :=
  ∃ words, s.Notes words t ∧ t.txf.queue = s.txf.queue ++ acceptedBytes words

/-- What leaves TXF's queue alone and notes nothing. -/
theorem State.Accepts.of_silent (h : s.Notes [] t) (hq : t.txf.queue = s.txf.queue) :
    s.Accepts t :=
  ⟨[], h, by rw [hq]; exact (List.append_nil _).symm⟩

theorem State.Accepts.trans (hst : s.Accepts t) (htu : t.Accepts u) : s.Accepts u := by
  obtain ⟨v, hv, hqt⟩ := hst
  obtain ⟨w, hw, hqu⟩ := htu
  exact ⟨v ++ w, hv.trans hw, by rw [hqu, hqt, acceptedBytes_append, List.append_assoc]⟩

/-- The return of an operation that is no `ENQB` and no `PUSH`. -/
theorem State.Accepts.retire {i : Instr} {op sel : Nat} {imm : Byte} {rw : Word} (h : s.Accepts t)
    (he : encode i = [operationWord op sel imm]) (hop : op < 16 ∧ op ≠ 0x5 ∧ op ≠ 0x1) :
    s.Accepts (t.retire i rw) :=
  h.trans ⟨[⟨.foreground, operationWord op sel imm, rw⟩],
    { trace := by rw [State.retire_trace, he]; rfl },
    by rw [acceptedBytes_of_op hop, List.append_nil]; rfl⟩

theorem State.Accepts.refl (s : State) : s.Accepts s := .of_silent {} rfl

theorem Fifo.push_queue_of_sound {f : Fifo} (b : Byte) (hs : f.sound) :
    (f.push b).1.queue = f.queue ++ if (f.push b).2 then [b] else [] := by
  rw [f.push_stored]
  cases hf : f.producerFull
  · exact f.push_queue b hf (hs.2.isFull_eq_false hf)
  · rw [f.push_of_full b hf]
    exact (List.append_nil _).symm

theorem State.enqueueByte_accepts (b : Byte) (hs : s.txf.sound) :
    s.Accepts (s.enqueueByte b).1 := by
  cases hf : s.txf.producerFull
  · rw [State.enqueueByte_of_not_full b hf]
    refine ⟨[⟨.foreground, operationWord 0x5 0 b, resultWord false true 0⟩], {}, ?_⟩
    rw [acceptedBytes_stored b true (.inl rfl)]
    exact s.txf.push_queue b hf (hs.2.isFull_eq_false hf)
  · rw [State.enqueueByte_of_full b hf]
    refine ⟨[⟨.foreground, operationWord 0x5 0 b, resultWord false false 0⟩], {}, ?_⟩
    rw [acceptedBytes_stored b false (.inl rfl)]
    exact (List.append_nil _).symm

theorem State.enqueuePass_accepts (b : Byte) (rest : List Byte) (hs : s.txf.sound) :
    s.Accepts (s.enqueuePass b rest) := by
  unfold State.enqueuePass
  exact (State.enqueueByte_accepts b hs).trans (.of_silent {} rfl)

/-- By induction on the string, one pass of the loop after another. -/
theorem State.enqueueLoop_accepts {str : List Byte} {s : State} (hs : s.txf.sound) :
    s.Accepts (State.enqueueLoop str s) := by
  induction str generalizing s with
  | nil => exact .refl s
  | cons b rest ih =>
    have hpass := State.enqueuePass_accepts b rest hs
    rw [State.enqueueLoop_cons]
    rcases s.enqueuePass_enqRem b rest with hr | hr <;> rw [hr]
    · exact hpass.trans (ih ((s.enqueueByte_fgMoves b).txf.sound hs))
    · exact hpass

theorem State.report_accepts (str : List Byte) (hs : s.txf.sound) : s.Accepts (s.report str) :=
  .trans (t := { s with fmtCalls := s.fmtCalls + 1, enqRem := str, enqCnt := 0 })
    (.of_silent {} rfl) (State.enqueueLoop_accepts hs)

/-- The firing of a task notes the word of its `DISP`, which accounts for no byte. -/
theorem State.fired_accepts (s : State) (n : Nat) : s.Accepts (s.fired n) :=
  ⟨_, s.fired_notes n, by rw [acceptedBytes_of_op (by decide)]; exact (List.append_nil _).symm⟩

theorem State.dispatch_accepts (n : Nat) (str : List Byte) (hs : s.txf.sound) :
    s.Accepts (s.dispatch n str) := by
  cases ht : s.task n with
  | none =>
    simp only [State.dispatch, ht]
    refine ⟨[⟨.foreground, operationWord 0xB n 0, resultWord true false 0⟩], {}, ?_⟩
    rw [acceptedBytes_of_ne (by decide)]
    exact (List.append_nil _).symm
  | some task =>
    by_cases hdue : s.counter n = task.thresh
    · rw [State.dispatch_of_due ht hdue]
      refine .trans (t := (s.fired n).runAction task.action str) ?_ (.of_silent {} rfl)
      refine (s.fired_accepts n).trans ?_
      cases task.action with
      | toggle =>
        rw [State.runAction]
        exact .of_silent {} rfl
      | report => exact State.report_accepts str hs
    · simp only [State.dispatch, ht, hdue, if_false]
      exact (State.Accepts.refl s).retire rfl (by decide)

/-- Every whole operation on FG's own handles. -/
theorem exec_accepts {i : Instr} (hi : Instr.ownHandles i) (hs : s.txf.sound)
    (h : exec i s = .next t) : s.Accepts t := by
  cases i with
  | push f b =>
    obtain rfl : f = .txf := hi
    obtain rfl := Host.Outcome.next.inj h
    refine ⟨_, { trace := rfl }, ?_⟩
    exact (Fifo.push_queue_of_sound b hs).trans
      (congrArg _ (acceptedBytes_stored b (s.txf.push b).2 (.inr ⟨rfl, rfl⟩)).symm)
  | pop f =>
    obtain rfl : f = .rxf := hi
    simp only [exec, execPop] at h
    split at h
    · cases h
    · obtain rfl := Host.Outcome.next.inj h
      exact .retire (.of_silent {} rfl) rfl (by decide)
  | enqb b =>
    obtain rfl := Host.Outcome.next.inj h
    exact State.enqueueByte_accepts b hs
  | disp n =>
    obtain rfl := Host.Outcome.next.inj h
    exact State.dispatch_accepts n s.sentence hs
  | enq str =>
    obtain rfl := Host.Outcome.next.inj h
    exact .trans (t := { s with enqRem := str, enqCnt := 0 }) (.of_silent {} rfl)
      (State.enqueueLoop_accepts hs)
  | waitp =>
    simp only [exec, execWaitp] at h
    split at h <;> obtain rfl := Host.Outcome.next.inj h
    · exact .retire (.of_silent {} rfl) rfl (by decide)
    · exact .refl _
  | isempty _ | isfull _ =>
    obtain rfl := Host.Outcome.next.inj h
    exact (State.Accepts.refl s).retire rfl (by decide)
  | kick | inc | work =>
    obtain rfl := Host.Outcome.next.inj h
    exact .retire (.of_silent {} rfl) rfl (by decide)
  | rxsvc | txsvc => exact hi.elim

/-- The return of an operation that stored nothing. -/
theorem State.Accepts.retire_of_ne {i : Instr} {ow rw : Word} (h : s.Accepts t)
    (he : encode i = [ow]) (hrw : rw ≠ 0x0100) : s.Accepts (t.retire i rw) :=
  h.trans ⟨[⟨.foreground, ow, rw⟩], { trace := by rw [State.retire_trace, he]; rfl },
    by rw [acceptedBytes_of_ne hrw, List.append_nil]; rfl⟩

theorem State.rejectWord_accepts (s : State) (ow : Word) : s.Accepts (s.rejectWord ow) :=
  ⟨[⟨.foreground, ow, resultWord true false 0⟩], {},
    by rw [acceptedBytes_of_ne (by decide)]; exact (List.append_nil _).symm⟩

theorem State.Accepts.finish (h : s.Accepts t) : s.Accepts t.finish :=
  h.trans (.of_silent t.finish_notes (by rw [State.finish_txf]))

theorem State.Accepts.atStep (h : s.Accepts t) (c : FgCtx) : s.Accepts (t.atStep c) :=
  h.trans (.of_silent {} rfl)

/-! ## FG's turns -/

/-- `words` are noted on the trace, TXF's queue grew by `bytes`, and the words account for these, but
for a byte that FG has stored and not yet accounted for. -/
structure State.Grows (s : State) (words : List TraceEntry) (bytes : List Byte) (t : State) : Prop
    extends s.Notes words t where
  queue : t.txf.queue = s.txf.queue ++ bytes
  stored : s.fgStored ++ bytes = acceptedBytes words ++ t.fgStored

/-- What an action of FG does to the transmit stream and to the trace. -/
def State.Transmits (s t : State) : Prop := ∃ words bytes, s.Grows words bytes t

theorem State.Transmits.trans (hst : s.Transmits t) (htu : t.Transmits u) : s.Transmits u := by
  obtain ⟨v, bytes, hv⟩ := hst
  obtain ⟨w, more, hw⟩ := htu
  refine ⟨v ++ w, bytes ++ more, hv.toNotes.trans hw.toNotes, ?_, ?_⟩
  · rw [hw.queue, hv.queue, List.append_assoc]
  · rw [acceptedBytes_append, List.append_assoc, ← hw.stored, ← List.append_assoc,
      ← List.append_assoc, hv.stored]

theorem State.Transmits.of_silent (h : s.Notes [] t) (hq : t.txf.queue = s.txf.queue)
    (hfg : t.fgStored = s.fgStored) : s.Transmits t :=
  ⟨[], [], h, by rw [hq, List.append_nil], by rw [hfg, List.append_nil]; rfl⟩

/-- An action of FG between two positions at which it holds no byte. -/
theorem State.Accepts.transmits (h : s.Accepts t) (hs : s.fgStored = []) (ht : t.fgStored = []) :
    s.Transmits t := by
  obtain ⟨words, hn, hq⟩ := h
  exact ⟨words, acceptedBytes words, hn, hq, by rw [hs, ht, List.append_nil]; rfl⟩

/-- The return of an `ENQB` accounts for its byte. -/
theorem State.endEnqb_transmits (o : Outer) {b : Byte} {stored : Bool}
    (hs : s.fgStored = if stored then [b] else []) : s.Transmits (s.endEnqb o b stored) :=
  ⟨_, [], s.endEnqb_notes o b stored,
    by rw [(s.endEnqb_bookkeeping o b stored).txf, List.append_nil],
    by rw [acceptedBytes_stored b stored (.inl rfl), hs, (s.endEnqb_fgClear o b stored).1]⟩

theorem State.beginEnqb_transmits (o : Outer) (b : Byte) (hs : s.fgStored = []) :
    s.Transmits (s.beginEnqb o b) := by
  unfold State.beginEnqb
  split
  · exact State.endEnqb_transmits o hs
  · exact .of_silent {} rfl hs.symm

theorem Fifo.pushP2_queue_of_pushing {f : Fifo} {tw tn : Nat} (b : Byte) (hp : f.pushing tw tn) :
    (f.pushP2 tw b).queue = f.queue := by
  obtain ⟨rfl, -, -⟩ := hp
  exact f.pushP2_queue b

theorem Fifo.pushP3_queue_of_pushing {f : Fifo} {tn : Nat} {b : Byte} (hs : f.sound)
    (hp : f.pushing f.writeIndex.val tn) (hb : f.slot f.writeIndex.val = some b) :
    (f.pushP3 tn).queue = f.queue ++ [b] := by
  obtain ⟨-, rfl, hf⟩ := hp
  exact f.pushP3_queue (hs.2.isFull_eq_false hf) hb

/-- FG's later micro-steps: P3 puts the byte into TXF, and the return of its operation accounts for
it. -/
theorem fgContinue_transmits (hd : s.Disciplined) (h : fgContinue s = .next t) :
    s.Transmits t := by
  have hok := hd.fg
  have hstored := State.fgStored.eq_def s
  unfold State.fgOk at hok
  cases hc : s.fg <;> simp only [hc] at hok hstored <;> simp only [fgContinue, hc] at h
  case idle =>
    obtain rfl := Host.Outcome.next.inj h
    exact .of_silent {} rfl rfl
  case pushP2 f b tw tn =>
    obtain ⟨rfl, hp⟩ := hok
    obtain rfl := Host.Outcome.next.inj h
    exact .of_silent {} (Fifo.pushP2_queue_of_pushing b hp) hstored.symm
  case pushP3 f b tn =>
    obtain ⟨rfl, hp, hb⟩ := hok
    obtain rfl := Host.Outcome.next.inj h
    refine (State.Accepts.finish ⟨[⟨.foreground, operationWord 0x1 1 b, resultWord false true 0⟩],
      { trace := rfl }, ?_⟩).transmits hstored (State.finish_fgClear _).1
    rw [acceptedBytes_stored b true (.inr ⟨rfl, rfl⟩)]
    exact Fifo.pushP3_queue_of_pushing hd.txSound hp hb
  case popC2 f tr =>
    split at h
    · cases h
    · obtain rfl := Host.Outcome.next.inj h
      exact .of_silent {} rfl hstored.symm
  case popC3 f tr b =>
    obtain ⟨rfl, -, -⟩ := hok
    obtain rfl := Host.Outcome.next.inj h
    exact State.Accepts.transmits (.finish (.retire (.of_silent {} rfl) rfl (by decide))) hstored
      (State.finish_fgClear _).1
  case enqNext o =>
    split at h <;> obtain rfl := Host.Outcome.next.inj h
    · exact .of_silent (s.endString_notes o) (by rw [(s.endString_bookkeeping o).txf])
        ((s.endString_fgClear o).1.trans hstored.symm)
    · exact State.beginEnqb_transmits o _ hstored
  case enqbP2 o b tw tn =>
    obtain rfl := Host.Outcome.next.inj h
    exact .of_silent {} (Fifo.pushP2_queue_of_pushing b hok) hstored.symm
  case enqbP3 o b tn =>
    obtain rfl := Host.Outcome.next.inj h
    exact ⟨[], [b], {}, Fifo.pushP3_queue_of_pushing hd.txSound hok.1 hok.2, by rw [hstored]; rfl⟩
  case enqbB4 o b =>
    split at h <;> obtain rfl := Host.Outcome.next.inj h
    · exact .of_silent {} rfl hstored.symm
    · exact State.endEnqb_transmits o hstored
  case enqbB5 o b =>
    obtain rfl := Host.Outcome.next.inj h
    exact .of_silent {} rfl hstored.symm
  case enqbB6 o b =>
    obtain rfl := Host.Outcome.next.inj h
    exact .trans (t := s.requestTx) (.of_silent {} rfl rfl) (State.endEnqb_transmits o hstored)
  case dispD2 n =>
    obtain rfl := Host.Outcome.next.inj h
    exact State.Accepts.transmits (.atStep (s.fired_accepts n) _) hstored rfl
  case dispD3 n =>
    obtain rfl := Host.Outcome.next.inj h
    exact .of_silent (s.beginAction_notes n) (by rw [(s.beginAction_bookkeeping n).txf])
      ((s.beginAction_fgClear n).1.trans hstored.symm)

theorem runWhole_transmits {i : Instr} (hi : Instr.ownHandles i) (hs : s.txf.sound)
    (hfg : s.fgStored = []) (h : runWhole i s = .next t) : s.Transmits t := by
  unfold runWhole mapNext at h
  split at h
  · obtain rfl := Host.Outcome.next.inj h
    exact (exec_accepts hi hs ‹_›).finish.transmits hfg (State.finish_fgClear _).1
  · cases h
  · cases h

/-- The first micro-step of an operation stores nothing. -/
theorem fgBegin_transmits {i : Instr} (hi : Instr.ownHandles i) (hs : s.txf.sound)
    (hfg : s.fgStored = []) (h : fgBegin i s = .next t) : s.Transmits t := by
  have returned : ∀ {u : State}, s.Accepts u → s.Transmits u.finish := fun hu =>
    hu.finish.transmits hfg (State.finish_fgClear _).1
  by_cases hl : Instr.leavesFifos i
  · rw [fgBegin_of_leavesFifos hl] at h
    exact runWhole_transmits hi hs hfg h
  cases i with
  | push f b =>
    simp only [fgBegin] at h
    split at h <;> obtain rfl := Host.Outcome.next.inj h
    · exact returned ((State.Accepts.refl s).retire_of_ne rfl (by decide))
    · exact .of_silent {} rfl hfg.symm
  | pop f =>
    simp only [fgBegin] at h
    split at h <;> obtain rfl := Host.Outcome.next.inj h
    · exact returned ((State.Accepts.refl s).retire_of_ne rfl (by decide))
    · exact .of_silent {} rfl hfg.symm
  | enqb b =>
    obtain rfl := Host.Outcome.next.inj h
    exact State.beginEnqb_transmits .single b hfg
  | disp n =>
    simp only [fgBegin] at h
    split at h
    · obtain rfl := Host.Outcome.next.inj h
      exact returned (s.rejectWord_accepts _)
    · split at h <;> obtain rfl := Host.Outcome.next.inj h
      · exact .of_silent {} rfl hfg.symm
      · exact returned ((State.Accepts.refl s).retire_of_ne rfl (by decide))
  | enq str =>
    obtain rfl := Host.Outcome.next.inj h
    exact .of_silent (s.beginString_notes _ str) rfl hfg.symm
  | isempty _ | isfull _ | kick | inc | work | waitp => exact absurd trivial hl
  | rxsvc | txsvc => exact hi.elim

/-- FG at an operation boundary, for whichever granularity `run` of the operation. -/
theorem fgIssue_transmits {run : Instr → State → Result}
    (hrun : ∀ {i : Instr} {s t : State}, Instr.ownHandles i → s.txf.sound → s.fgStored = [] →
      run i s = .next t → s.Transmits t)
    (hd : s.Disciplined) (hfg : s.fg = .idle) (h : fgIssue run s = .next t) : s.Transmits t := by
  have hclear := (State.fgClear_of_idle hfg).1
  have htake := (State.fgClear_of_idle (s.takeWord_fg.trans hfg)).1
  have htaken : s.Accepts s.takeWord :=
    .of_silent s.takeWord_notes (by rw [s.takeWord_bookkeeping.txf])
  rcases fgIssue_cases run s with ⟨-, -, hf⟩ | hn | ⟨ow, hn⟩ | ⟨ow, i, hi, hr⟩
  · cases hf.symm.trans h
  · obtain rfl := Host.Outcome.next.inj (hn.symm.trans h)
    exact .of_silent {} rfl rfl
  · obtain rfl := Host.Outcome.next.inj (hn.symm.trans h)
    exact (htaken.trans (State.rejectWord_accepts _ ow)).transmits hclear htake
  · have hown := Instr.ownHandles_of_busAllows hd.source (decodeOn_eq_ok.mp hi).2
    have hsound : s.takeWord.txf.sound := by rw [s.takeWord_bookkeeping.txf]; exact hd.txSound
    exact (htaken.transmits hclear htake).trans (hrun hown hsound htake (hr.symm.trans h))

/-- FG's turn, whole or one micro-step. -/
theorem fgTurn_transmits (hd : s.Disciplined)
    (h : fgOpTurn s = .next t ∨ fgMicroTurn s = .next t) : s.Transmits t := by
  by_cases hc : s.fg = .idle
  · rw [fgOpTurn_of_idle hc, fgMicroTurn_of_idle hc] at h
    exact h.elim (fgIssue_transmits runWhole_transmits hd hc)
      (fgIssue_transmits fgBegin_transmits hd hc)
  · rw [fgOpTurn_of_ctx hc, fgMicroTurn_of_ctx hc, or_self] at h
    exact fgContinue_transmits hd h

end Sys2Proof.Machine
end

section
/-! PROOF. The transmit stream under the turns of the other agents, and of any agent (O55). -/

namespace Sys2Proof.Machine

variable {s t u : State}

/-! ## The other agents' turns -/

/-- The transmit stream is as it was, and so is the account of it. -/
structure State.StreamKept (s t : State) : Prop where
  stream : t.txStream = s.txStream
  accepted : acceptedBytes t.trace = acceptedBytes s.trace := by simp
  fg : t.fg = s.fg := by simp

theorem State.StreamKept.refl (s : State) : s.StreamKept s := { stream := rfl }

/-- What leaves every part of the transmit stream alone. -/
theorem State.StreamKept.of_parts (ha : acceptedBytes t.trace = acceptedBytes s.trace)
    (hfg : t.fg = s.fg) (hwire : t.wireOut = s.wireOut) (hutx : t.utx = s.utx)
    (hheld : t.txHeld = s.txHeld) (hq : t.txf.queue = s.txf.queue) : s.StreamKept t where
  stream := by rw [State.txStream, hwire, hutx, hheld, hq]; rfl
  accepted := ha
  fg := hfg

/-- The return of an activation notes no accepted byte. -/
theorem State.acceptedBytes_retireService (s : State) (i : Instr) (rw : Word) :
    acceptedBytes (s.retireService i rw).trace = acceptedBytes s.trace := by
  rw [State.retireService_trace, acceptedBytes_append, acceptedBytes_service, List.append_nil]

theorem State.txHeld_congr (h : t.txc = s.txc) : t.txHeld = s.txHeld := by
  rw [State.txHeld, h]; rfl

theorem State.txHeld_of_idle (h : s.txc = .idle) : s.txHeld = [] := by
  rw [State.txHeld, h]

/-- `RXSVC` and its micro-steps put no byte on the wire and account for none. -/
theorem rxTurn_transmitGhosts (h : rxcTurn s = .next t ∨ rxcMicroTurn s = .next t) :
    acceptedBytes t.trace = acceptedBytes s.trace ∧ t.wireOut = s.wireOut := by
  rcases h with h | h
  · rw [rxcTurn_eq] at h
    split at h <;> obtain rfl := Host.Outcome.next.inj h
    · rw [State.drainUrx_eq]
      exact ⟨State.acceptedBytes_retireService _ _ _, rfl⟩
    · exact ⟨rfl, rfl⟩
  · unfold rxcMicroTurn at h
    split at h
    · obtain rfl := Host.Outcome.next.inj h
      exact ⟨rfl, rfl⟩
    · cases hc : s.rxc <;> simp only [rxcMicro, hc] at h
      case x2 =>
        split at h <;> obtain rfl := Host.Outcome.next.inj h
        · exact ⟨rfl, rfl⟩
        · exact ⟨State.acceptedBytes_retireService _ _ _, rfl⟩
      case x3 =>
        cases hu : s.urx with
        | nil => simp only [State.ioRead, hu] at h; cases h
        | cons b rest =>
          simp only [State.ioRead, hu] at h
          obtain rfl := Host.Outcome.next.inj h
          exact ⟨rfl, rfl⟩
      case idle | x4P1 b =>
        split at h <;> obtain rfl := Host.Outcome.next.inj h <;> exact ⟨rfl, rfl⟩
      case x4P2 | x4P3 =>
        obtain rfl := Host.Outcome.next.inj h
        exact ⟨rfl, rfl⟩

theorem rxTurn_streamKept (hd : s.Disciplined)
    (h : rxcTurn s = .next t ∨ rxcMicroTurn s = .next t) : s.StreamKept t := by
  have hm := rxTurn_rxMoves hd h
  obtain ⟨haccepted, hwire⟩ := rxTurn_transmitGhosts h
  exact .of_parts haccepted hm.fg hwire hm.utx (State.txHeld_congr hm.txc) (by rw [hm.txf])

/-- A whole `TXSVC` on a sound TXF ends drained. -/
theorem execTxsvc_drained (hs : s.txf.sound) : ∃ t, s.enterTx.entryCheck.Drained t ∧
    exec .txsvc s = .next (t.retireService .txsvc 0) := by
  have hentry : s.enterTx.entryCheck.txf = s.txf := by simp
  have hexec : exec .txsvc s = mapNext (fun t => t.retireService .txsvc 0)
    (s.enterTx.entryCheck.drainTxf s.txf.consumerCount) := rfl
  rcases State.drainTxf_cases s.txf.consumerCount s.enterTx.entryCheck
    (by rw [hentry]) with ⟨t, ht, hdrained⟩ | ⟨hunsound, -⟩
  · rw [ht] at hexec
    exact ⟨t, hdrained, hexec⟩
  · exact absurd (hentry ▸ hs) hunsound

/-- The bytes that a whole `TXSVC` moves only change their place in the stream. -/
theorem execTxsvc_streamKept (hs : s.txf.sound) (hidle : s.txc = .idle)
    (h : exec .txsvc s = .next t) : s.StreamKept t := by
  obtain ⟨u, hdrained, hexec⟩ := execTxsvc_drained hs
  obtain rfl := Host.Outcome.next.inj (hexec.symm.trans h)
  have hmoved : u.utx ++ u.txf.queue = s.utx ++ s.txf.queue := by
    simpa using hdrained.stream (by rw [State.entryCheck_txf]; exact hs.2)
  have hframe : u.txc = s.txc ∧ u.fg = s.fg ∧ u.wireOut = s.wireOut ∧ u.trace = s.trace := by
    rw [hdrained.frame]
    simp
  obtain ⟨htxc, hfg, hwire, htrace⟩ := hframe
  have hheld : s.txHeld = [] := State.txHeld_of_idle hidle
  have hheld' : u.txHeld = [] := State.txHeld_of_idle (htxc.trans hidle)
  constructor
  · calc (u.retireService .txsvc 0).txStream = u.wireOut ++ u.utx ++ u.txHeld ++ u.txf.queue := rfl
      _ = s.wireOut ++ s.utx ++ s.txHeld ++ s.txf.queue := by
        rw [hheld, hheld', hwire]
        simp only [List.append_nil, List.append_assoc, hmoved]
  · rw [State.acceptedBytes_retireService, htrace]
  · exact hfg

theorem Fifo.popC3_queue_of_popping {f : Fifo} {tr : Nat} {b : Byte} (hs : f.sound)
    (hp : f.popping tr) (hb : f.slot tr = some b) : f.queue = b :: (f.popC3 tr).queue := by
  obtain ⟨rfl, he⟩ := hp
  exact f.popC3_queue (hs.2.isEmpty_eq_false he) hb

/-- A micro-step of TXC: C3 takes a byte from the queue into TXC's hand, T5 from there to the
transmitter. -/
theorem txcMicro_streamKept (hd : s.Disciplined) (h : txcMicro s = .next t) : s.StreamKept t := by
  have hok := hd.txc
  have hheld := State.txHeld.eq_def s
  unfold State.txOk at hok
  cases hc : s.txc <;> simp only [hc] at hok hheld <;> simp only [txcMicro, hc] at h
  case idle =>
    split at h <;> obtain rfl := Host.Outcome.next.inj h
    · exact .of_parts rfl rfl rfl rfl hheld.symm rfl
    · exact .refl _
  case t2Read =>
    obtain rfl := Host.Outcome.next.inj h
    refine .of_parts rfl rfl rfl rfl (Eq.trans ?_ hheld.symm) rfl
    unfold State.txHeld
    cases s.txf.consumerEmpty <;> rfl
  case t2Write =>
    obtain rfl := Host.Outcome.next.inj h
    exact .of_parts rfl rfl rfl rfl hheld.symm rfl
  case t3Room | t3Empty =>
    split at h <;> obtain rfl := Host.Outcome.next.inj h
    · exact .of_parts (State.acceptedBytes_retireService s _ _) rfl rfl rfl hheld.symm rfl
    · exact .of_parts rfl rfl rfl rfl hheld.symm rfl
  case t4C1 | t4C2 tr =>
    split at h
    · cases h
    · obtain rfl := Host.Outcome.next.inj h
      exact .of_parts rfl rfl rfl rfl hheld.symm rfl
  case t4C3 tr b =>
    obtain ⟨-, hp, hb⟩ := hok
    obtain rfl := Host.Outcome.next.inj h
    refine { stream := ?_ }
    rw [State.txStream.eq_def s, hheld, Fifo.popC3_queue_of_popping hd.txSound hp hb]
    simp [State.txStream, State.txHeld]
  case t5 b =>
    split at h
    · cases h
    · obtain rfl := Host.Outcome.next.inj h
      refine { stream := ?_ }
      rw [State.txStream.eq_def s, hheld]
      simp [State.txStream, State.txHeld]

theorem txTurn_streamKept (hd : s.Disciplined)
    (h : txcTurn s = .next t ∨ txcMicroTurn s = .next t) : s.StreamKept t := by
  rcases h with h | h
  · rw [txcTurn_eq] at h
    split at h
    · exact execTxsvc_streamKept hd.txSound (by simp_all [State.txEnabled]) h
    · obtain rfl := Host.Outcome.next.inj h
      exact .refl _
  · unfold txcMicroTurn at h
    split at h
    · obtain rfl := Host.Outcome.next.inj h
      exact .refl _
    · exact txcMicro_streamKept hd h

theorem uartTxTurn_streamKept (h : uartTxTurn s = .next t) : s.StreamKept t := by
  cases hu : s.utx with
  | nil =>
    simp only [uartTxTurn, hu] at h
    obtain rfl := Host.Outcome.next.inj h
    exact .refl _
  | cons v rest =>
    simp only [uartTxTurn, hu] at h
    obtain rfl := Host.Outcome.next.inj h
    refine { stream := ?_ }
    simp [State.txStream, State.txHeld, hu]

/-- Every turn but FG's and reset. -/
theorem takeTurn_streamKept {turn : Turn} (hd : s.Disciplined)
    (hturn : turn ≠ .reset ∧ turn ≠ .op ∧ turn ≠ .micro) (h : takeTurn turn s = .next t) :
    s.StreamKept t := by
  obtain ⟨hreset, hop, hmicro⟩ := hturn
  cases turn with
  | op => exact absurd rfl hop
  | micro => exact absurd rfl hmicro
  | reset => exact absurd rfl hreset
  | rxc => exact rxTurn_streamKept hd (.inl h)
  | rxcMicro => exact rxTurn_streamKept hd (.inr h)
  | txc => exact txTurn_streamKept hd (.inl h)
  | txcMicro => exact txTurn_streamKept hd (.inr h)
  | uartRx v =>
    simp only [takeTurn, uartRxTurn] at h
    split at h
    · obtain rfl := Host.Outcome.next.inj h
      exact { stream := rfl }
    · cases h
  | uartTx => exact uartTxTurn_streamKept h
  | timer | syncFclk | syncSclk =>
    obtain rfl := Host.Outcome.next.inj h
    exact { stream := rfl }

/-! ## Every turn -/

theorem Fifo.clear_queue (f : Fifo) (lag : Nat) : (f.clear lag).queue = [] := by
  rw [Fifo.queue, f.clear_count]; rfl

theorem State.hardReset_txStream (s : State) : s.hardReset.txStream = [] :=
  s.txf.clear_queue _

/-- What FG's turn appends to TXF's queue it appends to the whole stream. -/
theorem State.Grows.appends {words : List TraceEntry} {bytes : List Byte} (hm : s.FgMoves t)
    (hg : s.Grows words bytes t) : t.txStream = s.txStream ++ bytes := by
  rw [State.txStream, hg.wireOut, hm.utx, State.txHeld_congr hm.txc, hg.queue,
    ← List.append_assoc]
  rfl

theorem State.Grows.accounted {words : List TraceEntry} {bytes : List Byte} (hm : s.FgMoves t)
    (hg : s.Grows words bytes t) (ha : s.Accounted) : t.Accounted := by
  calc t.txStream = s.txStream ++ bytes := hg.appends hm
    _ = acceptedBytes s.trace ++ (s.fgStored ++ bytes) := by rw [ha, List.append_assoc]
    _ = acceptedBytes t.trace ++ t.fgStored := by
      rw [hg.stored, hg.trace, acceptedBytes_append, List.append_assoc]

theorem State.StreamKept.accounted (hk : s.StreamKept t) (ha : s.Accounted) : t.Accounted := by
  have hstored : t.fgStored = s.fgStored := by rw [State.fgStored, hk.fg]; rfl
  rw [State.Accounted, hk.stream, hk.accepted, hstored]
  exact ha

/-- The choice of the turn moves only the model's inputs on. -/
theorem nextTurn_state (s : State) :
    ∃ l n, (nextTurn s).2 = { s with agenda := l, turnNo := n } := by
  unfold nextTurn
  split
  · exact ⟨_, _, rfl⟩
  · exact ⟨s.agenda, _, rfl⟩

/-- Settles O55: FG's turns by `fgTurn_transmits`, the other agents' by `takeTurn_streamKept`. -/
theorem transmitStreamOnlyGrows : Obligations.TransmitStreamOnlyGrows := by
  intro s t hd h
  obtain ⟨l, n, hn⟩ := nextTurn_state s
  rw [step, hn] at h
  generalize (nextTurn s).1 = turn at h ⊢
  set u : State := { s with agenda := l, turnNo := n }
  have hdu : u.Disciplined := { hd with }
  have kept : turn ≠ .reset → turn ≠ .op → turn ≠ .micro → u.StreamKept t :=
    fun hreset hop hmicro => takeTurn_streamKept hdu ⟨hreset, hop, hmicro⟩ h
  have fg : turn = .op ∨ turn = .micro → u.FgMoves t ∧ u.Transmits t := by
    intro hturn
    have hfg : fgOpTurn u = .next t ∨ fgMicroTurn u = .next t :=
      hturn.imp (fun ht => by rwa [ht] at h) (fun ht => by rwa [ht] at h)
    exact ⟨fgTurn_fgMoves hdu hfg, fgTurn_transmits hdu hfg⟩
  refine ⟨fun hturn => ?_, fun hreset hop hmicro => (kept hreset hop hmicro).stream,
    fun hturn => ?_, fun ha => ?_⟩
  · subst hturn
    exact Host.Outcome.next.inj h ▸ u.hardReset_txStream
  · obtain ⟨hm, words, bytes, hg⟩ := fg hturn
    exact ⟨words, bytes, hg.trace, State.Grows.appends (s := u) hm hg, hg.stored⟩
  · by_cases hturn : turn = .op ∨ turn = .micro
    · obtain ⟨hm, words, bytes, hg⟩ := fg hturn
      exact hg.accounted hm ha
    · obtain ⟨hop, hmicro⟩ := not_or.mp hturn
      by_cases hreset : turn = .reset
      · subst hreset
        exact Host.Outcome.next.inj h ▸ u.hardReset_txStream
      · exact (kept hreset hop hmicro).accounted ha

end Sys2Proof.Machine
end

section
/-! PROOF. Receive order and saturation with the sequencer as the only FG (O56). -/

namespace Sys2Proof.Machine

variable {s t : State}

/-! ## FG: the sequencer never touches RXF -/

/-- The operations of the sequencer's program (`43_scheduler.md` rule R170). -/
def Instr.sequenced : Instr → Prop
  | .inc => True
  | .disp _ => True
  | .work => True
  | .waitp => True
  | _ => False

theorem eq_of_formatZ {i j : Instr} {sel : Nat} {imm : Byte} (h : formatZ j sel imm = .ok i) :
    i = j := by
  unfold formatZ at h
  split_ifs at h
  exact (Except.ok.inj h).symm

theorem eq_of_formatT {n sel : Nat} {make : Nat → Instr} {imm : Byte} {i : Instr}
    (h : formatT n make sel imm = .ok i) : i = make sel := by
  unfold formatT at h
  split_ifs at h
  exact (Except.ok.inj h).symm

theorem Instr.sequenced_of_sequencerWord {n pc : Nat} {ow : Word} {i : Instr}
    (hw : sequencerWord n pc = some ow) (hd : decode n ow = .ok i) : Instr.sequenced i := by
  unfold sequencerWord at hw
  split_ifs at hw <;> obtain rfl := Option.some.inj hw <;>
    rw [decode, opField_operationWord _ _ (by decide)] at hd
  · obtain rfl := eq_of_formatZ hd; trivial
  · obtain rfl := eq_of_formatT hd; trivial
  · obtain rfl := eq_of_formatZ hd; trivial
  · obtain rfl := eq_of_formatZ hd; trivial

/-- FG left RXF as it was, and is inside no bare `PUSH` or `POP`. -/
abbrev State.LeavesRxf (s t : State) : Prop := t.rxf = s.rxf ∧ t.noBareFifo

theorem fgContinue_leavesRxf (hn : s.noBareFifo) (h : fgContinue s = .next t) :
    s.LeavesRxf t := by
  have hn' := hn
  unfold State.noBareFifo at hn'
  cases hc : s.fg <;> simp only [hc] at hn' <;> simp only [fgContinue, hc] at h
  case idle =>
    obtain rfl := Host.Outcome.next.inj h
    exact ⟨rfl, hn⟩
  case enqNext o =>
    split at h <;> obtain rfl := Host.Outcome.next.inj h
    · exact ⟨(s.endString_bookkeeping o).rxf, (s.endString_fgClear o).2⟩
    · exact ⟨(s.beginEnqb_bookkeeping o _).rxf, (s.beginEnqb_fgClear o _).2⟩
  case enqbB4 o b =>
    split at h <;> obtain rfl := Host.Outcome.next.inj h
    · exact ⟨rfl, trivial⟩
    · exact ⟨(s.endEnqb_bookkeeping o b true).rxf, (s.endEnqb_fgClear o b true).2⟩
  case enqbB6 o b =>
    obtain rfl := Host.Outcome.next.inj h
    exact ⟨(s.requestTx.endEnqb_bookkeeping o b true).rxf, (s.requestTx.endEnqb_fgClear o b true).2⟩
  case dispD3 n =>
    obtain rfl := Host.Outcome.next.inj h
    exact ⟨(s.beginAction_bookkeeping n).rxf, (s.beginAction_fgClear n).2⟩
  case enqbP2 | enqbP3 | enqbB5 | dispD2 =>
    obtain rfl := Host.Outcome.next.inj h
    exact ⟨rfl, trivial⟩

theorem fgContinueN_leavesRxf {n : Nat} (hn : s.noBareFifo) (h : fgContinueN n s = .next t) :
    s.LeavesRxf t := by
  induction n generalizing s with
  | zero =>
    obtain rfl := Host.Outcome.next.inj h
    exact ⟨rfl, hn⟩
  | succ n ih =>
    simp only [fgContinueN, andThen] at h
    split at h
    · obtain ⟨hrxf, hn'⟩ := fgContinue_leavesRxf hn ‹_›
      obtain ⟨hrxf', hn''⟩ := ih hn' h
      exact ⟨hrxf'.trans hrxf, hn''⟩
    · cases h
    · cases h

theorem fgBegin_leavesRxf {i : Instr} (hi : Instr.sequenced i) (h : fgBegin i s = .next t) :
    s.LeavesRxf t := by
  have hrxf := (of_next (fgBegin_bookkeeping (i := i) (by rintro rfl; exact hi)
    (by rintro rfl; exact hi) s) h).1.rxf
  refine ⟨hrxf, ?_⟩
  cases i with
  | inc | work =>
    obtain rfl := Host.Outcome.next.inj h
    exact (State.finish_fgClear _).2
  | waitp =>
    simp only [fgBegin, execWaitp] at h
    split at h <;> obtain rfl := Host.Outcome.next.inj h <;> exact (State.finish_fgClear _).2
  | disp n =>
    simp only [fgBegin] at h
    split at h
    · obtain rfl := Host.Outcome.next.inj h
      exact (State.finish_fgClear _).2
    · split at h <;> obtain rfl := Host.Outcome.next.inj h
      · trivial
      · exact (State.finish_fgClear _).2
  | push | pop | isempty | isfull | enqb | kick | rxsvc | txsvc | enq => exact hi.elim

/-- A whole operation of the sequencer, as its micro-steps one after another. -/
theorem runWhole_leavesRxf {i : Instr} (hi : Instr.sequenced i) (h : runWhole i s = .next t) :
    s.LeavesRxf t := by
  obtain ⟨n, hn⟩ := refinesWhole i s
  rw [← hn] at h
  unfold andThen at h
  split at h
  · obtain ⟨hrxf, hclear⟩ := fgBegin_leavesRxf hi ‹_›
    obtain ⟨hrxf', hclear'⟩ := fgContinueN_leavesRxf hclear h
    exact ⟨hrxf'.trans hrxf, hclear'⟩
  · cases h
  · cases h

theorem fgIssue_leavesRxf {run : Instr → State → Result}
    (hrun : ∀ {i : Instr}, Instr.sequenced i → run i s = .next t → s.LeavesRxf t)
    (hsource : s.source = .sequencer) (hn : s.noBareFifo) (h : fgIssue run s = .next t) :
    s.LeavesRxf t := by
  cases hw : s.nextWord with
  | none =>
    rw [fgIssue_of_none hw] at h
    simp only [fgNoWord, hsource] at h
    cases h
  | some ow =>
    cases hd : decodeOn s.cfg.ntask s.source .foreground ow with
    | error r =>
      rw [fgIssue_of_error hw hd, takeWord_of_sequencer hsource] at h
      obtain rfl := Host.Outcome.next.inj h
      exact ⟨rfl, hn⟩
    | ok i =>
      cases hh : s.holds i
      · rw [fgIssue_of_ok hw hd hh, takeWord_of_sequencer hsource] at h
        rw [nextWord_of_sequencer hsource] at hw
        exact hrun (Instr.sequenced_of_sequencerWord hw (decodeOn_eq_ok.mp hd).1) h
      · rw [fgIssue_of_holds hw hd hh] at h
        obtain rfl := Host.Outcome.next.inj h
        exact ⟨rfl, hn⟩

theorem fgTurn_leavesRxf (hsource : s.source = .sequencer) (hn : s.noBareFifo)
    (h : fgOpTurn s = .next t ∨ fgMicroTurn s = .next t) : s.LeavesRxf t := by
  by_cases hc : s.fg = .idle
  · rw [fgOpTurn_of_idle hc, fgMicroTurn_of_idle hc] at h
    exact h.elim (fgIssue_leavesRxf runWhole_leavesRxf hsource hn)
      (fgIssue_leavesRxf fgBegin_leavesRxf hsource hn)
  · rw [fgOpTurn_of_ctx hc, fgMicroTurn_of_ctx hc, or_self] at h
    exact fgContinue_leavesRxf hn h

/-! ## What saturation says of RXF -/

theorem State.noBareFifo_congr (hfg : t.fg = s.fg) (h : s.noBareFifo) : t.noBareFifo := by
  unfold State.noBareFifo at h ⊢
  rwa [hfg]

theorem State.rxHeld_congr (hrxc : t.rxc = s.rxc) (hrxf : t.rxf = s.rxf) :
    t.rxHeld = s.rxHeld := by
  rw [State.rxHeld, hrxc, hrxf]; rfl

/-- A turn that leaves the receive side alone. -/
theorem State.Saturating.congr (h : s.Saturating) (hsource : t.source = s.source)
    (hn : t.noBareFifo) (hrxf : t.rxf = s.rxf) (hheld : t.rxHeld = s.rxHeld)
    (hurx : t.urx = s.urx) (hwire : t.wireIn = s.wireIn) (hdropped : t.rxDropped = s.rxDropped) :
    t.Saturating where
  source := hsource.trans h.source
  fifo := hn
  start := hrxf ▸ h.start
  seen := hrxf ▸ h.seen
  bytes := by
    rw [hwire, hrxf, hdropped, hheld, hurx]
    exact h.bytes
  full := by rw [hdropped, hrxf]; exact h.full

/-- Nothing is popped, so RXC sees RXF's read cursor as it is, for every lag. -/
theorem State.Saturating.readSeen (h : s.Saturating) : s.rxf.readSeen = s.rxf.readIndex := by
  cases hl : s.rxf.readSync with
  | nil => exact Fifo.readSeen_of_nil hl
  | cons v l =>
    rw [Fifo.readSeen, hl, List.headD_cons, Fin.ext_iff, h.start]
    exact h.seen v (hl ▸ List.mem_cons_self)

theorem State.Saturating.producerCount (h : s.Saturating) :
    s.rxf.producerCount = s.rxf.count := by
  rw [Fifo.producerCount, h.readSeen]; rfl

theorem State.Saturating.isFull_of_producerFull (h : s.Saturating)
    (hf : s.rxf.producerFull = true) : s.rxf.isFull = true := by
  rw [s.rxf.isFull_iff, ← h.producerCount]
  exact s.rxf.producerFull_iff.mp hf

/-- While RXC sees room nothing has been dropped. -/
theorem State.Saturating.rxDropped_of_not_full (h : s.Saturating) (hv : s.rxf.viewsOk)
    (hf : s.rxf.producerFull = false) : s.rxDropped = [] := by
  by_contra hne
  have := h.full hne
  rw [hv.isFull_eq_false hf] at this
  cases this

/-- The registers on their way to the producer hold 0 in every FIFO with the same views. -/
theorem Fifo.readSync_zero_of_views {f g : Fifo} (hv : g.views = f.views)
    (h : ∀ v ∈ f.readSync, v.val = 0) : ∀ v ∈ g.readSync, v.val = 0 := by
  intro v hmem
  have hval : v.val ∈ f.views.1 := hv ▸ List.mem_map_of_mem hmem
  obtain ⟨w, hw, hwv⟩ := List.mem_map.mp hval
  exact hwv ▸ h w hw

/-! ## RXC -/

/-- A FIFO whose producer sees its read cursor as it is, is full once more bytes came than it had room
for. -/
theorem Fifo.pushAll_isFull {f : Fifo} {l : List Byte} (hs : f.sound)
    (hc : f.producerCount = f.count) (hl : f.room < l.length) :
    (Fifo.pushAll l f).1.isFull = true := by
  have hqueue := congrArg List.length (Fifo.pushAll_queue l f hs)
  rw [Fifo.queue_length _ (Fifo.pushAll_sound l f hs).1, List.length_append, List.length_take,
    f.queue_length hs.1] at hqueue
  have hroom : f.room = f.capacity - 1 - f.count := by rw [Fifo.room, hc]
  have hlt := f.count_lt
  rw [Fifo.isFull_iff, Fifo.pushAll_capacity]
  omega

/-- What a whole `RXSVC` does with the bytes that have arrived. -/
theorem execRxsvc_receives (h : exec .rxsvc s = .next t) :
    t.rxf = (Fifo.pushAll s.urx s.rxf).1 ∧ t.urx = [] ∧
      t.rxDropped = s.rxDropped ++ s.urx.drop s.rxf.room ∧ t.wireIn = s.wireIn := by
  obtain rfl := Host.Outcome.next.inj h
  rw [State.drainUrx_eq]
  exact ⟨rfl, rfl, rfl, rfl⟩

/-- A whole `RXSVC` stores what fits and drops the rest. -/
theorem execRxsvc_saturating (hs : s.Saturating) (hsound : s.rxf.sound) (hidle : s.rxc = .idle)
    (h : exec .rxsvc s = .next t) : t.Saturating := by
  obtain ⟨hm, hrxc⟩ := of_next (execRxsvc_rxMoves s) h
  obtain ⟨hrxf, hurx, hdropped, hwire⟩ := execRxsvc_receives h
  have hheld : s.rxHeld = [] := by rw [State.rxHeld, hidle]
  have hheld' : t.rxHeld = [] := by rw [State.rxHeld, hrxc, hidle]
  have hbytes := hs.bytes
  rw [hheld, List.append_nil] at hbytes
  have start := (Fifo.pushAll_readIndex s.urx s.rxf).trans hs.start
  have seen := Fifo.readSync_zero_of_views (Fifo.pushAll_views s.urx s.rxf) hs.seen
  refine ⟨hm.source.trans hs.source, State.noBareFifo_congr hm.fg hs.fifo, hrxf ▸ start,
    hrxf ▸ seen, ?_, fun hne => ?_⟩
  · rw [hwire, hheld', hurx, hdropped, hrxf, Fifo.pushAll_queue _ _ hsound, hbytes]
    cases hf : s.rxf.producerFull
    · rw [hs.rxDropped_of_not_full hsound.2 hf]
      simp
    · rw [s.rxf.room_eq_zero_iff.mpr hf]
      simp
  · rw [hrxf]
    cases hf : s.rxf.producerFull
    · refine Fifo.pushAll_isFull hsound hs.producerCount ?_
      rw [hdropped, hs.rxDropped_of_not_full hsound.2 hf] at hne
      simpa using hne
    · rw [Fifo.pushAll_of_full _ hf]
      exact hs.isFull_of_producerFull hf

/-- A micro-step of RXC: a byte goes from `urx` into RXC's hand, and from there into RXF, or it is
dropped. -/
theorem rxcMicro_saturating (hs : s.Saturating) (hd : s.Disciplined)
    (h : rxcMicro s = .next t) : t.Saturating := by
  have hok := hd.rxc
  have hheld := State.rxHeld.eq_def s
  have hbytes := hs.bytes
  unfold State.rxOk at hok
  cases hc : s.rxc <;> simp only [hc] at hok hheld <;> simp only [rxcMicro, hc] at h <;>
    rw [hheld] at hbytes
  case idle =>
    split at h <;> obtain rfl := Host.Outcome.next.inj h
    · exact hs.congr rfl hs.fifo rfl hheld.symm rfl rfl rfl
    · exact hs
  case x2 =>
    split at h <;> obtain rfl := Host.Outcome.next.inj h <;>
      exact hs.congr rfl hs.fifo rfl hheld.symm rfl rfl rfl
  case x3 =>
    obtain ⟨b, rest, hu⟩ := List.exists_cons_of_ne_nil hok
    simp only [State.ioRead, hu] at h
    obtain rfl := Host.Outcome.next.inj h
    exact { hs with bytes := by simpa [State.rxHeld, hu] using hbytes }
  case x4P1 b =>
    cases hf : s.rxf.producerFull
    · rw [s.rxf.pushP1_of_not_full hf] at h
      obtain rfl := Host.Outcome.next.inj h
      exact hs.congr rfl hs.fifo rfl hheld.symm rfl rfl rfl
    · rw [s.rxf.pushP1_of_full hf] at h
      obtain rfl := Host.Outcome.next.inj h
      exact { hs with
        bytes := by simpa [State.rxHeld] using hbytes
        full := fun _ => hs.isFull_of_producerFull hf }
  case x4P2 b tw tn =>
    obtain rfl := Host.Outcome.next.inj h
    have hslot := (s.rxf.pushing_pushP2 b hok).2
    exact { hs with
      bytes := by
        rw [hbytes]
        simp [State.rxHeld, hslot, Fifo.pushP2_queue_of_pushing b hok] }
  case x4P3 tn =>
    obtain ⟨hp, hb⟩ := hok
    obtain ⟨b, hb⟩ := Option.isSome_iff_exists.mp hb
    obtain rfl := Host.Outcome.next.inj h
    have hdropped := hs.rxDropped_of_not_full hd.rxSound.2 hp.2.2
    exact { hs with
      bytes := by
        rw [hbytes]
        simp [State.rxHeld, hb, hdropped, Fifo.pushP3_queue_of_pushing hd.rxSound hp hb]
      full := fun hne => absurd hdropped hne }

theorem rxTurn_saturating (hs : s.Saturating) (hd : s.Disciplined)
    (h : rxcTurn s = .next t ∨ rxcMicroTurn s = .next t) : t.Saturating := by
  rcases h with h | h
  · rw [rxcTurn_eq] at h
    split at h
    · exact execRxsvc_saturating hs hd.rxSound (by simp_all [State.rxEnabled]) h
    · obtain rfl := Host.Outcome.next.inj h
      exact hs
  · unfold rxcMicroTurn at h
    split at h
    · obtain rfl := Host.Outcome.next.inj h
      exact hs
    · exact rxcMicro_saturating hs hd h

/-! ## The other agents -/

theorem fgTurn_saturating (hs : s.Saturating) (hd : s.Disciplined)
    (h : fgOpTurn s = .next t ∨ fgMicroTurn s = .next t) : t.Saturating := by
  have hm := fgTurn_fgMoves hd h
  obtain ⟨words, bytes, hg⟩ := fgTurn_transmits hd h
  obtain ⟨hrxf, hn⟩ := fgTurn_leavesRxf hs.source hs.fifo h
  exact hs.congr hm.source hn hrxf (State.rxHeld_congr hm.rxc hrxf) hm.urx hg.wireIn hg.rxDropped

/-- TXC writes none of the receive side's ghosts. -/
theorem txTurn_receiveGhosts (hd : s.Disciplined)
    (h : txcTurn s = .next t ∨ txcMicroTurn s = .next t) :
    t.wireIn = s.wireIn ∧ t.rxDropped = s.rxDropped := by
  rcases h with h | h
  · rw [txcTurn_eq] at h
    split at h
    · obtain ⟨u, hdrained, hexec⟩ := execTxsvc_drained hd.txSound
      obtain rfl := Host.Outcome.next.inj (hexec.symm.trans h)
      rw [hdrained.frame]
      simp
    · obtain rfl := Host.Outcome.next.inj h
      exact ⟨rfl, rfl⟩
  · unfold txcMicroTurn at h
    split at h
    · obtain rfl := Host.Outcome.next.inj h
      exact ⟨rfl, rfl⟩
    · cases hc : s.txc <;> simp only [txcMicro, hc] at h
      case idle | t3Room | t3Empty =>
        split at h <;> obtain rfl := Host.Outcome.next.inj h <;> exact ⟨rfl, rfl⟩
      case t2Read | t2Write | t4C3 =>
        obtain rfl := Host.Outcome.next.inj h
        exact ⟨rfl, rfl⟩
      case t4C1 | t4C2 | t5 =>
        split at h
        · cases h
        · obtain rfl := Host.Outcome.next.inj h
          exact ⟨rfl, rfl⟩

theorem txTurn_saturating (hs : s.Saturating) (hd : s.Disciplined)
    (h : txcTurn s = .next t ∨ txcMicroTurn s = .next t) : t.Saturating := by
  have hm := txTurn_txMoves hd h
  obtain ⟨hwire, hdropped⟩ := txTurn_receiveGhosts hd h
  exact hs.congr hm.source (State.noBareFifo_congr hm.fg hs.fifo) hm.rxf
    (State.rxHeld_congr hm.rxc hm.rxf) hm.urx hwire hdropped

/-- An edge of SCLK moves a cursor that is 0 into a chain whose registers are 0. -/
theorem State.Saturating.syncSclk (hs : s.Saturating) : s.syncSclk.Saturating :=
  { hs with
    seen := fun v hv => by
      rcases List.mem_append.mp (List.mem_of_mem_tail hv) with hv | hv
      · exact hs.seen v hv
      · rw [List.mem_singleton.mp hv]
        exact hs.start }

theorem State.Saturating.hardReset (hs : s.Saturating) : s.hardReset.Saturating where
  source := hs.source
  fifo := trivial
  start := Nat.zero_mod _
  seen v hv := by
    rw [List.eq_of_mem_replicate hv]
    exact Nat.zero_mod _
  bytes := by
    rw [show s.hardReset.rxf.queue = [] from s.rxf.clear_queue _]
    rfl
  full h := absurd rfl h

/-- Settles O56: RXC's turns by `rxTurn_saturating`; FG's and TXC's leave the receive side alone. -/
theorem receiveSaturates : Obligations.ReceiveSaturates := by
  intro s t hd hs h
  obtain ⟨turn, l, n, hstep⟩ := step_eq_takeTurn s
  rw [hstep] at h
  have hdu : State.Disciplined { s with agenda := l, turnNo := n } := { hd with }
  have hsu : State.Saturating { s with agenda := l, turnNo := n } := { hs with }
  cases turn with
  | op => exact fgTurn_saturating hsu hdu (.inl h)
  | micro => exact fgTurn_saturating hsu hdu (.inr h)
  | rxc => exact rxTurn_saturating hsu hdu (.inl h)
  | rxcMicro => exact rxTurn_saturating hsu hdu (.inr h)
  | txc => exact txTurn_saturating hsu hdu (.inl h)
  | txcMicro => exact txTurn_saturating hsu hdu (.inr h)
  | uartRx v =>
    simp only [takeTurn, uartRxTurn] at h
    split at h
    · obtain rfl := Host.Outcome.next.inj h
      exact { hs with bytes := by rw [hs.bytes, List.append_assoc]; rfl }
    · cases h
  | uartTx =>
    simp only [takeTurn, uartTxTurn] at h
    split at h <;> obtain rfl := Host.Outcome.next.inj h <;> exact { hs with }
  | timer | syncFclk =>
    obtain rfl := Host.Outcome.next.inj h
    exact { hs with }
  | syncSclk =>
    obtain rfl := Host.Outcome.next.inj h
    exact hsu.syncSclk
  | reset =>
    obtain rfl := Host.Outcome.next.inj h
    exact hsu.hardReset

end Sys2Proof.Machine
end

section
/-! PROOF. What a synchroniser lag breaks and what it keeps (O22). -/

namespace Sys2Proof.Machine

variable {s t : State}

/-! ## A chain of synchroniser registers (`70_reset_and_hazards.md` rule R240) -/

/-- One edge, and then `n` more. -/
theorem drop_shift_append_replicate (l : List Nat) (v n : Nat) :
    ((l ++ [v]).tail ++ List.replicate n v).drop n =
      (l ++ List.replicate (n + 1) v).drop (n + 1) := by
  rw [← List.tail_append_of_ne_nil (by simp), List.append_assoc, List.drop_tail]
  rfl

/-- After `n` edges the producer's chain has let `n` registers go and taken in `n` times the cursor. -/
theorem Fifo.syncProducerN_chain (n : Nat) (f : Fifo) :
    (Fifo.syncProducerN n f).readSync.map (·.val) =
        (f.readSync.map (·.val) ++ List.replicate n f.readIndex.val).drop n ∧
      (Fifo.syncProducerN n f).readIndex.val = f.readIndex.val := by
  induction n generalizing f with
  | zero => simp [Fifo.syncProducerN]
  | succ n ih =>
    obtain ⟨hchain, hread⟩ := ih f.syncProducer
    refine ⟨hchain.trans ?_, hread⟩
    rw [← drop_shift_append_replicate]
    simp [Fifo.syncProducer, List.map_tail]

/-- The same of the consumer's chain. -/
theorem Fifo.syncConsumerN_chain (n : Nat) (f : Fifo) :
    (Fifo.syncConsumerN n f).writeSync.map (·.val) =
        (f.writeSync.map (·.val) ++ List.replicate n f.writeIndex.val).drop n ∧
      (Fifo.syncConsumerN n f).writeIndex.val = f.writeIndex.val := by
  induction n generalizing f with
  | zero => simp [Fifo.syncConsumerN]
  | succ n ih =>
    obtain ⟨hchain, hwrite⟩ := ih f.syncConsumer
    refine ⟨hchain.trans ?_, hwrite⟩
    rw [← drop_shift_append_replicate]
    simp [Fifo.syncConsumer, List.map_tail]

theorem Fifo.readSeen_val (f : Fifo) :
    f.readSeen.val = (f.readSync.map (·.val)).headD f.readIndex.val := by
  unfold Fifo.readSeen
  cases f.readSync <;> rfl

theorem Fifo.writeSeen_val (f : Fifo) :
    f.writeSeen.val = (f.writeSync.map (·.val)).headD f.writeIndex.val := by
  unfold Fifo.writeSeen
  cases f.writeSync <;> rfl

/-- A chain of `n` registers lets go of all it held in `n` edges. -/
theorem headD_drop_append_replicate {l : List Nat} {n : Nat} (hl : l.length = n) (v : Nat) :
    ((l ++ List.replicate n v).drop n).headD v = v := by
  subst hl
  rw [List.drop_left]
  cases l <;> rfl

/-- After as many edges as the lag the producer sees the read cursor as it is. -/
theorem Fifo.syncProducerN_readSeen {f : Fifo} {n : Nat} (hl : f.lagIs n) :
    (Fifo.syncProducerN n f).readSeen.val = f.readIndex.val := by
  obtain ⟨hchain, hread⟩ := Fifo.syncProducerN_chain n f
  rw [Fifo.readSeen_val, hchain, hread]
  exact headD_drop_append_replicate (by rw [List.length_map, hl.1]) _

theorem Fifo.syncConsumerN_writeSeen {f : Fifo} {n : Nat} (hl : f.lagIs n) :
    (Fifo.syncConsumerN n f).writeSeen.val = f.writeIndex.val := by
  obtain ⟨hchain, hwrite⟩ := Fifo.syncConsumerN_chain n f
  rw [Fifo.writeSeen_val, hchain, hwrite]
  exact headD_drop_append_replicate (by rw [List.length_map, hl.2]) _

theorem Fifo.syncConsumerN_sound (n : Nat) {f : Fifo} (hs : f.sound) :
    (Fifo.syncConsumerN n f).sound := by
  induction n generalizing f with
  | zero => exact hs
  | succ n ih => exact ih (f.consumerKeeps_syncConsumer.sound hs)

theorem Fifo.syncConsumerN_queue (n : Nat) (f : Fifo) :
    (Fifo.syncConsumerN n f).queue = f.queue ∧
      (Fifo.syncConsumerN n f).readIndex.val = f.readIndex.val := by
  induction n generalizing f with
  | zero => exact ⟨rfl, rfl⟩
  | succ n ih => exact ih f.syncConsumer

/-- With the view current the consumer sees a queue that is not empty. -/
theorem Fifo.syncConsumerN_consumerEmpty {f : Fifo} {n : Nat} (hl : f.lagIs n)
    (he : f.isEmpty = false) : (Fifo.syncConsumerN n f).consumerEmpty = false := by
  rw [Fifo.consumerEmpty, Fifo.syncConsumerN_writeSeen hl, (Fifo.syncConsumerN_queue n f).2]
  exact he

/-! ## A push after a pop -/

/-- With a lag a slot that has just been freed does not make room at once. -/
theorem Fifo.push_after_pop_of_lag {f g : Fifo} {b c : Byte} (hs : f.sound)
    (hlag : f.readSync ≠ []) (hfull : f.producerFull = true) (hp : f.pop = .ok (some b, g)) :
    g.isFull = false ∧ g.push c = (g, false) := by
  rcases f.pop_cases with ⟨-, h⟩ | ⟨d, he, -, h⟩ | ⟨-, -, h⟩
  · cases h.symm.trans hp
  · cases h.symm.trans hp
    have hcount := f.popC3_count (hs.2.isEmpty_eq_false he)
    have hlt := f.count_lt
    obtain ⟨v, l, hl⟩ := List.exists_cons_of_ne_nil hlag
    refine ⟨?_, Fifo.push_of_full _ c ?_⟩
    · rw [Fifo.isFull_eq_false_iff]
      show _ < f.capacity
      omega
    · simp only [Fifo.producerFull, Fifo.readSeen, Fifo.popC3, hl, List.headD_cons] at hfull ⊢
      exact hfull
  · cases h.symm.trans hp

/-! ## The restart scenario with a lag -/

/-- `TXSVC` that finds TXF empty at entry arms `manual_trigger` and moves nothing. -/
theorem execTxsvc_of_consumerEmpty (he : s.txf.consumerEmpty = true) :
    exec .txsvc s =
      .next ({ s with txPending := false, manualTrigger := true }.retireService .txsvc 0) := by
  have hentry : s.enterTx.entryCheck = { s with txPending := false, manualTrigger := true } :=
    if_pos he
  show mapNext _ (s.enterTx.entryCheck.drainTxf s.txf.consumerCount) = _
  rw [s.txf.consumerEmpty_iff.mp he, hentry]
  rfl

/-- `TXSVC` with one byte in TXF that it sees, and nothing in the transmitter, sends it. -/
theorem execTxsvc_sends {b : Byte} (hs : s.txf.sound) (he : s.txf.consumerEmpty = false)
    (hq : s.txf.queue = [b]) (hutx : s.utx = []) (hdepth : 1 ≤ s.cfg.utxDepth) :
    ∃ t, exec .txsvc s = .next t ∧ t.utx = [b] ∧ t.txf.queue = [] := by
  obtain ⟨t, hdrained, hexec⟩ := execTxsvc_drained hs
  have hstream := hdrained.stream (by rw [State.entryCheck_txf]; exact hs.2)
  have hmoved := hdrained.moved (by simp [State.utxFull, hutx]; omega)
    (by rw [State.entryCheck_txf]; exact he)
  simp only [State.entryCheck_utx, State.entryCheck_txf, State.enterTx_utx, State.enterTx_txf,
    hutx, hq, List.nil_append, List.length_nil] at hstream hmoved
  refine ⟨_, hexec, ?_⟩
  show t.utx = [b] ∧ t.txf.queue = []
  cases hu : t.utx with
  | nil => simp [hu] at hmoved
  | cons v l =>
    rw [hu, List.cons_append] at hstream
    obtain ⟨rfl, hrest⟩ := List.cons.inj hstream
    obtain ⟨rfl, hempty⟩ := List.append_eq_nil_iff.mp hrest
    exact ⟨rfl, hempty⟩

/-- `ENQB` that stores honours a request. -/
theorem execEnqb_kicks {c : Byte} (hm : s.manualTrigger = true) (h : exec (.enqb c) s = .next t)
    (hr : t.fgResult = 0x0100) : t.txPending = true := by
  obtain rfl := Host.Outcome.next.inj h
  cases hf : s.txf.producerFull
  · rw [State.enqueueByte_of_not_full c hf, hm]
    exact Bool.or_true _
  · rw [State.enqueueByte_of_full c hf] at hr
    cases hr

theorem State.syncSclkN_eq (n : Nat) (s : State) : ∃ f, State.syncSclkN n s =
    { s with rxf := f, txf := Fifo.syncConsumerN n s.txf } := by
  induction n generalizing s with
  | zero => exact ⟨s.rxf, rfl⟩
  | succ n ih => exact ih s.syncSclk

/-- With a lag the consumer does not see the first byte of a queue at once. -/
theorem Fifo.push_consumerEmpty_of_lag {f : Fifo} (b : Byte) (hlag : f.writeSync ≠ [])
    (he : f.consumerEmpty = true) : (f.push b).1.consumerEmpty = true := by
  obtain ⟨v, l, hl⟩ := List.exists_cons_of_ne_nil hlag
  cases hf : f.producerFull
  · rw [f.push_of_not_full b hf]
    simp only [Fifo.consumerEmpty, Fifo.writeSeen, Fifo.pushP3, Fifo.pushP2, hl,
      List.headD_cons] at he ⊢
    exact he
  · rw [f.push_of_full b hf]
    exact he

/-- The restart scenario with a lag: the kick's `TXSVC` comes too early, or only after the lag. -/
theorem restartScenario_of_lag {n : Nat} (b : Byte) (hs : s.txf.sound)
    (hempty : s.txf.isEmpty = true) (hl : s.txf.lagIs n) (hpos : 0 < n)
    (hroom : s.txf.producerFull = false) (hm : s.manualTrigger = true) (hutx : s.utx = [])
    (hdepth : 1 ≤ s.cfg.utxDepth) :
    ∃ t u v, exec (.enqb b) s = .next t ∧ t.txPending = true ∧ t.txf.queue = [b] ∧
      (exec .txsvc t = .next u ∧ u.manualTrigger = true ∧ u.txPending = false ∧ u.utx = [] ∧
        u.txf.queue = [b] ∧
        ∀ c w, exec (.enqb c) u = .next w → w.fgResult = 0x0100 → w.txPending = true) ∧
      exec .txsvc (State.syncSclkN n t) = .next v ∧ v.utx = [b] ∧ v.txf.queue = [] := by
  have hcount := s.txf.isEmpty_iff.mp hempty
  have hseen : s.txf.consumerEmpty = true := by
    have := hs.2.consumerCount_le_count
    rw [s.txf.consumerEmpty_iff]
    omega
  have hlag : s.txf.writeSync ≠ [] := List.ne_nil_of_length_pos (hl.2 ▸ hpos)
  have hnotFull := hs.2.isFull_eq_false hroom
  obtain ⟨t, ht, htxf, hp, hu, hcfg⟩ : ∃ t, exec (.enqb b) s = .next t ∧
      t.txf = (s.txf.push b).1 ∧ t.txPending = true ∧ t.utx = s.utx ∧ t.cfg = s.cfg := by
    refine ⟨_, rfl, ?_⟩
    rw [State.enqueueByte_of_not_full b hroom, hm]
    exact ⟨rfl, Bool.or_true _, rfl, rfl⟩
  have hq : t.txf.queue = [b] := by
    rw [htxf, s.txf.push_queue b hroom hnotFull,
      List.length_eq_zero_iff.mp ((s.txf.queue_length hs.1).trans hcount)]
    rfl
  have hearly := execTxsvc_of_consumerEmpty (s := t)
    (htxf ▸ Fifo.push_consumerEmpty_of_lag b hlag hseen)
  have hlate : ∃ v, exec .txsvc (State.syncSclkN n t) = .next v ∧ v.utx = [b] ∧
      v.txf.queue = [] := by
    have hne : t.txf.isEmpty = false := by
      rw [htxf, Fifo.isEmpty_eq_false_iff, s.txf.push_count b hroom hnotFull]
      omega
    obtain ⟨f, hsync⟩ := State.syncSclkN_eq n t
    rw [hsync]
    exact execTxsvc_sends (Fifo.syncConsumerN_sound n (htxf ▸ s.txf.push_sound b hs))
      (Fifo.syncConsumerN_consumerEmpty (htxf ▸ s.txf.push_lagIs b hl) hne)
      ((Fifo.syncConsumerN_queue n t.txf).1.trans hq) (hu.trans hutx) (hcfg ▸ hdepth)
  obtain ⟨v, hv⟩ := hlate
  exact ⟨t, _, v, ht, hp, hq, ⟨hearly, rfl, rfl, hu.trans hutx, hq,
    fun c w hw hr => execEnqb_kicks rfl hw hr⟩, hv⟩

/-- Settles O22: an edge by what it keeps, the failing `PUSH` by `Fifo.push_after_pop_of_lag`, the kick
by `restartScenario_of_lag`. -/
theorem synchroniserLag : Obligations.SynchroniserLag :=
  ⟨fun f _ hs hl => ⟨f.consumerKeeps_syncProducer.sound hs, f.consumerKeeps_syncConsumer.sound hs,
      rfl, rfl, Fifo.syncProducerN_readSeen hl, Fifo.syncConsumerN_writeSeen hl⟩,
    fun _ _ _ _ hs hlag hfull hp => Fifo.push_after_pop_of_lag hs hlag hfull hp,
    fun _ _ b => restartScenario_of_lag b⟩

end Sys2Proof.Machine
end

section
/-! PROOF. Every P2 and C2 handles the byte, every P3 and C3 the cursor (O23). -/

namespace Sys2Proof.Machine

variable {s t : State}

theorem Fifo.pushP2_slot (f : Fifo) (tw : Nat) (b : Byte) :
    (f.pushP2 tw b).slot (tw % f.capacity) = some b :=
  Memory.read_write_same _ _ _

theorem Fifo.popC2_of_slot_mod {f : Fifo} {tr : Nat} {b : Byte}
    (h : f.slot (tr % f.capacity) = some b) : f.popC2 tr = .ok b := by
  rw [Fifo.popC2, f.cursor_val, h]

/-- The end of an operation leaves a FIFO that it replaced. -/
theorem State.fifo_finish_retire_setFifo (s : State) (f : FifoSel) (q : Fifo) (i : Instr)
    (rw : Word) : (((s.setFifo f q).retire i rw).finish).fifo f = q := by
  cases f
  · exact State.finish_rxf _
  · exact State.finish_txf _

/-- Settles O23: each micro-step replaces its FIFO by `pushP2`, `pushP3` or `popC3` of it, and C2 takes
the byte that `popC2` reads. -/
theorem dataBeforeCursor : Obligations.DataBeforeCursor := by
  intro s
  refine ⟨fun f b tw tn h => ?_, fun f b tn h => ?_, fun o b tw tn h => ?_, fun o b tn h => ?_,
    fun b tw tn h => ?_, fun tn h => ?_, fun f tr b h hb => ?_, fun f tr b h => ?_,
    fun tr b h hb => ?_, fun tr b h => ?_⟩
  · simp only [fgContinue, h]
    refine ⟨_, rfl, rfl, ?_⟩
    rw [State.fifo_atStep, State.fifo_setFifo_same]
    exact ⟨(s.fifo f).pushP2_slot tw b, rfl, rfl⟩
  · simp only [fgContinue, h]
    refine ⟨_, rfl, State.finish_fg _, ?_⟩
    rw [State.fifo_finish_retire_setFifo]
    exact ⟨rfl, rfl, rfl⟩
  · simp only [fgContinue, h]
    exact ⟨_, rfl, rfl, s.txf.pushP2_slot tw b, rfl, rfl⟩
  · simp only [fgContinue, h]
    exact ⟨_, rfl, rfl, rfl, rfl, rfl⟩
  · simp only [rxcMicro, h]
    exact ⟨_, rfl, rfl, s.rxf.pushP2_slot tw b, rfl, rfl⟩
  · simp only [rxcMicro, h]
    exact ⟨_, rfl, rfl, rfl, rfl, rfl⟩
  · simp only [fgContinue, h, Fifo.popC2_of_slot_mod hb]
    rfl
  · simp only [fgContinue, h]
    refine ⟨_, rfl, State.finish_fg _, ?_⟩
    rw [State.fifo_finish_retire_setFifo]
    exact ⟨rfl, rfl, rfl, (State.finish_fgResult _).trans (popResult_some b)⟩
  · simp only [txcMicro, h, Fifo.popC2_of_slot_mod hb]
  · simp only [txcMicro, h]
    exact ⟨_, rfl, rfl, rfl, rfl, rfl⟩

end Sys2Proof.Machine
end

section
/-! PROOF. Decoding and encoding of operation words: the two directions, the illegal words and the opcode
map (O1 to O5). A split of `decode` numbers its rows in the order of `op`: `h_1` is format FD, `h_2` to
`h_4` FS, `h_5` D, `h_10` T, `h_13` the reserved values and the others Z. -/

namespace Sys2Proof

variable {n sel : Nat} {imm : Byte} {i j : Instr} {w : Word}

/-! ## What each format accepts and refuses (`30_encoding.md` rules R91, R92) -/

theorem FifoSel.number_lt (f : FifoSel) : f.number < 16 := by cases f <;> decide

@[simp] theorem fifoOperand_number (f : FifoSel) : fifoOperand f.number = some f := by
  cases f <;> rfl

theorem FifoSel.exists_number_iff : (∃ f : FifoSel, f.number = sel) ↔ sel < 2 := by
  refine ⟨fun ⟨f, hf⟩ => hf ▸ by cases f <;> decide, fun h => ?_⟩
  obtain rfl | rfl : sel = 0 ∨ sel = 1 := by omega
  · exact ⟨.rxf, rfl⟩
  · exact ⟨.txf, rfl⟩

theorem fifoOperand_eq_some {f : FifoSel} : fifoOperand sel = some f ↔ f.number = sel := by
  refine ⟨fun h => ?_, fun h => h ▸ fifoOperand_number f⟩
  unfold fifoOperand at h
  split at h <;> cases h <;> rfl

theorem formatFD_eq_ok {make : FifoSel → Byte → Instr} :
    formatFD make sel imm = .ok i ↔ ∃ f : FifoSel, f.number = sel ∧ make f imm = i := by
  simp only [formatFD, ← fifoOperand_eq_some]
  cases fifoOperand sel <;> simp

theorem formatFS_eq_ok {make : FifoSel → Instr} :
    formatFS make sel imm = .ok i ↔ ∃ f : FifoSel, f.number = sel ∧ imm = 0 ∧ make f = i := by
  simp only [formatFS, ← fifoOperand_eq_some]
  cases fifoOperand sel with
  | none => simp
  | some f => split_ifs <;> simp_all

theorem formatD_eq_ok {make : Byte → Instr} :
    formatD make sel imm = .ok i ↔ sel = 0 ∧ make imm = i := by
  unfold formatD
  split_ifs <;> simp_all

theorem formatT_eq_ok {make : Nat → Instr} :
    formatT n make sel imm = .ok i ↔ sel < n ∧ imm = 0 ∧ make sel = i := by
  unfold formatT
  split_ifs <;> simp_all

theorem formatZ_eq_ok : formatZ j sel imm = .ok i ↔ sel = 0 ∧ imm = 0 ∧ j = i := by
  unfold formatZ
  split_ifs <;> simp_all

/-- A word is refused exactly when it is the word of no operation. -/
theorem decode_error_iff : (∃ r, decode n w = .error r) ↔ ¬ ∃ i, decode n w = .ok i := by
  cases decode n w <;> simp

/-! ## Both directions (`30_encoding.md` rules R93, R97, R99) -/

theorem singleWord_of_fields {op : Nat} (hop : opField w = op) (hsel : sel = selField w)
    (himm : immField w = imm) : [operationWord op sel imm] = [w] := by
  rw [← hop, hsel, ← himm, operationWord_fields]

theorem decode_encode (hword : i.hasWord = true) (hwf : i.wellFormed n = true) :
    ∃ w, encode i = [w] ∧ decode n w = .ok i := by
  cases i with
  | push f | pop f | isempty f | isfull f =>
    refine ⟨_, rfl, ?_⟩
    simp [decode, opField_operationWord, selField_operationWord, f.number_lt, formatFD, formatFS]
  | disp t =>
    obtain ⟨hn, ht⟩ : t < n ∧ t < 16 := by simpa [Instr.wellFormed, taskIndexOk] using hwf
    refine ⟨_, rfl, ?_⟩
    simp [decode, opField_operationWord, selField_operationWord, ht, formatT, hn]
  | enqb | kick | rxsvc | txsvc | inc | work | waitp =>
    refine ⟨_, rfl, ?_⟩
    simp [decode, opField_operationWord, selField_operationWord, formatD, formatZ]
  | enq => exact absurd hword Bool.false_ne_true

theorem encode_decode (h : decode n w = .ok i) :
    encode i = [w] ∧ i.wellFormed n = true ∧ i.hasWord = true := by
  unfold decode at h
  split at h
  case h_1 hop =>
    obtain ⟨f, hsel, rfl⟩ := formatFD_eq_ok.mp h
    exact ⟨singleWord_of_fields hop hsel rfl, rfl, rfl⟩
  case h_2 hop | h_3 hop | h_4 hop =>
    obtain ⟨f, hsel, himm, rfl⟩ := formatFS_eq_ok.mp h
    exact ⟨singleWord_of_fields hop hsel himm, rfl, rfl⟩
  case h_5 hop =>
    obtain ⟨hsel, rfl⟩ := formatD_eq_ok.mp h
    exact ⟨singleWord_of_fields hop hsel.symm rfl, rfl, rfl⟩
  case h_6 hop | h_7 hop | h_8 hop | h_9 hop | h_11 hop | h_12 hop =>
    obtain ⟨hsel, himm, rfl⟩ := formatZ_eq_ok.mp h
    exact ⟨singleWord_of_fields hop hsel.symm himm, rfl, rfl⟩
  case h_10 hop =>
    obtain ⟨hn, himm, rfl⟩ := formatT_eq_ok.mp h
    exact ⟨singleWord_of_fields hop rfl himm,
      by simp [Instr.wellFormed, taskIndexOk, hn, selField_lt], rfl⟩
  case h_13 => cases h

theorem decode_enqbWord (n : Nat) (b : Byte) : decode n (operationWord 0x5 0 b) = .ok (.enqb b) := by
  obtain ⟨w, hw, hd⟩ := decode_encode (n := n) (i := .enqb b) rfl rfl
  obtain rfl := List.singleton_inj.mp hw
  exact hd

/-- Settles O2: one word by `decode_encode`, and each word of a string is an `ENQB` word. -/
theorem decodeOfEncode : Obligations.DecodeOfEncode := by
  refine ⟨fun n i => decode_encode, fun n str => ?_⟩
  rw [encode, List.map_map]
  exact List.map_congr_left fun b _ => decode_enqbWord n b

/-- Settles O3: the word is that of its three fields, whichever row `op` selects. -/
theorem encodeOfDecode : Obligations.EncodeOfDecode := fun _ _ _ => encode_decode

/-! ## Words written out, and the illegal words (`30_encoding.md` rules R92, R95) -/

/-- Settles O1: each word evaluated. -/
theorem opcodeMapWordsDecode : Obligations.OpcodeMapWordsDecode := by
  unfold Obligations.OpcodeMapWordsDecode
  decide

/-- Settles O5: `op` selects the row, and the row's format accepts what its `_eq_ok` lemma says. -/
theorem illegalWordsExactly : Obligations.IllegalWordsExactly := by
  intro n w
  rw [decode_error_iff, not_iff_comm]
  unfold decode
  split
  case h_1 hop => simp [hop, formatFD_eq_ok, FifoSel.exists_number_iff]
  case h_2 hop | h_3 hop | h_4 hop => simp [hop, formatFS_eq_ok, FifoSel.exists_number_iff]
  case h_5 hop => simp [hop, formatD_eq_ok]
  case h_6 hop | h_7 hop | h_8 hop | h_9 hop | h_11 hop | h_12 hop => simp [hop, formatZ_eq_ok]
  case h_10 hop => simp [hop, formatT_eq_ok]
  case h_13 =>
    have hreserved : opField w ∈ [0x0, 0x7, 0xE, 0xF] := by
      have := opField_lt w
      simp only [imp_false, List.mem_cons, List.not_mem_nil, or_false] at *
      omega
    simp [hreserved]

/-! ## The opcode map (`30_encoding.md` rule R97) -/

theorem opField_and (w m : Word) : opField (w &&& m) = opField w &&& opField m := by
  simp only [opField, BitVec.extractLsb'_and, BitVec.toNat_and]

theorem selField_and (w m : Word) : selField (w &&& m) = selField w &&& selField m := by
  simp only [selField, BitVec.extractLsb'_and, BitVec.toNat_and]

theorem immField_and (w m : Word) : immField (w &&& m) = immField w &&& immField m :=
  BitVec.extractLsb'_and

theorem eq_iff_fields (v w : Word) :
    v = w ↔ opField v = opField w ∧ selField v = selField w ∧ immField v = immField w := by
  refine ⟨fun h => h ▸ ⟨rfl, rfl, rfl⟩, fun ⟨hop, hsel, himm⟩ => ?_⟩
  rw [← operationWord_fields v, hop, hsel, himm, operationWord_fields]

theorem and_15_of_lt {a : Nat} (h : a < 16) : a &&& 15 = a :=
  (Nat.and_two_pow_sub_one_eq_mod a 4).trans (Nat.mod_eq_of_lt h)

theorem and_14_eq_zero_of_lt {a : Nat} (h : a < 16) : a &&& 14 = 0 ↔ a < 2 := by
  interval_cases a <;> decide

theorem and_0xFF (b : Byte) : b &&& 0xFF = b := BitVec.and_allOnes

/-- The row that fixes `op` and asks for zeros of `sel` and `imm8` under a mask of each. -/
def OpcodeRow.ofFields (name : String) (op selMask : Nat) (immMask : Byte) : OpcodeRow :=
  ⟨name, operationWord 15 selMask immMask, operationWord op 0 0⟩

theorem OpcodeRow.ofFields_matches (name : String) {op selMask : Nat} (immMask : Byte)
    (hop : op < 16) (hsel : selMask < 16) :
    (ofFields name op selMask immMask).matches w = true ↔
      opField w = op ∧ selField w &&& selMask = 0 ∧ immField w &&& immMask = 0 := by
  rw [OpcodeRow.matches, decide_eq_true_eq, eq_iff_fields, opField_and, selField_and, immField_and]
  simp [ofFields, opField_operationWord, selField_operationWord, hop, hsel,
    and_15_of_lt (opField_lt w)]

/-- The opcode map field by field: 14 leaves `sel` the low bit, 0 leaves `imm8` free. -/
theorem opcodeMap_eq : opcodeMap =
    [.ofFields "PUSH" 0x1 14 0, .ofFields "POP" 0x2 14 0xFF, .ofFields "ISEMPTY" 0x3 14 0xFF,
     .ofFields "ISFULL" 0x4 14 0xFF, .ofFields "ENQB" 0x5 15 0, .ofFields "KICK" 0x6 15 0xFF,
     .ofFields "RXSVC" 0x8 15 0xFF, .ofFields "TXSVC" 0x9 15 0xFF, .ofFields "INC" 0xA 15 0xFF,
     .ofFields "DISP" 0xB 14 0xFF, .ofFields "WORK" 0xC 15 0xFF, .ofFields "WAITP" 0xD 15 0xFF] :=
  rfl

theorem decode_mnemonic_iff_row (w : Word) (m : String) :
    (∃ i, decode 2 w = .ok i ∧ i.mnemonic = m) ↔
      ∃ r ∈ opcodeMap, r.matches w = true ∧ r.mnemonic = m := by
  simp only [opcodeMap_eq, List.mem_cons, List.not_mem_nil, or_false, exists_eq_or_imp,
    exists_eq_left, OpcodeRow.ofFields_matches, Nat.reduceLT, and_15_of_lt (selField_lt w),
    and_14_eq_zero_of_lt (selField_lt w), and_0xFF]
  unfold decode
  split
  case h_1 hop =>
    simp [hop, formatFD_eq_ok, FifoSel.exists_number_iff, OpcodeRow.ofFields, Instr.mnemonic]
  case h_2 hop | h_3 hop | h_4 hop =>
    simp [hop, formatFS_eq_ok, FifoSel.exists_number_iff, OpcodeRow.ofFields, Instr.mnemonic]
  case h_5 hop => simp [hop, formatD_eq_ok, OpcodeRow.ofFields, Instr.mnemonic]
  case h_6 hop | h_7 hop | h_8 hop | h_9 hop | h_11 hop | h_12 hop =>
    simp [hop, formatZ_eq_ok, OpcodeRow.ofFields, Instr.mnemonic]
  case h_10 hop => simp [hop, formatT_eq_ok, OpcodeRow.ofFields, Instr.mnemonic]
  case h_13 => simp_all

theorem OpcodeRow.opField_of_matches {r : OpcodeRow} (hr : r ∈ opcodeMap)
    (h : r.matches w = true) : opField w = opField r.pattern := by
  have hmask : ∀ r ∈ opcodeMap, opField r.mask = 15 := by decide
  rw [← of_decide_eq_true h, opField_and, hmask r hr, and_15_of_lt (opField_lt w)]

/-- No word meets two rows, because no two rows have the same `op`. -/
theorem opcodeMap_disjoint :
    opcodeMap.Pairwise (fun r q => ∀ w : Word, ¬ (r.matches w = true ∧ q.matches w = true)) := by
  have hop : opcodeMap.Pairwise (fun r q => opField r.pattern ≠ opField q.pattern) := by decide
  refine hop.imp_of_mem fun hr hq hne w ⟨hrw, hqw⟩ => hne ?_
  rw [← OpcodeRow.opField_of_matches hr hrw, ← OpcodeRow.opField_of_matches hq hqw]

/-- Settles O4: `op` selects the row whose mask and match the format's checks amount to. -/
theorem decoderAgreesWithOpcodeMap : Obligations.DecoderAgreesWithOpcodeMap :=
  ⟨decode_mnemonic_iff_row, opcodeMap_disjoint⟩

end Sys2Proof
end

section
/-! PROOF. Who may issue what, what a step runs, and the enqueue of a string (O6, O7, O29). -/

namespace Sys2Proof.Machine

variable {s : State} {ow : Word} {i : Instr}

/-! ## Who may issue what (`30_encoding.md` rule R94) -/

theorem busAllows_foreground {src : FgSource} (hword : i.hasWord = true) :
    busAllows src .foreground i = true ↔ i ≠ .rxsvc ∧ i ≠ .txsvc ∧
      (src ≠ .standalone → (∀ b, i ≠ .push .rxf b) ∧ i ≠ .pop .txf) := by
  cases i with
  | push f | pop f => cases f <;> simp [busAllows]
  | isempty | isfull | enqb | kick | rxsvc | txsvc | inc | disp | work | waitp => simp [busAllows]
  | enq => exact absurd hword Bool.false_ne_true

theorem busAllows_service {src : FgSource} :
    busAllows src .service i = true ↔ i = .rxsvc ∨ i = .txsvc := by
  cases i <;> simp [busAllows]

/-- Settles O6: a decoded operation has a word, and the bus check is `busAllows`. -/
theorem busRights : Obligations.BusRights := by
  intro n src w i hd
  obtain ⟨-, -, hword⟩ := encode_decode hd
  rw [decodeOn_eq_ok, decodeOn_eq_ok, busAllows_foreground hword, busAllows_service]
  exact ⟨and_iff_right hd, and_iff_right hd⟩

/-! ## A step runs the decoded operation (`60_exceptions.md` rule R211) -/

theorem busAllows_of_sequenced {src : FgSource} (h : Instr.sequenced i) :
    busAllows src .foreground i = true := by
  cases i with
  | inc | disp | work | waitp => rfl
  | push | pop | isempty | isfull | enqb | kick | rxsvc | txsvc | enq => exact h.elim

theorem fgOpTurn_of_ok {t : State} (hfg : s.fg = .idle) (hn : s.nextWord = some ow)
    (ht : s.takeWord = t) (hd : decodeOn s.cfg.ntask s.source .foreground ow = .ok i)
    (hp : i = .waitp → s.periodElapsed = true) :
    fgOpTurn s = mapNext State.finish (exec i t) := by
  rw [fgOpTurn_of_idle hfg, fgIssue_of_ok hn hd (holds_eq_false_of hp), ht, runWhole]

/-- Settles O7: FG's turn by `fgOpTurn_of_ok`, a controller's by `rxcTurn_eq` and `txcTurn_eq`. -/
theorem stepRunsDecodedOperation : Obligations.StepRunsDecodedOperation := by
  intro s rest
  refine ⟨fun ow words i hag hfg hs hdrv hd hp => ?_, fun ow i hag hfg hs hw hd hp => ?_,
    fun hag hpend hidle => ?_, fun hag hpend hidle => ?_⟩
  · rw [step_of_agenda hag]
    exact fgOpTurn_of_ok hfg (nextWord_of_driver hs hdrv) (takeWord_of_driver hs hdrv) hd hp
  · have hallow := busAllows_of_sequenced (src := s.source) (Instr.sequenced_of_sequencerWord hw hd)
    rw [step_of_agenda hag]
    exact fgOpTurn_of_ok hfg ((nextWord_of_sequencer hs).trans hw) (takeWord_of_sequencer hs)
      (decodeOn_eq_ok.mpr ⟨hd, hallow⟩) hp
  · rw [step_of_agenda hag, takeTurn, rxcTurn_eq, if_pos (by simp [State.rxEnabled, hpend, hidle])]
  · rw [step_of_agenda hag, takeTurn, txcTurn_eq, if_pos (by simp [State.txEnabled, hpend, hidle])]

/-! ## The enqueue of a string (`42_tx_controller.md` rule R153) -/

/-- Settles O29: what `State.enqueueString_spec` says of each field. -/
theorem enqStoresWhatFits : Obligations.EnqStoresWhatFits := by
  intro s str
  obtain ⟨hframe, hwords⟩ := State.enqueueString_spec str s
  have htxf : (s.enqueueString str).txf = (Fifo.pushAll str s.txf).1 := congrArg State.txf hframe
  refine ⟨s.enqueueString str, rfl, ?_, ?_, fun hs => ?_, ?_, congrArg State.manualTrigger hframe,
    congrArg State.txPending hframe, hwords⟩
  · exact (congrArg State.enqCnt hframe).trans (Nat.zero_add _)
  · refine (congrArg State.enqRem hframe).trans ?_
    simp
  · rw [htxf]
    exact ⟨Fifo.pushAll_sound str s.txf hs, Fifo.pushAll_queue str s.txf hs⟩
  · rw [htxf]
    exact Fifo.pushAll_readIndex str s.txf

end Sys2Proof.Machine
end

section
/-! PROOF. One whole `PUSH`, `POP` or predicate: what it answers and its frame (O14, O15, O16,
O40). -/

namespace Sys2Proof.Machine

/-! ## The answers of `PUSH` and `POP` -/

theorem exec_push (f : FifoSel) (b : Byte) (s : State) :
    exec (.push f b) s = .next ((s.setFifo f ((s.fifo f).push b).1).retire (.push f b)
      (resultWord false ((s.fifo f).push b).2 0)) := rfl

theorem exec_pop_of_ok {s : State} {f : FifoSel} {b : Option Byte} {q : Fifo}
    (h : (s.fifo f).pop = .ok (b, q)) :
    exec (.pop f) s = .next ((s.setFifo f q).retire (.pop f) (popResult b)) := by
  simp only [exec, execPop, h]

theorem exec_pop_of_error {s : State} {f : FifoSel} {e : Fault} (h : (s.fifo f).pop = .error e) :
    exec (.pop f) s = .fault e := by
  simp only [exec, execPop, h]

@[simp] theorem State.fifo_retire (s : State) (i : Instr) (rw : Word) (f : FifoSel) :
    (s.retire i rw).fifo f = s.fifo f := by
  cases f <;> rfl

@[simp] theorem State.setFifo_fifo_self (s : State) (f : FifoSel) : s.setFifo f (s.fifo f) = s := by
  cases f <;> rfl

/-- An operation that replaces a FIFO writes nothing else but its result and the trace. -/
theorem State.retire_setFifo_frame {s t : State} {f : FifoSel} {q : Fifo} {i : Instr} {rw : Word}
    (h : t = (s.setFifo f q).retire i rw) :
    t = { s.setFifo f (t.fifo f) with fgResult := t.fgResult, trace := t.trace } := by
  rw [h, State.fifo_retire, State.fifo_setFifo_same]
  rfl

theorem Fifo.pop_of_unwritten {f : Fifo} (he : f.consumerEmpty = false)
    (hb : f.slot f.readIndex.val = none) : f.pop = .error .unwrittenSlot := by
  simp only [Fifo.pop, f.popC1_of_not_empty he, f.popC2_of_unwritten hb]

/-- A full FIFO is full to its producer, whose view is never ahead (`20_memory.md` rule R70). -/
theorem Fifo.viewsOk.producerFull {f : Fifo} (h : f.viewsOk) (hf : f.isFull = true) :
    f.producerFull = true := by
  cases hp : f.producerFull
  · exact (h.isFull_eq_false hp).symm.trans hf
  · rfl

/-- An empty FIFO is empty to its consumer. -/
theorem Fifo.viewsOk.consumerEmpty {f : Fifo} (h : f.viewsOk) (he : f.isEmpty = true) :
    f.consumerEmpty = true := by
  cases hc : f.consumerEmpty
  · exact (h.isEmpty_eq_false hc).symm.trans he
  · rfl

/-! ## Success and failure (`40_fifo.md` rules R120, R121, R125) -/

/-- Settles O14: the FIFO after it is `Fifo.push`, of which each field has its lemma. -/
theorem pushStoresByte : Obligations.PushStoresByte := by
  intro s f b hf
  refine ⟨_, exec_push f b s, ?_⟩
  rw [State.fifo_retire, State.fifo_setFifo_same, State.retire_fgResult, resultWord_flag,
    Fifo.push_stored, hf, Fifo.push_writeIndex _ b hf, Fifo.succ_eq_mod _ (Fin.isLt _)]
  exact ⟨(s.fifo f).push_slot_write b hf, fun _ => (s.fifo f).push_slot_other b, rfl,
    (s.fifo f).push_readIndex b, (s.fifo f).push_capacity b, rfl⟩

/-- Settles O15: the side that sees the FIFO full or empty leaves it as it is. -/
theorem idempotentFailure : Obligations.IdempotentFailure := by
  refine fun s f => ⟨fun b h => ?_, fun h => ?_⟩
  · have hf : (s.fifo f).producerFull = true := h.elim id fun ⟨hf, hv⟩ => hv.producerFull hf
    rw [exec_push, (s.fifo f).push_of_full b hf, State.setFifo_fifo_self, resultWord_flag]
    rfl
  · have he : (s.fifo f).consumerEmpty = true := h.elim id fun ⟨he, hv⟩ => hv.consumerEmpty he
    rw [exec_pop_of_ok ((s.fifo f).pop_of_empty he), State.setFifo_fifo_self]
    rfl

/-- Settles O16: C1 passes, and the slot that C2 reads decides. -/
theorem popReturnsOldestByte : Obligations.PopReturnsOldestByte := by
  refine fun s f he => ⟨fun b hb => ?_, fun hb => exec_pop_of_error (Fifo.pop_of_unwritten he hb)⟩
  refine ⟨_, exec_pop_of_ok ((s.fifo f).pop_of_slot he hb), ?_⟩
  rw [State.fifo_retire, State.fifo_setFifo_same, State.retire_fgResult, popResult_some,
    Fifo.popC3_readIndex, Fifo.succ_eq_mod _ (Fin.isLt _)]
  exact ⟨rfl, rfl, rfl, rfl, rfl⟩

/-! ## Frame (`40_fifo.md` rules R120 to R123, `10_state.md` rule R25) -/

/-- A `PUSH` writes the write cursor's slot, and none when its producer sees the FIFO full. -/
theorem Fifo.push_slot_frame (f : Fifo) (b : Byte) {i : Nat}
    (h : i ≠ f.writeIndex.val ∨ f.producerFull = true) : (f.push b).1.slot i = f.slot i := by
  rcases h with hi | hf
  · exact f.push_slot_other b hi
  · rw [f.push_of_full b hf]

/-- What a `POP` leaves of its FIFO: all but the read cursor. -/
theorem Fifo.pop_frame {f g : Fifo} {b : Option Byte} (h : f.pop = .ok (b, g)) :
    g.capacity = f.capacity ∧ g.writeIndex.val = f.writeIndex.val ∧ g.views = f.views ∧
      ∀ i, g.slot i = f.slot i := by
  rcases f.pop_cases with ⟨-, hp⟩ | ⟨c, -, -, hp⟩ | ⟨-, -, hp⟩
  · cases hp.symm.trans h
    exact ⟨rfl, rfl, rfl, fun _ => rfl⟩
  · cases hp.symm.trans h
    exact ⟨rfl, rfl, rfl, fun _ => rfl⟩
  · cases hp.symm.trans h

/-- Settles O40: `PUSH` and `POP` replace their FIFO and retire, the predicates only retire. -/
theorem fifoFamilyFrame : Obligations.FifoFamilyFrame := by
  refine fun s t f => ⟨fun b h => ?_, fun h => ?_, fun h => ?_, fun h => ?_⟩
  · rw [exec_push] at h
    have ht := (Host.Outcome.next.inj h).symm
    refine ⟨State.retire_setFifo_frame ht, ?_⟩
    rw [ht, State.fifo_retire, State.fifo_setFifo_same]
    refine ⟨(s.fifo f).push_capacity b, (s.fifo f).push_readIndex b, (s.fifo f).push_views b,
      fun hf => ?_, fun _ => (s.fifo f).push_slot_frame b⟩
    rw [(s.fifo f).push_of_full b hf]
  · cases hp : (s.fifo f).pop with
    | error e => cases (exec_pop_of_error hp).symm.trans h
    | ok r =>
      have ht := Host.Outcome.next.inj (h.symm.trans (exec_pop_of_ok hp))
      refine ⟨State.retire_setFifo_frame ht, ?_⟩
      rw [ht, State.fifo_retire, State.fifo_setFifo_same]
      exact Fifo.pop_frame hp
  · obtain rfl := Host.Outcome.next.inj h
    rfl
  · obtain rfl := Host.Outcome.next.inj h
    rfl

end Sys2Proof.Machine
end

section
/-! PROOF. The reserved slot, a `POP` inside a `PUSH`, and what a predicate's answer is worth (O19,
O20, O21). -/

namespace Sys2Proof.Machine

/-! ## The head of the queue -/

/-- A byte the consumer sees stands in the read cursor's slot, and it is the head of the queue. -/
theorem Fifo.slot_read_eq_head {f : Fifo} (hs : f.sound) (he : f.consumerEmpty = false) :
    ∃ c, f.slot f.readIndex.val = some c ∧ f.queue = c :: (f.popC3 f.readIndex.val).queue := by
  have hne := hs.2.isEmpty_eq_false he
  obtain ⟨c, hc⟩ := f.slot_read hs.1 hne
  exact ⟨c, hc, f.popC3_queue hne hc⟩

/-- A `POP` of a queue whose consumer sees a byte takes the head. -/
theorem Fifo.pop_of_queue {f : Fifo} {c : Byte} {l : List Byte} (hs : f.sound)
    (he : f.consumerEmpty = false) (hq : f.queue = c :: l) :
    f.pop = .ok (some c, f.popC3 f.readIndex.val) ∧ (f.popC3 f.readIndex.val).queue = l := by
  obtain ⟨d, hd, hqueue⟩ := Fifo.slot_read_eq_head hs he
  obtain ⟨rfl, rfl⟩ := List.cons.inj (hq.symm.trans hqueue)
  exact ⟨f.pop_of_slot he hd, rfl⟩

/-- After what the producer's side does the consumer's next `POP` takes the head it saw before. -/
theorem Fifo.ProducerKeeps.pop_head {f g : Fifo} (h : f.ProducerKeeps g) (hs : f.sound)
    (he : f.consumerEmpty = false) :
    ∃ c q, g.pop = .ok (some c, q) ∧ f.queue.head? = some c := by
  obtain ⟨c, hc, hqueue⟩ := Fifo.slot_read_eq_head hs he
  have hslot : g.slot g.readIndex.val = some c := by rw [h.readIndex, h.slot hs he, hc]
  exact ⟨c, _, g.pop_of_slot (h.consumerEmpty hs he) hslot, by rw [hqueue]; rfl⟩

/-- Settles O21: a producer keeps the consumer's "not empty" and the consumer the producer's "not
full", and a clock edge only brings a side's view closer. -/
theorem predicateAnswersAreStable : Obligations.PredicateAnswersAreStable := by
  refine fun f b hs => ⟨fun hf => ?_, fun he => ?_⟩
  · have stores : ∀ {g : Fifo}, f.ConsumerKeeps g →
        g.producerFull = false ∧ (g.push b).2 = true := fun {g} h => by
      have hg := h.producerFull hs hf
      exact ⟨hg, by rw [g.push_stored, hg]; rfl⟩
    exact ⟨fun _ _ hp => stores (Fifo.consumerKeeps_pop hp), stores f.consumerKeeps_syncProducer⟩
  · exact ⟨(f.producerKeeps_push b).pop_head hs he,
      f.producerKeeps_syncConsumer.pop_head hs he⟩

/-! ## A `POP` inside a `PUSH` (`40_fifo.md` rule R120) -/

/-- P2 and P3 with the producer's snapshot append its byte. -/
theorem Fifo.pushP3_pushP2_queue {f : Fifo} {tw tn : Nat} (b : Byte) (hs : f.sound)
    (hp : f.pushing tw tn) : ((f.pushP2 tw b).pushP3 tn).queue = f.queue ++ [b] := by
  obtain ⟨rfl, rfl, hf⟩ := hp
  have hqueue := f.push_queue b hf (hs.2.isFull_eq_false hf)
  rwa [f.push_of_not_full b hf] at hqueue

/-- P2 and C3 write different fields, so they commute. -/
theorem Fifo.popC3_pushP2 (f : Fifo) (tr tw : Nat) (b : Byte) :
    (f.pushP2 tw b).popC3 tr = (f.popC3 tr).pushP2 tw b := rfl

/-- Settles O20: the pop takes the head before P2 and after it, and the snapshot of P1 outlives the
pop. -/
theorem popInsidePushDisturbsNothing : Obligations.PopInsidePushDisturbsNothing := by
  intro f b c l tw tn hs hq he hp1
  have hp := Fifo.pushing_of_pushP1 hp1
  have keeps := f.consumerKeeps_popC3 he
  obtain ⟨hpop, hrest⟩ := Fifo.pop_of_queue hs he hq
  have happend : (((f.popC3 f.readIndex.val).pushP2 tw b).pushP3 tn).queue = l ++ [b] := by
    rw [Fifo.pushP3_pushP2_queue b (keeps.sound hs) (keeps.pushing hs hp), hrest]
  refine ⟨⟨hpop, happend⟩, ?_, by rw [Fifo.popC3_pushP2, happend]⟩
  obtain ⟨rfl, -, -⟩ := hp
  have hs' := (f.producerKeeps_pushP2 b).sound hs
  exact (Fifo.pop_of_queue hs' he ((f.pushP2_queue b).trans hq)).1

/-! ## The reserved slot (`40_fifo.md` rule R124) -/

theorem Fifo.written_of_isEmpty {f : Fifo} (h : f.isEmpty = true) : f.written := fun k hk => by
  rw [f.isEmpty_iff.mp h] at hk
  exact absurd hk (Nat.not_lt_zero k)

theorem Fifo.viewsCurrent.readSeen {f : Fifo} (h : f.viewsCurrent) : f.readSeen = f.readIndex := by
  unfold Fifo.readSeen
  cases hl : f.readSync with
  | nil => rfl
  | cons v l => exact h.1 v (by simp [hl])

/-- An empty FIFO with current views has room for all but one of its slots. -/
theorem Fifo.room_of_isEmpty {f : Fifo} (he : f.isEmpty = true) (hv : f.viewsCurrent) :
    f.room = f.capacity - 1 := by
  have hcount : f.producerCount = f.count := by rw [Fifo.producerCount, hv.readSeen]; rfl
  rw [Fifo.room, hcount, f.isEmpty_iff.mp he, Nat.sub_zero]

theorem Fifo.syncProducerN_writeIndex (n : Nat) (f : Fifo) :
    (Fifo.syncProducerN n f).writeIndex.val = f.writeIndex.val ∧
      (Fifo.syncProducerN n f).capacity = f.capacity := by
  induction n generalizing f with
  | zero => exact ⟨rfl, rfl⟩
  | succ n ih => exact ih f.syncProducer

theorem Fifo.syncConsumerN_lagIs {f : Fifo} {m : Nat} (n : Nat) (hl : f.lagIs m) :
    (Fifo.syncConsumerN n f).lagIs m := by
  induction n generalizing f with
  | zero => exact hl
  | succ n ih => exact ih (f.syncConsumer_lagIs hl)

/-- With the view current the producer sees room in a FIFO that is not full. -/
theorem Fifo.syncProducerN_producerFull {f : Fifo} {n : Nat} (hl : f.lagIs n)
    (hf : f.isFull = false) : (Fifo.syncProducerN n f).producerFull = false := by
  obtain ⟨hwrite, hcap⟩ := Fifo.syncProducerN_writeIndex n f
  rw [Fifo.producerFull, Fifo.syncProducerN_readSeen hl, hwrite, hcap]
  exact hf

/-- A `POP` makes room. -/
theorem Fifo.popC3_isFull {f : Fifo} (he : f.isEmpty = false) :
    (f.popC3 f.readIndex.val).isFull = false := by
  have hcount := f.popC3_count he
  have hlt := f.count_lt
  rw [Fifo.isFull_eq_false_iff]
  show _ < f.capacity
  omega

/-- What fills an empty FIFO with current views: as many bytes as it has slots, less one. -/
theorem Fifo.pushAll_fills {f : Fifo} {l : List Byte} (he : f.isEmpty = true)
    (hv : f.viewsCurrent) (hl : l.length = f.capacity - 1) :
    (Fifo.pushAll l f).2 = f.capacity - 1 ∧ (Fifo.pushAll l f).1.sound ∧
      (Fifo.pushAll l f).1.queue = l ∧ (Fifo.pushAll l f).1.isFull = true := by
  have hs : f.sound := ⟨Fifo.written_of_isEmpty he, hv.viewsOk⟩
  have hroom := Fifo.room_of_isEmpty he hv
  have hsound := Fifo.pushAll_sound l f hs
  have hempty : f.queue = [] :=
    List.length_eq_zero_iff.mp ((f.queue_length hs.1).trans (f.isEmpty_iff.mp he))
  have hqueue : (Fifo.pushAll l f).1.queue = l := by
    rw [Fifo.pushAll_queue l f hs, hempty, hroom, ← hl, List.take_length, List.nil_append]
  refine ⟨by rw [Fifo.pushAll_stored, hroom, hl, min_self], hsound, hqueue, ?_⟩
  have hcap := f.capacity_pos
  rw [Fifo.isFull_iff, ← Fifo.queue_length _ hsound.1, hqueue, Fifo.pushAll_capacity, hl]
  omega

/-- Settles O19: the bytes that fill it by `Fifo.pushAll_fills`; the lag over, each side sees the
other's cursor as it is, so the pop takes the head and the push after it finds room. -/
theorem reservedSlot : Obligations.ReservedSlot := by
  intro f n l hcap he hlag hv hl g
  obtain ⟨hstored, hs, hqueue, hfull⟩ := Fifo.pushAll_fills he hv hl
  obtain ⟨b, rest, rfl⟩ : ∃ b rest, l = b :: rest :=
    List.exists_cons_of_ne_nil (List.ne_nil_of_length_pos (by omega))
  have hne : g.isEmpty = false := by
    rw [g.isEmpty_eq_false_iff, ← g.queue_length hs.1, hqueue]
    exact Nat.succ_pos _
  have hseen := Fifo.syncConsumerN_consumerEmpty (Fifo.pushAll_lagIs _ f hlag) hne
  have hsound := Fifo.syncConsumerN_sound n hs
  obtain ⟨hpop, -⟩ :=
    Fifo.pop_of_queue hsound hseen ((Fifo.syncConsumerN_queue n g).1.trans hqueue)
  refine ⟨hstored, hqueue, hfull, fun c => g.push_of_full c (hs.2.producerFull hfull), b, _, hpop,
    rfl, fun c => ?_⟩
  have hroom := Fifo.popC3_isFull (hsound.2.isEmpty_eq_false hseen)
  have hlag' := (Fifo.consumerKeeps_popC3 _ hseen).lagIs n
    (Fifo.syncConsumerN_lagIs n (Fifo.pushAll_lagIs _ f hlag))
  rw [Fifo.push_stored, Fifo.syncProducerN_producerFull hlag' hroom]
  rfl

end Sys2Proof.Machine
end

section
/-! PROOF. What a whole `RXSVC` and a whole `TXSVC` do, and their frames (O24, O42). -/

namespace Sys2Proof.Machine

/-! ## The activations written out (`41_rx_controller.md` rule R140, `42_tx_controller.md` rule
R150) -/

/-- A whole `RXSVC` answers: the bytes that fit are pushed, the others dropped. -/
theorem exec_rxsvc (s : State) :
    exec .rxsvc s = .next ({ s with
      rxPending := false
      rxf := (Fifo.pushAll s.urx s.rxf).1
      urx := []
      rxDropped := s.rxDropped ++ s.urx.drop s.rxf.room }.retireService .rxsvc 0) := by
  show Host.Outcome.next ((State.drainUrx s.urx s.enterRx).retireService .rxsvc 0) = _
  rw [State.drainUrx_eq]
  rfl

/-- T1 and T2: the pending flag is cleared, and a TXF that TXC sees empty arms `manual_trigger`. -/
theorem State.entryCheck_enterTx (s : State) :
    s.enterTx.entryCheck = { s with
      txPending := false
      manualTrigger := s.manualTrigger || s.txf.consumerEmpty } := by
  show (if s.txf.consumerEmpty = true then
    { s.enterTx with manualTrigger := true } else s.enterTx) = _
  cases s.txf.consumerEmpty
  · rw [Bool.or_false]
    rfl
  · rw [Bool.or_true]
    rfl

/-- A whole `TXSVC` that answers ends drained, also when not every queued slot is written. -/
theorem execTxsvc_drained_of_next {s t : State} (h : exec .txsvc s = .next t) :
    ∃ u, s.enterTx.entryCheck.Drained u ∧ t = u.retireService .txsvc 0 := by
  have hentry : s.enterTx.entryCheck.txf = s.txf := by simp
  have hexec : exec .txsvc s = mapNext (fun t => t.retireService .txsvc 0)
    (s.enterTx.entryCheck.drainTxf s.txf.consumerCount) := rfl
  rcases State.drainTxf_cases s.txf.consumerCount s.enterTx.entryCheck
    (by rw [hentry]) with ⟨u, hu, hdrained⟩ | ⟨-, hfault⟩
  · rw [hu] at hexec
    exact ⟨u, hdrained, Host.Outcome.next.inj (h.symm.trans hexec)⟩
  · rw [hfault] at hexec
    cases h.symm.trans hexec

/-! ## What `RXSVC` stores (`41_rx_controller.md` rules R140 to R142) -/

/-- Settles O24: RXF after it is `Fifo.pushAll` of the pending bytes, of which each field has its
lemma. -/
theorem rxsvcStoresThenDrops : Obligations.RxsvcStoresThenDrops := fun s hs =>
  ⟨_, exec_rxsvc s, rfl, rfl, Fifo.pushAll_sound s.urx s.rxf hs,
    Fifo.pushAll_queue s.urx s.rxf hs, rfl, Fifo.pushAll_readIndex s.urx s.rxf,
    Fifo.pushAll_writeIndex s.urx s.rxf, rfl⟩

/-! ## Frames (`60_exceptions.md` rules R199, R200) -/

/-- Settles O42: `RXSVC` by `exec_rxsvc` and what `Fifo.pushAll` leaves of RXF, `TXSVC` by what a
drained state keeps of the state after T2. -/
theorem activationFrame : Obligations.ActivationFrame := by
  refine fun s t => ⟨fun h => ?_, fun h => ?_⟩
  · obtain rfl := Host.Outcome.next.inj ((exec_rxsvc s).symm.trans h)
    exact ⟨rfl, Fifo.pushAll_capacity s.urx s.rxf, Fifo.pushAll_readIndex s.urx s.rxf,
      Fifo.pushAll_views s.urx s.rxf, fun _ => Fifo.pushAll_slot_other s.urx s.rxf⟩
  · obtain ⟨u, hdrained, rfl⟩ := execTxsvc_drained_of_next h
    rw [State.entryCheck_enterTx] at hdrained
    have hframe := hdrained.frame
    have hslot : ∀ i, u.txf.slot i = s.txf.slot i := fun i =>
      congrArg (Memory.read · i) hdrained.storage
    refine ⟨?_, fun hm => ?_, hdrained.capacity, hdrained.writeIndex, hdrained.views, hslot⟩
    · rw [hframe]
      rfl
    · rw [hframe, hm]
      rfl

end Sys2Proof.Machine
end

section
/-! PROOF. The kick-restart machine: what FG's micro-steps and the other agents' turns can do to it,
and that a queued byte always has an activation owed (O49). -/

namespace Sys2Proof.Machine

variable {s t u : State}

/-! ## What leaves the kick-restart machine as it was (`42_tx_controller.md` rule R155) -/

/-- The requests, and what is on the wire, are as they were. -/
structure State.RequestsKept (s t : State) : Prop where
  manualTrigger : t.manualTrigger = s.manualTrigger := by simp
  txPending : t.txPending = s.txPending := by simp

/-- The kick-restart machine is as it was, and so is what its rules depend on. -/
structure State.RestartKept (s t : State) : Prop extends State.RequestsKept s t where
  cfg : t.cfg = s.cfg := by simp
  source : t.source = s.source := by simp
  txc : t.txc = s.txc := by simp
  utx : t.utx = s.utx := by simp
  isEmpty : t.txf.isEmpty = s.txf.isEmpty := by simp
  lagIs : s.txf.lagIs 0 → t.txf.lagIs 0 := by simp

theorem State.RequestsKept.trans (hst : s.RequestsKept t) (htu : t.RequestsKept u) :
    s.RequestsKept u :=
  ⟨htu.manualTrigger.trans hst.manualTrigger, htu.txPending.trans hst.txPending⟩

theorem State.RequestsKept.restartKept (hr : s.RequestsKept t) (hb : s.Bookkeeping t) :
    s.RestartKept t where
  toRequestsKept := hr
  cfg := hb.cfg
  source := hb.source
  txc := hb.txc
  utx := hb.utx
  isEmpty := by rw [hb.txf]
  lagIs := by rw [hb.txf]; exact id

theorem State.finish_requestsKept (s : State) : s.RequestsKept s.finish := {}

theorem State.endString_requestsKept (s : State) (o : Outer) : s.RequestsKept (s.endString o) := by
  cases o with
  | single | enq => exact s.finish_requestsKept
  | report n =>
    exact .trans (t := { s with fgResult := resultWord false true 0 }) {}
      (State.finish_requestsKept _)

theorem State.resumeString_requestsKept (s : State) (o : Outer) :
    s.RequestsKept (s.resumeString o) := by
  unfold State.resumeString
  split
  · exact s.endString_requestsKept o
  · exact {}

theorem State.endEnqb_requestsKept (s : State) (o : Outer) (b : Byte) (stored : Bool) :
    s.RequestsKept (s.endEnqb o b stored) := by
  rw [State.endEnqb_eq]
  by_cases ho : o = .single
  · subst ho
    exact .trans (t := s.retire (.enqb b) (resultWord false stored 0)) {}
      (State.finish_requestsKept _)
  · rw [State.afterEnqb_of_string ho]
    exact .trans {} (State.resumeString_requestsKept _ o)

theorem State.beginEnqb_requestsKept (s : State) (o : Outer) (b : Byte) :
    s.RequestsKept (s.beginEnqb o b) := by
  unfold State.beginEnqb
  split
  · exact s.endEnqb_requestsKept o b false
  · exact {}

theorem State.beginAction_requestsKept (s : State) (n : Nat) : s.RequestsKept (s.beginAction n) := by
  unfold State.beginAction
  split
  · exact {}
  · split
    · exact .trans (t := { s.toggle with fgResult := resultWord false true 0 }) {}
        (State.finish_requestsKept _)
    · exact { manualTrigger := rfl, txPending := rfl }

/-! ## FG's micro-steps -/

/-- Everything a micro-step of FG inside an operation can do to the kick-restart machine: nothing,
or P3, B4, B5 or B6 of an `ENQB` (`42_tx_controller.md` rule R152). -/
inductive State.KickMove (s t : State) : Prop
  | quiet (kept : s.RestartKept t) (clear : t.noBareFifo) (notKicking : ¬ s.kicking)
  | stored (o : Outer) (b : Byte) (q : Fifo) (notKicking : ¬ s.kicking)
      (lagIs : s.txf.lagIs 0 → q.lagIs 0) (after : t = { s with txf := q }.atStep (.enqbB4 o b))
  | requested (o : Outer) (b : Byte) (position : s.fg = .enqbB4 o b)
      (after : t = s.atStep (.enqbB5 o b))
  | honoured (o : Outer) (b : Byte) (position : s.fg = .enqbB5 o b)
      (after : t = { s with manualTrigger := false }.atStep (.enqbB6 o b))
  | kicked (o : Outer) (b : Byte) (position : s.fg = .enqbB6 o b)
      (kept : s.requestTx.RestartKept t) (clear : t.noBareFifo)

theorem fgContinue_kickMove (hn : s.noBareFifo) (h : fgContinue s = .next t) : s.KickMove t := by
  have hn' := hn
  have hkick := State.kicking.eq_def s
  unfold State.noBareFifo at hn'
  cases hc : s.fg <;> simp only [hc] at hn' hkick <;> simp only [fgContinue, hc] at h
  case idle =>
    obtain rfl := Host.Outcome.next.inj h
    exact .quiet {} hn hkick.mp
  case enqNext o =>
    split at h <;> obtain rfl := Host.Outcome.next.inj h
    · exact .quiet ((s.endString_requestsKept o).restartKept (s.endString_bookkeeping o))
        (s.endString_fgClear o).2 hkick.mp
    · exact .quiet ((s.beginEnqb_requestsKept o _).restartKept (s.beginEnqb_bookkeeping o _))
        (s.beginEnqb_fgClear o _).2 hkick.mp
  case enqbP2 o b tw tn =>
    obtain rfl := Host.Outcome.next.inj h
    exact .quiet { isEmpty := rfl, lagIs := id } trivial hkick.mp
  case enqbP3 o b tn =>
    obtain rfl := Host.Outcome.next.inj h
    exact .stored o b (s.txf.pushP3 tn) hkick.mp id rfl
  case enqbB4 o b =>
    split at h <;> obtain rfl := Host.Outcome.next.inj h
    · exact .requested o b hc rfl
    · exact .quiet ((s.endEnqb_requestsKept o b true).restartKept (s.endEnqb_bookkeeping o b true))
        (s.endEnqb_fgClear o b true).2 (hkick ▸ ‹_›)
  case enqbB5 o b =>
    obtain rfl := Host.Outcome.next.inj h
    exact .honoured o b hc rfl
  case enqbB6 o b =>
    obtain rfl := Host.Outcome.next.inj h
    exact .kicked o b hc ((s.requestTx.endEnqb_requestsKept o b true).restartKept
      (s.requestTx.endEnqb_bookkeeping o b true)) (s.requestTx.endEnqb_fgClear o b true).2
  case dispD2 n =>
    obtain rfl := Host.Outcome.next.inj h
    exact .quiet {} trivial hkick.mp
  case dispD3 n =>
    obtain rfl := Host.Outcome.next.inj h
    exact .quiet ((s.beginAction_requestsKept n).restartKept (s.beginAction_bookkeeping n))
      (s.beginAction_fgClear n).2 hkick.mp

/-- The first micro-step of an operation of the sequencer's program. -/
theorem fgBegin_restartKept {i : Instr} (hi : Instr.sequenced i) (h : fgBegin i s = .next t) :
    s.RestartKept t := by
  refine State.RequestsKept.restartKept ?_ (of_next (fgBegin_bookkeeping (i := i)
    (by rintro rfl; exact hi) (by rintro rfl; exact hi) s) h).1
  cases i with
  | inc | work =>
    obtain rfl := Host.Outcome.next.inj h
    exact {}
  | waitp =>
    simp only [fgBegin, execWaitp] at h
    split at h <;> obtain rfl := Host.Outcome.next.inj h <;> exact {}
  | disp n =>
    simp only [fgBegin] at h
    split at h
    · obtain rfl := Host.Outcome.next.inj h
      exact {}
    · split at h <;> obtain rfl := Host.Outcome.next.inj h <;> exact {}
  | push | pop | isempty | isfull | enqb | kick | rxsvc | txsvc | enq => exact hi.elim

/-! ## The sequencer's turn as its micro-steps -/

/-- `P` is kept by every micro-step of the sequencer's program, and by an illegal word. -/
structure FgClosed (P : State → Prop) : Prop where
  inside : ∀ {s t : State}, P s → fgContinue s = .next t → P t
  starts : ∀ {i : Instr} {s t : State}, P s → s.fg = .idle → Instr.sequenced i →
    fgBegin i s = .next t → P t
  rejected : ∀ {s : State} (ow : Word), P s → P (s.rejectWord ow)

theorem FgClosed.continueN {P : State → Prop} (hP : FgClosed P) {n : Nat} (hs : P s)
    (h : fgContinueN n s = .next t) : P t := by
  induction n generalizing s with
  | zero => exact Host.Outcome.next.inj h ▸ hs
  | succ n ih =>
    simp only [fgContinueN, andThen] at h
    split at h
    · exact ih (hP.inside hs ‹_›) h
    · cases h
    · cases h

theorem FgClosed.runWhole {P : State → Prop} (hP : FgClosed P) {i : Instr}
    (hi : Instr.sequenced i) (hc : s.fg = .idle) (hs : P s)
    (h : Machine.runWhole i s = .next t) : P t := by
  obtain ⟨n, hn⟩ := refinesWhole i s
  rw [← hn] at h
  unfold andThen at h
  split at h
  · exact hP.continueN (hP.starts hs hc hi ‹_›) h
  · cases h
  · cases h

theorem FgClosed.issue {P : State → Prop} (hP : FgClosed P) {run : Instr → State → Result}
    (hrun : ∀ {i : Instr}, Instr.sequenced i → run i s = .next t → P t)
    (hsource : s.source = .sequencer) (hs : P s) (h : fgIssue run s = .next t) : P t := by
  cases hw : s.nextWord with
  | none =>
    rw [fgIssue_of_none hw] at h
    simp only [fgNoWord, hsource] at h
    cases h
  | some ow =>
    cases hd : decodeOn s.cfg.ntask s.source .foreground ow with
    | error r =>
      rw [fgIssue_of_error hw hd, takeWord_of_sequencer hsource] at h
      exact Host.Outcome.next.inj h ▸ hP.rejected ow hs
    | ok i =>
      cases hh : s.holds i
      · rw [fgIssue_of_ok hw hd hh, takeWord_of_sequencer hsource] at h
        rw [nextWord_of_sequencer hsource] at hw
        exact hrun (Instr.sequenced_of_sequencerWord hw (decodeOn_eq_ok.mp hd).1) h
      · rw [fgIssue_of_holds hw hd hh] at h
        exact Host.Outcome.next.inj h ▸ hs

/-- The sequencer's turn, whole or one micro-step, keeps what its micro-steps keep. -/
theorem FgClosed.turn {P : State → Prop} (hP : FgClosed P) (hsource : s.source = .sequencer)
    (hs : P s) (h : fgOpTurn s = .next t ∨ fgMicroTurn s = .next t) : P t := by
  by_cases hc : s.fg = .idle
  · rw [fgOpTurn_of_idle hc, fgMicroTurn_of_idle hc] at h
    exact h.elim (hP.issue (fun hi => hP.runWhole hi hc hs) hsource hs)
      (hP.issue (hP.starts hs hc) hsource hs)
  · rw [fgOpTurn_of_ctx hc, fgMicroTurn_of_ctx hc, or_self] at h
    exact hP.inside hs h

/-! ## FG keeps that no byte stalls (`42_tx_controller.md` rule R156) -/

theorem State.kicking_of_beforeB6 (h : s.beforeB6) : s.kicking := by
  unfold State.beforeB6 at h
  unfold State.kicking
  split at h
  · simp only [*]
  · exact h.elim

theorem State.kicking_congr (hfg : t.fg = s.fg) (hm : t.manualTrigger = s.manualTrigger) :
    t.kicking ↔ s.kicking := by
  rw [State.kicking, hfg, hm, State.kicking]

theorem State.not_kicking_of_idle (h : s.fg = .idle) : ¬ s.kicking := by
  rw [State.kicking, h]
  exact id

theorem State.beforeB6_congr (hfg : t.fg = s.fg) : t.beforeB6 ↔ s.beforeB6 := by
  rw [State.beforeB6, hfg, State.beforeB6]

/-- The machine is as it was, and FG is as close to its kick as it was. -/
theorem State.Restartable.of_kept (h : s.Restartable) (hk : s.RestartKept t) (hn : t.noBareFifo)
    (hkick : s.kicking → t.kicking) (hb6 : s.beforeB6 → t.beforeB6) : t.Restartable where
  source := hk.source.trans h.source
  atomic := hk.cfg ▸ h.atomic
  noLag := ⟨hk.cfg ▸ h.noLag.1, hk.lagIs h.noLag.2⟩
  depth := hk.cfg ▸ h.depth
  txc := hk.txc.trans h.txc
  fifo := hn
  stall he := by
    rw [hk.txPending, hk.utx]
    exact (h.stall (hk.isEmpty ▸ he)).imp_right (.imp_right hkick)
  armed hm := by
    rw [hk.txPending, hk.utx]
    exact (h.armed (hk.manualTrigger ▸ hm)).imp_right (.imp_right hb6)

/-- FG was not about to kick, and the machine is as it was. -/
theorem State.Restartable.of_quiet (h : s.Restartable) (hk : s.RestartKept t)
    (hn : t.noBareFifo) (hkick : ¬ s.kicking) : t.Restartable :=
  h.of_kept hk hn (fun hs => absurd hs hkick) fun hs => absurd (State.kicking_of_beforeB6 hs) hkick

/-- A turn of another agent that leaves the machine as it was. -/
theorem State.Restartable.of_fg_eq (h : s.Restartable) (hk : s.RestartKept t)
    (hfg : t.fg = s.fg) : t.Restartable :=
  h.of_kept hk (State.noBareFifo_congr hfg h.fifo)
    (State.kicking_congr hfg hk.manualTrigger).mpr (State.beforeB6_congr hfg).mpr

theorem State.Restartable.kickMove (h : s.Restartable) (hm : s.KickMove t) : t.Restartable := by
  cases hm with
  | quiet kept clear notKicking => exact h.of_quiet kept clear notKicking
  | stored o b q notKicking lagIs after =>
    have owed : s.manualTrigger = false → s.txPending = true ∨ s.utx ≠ [] := fun hm =>
      (h.armed hm).imp_right (·.resolve_right (notKicking ∘ State.kicking_of_beforeB6))
    subst after
    refine { h with
      noLag := ⟨h.noLag.1, lagIs h.noLag.2⟩, fifo := trivial, stall := fun _ => ?_
      armed := fun hm => (owed hm).imp_right .inl }
    cases hm : s.manualTrigger
    · exact (owed hm).imp_right .inl
    · exact .inr (.inr rfl)
  | requested o b position after =>
    have hb6 : ¬ s.beforeB6 := by rw [State.beforeB6, position]; exact id
    exact h.of_kept (after ▸ {}) (after ▸ trivial) (fun _ => after ▸ trivial) fun hs => absurd hs hb6
  | honoured o b position after =>
    subst after
    exact { h with
      fifo := trivial, stall := fun _ => .inr (.inr trivial), armed := fun _ => .inr (.inr trivial) }
  | kicked o b position kept clear =>
    exact {
      source := kept.source.trans h.source, atomic := kept.cfg ▸ h.atomic
      noLag := ⟨kept.cfg ▸ h.noLag.1, kept.lagIs h.noLag.2⟩, depth := kept.cfg ▸ h.depth
      txc := kept.txc.trans h.txc, fifo := clear
      stall := fun _ => .inl kept.txPending, armed := fun _ => .inl kept.txPending }

/-- FG's turns keep that no byte stalls, and clear no request of an activation. -/
theorem fgTurn_restartable (hs : s.Restartable)
    (h : fgOpTurn s = .next t ∨ fgMicroTurn s = .next t) :
    t.Restartable ∧ (s.txPending = true → t.txPending = true) := by
  refine FgClosed.turn (P := fun u => u.Restartable ∧ (s.txPending = true → u.txPending = true))
    { inside := fun ⟨hr, hp⟩ h => ?_, starts := fun ⟨hr, hp⟩ hc hi h => ?_
      rejected := fun _ ⟨hr, hp⟩ => ⟨hr.of_fg_eq {} rfl, hp⟩ } hs.source ⟨hs, id⟩ h
  · have hm := fgContinue_kickMove hr.fifo h
    refine ⟨hr.kickMove hm, fun hpend => ?_⟩
    cases hm with
    | quiet kept => exact kept.txPending.trans (hp hpend)
    | stored _ _ _ _ _ after | requested _ _ _ after | honoured _ _ _ after =>
      exact after ▸ hp hpend
    | kicked _ _ _ kept => exact kept.txPending
  · have hk := fgBegin_restartKept hi h
    exact ⟨hr.of_quiet hk (fgBegin_leavesRxf hi h).2 (State.not_kicking_of_idle hc),
      fun hpend => hk.txPending.trans (hp hpend)⟩

/-! ## The other agents -/

theorem Fifo.consumerEmpty_of_lagIs_zero {f : Fifo} (h : f.lagIs 0) :
    f.consumerEmpty = f.isEmpty := by
  rw [Fifo.consumerEmpty, Fifo.writeSeen_of_nil (List.length_eq_zero_iff.mp h.2), Fifo.isEmpty]

/-- A whole `TXSVC` leaves nothing in TXF that no finish event will send: it leaves TXF empty, or a
byte in the transmitter. And of a TXF with a byte it moves one, or finds the transmitter full. -/
theorem execTxsvc_restarts (hlag : s.txf.lagIs 0) (hdepth : 1 ≤ s.cfg.utxDepth)
    (h : exec .txsvc s = .next t) :
    (t.utx ≠ [] ∨ t.txf.isEmpty = true) ∧ (s.txf.isEmpty = false → t.utx ≠ []) := by
  obtain ⟨u, hdrained, rfl⟩ := execTxsvc_drained_of_next h
  rw [State.entryCheck_enterTx] at hdrained
  have hcfg : u.cfg = s.cfg := by rw [hdrained.frame]
  have full : ∀ {v : State}, v.cfg = s.cfg → v.utxFull = true → v.utx ≠ [] := by
    intro v hv hfull hnil
    simp only [State.utxFull, hv, hnil, List.length_nil, decide_eq_true_eq] at hfull
    omega
  refine ⟨hdrained.done.imp (full hcfg) ?_, fun he hnil => ?_⟩
  · exact fun he => (Fifo.consumerEmpty_of_lagIs_zero (hdrained.lagIs 0 hlag)).symm.trans he
  · have hgrows := hdrained.grows
    have hmoved := hdrained.moved
    have hnil' : u.utx = [] := hnil
    simp only [hnil', List.length_nil] at hgrows hmoved
    cases hf : s.utxFull
    · exact absurd (hmoved hf ((Fifo.consumerEmpty_of_lagIs_zero hlag).trans he)) (by omega)
    · exact full rfl hf (List.length_eq_zero_iff.mp (by omega))

/-- Everything another agent's turn can do to the kick-restart machine when `ISR_ATOMIC = true`:
nothing, a whole `TXSVC`, the end of a byte in flight, or a reset. -/
inductive State.AgentMove (turn : Turn) (s t : State) : Prop
  | quiet (kept : s.RestartKept t) (fg : t.fg = s.fg) (wireOut : t.wireOut = s.wireOut)
  | serviced (answer : exec .txsvc s = .next t)
  | sent (v : Byte) (rest : List Byte) (inFlight : s.utx = v :: rest)
      (after : t = { s with utx := rest, wireOut := s.wireOut ++ [v], txPending := true })
  | reset (isReset : turn = .reset) (after : t = s.hardReset)

theorem takeTurn_agentMove {turn : Turn} (hatomic : s.cfg.isrAtomic = true)
    (hturn : turn ≠ .op ∧ turn ≠ .micro) (h : takeTurn turn s = .next t) : s.AgentMove turn t := by
  have passed : Host.Outcome.next s = (.next t : Result) → s.AgentMove turn t := fun h =>
    Host.Outcome.next.inj h ▸ .quiet {} rfl rfl
  cases turn with
  | op => exact absurd rfl hturn.1
  | micro => exact absurd rfl hturn.2
  | rxc =>
    simp only [takeTurn, rxcTurn_eq] at h
    split at h
    · rw [exec_rxsvc] at h
      exact Host.Outcome.next.inj h ▸ .quiet {} rfl rfl
    · exact passed h
  | rxcMicro =>
    simp only [takeTurn, rxcMicroTurn, hatomic, if_true] at h
    exact passed h
  | txc =>
    simp only [takeTurn, txcTurn_eq] at h
    split at h
    · exact .serviced h
    · exact passed h
  | txcMicro =>
    simp only [takeTurn, txcMicroTurn, hatomic, if_true] at h
    exact passed h
  | uartRx v =>
    simp only [takeTurn, uartRxTurn] at h
    split at h
    · exact Host.Outcome.next.inj h ▸ .quiet {} rfl rfl
    · cases h
  | uartTx =>
    cases hu : s.utx with
    | nil =>
      simp only [takeTurn, uartTxTurn, hu] at h
      exact passed h
    | cons v rest =>
      simp only [takeTurn, uartTxTurn, hu] at h
      exact .sent v rest hu (Host.Outcome.next.inj h).symm
  | timer => exact Host.Outcome.next.inj h ▸ .quiet {} rfl rfl
  | syncFclk =>
    exact Host.Outcome.next.inj h ▸
      .quiet { isEmpty := rfl, lagIs := s.txf.syncProducer_lagIs } rfl rfl
  | syncSclk =>
    exact Host.Outcome.next.inj h ▸
      .quiet { isEmpty := rfl, lagIs := s.txf.syncConsumer_lagIs } rfl rfl
  | reset => exact .reset rfl (Host.Outcome.next.inj h).symm

theorem Fifo.clear_isEmpty (f : Fifo) (lag : Nat) : (f.clear lag).isEmpty = true :=
  (Fifo.isEmpty_iff _).mpr (f.clear_count lag)

theorem State.Restartable.serviced (hs : s.Restartable) (h : exec .txsvc s = .next t) :
    t.Restartable := by
  obtain ⟨hdone, hmoved⟩ := execTxsvc_restarts hs.noLag.2 hs.depth h
  obtain ⟨u, hdrained, rfl⟩ := execTxsvc_drained_of_next h
  rw [State.entryCheck_enterTx] at hdrained
  have hframe := hdrained.frame
  have hfg : u.fg = s.fg := by rw [hframe]
  have hcfg : u.cfg = s.cfg := by rw [hframe]
  refine {
    source := ?_, atomic := hcfg ▸ hs.atomic
    noLag := ⟨hcfg ▸ hs.noLag.1, hdrained.lagIs 0 hs.noLag.2⟩
    depth := hcfg ▸ hs.depth, txc := ?_, fifo := State.noBareFifo_congr hfg hs.fifo
    stall := fun he => .inr (.inl (hdone.resolve_right (Bool.eq_false_iff.mp he)))
    armed := fun hm => .inr (.inl (hmoved ?_)) }
  · rw [State.retireService_source, hframe]
    exact hs.source
  · rw [State.retireService_txc, hframe]
    exact hs.txc
  · rw [State.retireService_manualTrigger, hframe] at hm
    rw [← Fifo.consumerEmpty_of_lagIs_zero hs.noLag.2]
    exact (Bool.or_eq_false_iff.mp hm).2

theorem State.Restartable.agentMove {turn : Turn} (hs : s.Restartable)
    (hm : s.AgentMove turn t) : t.Restartable := by
  cases hm with
  | quiet kept fg => exact hs.of_fg_eq kept fg
  | serviced answer => exact hs.serviced answer
  | sent v rest inFlight after =>
    subst after
    exact { hs with stall := fun _ => .inl rfl, armed := fun _ => .inl rfl }
  | reset isReset after =>
    subst after
    exact { hs with
      noLag := ⟨hs.noLag.1, by rw [← hs.noLag.1]; exact s.txf.clear_lagIs _⟩
      txc := rfl, fifo := trivial, armed := fun h => nomatch h
      stall := fun he => nomatch he.symm.trans (s.txf.clear_isEmpty _) }

/-- Every turn of every agent keeps the inductive form of rule R156. -/
theorem takeTurn_restartable {turn : Turn} (hs : s.Restartable) (h : takeTurn turn s = .next t) :
    t.Restartable := by
  by_cases hturn : turn = .op ∨ turn = .micro
  · exact (fgTurn_restartable hs (hturn.imp (fun ht => by rwa [ht] at h)
      fun ht => by rwa [ht] at h)).1
  · exact hs.agentMove (takeTurn_agentMove hs.atomic (not_or.mp hturn) h)

/-- Settles O49: the step is the turn of some agent (`takeTurn_restartable`). -/
theorem noStallKept : Obligations.NoStallKept := by
  intro s t hs h
  obtain ⟨turn, l, n, hstep⟩ := step_eq_takeTurn s
  rw [hstep] at h
  have ht := takeTurn_restartable (s := { s with agenda := l, turnNo := n }) { hs with } h
  exact ⟨ht, ht.stall⟩

end Sys2Proof.Machine
end

section
/-! PROOF. What `TXSVC`, `KICK`, `ENQB` and `ENQ` do, their frames, and the restart scenario (O25,
O26, O27, O28, O30, O41). -/

namespace Sys2Proof.Machine

variable {s t : State}

/-! ## `TXSVC` (`42_tx_controller.md` rules R150, R154) -/

/-- Every pass of the transmit loop moves one byte that TXC sees from TXF into `utx`. -/
theorem State.drainTxf_consumerCount {fuel : Nat} (h : s.drainTxf fuel = .next t) :
    t.txf.consumerCount + t.utx.length = s.txf.consumerCount + s.utx.length := by
  induction fuel generalizing s with
  | zero => rw [Host.Outcome.next.inj h]
  | succ fuel ih =>
    rw [State.drainTxf] at h
    split at h
    · rw [Host.Outcome.next.inj h]
    · rcases s.txf.pop_cases with ⟨-, hp⟩ | ⟨b, he, -, hp⟩ | ⟨-, -, hp⟩
      · simp only [hp] at h
        rw [Host.Outcome.next.inj h]
      · simp only [hp] at h
        have hcount := s.txf.popC3_consumerCount he
        rw [ih h]
        show (s.txf.popC3 s.txf.readIndex.val).consumerCount + (s.utx ++ [b]).length = _
        rw [List.length_append, List.length_singleton]
        omega
      · simp only [hp] at h
        cases h

theorem execTxsvc_consumerCount (h : exec .txsvc s = .next t) :
    t.txf.consumerCount + t.utx.length = s.txf.consumerCount + s.utx.length := by
  have hexec : exec .txsvc s = mapNext (fun t => t.retireService .txsvc 0)
    (s.enterTx.entryCheck.drainTxf s.txf.consumerCount) := rfl
  rw [hexec] at h
  unfold mapNext at h
  split at h
  · rw [← Host.Outcome.next.inj h]
    simpa using State.drainTxf_consumerCount (s := s.enterTx.entryCheck) ‹_›
  · cases h
  · cases h

/-- A whole `TXSVC` stops at the depth of the transmitter or at the last byte TXC sees, whichever
comes first. -/
theorem execTxsvc_moves (hu : s.utx.length ≤ s.cfg.utxDepth) (h : exec .txsvc s = .next t) :
    t.utx.length =
      s.utx.length + min (s.cfg.utxDepth - s.utx.length) s.txf.consumerCount := by
  have hcount := execTxsvc_consumerCount h
  obtain ⟨u, hdrained, rfl⟩ := execTxsvc_drained_of_next h
  rw [State.entryCheck_enterTx] at hdrained
  have hbound := hdrained.bound hu
  have hgrows := hdrained.grows
  have hdone := hdrained.done
  have hcfg : u.cfg = s.cfg := by rw [hdrained.frame]
  rw [State.utxFull, hcfg, decide_eq_true_eq, Fifo.consumerEmpty_iff] at hdone
  simp only [State.retireService_txf, State.retireService_utx] at hcount hbound hgrows ⊢
  omega

/-- Settles O25: the bytes that left the queue joined `utx` in order (`State.Drained.stream`), and
`execTxsvc_moves` counts them. -/
theorem txsvcMovesBytes : Obligations.TxsvcMovesBytes := by
  intro s hs hu k
  refine ⟨?_, fun hlag => ⟨?_, Fifo.consumerEmpty_of_lagIs_zero hlag⟩⟩
  · obtain ⟨u, hdrained, hexec⟩ := execTxsvc_drained hs
    have hmoved : (u.retireService .txsvc 0).utx.length = s.utx.length + k :=
      execTxsvc_moves hu hexec
    rw [State.retireService_utx] at hmoved
    rw [State.entryCheck_enterTx] at hdrained
    have hstream : u.utx ++ u.txf.queue = s.utx ++ s.txf.queue := hdrained.stream hs.2
    have htake := congrArg (List.take u.utx.length) hstream
    have hdrop := congrArg (List.drop u.utx.length) hstream
    rw [List.take_left, hmoved, List.take_length_add_append] at htake
    rw [List.drop_left, hmoved, List.drop_length_add_append] at hdrop
    have hread := hdrained.readIndex
    rw [hmoved] at hread
    refine ⟨_, hexec, ?_, ?_, hdrained.sound hs, htake, hdrop, ?_, rfl⟩
    · rw [State.retireService_txPending, hdrained.frame]
    · rw [State.retireService_manualTrigger, hdrained.frame]
    · rw [State.retireService_txf, hread]
      simp
  · rw [s.txf.queue_length hs.1,
      Fifo.consumerCount_of_nil (List.length_eq_zero_iff.mp hlag.2)]

/-- Settles O26: `execTxsvc_of_consumerEmpty` twice. -/
theorem spuriousTxsvcArms : Obligations.SpuriousTxsvcArms := fun _ he =>
  ⟨_, execTxsvc_of_consumerEmpty he, rfl, execTxsvc_of_consumerEmpty he⟩

/-! ## The bridge (`42_tx_controller.md` rules R151 to R153) -/

theorem exec_kick (s : State) : exec .kick s = .next (s.requestTx.retire .kick 0) := rfl

/-- Settles O27: `KICK` is its one micro-step K1. -/
theorem kickRequestsActivation : Obligations.KickRequestsActivation := exec_kick

theorem exec_enqb (b : Byte) (s : State) : exec (.enqb b) s = .next (s.enqueueByte b).1 := rfl

/-- Settles O28: `State.enqueueByte` with and without room. -/
theorem enqbStoresAndKicks : Obligations.EnqbStoresAndKicks := by
  refine fun s b => ⟨fun hf => ?_, fun hf => ?_⟩
  · refine ⟨_, exec_enqb b s, ?_⟩
    rw [State.enqueueByte_of_not_full b hf]
    exact ⟨s.txf.push_slot_write b hf,
      (s.txf.push_writeIndex b hf).trans (s.txf.succ_eq_mod s.txf.writeIndex.isLt),
      s.txf.push_readIndex b, rfl, rfl, resultWord_flag true⟩
  · rw [exec_enqb, State.enqueueByte_of_full b hf, resultWord_flag]
    rfl

/-- Settles O41: what `State.enqueueByte` and `State.enqueueString_spec` say of the fields, and what
`Fifo.push` and `Fifo.pushAll` leave of TXF. -/
theorem bridgeFrame : Obligations.BridgeFrame := by
  refine fun s t => ⟨fun h => ?_, fun b h => ?_, fun str h => ?_⟩
  · exact Host.Outcome.next.inj h ▸ rfl
  · obtain rfl := Host.Outcome.next.inj h
    cases hf : s.txf.producerFull
    · rw [State.enqueueByte_of_not_full b hf]
      exact ⟨rfl, fun _ => rfl, fun hp => by simp [hp], s.txf.push_capacity b,
        s.txf.push_readIndex b, s.txf.push_views b,
        fun _ hi => s.txf.push_slot_frame b (by rwa [hf])⟩
    · rw [State.enqueueByte_of_full b hf]
      exact ⟨rfl, id, id, rfl, rfl, rfl, fun _ _ => rfl⟩
  · have ht : s.enqueueString str = t := Host.Outcome.next.inj h
    have hframe := (State.enqueueString_spec str s).frame
    rw [ht] at hframe
    have htxf : t.txf = (Fifo.pushAll str s.txf).1 := congrArg State.txf hframe
    have hm := congrArg State.manualTrigger hframe
    have hp := congrArg State.txPending hframe
    refine ⟨?_, fun h => ?_, fun h => ?_, ?_⟩
    · rw [hframe]
    · simpa [h] using hm
    · simpa [h] using hp
    · rw [htxf]
      exact ⟨Fifo.pushAll_capacity str s.txf, Fifo.pushAll_readIndex str s.txf,
        Fifo.pushAll_views str s.txf, fun _ => Fifo.pushAll_slot_other str s.txf⟩

/-! ## The restart scenario (`42_tx_controller.md` rule R158) -/

theorem Fifo.viewsCurrent_of_lagIs_zero {f : Fifo} (h : f.lagIs 0) : f.viewsCurrent := by
  rw [Fifo.viewsCurrent, List.length_eq_zero_iff.mp h.1, List.length_eq_zero_iff.mp h.2]
  exact ⟨fun _ hv => absurd hv List.not_mem_nil, fun _ hv => absurd hv List.not_mem_nil⟩

theorem Fifo.sound_of_isEmpty {f : Fifo} (hlag : f.lagIs 0) (he : f.isEmpty = true) : f.sound :=
  ⟨Fifo.written_of_isEmpty he, (Fifo.viewsCurrent_of_lagIs_zero hlag).viewsOk⟩

theorem Fifo.queue_of_isEmpty {f : Fifo} (hw : f.written) (he : f.isEmpty = true) :
    f.queue = [] :=
  List.length_eq_zero_iff.mp ((f.queue_length hw).trans (f.isEmpty_iff.mp he))

theorem Fifo.isEmpty_of_queue {f : Fifo} (hw : f.written) (hq : f.queue = []) :
    f.isEmpty = true := by
  rw [f.isEmpty_iff, ← f.queue_length hw, hq, List.length_nil]

/-- An empty FIFO without a lag stores a byte, and then holds that byte alone. -/
theorem Fifo.push_into_empty {f : Fifo} (b : Byte) (hlag : f.lagIs 0) (he : f.isEmpty = true)
    (hcap : 2 ≤ f.capacity) :
    f.producerFull = false ∧ (f.push b).1.sound ∧ (f.push b).1.queue = [b] ∧
      (f.push b).1.isEmpty = false := by
  have hs := Fifo.sound_of_isEmpty hlag he
  have hfull : f.producerFull = false := by
    rw [← f.room_pos_iff, Fifo.room_of_isEmpty he (Fifo.viewsCurrent_of_lagIs_zero hlag)]
    omega
  have hpush := f.push_sound b hs
  have hq : (f.push b).1.queue = [b] := by
    rw [f.push_queue b hfull (hs.2.isFull_eq_false hfull), Fifo.queue_of_isEmpty hs.1 he,
      List.nil_append]
  refine ⟨hfull, hpush, hq, ?_⟩
  rw [Fifo.isEmpty_eq_false_iff, ← Fifo.queue_length _ hpush.1, hq]
  exact Nat.one_pos

/-- `TXSVC` without a lag hands the only byte of TXF to a transmitter with room. -/
theorem execTxsvc_hands {b : Byte} (hs : s.txf.sound) (hlag : s.txf.lagIs 0)
    (hq : s.txf.queue = [b]) (hroom : s.utx.length < s.cfg.utxDepth) :
    ∃ t, exec .txsvc s = .next t ∧ t.utx = s.utx ++ [b] ∧ t.txf.isEmpty = true := by
  obtain ⟨⟨t, ht, -, -, hsound, hutx, hqueue, -⟩, hseen⟩ := txsvcMovesBytes s hs hroom.le
  have hone : min (s.cfg.utxDepth - s.utx.length) s.txf.consumerCount = 1 := by
    rw [(hseen hlag).1, hq, List.length_singleton]
    omega
  rw [hone, hq] at hutx hqueue
  exact ⟨t, ht, hutx, Fifo.isEmpty_of_queue hsound.1 hqueue⟩

/-- Settles O30: the `TXSVC` that arms, the `ENQB` into the empty TXF, and the `TXSVC` that
hands its byte over. -/
theorem restartScenario : Obligations.RestartScenario := by
  intro s b hlag he hcap hroom
  obtain ⟨hfull, hsound, hq, hne⟩ := Fifo.push_into_empty b hlag he hcap
  have harm := execTxsvc_of_consumerEmpty ((Fifo.consumerEmpty_of_lagIs_zero hlag).trans he)
  set t : State := { s with txPending := false, manualTrigger := true }.retireService .txsvc 0
  have henqb := exec_enqb b t
  rw [State.enqueueByte_of_not_full (s := t) b hfull] at henqb
  obtain ⟨v, hv, hutx, hempty⟩ := execTxsvc_hands (s := { t with
      txf := (s.txf.push b).1, manualTrigger := false, txPending := true
      fgResult := resultWord false true 0
      trace := t.trace ++ [⟨.foreground, operationWord 0x5 0 b, resultWord false true 0⟩] })
    hsound (s.txf.push_lagIs b hlag) hq hroom
  exact ⟨t, _, v, harm, rfl, henqb, resultWord_flag true, s.txf.push_slot_write b hfull, hne, rfl,
    rfl, hv, hutx, hempty⟩

end Sys2Proof.Machine
end

section
/-! PROOF. The bytes that wait in TXF and in the transmitter reach the wire, along a bounded schedule
and on every fair run (O58, O60). -/

namespace Sys2Proof.Machine

variable {s t : State}

/-! ## The transmit stream and the wire (`42_tx_controller.md` rule R157) -/

theorem State.Restartable.txStream (h : s.Restartable) :
    s.txStream = s.wireOut ++ s.utx ++ s.txf.queue := by
  rw [State.txStream, State.txHeld_of_idle h.txc, List.append_nil]

/-- The bytes that are not on the wire yet wait in the transmitter or in TXF. -/
theorem State.Restartable.txStream_length (h : s.Restartable) (hs : s.txf.sound) :
    s.txStream.length = s.wireOut.length + (s.utx.length + s.txf.count) := by
  rw [h.txStream, List.length_append, List.length_append, s.txf.queue_length hs.1, Nat.add_assoc]

/-! ## A bounded schedule (assumption log 28) -/

/-- A queued byte has an activation owed, or a byte in flight whose finish raises one. -/
abbrev State.Owed (s : State) : Prop := s.txf.isEmpty = false → s.txPending = true ∨ s.utx ≠ []

/-- The premises of the schedule, which each round of it keeps. -/
structure State.Draining (s : State) : Prop where
  disciplined : s.Disciplined
  restartable : s.Restartable
  owed : s.Owed

/-- TXC's turn of a round: with a byte waiting there is one in the transmitter after it. -/
theorem State.Draining.txcTurn (h : s.Draining) : ∃ t, takeTurn .txc s = .next t ∧
    t.Disciplined ∧ t.Restartable ∧ t.txStream = s.txStream ∧ t.wireOut = s.wireOut ∧
    (t.utx = [] → t.txf.isEmpty = true) := by
  obtain ⟨t, ht, hm, hd⟩ := txcTurn_disciplined h.disciplined
  have hr : t.Restartable := takeTurn_restartable (turn := .txc) h.restartable ht
  have hk := takeTurn_streamKept (turn := .txc) h.disciplined (by decide) ht
  refine ⟨t, ht, hd, hr, hk.stream, ?_⟩
  rw [txcTurn_eq] at ht
  split at ht
  next =>
    obtain ⟨hdone, -⟩ := execTxsvc_restarts h.restartable.noLag.2 h.restartable.depth ht
    obtain ⟨u, hdrained, rfl⟩ := execTxsvc_drained_of_next ht
    refine ⟨?_, fun hnil => hdone.resolve_left (not_not.mpr hnil)⟩
    rw [State.retireService_wireOut, hdrained.frame]
    simp
  next hdisabled =>
    obtain rfl := Host.Outcome.next.inj ht
    have hpend : s.txPending = false := by
      simpa [State.txEnabled, h.restartable.txc] using hdisabled
    refine ⟨rfl, fun hnil => ?_⟩
    cases he : s.txf.isEmpty
    · rcases h.owed he with hp | hutx
      · exact absurd (hp.symm.trans hpend) (by decide)
      · exact absurd hnil hutx
    · rfl

/-- The transmitter's turn of a round puts a byte on the wire, if one waits. -/
theorem uartTxTurn_draining (hd : s.Disciplined) (hr : s.Restartable)
    (hready : s.utx = [] → s.txf.isEmpty = true) : ∃ t, takeTurn .uartTx s = .next t ∧
    t.Draining ∧ t.txStream = s.txStream ∧
    (t.wireOut.length = s.wireOut.length + 1 ∨ t.utx.length + t.txf.count = 0) := by
  obtain ⟨t, ht, hd'⟩ := uartTxTurn_disciplined hd
  have hr' : t.Restartable := takeTurn_restartable (turn := .uartTx) hr ht
  have hk := uartTxTurn_streamKept ht
  refine ⟨t, ht, ?_⟩
  cases hu : s.utx with
  | nil =>
    have hempty := hready hu
    simp only [Machine.uartTxTurn, hu] at ht
    obtain rfl := Host.Outcome.next.inj ht
    refine ⟨⟨hd, hr, fun he => nomatch he.symm.trans hempty⟩, rfl, .inr ?_⟩
    rw [hu, s.txf.isEmpty_iff.mp hempty, List.length_nil]
  | cons v rest =>
    simp only [Machine.uartTxTurn, hu] at ht
    obtain rfl := Host.Outcome.next.inj ht
    exact ⟨⟨hd', hr', fun _ => .inl rfl⟩, hk.stream, .inl (by simp)⟩

/-- One round puts a byte on the wire, or none is left. -/
theorem State.Draining.round (h : s.Draining) : ∃ t u, takeTurn .txc s = .next t ∧
    takeTurn .uartTx t = .next u ∧ u.Draining ∧ u.txStream = s.txStream ∧
    u.utx.length + u.txf.count ≤ s.utx.length + s.txf.count - 1 := by
  obtain ⟨t, ht, hd, hr, hstream, hwire, hready⟩ := h.txcTurn
  obtain ⟨u, hu, hdraining, hstream', hprogress⟩ := uartTxTurn_draining hd hr hready
  refine ⟨t, u, ht, hu, hdraining, hstream'.trans hstream, ?_⟩
  have hs := h.restartable.txStream_length h.disciplined.txSound
  have hu := hdraining.restartable.txStream_length hdraining.disciplined.txSound
  rw [hstream', hstream, hs] at hu
  rw [hwire] at hprogress
  omega

theorem State.Draining.drainSchedule {n : Nat} (h : s.Draining)
    (hn : s.utx.length + s.txf.count ≤ n) :
    ∃ t, runTurns (drainSchedule n) s = .next t ∧ t.wireOut = s.txStream ∧ t.utx = [] ∧
      t.txf.isEmpty = true := by
  induction n generalizing s with
  | zero =>
    have hutx : s.utx = [] := List.length_eq_zero_iff.mp (by omega)
    have hempty : s.txf.isEmpty = true := s.txf.isEmpty_iff.mpr (by omega)
    refine ⟨s, rfl, ?_, hutx, hempty⟩
    rw [h.restartable.txStream, hutx, Fifo.queue_of_isEmpty h.disciplined.txSound.1 hempty,
      List.append_nil, List.append_nil]
  | succ n ih =>
    obtain ⟨t, u, ht, hu, hdraining, hstream, hcount⟩ := h.round
    obtain ⟨v, hv, hwire, hrest⟩ := ih hdraining (by omega)
    refine ⟨v, ?_, hwire.trans hstream, hrest⟩
    simp only [Machine.drainSchedule, runTurns, ht, hu, andThen, hv]

/-- Settles O58: FG is not about to kick, so every queued byte is owed an activation, and each round of
the schedule puts a byte on the wire (`State.Draining.round`). -/
theorem queuedBytesReachTheWire : Obligations.QueuedBytesReachTheWire := by
  intro s n hd hr hkick hn
  have hdraining : s.Draining :=
    ⟨hd, hr, fun he => (hr.stall he).imp_right (·.resolve_right hkick)⟩
  rw [← hr.txStream]
  exact hdraining.drainSchedule hn

/-! ## One turn of a run without a reset -/

/-- The micro-steps FG is away from its kick. -/
def State.kickSteps (s : State) : Nat :=
  match s.fg with
  | .enqbB4 _ _ => 3
  | .enqbB5 _ _ => 2
  | .enqbB6 _ _ => 1
  | _ => 0

/-- Each of FG's turns brings a kick that is due nearer. -/
theorem fgTurn_kicks (hs : s.Restartable) (hkick : s.kicking)
    (h : fgOpTurn s = .next t ∨ fgMicroTurn s = .next t) :
    t.txPending = true ∨ (t.kicking ∧ t.kickSteps < s.kickSteps) := by
  have hc : s.fg ≠ .idle := fun hc => State.not_kicking_of_idle hc hkick
  rw [fgOpTurn_of_ctx hc, fgMicroTurn_of_ctx hc, or_self] at h
  cases fgContinue_kickMove hs.fifo h with
  | quiet _ _ notKicking | stored _ _ _ notKicking => exact absurd hkick notKicking
  | requested o b position after | honoured o b position after =>
    subst after
    exact .inr ⟨trivial, by simp only [State.kickSteps, position, State.atStep_fg]; decide⟩
  | kicked _ _ _ kept => exact .inl kept.txPending

/-- What a turn that is no reset does for the bytes that wait. -/
structure State.Forwards (s t : State) : Prop where
  stream : s.txStream <+: t.txStream
  wire : s.wireOut <+: t.wireOut
  inFlight : s.utx ≠ [] → t.utx ≠ [] ∨ s.wireOut.length < t.wireOut.length
  queued : s.txf.isEmpty = false → t.utx ≠ [] ∨ t.txf.isEmpty = false
  pending : s.txPending = true → t.txPending = true ∨ (s.txf.isEmpty = false → t.utx ≠ [])
  kicking : s.kicking → t.txPending = true ∨ (s.txf.isEmpty = false → t.utx ≠ []) ∨
    (t.kicking ∧ t.kickSteps ≤ s.kickSteps)

theorem fgTurn_forwards (hd : s.Disciplined) (hr : s.Restartable)
    (h : fgOpTurn s = .next t ∨ fgMicroTurn s = .next t) : s.Forwards t := by
  have hm := fgTurn_fgMoves hd h
  obtain ⟨words, bytes, hg⟩ := fgTurn_transmits hd h
  obtain ⟨hr', hpend⟩ := fgTurn_restartable hr h
  exact {
    stream := ⟨bytes, (hg.appends hm).symm⟩
    wire := hg.wireOut ▸ List.prefix_rfl
    inFlight := fun hu => .inl (hm.utx ▸ hu)
    queued := fun he => by
      rw [← Fifo.consumerEmpty_of_lagIs_zero hr.noLag.2] at he
      rw [← Fifo.consumerEmpty_of_lagIs_zero hr'.noLag.2]
      exact .inr (hm.txf.consumerEmpty hd.txSound he)
    pending := fun hp => .inl (hpend hp)
    kicking := fun hk => (fgTurn_kicks hr hk h).imp_right fun ⟨hk', hlt⟩ => .inr ⟨hk', hlt.le⟩ }

theorem State.kickSteps_congr (hfg : t.fg = s.fg) : t.kickSteps = s.kickSteps := by
  rw [State.kickSteps, hfg, State.kickSteps]

theorem State.AgentMove.forwards {turn : Turn} (hr : s.Restartable) (hturn : turn ≠ .reset)
    (hm : s.AgentMove turn t) (hstream : t.txStream = s.txStream) : s.Forwards t := by
  have stream : s.txStream <+: t.txStream := hstream ▸ List.prefix_rfl
  cases hm with
  | quiet kept fg wireOut =>
    exact {
      stream
      wire := wireOut ▸ List.prefix_rfl
      inFlight := fun hu => .inl (kept.utx ▸ hu)
      queued := fun he => .inr (kept.isEmpty.trans he)
      pending := fun hp => .inl (kept.txPending.trans hp)
      kicking := fun hk => .inr (.inr ⟨(State.kicking_congr fg kept.manualTrigger).mpr hk,
        (State.kickSteps_congr fg).le⟩) }
  | serviced answer =>
    obtain ⟨-, hmoved⟩ := execTxsvc_restarts hr.noLag.2 hr.depth answer
    obtain ⟨u, hdrained, rfl⟩ := execTxsvc_drained_of_next answer
    have hgrows : s.utx.length ≤ u.utx.length := by simpa using hdrained.grows
    refine {
      stream, wire := ?_, queued := fun he => .inl (hmoved he)
      inFlight := fun hu => .inl (List.ne_nil_of_length_pos
        ((List.length_pos_of_ne_nil hu).trans_le hgrows))
      pending := fun _ => .inr hmoved, kicking := fun _ => .inr (.inl hmoved) }
    rw [State.retireService_wireOut, hdrained.frame]
    simp
  | sent v rest inFlight after =>
    subst after
    exact {
      stream, wire := List.prefix_append _ _, inFlight := fun _ => .inr (by simp)
      queued := .inr, pending := fun _ => .inl rfl, kicking := fun _ => .inl rfl }
  | reset isReset => exact absurd isReset hturn

theorem takeTurn_forwards {turn : Turn} (hd : s.Disciplined) (hr : s.Restartable)
    (hturn : turn ≠ .reset) (h : takeTurn turn s = .next t) : s.Forwards t := by
  by_cases hfg : turn = .op ∨ turn = .micro
  · exact fgTurn_forwards hd hr (hfg.imp (fun ht => by rwa [ht] at h) fun ht => by rwa [ht] at h)
  · obtain ⟨hop, hmicro⟩ := not_or.mp hfg
    exact (takeTurn_agentMove hr.atomic ⟨hop, hmicro⟩ h).forwards hr hturn
      (takeTurn_streamKept hd ⟨hturn, hop, hmicro⟩ h).stream

/-! ## Fair runs (`60_exceptions.md` rule R212) -/

variable {turns : Nat → Turn} {r : Nat → State}

/-- Weak fairness at work: what holds until the agent moves, and lets it move, comes to what its move
brings, if nothing brings it before. -/
theorem WeaklyFair.ensures {a : Agent} (hfair : WeaklyFair turns r a) {P Q : Nat → Prop}
    (keeps : ∀ m, P m → P (m + 1) ∨ Q (m + 1)) (can : ∀ m, P m → (r m).canMove a = true)
    (brings : ∀ m, P m → (r m).moves (turns m) a = true → Q (m + 1)) {n : Nat} (hn : P n) :
    ∃ m, n ≤ m ∧ Q m := by
  by_contra hnever
  push Not at hnever
  have always : ∀ m, n ≤ m → P m := fun m hm => by
    induction m, hm using Nat.le_induction with
    | base => exact hn
    | succ m hm ih => exact (keeps m ih).resolve_right (hnever (m + 1) (by omega))
  obtain ⟨m, hm, hmoves⟩ := hfair n fun m hm => can m (always m hm)
  exact hnever (m + 1) (by omega) (brings m (always m hm) hmoves)

/-- A fair run without a reset, every state of which meets the invariants. -/
structure SendingRun (turns : Nat → Turn) (r : Nat → State) : Prop where
  fair : FairRun turns r
  noReset : ∀ n, turns n ≠ .reset
  disciplined : ∀ n, (r n).Disciplined
  restartable : ∀ n, (r n).Restartable

theorem FairRun.sendingRun (hfair : FairRun turns r) (hreset : ∀ n, turns n ≠ .reset)
    (hd : (r 0).Disciplined) (hr : (r 0).Restartable) : SendingRun turns r where
  fair := hfair
  noReset := hreset
  disciplined n := by
    induction n with
    | zero => exact hd
    | succ n ih =>
      rcases takeTurn_disciplined (turns n) ih with ht | hrefused
      · exact of_next ht (hfair.run n)
      · cases hrefused.symm.trans (hfair.run n)
  restartable n := by
    induction n with
    | zero => exact hr
    | succ n ih => exact takeTurn_restartable ih (hfair.run n)

theorem SendingRun.forwards (h : SendingRun turns r) (n : Nat) : (r n).Forwards (r (n + 1)) :=
  takeTurn_forwards (h.disciplined n) (h.restartable n) (h.noReset n) (h.fair.run n)

theorem SendingRun.mono (h : SendingRun turns r) {n m : Nat} (hm : n ≤ m) :
    (r n).txStream <+: (r m).txStream ∧ (r n).wireOut <+: (r m).wireOut := by
  induction m, hm using Nat.le_induction with
  | base => exact ⟨List.prefix_rfl, List.prefix_rfl⟩
  | succ m _ ih => exact ⟨ih.1.trans (h.forwards m).stream, ih.2.trans (h.forwards m).wire⟩

/-- The transmitter: a byte in flight goes onto the wire. -/
theorem SendingRun.wire_grows (h : SendingRun turns r) {n : Nat} (hu : (r n).utx ≠ []) :
    ∃ m, n ≤ m ∧ (r n).wireOut.length < (r m).wireOut.length := by
  refine (h.fair.fair .uartTx).ensures (P := fun m => n ≤ m ∧ (r m).utx ≠ [])
    (Q := fun m => (r n).wireOut.length < (r m).wireOut.length)
    (fun m ⟨hm, hu⟩ => ?_) (fun m ⟨_, hu⟩ => by simpa [State.canMove] using hu)
    (fun m ⟨hm, hu⟩ hmoves => ?_) ⟨le_rfl, hu⟩
  · have hle := (h.mono hm).2.length_le
    exact ((h.forwards m).inFlight hu).imp (⟨by omega, ·⟩) fun hlt => by omega
  · have hle := (h.mono hm).2.length_le
    have hrun := h.fair.run m
    simp only [State.moves, Bool.and_eq_true, decide_eq_true_eq] at hmoves
    obtain ⟨v, rest, hv⟩ := List.exists_cons_of_ne_nil hu
    rw [hmoves.1] at hrun
    simp only [takeTurn, uartTxTurn, hv] at hrun
    rw [← Host.Outcome.next.inj hrun, List.length_append, List.length_singleton]
    omega

/-- TXC: a pending activation puts a byte that is queued in flight. -/
theorem SendingRun.serviced (h : SendingRun turns r) {n : Nat} (hp : (r n).txPending = true)
    (he : (r n).txf.isEmpty = false) : ∃ m, n ≤ m ∧ (r m).utx ≠ [] := by
  refine (h.fair.fair .txc).ensures
    (P := fun m => (r m).txPending = true ∧ (r m).txf.isEmpty = false)
    (Q := fun m => (r m).utx ≠ [])
    (fun m ⟨hp, he⟩ => ?_) (fun m ⟨hp, _⟩ => ?_) (fun m ⟨hp, he⟩ hmoves => ?_) ⟨hp, he⟩
  · rcases (h.forwards m).queued he with hu | he'
    · exact .inr hu
    · exact ((h.forwards m).pending hp).imp (⟨·, he'⟩) (· he)
  · simp [State.canMove, State.txEnabled, hp, (h.restartable m).txc]
  · have hr := h.restartable m
    have hrun := h.fair.run m
    simp only [State.moves, State.txMicroEnabled, hr.atomic, Bool.not_true, Bool.false_and,
      Bool.and_false, Bool.or_false, Bool.and_eq_true, decide_eq_true_eq] at hmoves
    rw [hmoves.1, takeTurn, txcTurn_eq, if_pos hmoves.2] at hrun
    exact (execTxsvc_restarts hr.noLag.2 hr.depth hrun).2 he

/-- A byte is in flight, or queued with an activation pending. -/
abbrev State.Attended (s : State) : Prop :=
  s.utx ≠ [] ∨ s.txPending = true ∧ s.txf.isEmpty = false

/-- A byte is queued, and FG is `k` micro-steps from the end of its kick. -/
abbrev State.KicksIn (k : Nat) (s : State) : Prop :=
  s.kicking ∧ s.txf.isEmpty = false ∧ s.kickSteps = k

/-- FG: a kick that is due for a queued byte comes nearer, if no byte goes in flight before. -/
theorem SendingRun.kick_nearer (h : SendingRun turns r) {n k : Nat} (hk : (r n).KicksIn k) :
    ∃ m, n ≤ m ∧ ((r m).Attended ∨ ∃ j < k, (r m).KicksIn j) := by
  refine (h.fair.fair .fg).ensures (P := fun m => (r m).KicksIn k)
    (Q := fun m => (r m).Attended ∨ ∃ j < k, (r m).KicksIn j)
    (fun m ⟨hk, he, hsteps⟩ => ?_) (fun m ⟨hk, _⟩ => ?_)
    (fun m ⟨hk, he, hsteps⟩ hmoves => ?_) hk
  · rcases (h.forwards m).queued he with hu | he'
    · exact .inr (.inl (.inl hu))
    · rcases (h.forwards m).kicking hk with hp | hu | ⟨hk', hle⟩
      · exact .inr (.inl (.inr ⟨hp, he'⟩))
      · exact .inr (.inl (.inl (hu he)))
      · rcases hle.lt_or_eq with hlt | heq
        · exact .inr (.inr ⟨_, hsteps ▸ hlt, hk', he', rfl⟩)
        · exact .inl ⟨hk', he', heq.trans hsteps⟩
  · have hc : (r m).fg ≠ .idle := fun hc => State.not_kicking_of_idle hc hk
    simp [State.canMove, State.fgEnabled, hc]
  · have hrun := h.fair.run m
    simp only [State.moves, Bool.and_eq_true, Bool.or_eq_true, decide_eq_true_eq] at hmoves
    have hfg : fgOpTurn (r m) = .next (r (m + 1)) ∨ fgMicroTurn (r m) = .next (r (m + 1)) :=
      hmoves.1.imp (fun ht => by rwa [ht] at hrun) fun ht => by rwa [ht] at hrun
    rcases (h.forwards m).queued he with hu | he'
    · exact .inl (.inl hu)
    · exact (fgTurn_kicks (h.restartable m) hk hfg).imp (fun hp => .inr ⟨hp, he'⟩)
        fun ⟨hk', hlt⟩ => ⟨_, hsteps ▸ hlt, hk', he', rfl⟩

theorem SendingRun.kicked (h : SendingRun turns r) {n k : Nat} (hk : (r n).KicksIn k) :
    ∃ m, n ≤ m ∧ (r m).Attended := by
  induction k using Nat.strong_induction_on generalizing n with
  | _ k ih =>
    obtain ⟨m, hm, hdone | ⟨j, hlt, hj⟩⟩ := h.kick_nearer hk
    · exact ⟨m, hm, hdone⟩
    · obtain ⟨m', hm', hdone⟩ := ih j hlt hj
      exact ⟨m', hm.trans hm', hdone⟩

/-- While a byte of the stream is not on the wire, the wire grows. -/
theorem SendingRun.progress (h : SendingRun turns r) {n : Nat}
    (hn : (r n).wireOut.length < (r n).txStream.length) :
    ∃ m, n ≤ m ∧ (r n).wireOut.length < (r m).wireOut.length := by
  obtain ⟨m, hm, hu⟩ : ∃ m, n ≤ m ∧ (r m).utx ≠ [] := by
    by_cases hu : (r n).utx = []
    · have hlength := (h.restartable n).txStream_length (h.disciplined n).txSound
      rw [hu, List.length_nil] at hlength
      have he : (r n).txf.isEmpty = false := (Fifo.isEmpty_eq_false_iff _).mpr (by omega)
      rcases (h.restartable n).stall he with hp | hu' | hk
      · exact h.serviced hp he
      · exact absurd hu hu'
      · obtain ⟨m, hm, hu | ⟨hp, he⟩⟩ := h.kicked ⟨hk, he, rfl⟩
        · exact ⟨m, hm, hu⟩
        · obtain ⟨m', hm', hu⟩ := h.serviced hp he
          exact ⟨m', hm.trans hm', hu⟩
    · exact ⟨n, le_rfl, hu⟩
  obtain ⟨m', hm', hlt⟩ := h.wire_grows hu
  exact ⟨m', hm.trans hm', ((h.mono hm).2.length_le).trans_lt hlt⟩

/-- The wire comes to be as long as the stream was, by one byte of progress after another. -/
theorem SendingRun.wire_reaches (h : SendingRun turns r) {n m d : Nat} (hm : n ≤ m)
    (hd : (r n).txStream.length ≤ (r m).wireOut.length + d) :
    ∃ m', n ≤ m' ∧ (r n).txStream.length ≤ (r m').wireOut.length := by
  induction d generalizing m with
  | zero => exact ⟨m, hm, hd⟩
  | succ d ih =>
    by_cases hreached : (r n).txStream.length ≤ (r m).wireOut.length
    · exact ⟨m, hm, hreached⟩
    · have hstream := (h.mono hm).1.length_le
      obtain ⟨m', hm', hlt⟩ := h.progress (n := m) (by omega)
      exact ih (hm.trans hm') (by omega)

/-- Settles O60: the wire and the earlier stream are both prefixes of the later stream, and the wire
comes to be as long (`SendingRun.wire_reaches`). -/
theorem fairRunsSendEveryByte : Obligations.FairRunsSendEveryByte := by
  intro turns r hfair hreset hd hr n
  have h := hfair.sendingRun hreset hd hr
  obtain ⟨m, hm, hlength⟩ := h.wire_reaches (n := n) le_rfl (Nat.le_add_left _ _)
  refine ⟨m, hm, List.prefix_of_prefix_length_le (h.mono hm).1 ?_ hlength⟩
  rw [(h.restartable m).txStream, List.append_assoc]
  exact List.prefix_append _ _

end Sys2Proof.Machine
end

section
/-! PROOF. The operations of the scheduler, `INC`, `DISP`, `WORK` and `WAITP`, and their frames (O31 to
O36, O43). -/

namespace Sys2Proof.Machine

variable {s t u : State} {n : Nat} {k : Task}

/-! ## The counters (`10_state.md` rule R36) -/

/-- The counters one tick later. -/
def State.tick (s : State) : State :=
  { s with counters := s.counters.map fun c => (c + 1) % 2 ^ s.cfg.cntW }

theorem State.tick_counter {i : Nat} (hi : i < s.counters.length) :
    s.tick.counter i = (s.counter i + 1) % 2 ^ s.cfg.cntW := by
  simp [State.tick, State.counter, hi]

/-- The reset of a counter leaves every other one; a counter the list does not hold reads 0 anyway. -/
theorem State.counter_of_reset (h : t.counters = s.counters.set n 0) (i : Nat) :
    t.counter i = if i = n then 0 else s.counter i := by
  simp only [State.counter, h, List.getD_eq_getElem?_getD]
  split_ifs with hi
  · subst hi
    by_cases hlt : i < s.counters.length <;> simp [hlt]
  · rw [List.getElem?_set_ne (Ne.symm hi)]

theorem State.counter_of_reset_other (h : t.counters = s.counters.set n 0) {i : Nat}
    (hi : i ≠ n) : t.counter i = s.counter i :=
  (State.counter_of_reset h i).trans (if_neg hi)

/-! ## The operations written out (`43_scheduler.md` rules R171 to R176) -/

theorem exec_inc (s : State) : exec .inc s = .next (s.tick.retire .inc 0) := rfl

theorem exec_disp (n : Nat) (s : State) : exec (.disp n) s = .next (s.dispatch n s.sentence) := rfl

theorem exec_work (s : State) :
    exec .work s = .next ({ s with workLog := s.workLog + 1 }.retire .work 0) := rfl

theorem exec_waitp_of_elapsed (hp : s.periodElapsed = true) :
    exec .waitp s = .next ({ s with periodElapsed := false }.retire .waitp 0) := if_pos hp

theorem exec_waitp_of_held (hp : s.periodElapsed = false) : exec .waitp s = .next s :=
  if_neg (Bool.eq_false_iff.mp hp)

/-- An index that names no task. -/
theorem State.dispatch_of_none (hk : s.task n = none) (str : List Byte) :
    s.dispatch n str = s.rejectWord (operationWord 0xB n 0) := by
  simp only [State.dispatch, hk]

theorem State.dispatch_of_not_due (hk : s.task n = some k) (hdue : s.counter n ≠ k.thresh)
    (str : List Byte) : s.dispatch n str = s.retire (.disp n) (resultWord false false 0) := by
  simp only [State.dispatch, hk, hdue, if_false]

theorem State.dispatch_of_toggle (hk : s.task n = some k) (hdue : s.counter n = k.thresh)
    (ha : k.action = .toggle) (str : List Byte) :
    s.dispatch n str = { s with
      counters := s.counters.set n 0
      indicator := !s.indicator
      fireLog := s.fireLog ++ [(s.iteration, n)]
      fgResult := resultWord false true 0
      trace := s.trace ++ [⟨.foreground, operationWord 0xB n 0, resultWord false true 0⟩] } := by
  rw [State.dispatch_of_due hk hdue, ha]
  rfl

/-- The enqueue of a string leaves none of it, and counts the bytes that fit. -/
theorem State.enqueueString_eq (s : State) (str : List Byte) :
    s.enqueueString str = { s with
      txf := (Fifo.pushAll str s.txf).1
      manualTrigger := s.manualTrigger && decide (min str.length s.txf.room = 0)
      txPending := s.txPending || s.manualTrigger && decide (0 < min str.length s.txf.room)
      enqRem := []
      enqCnt := min str.length s.txf.room
      fgResult := (s.enqueueString str).fgResult
      trace := (s.enqueueString str).trace } := by
  have hrem : (if str = [] then str else []) = [] := by
    split
    · assumption
    · rfl
  have hframe := (State.enqueueString_spec str s).frame
  simp only [hrem, Nat.zero_add] at hframe
  exact hframe

/-- A `REPORT` enqueues the string with the counter reset and the formatter asked. -/
theorem State.dispatch_of_report (hk : s.task n = some k) (hdue : s.counter n = k.thresh)
    (ha : k.action = .report) (str : List Byte) :
    s.dispatch n str = { s with
      counters := s.counters.set n 0
      fireLog := s.fireLog ++ [(s.iteration, n)]
      fmtCalls := s.fmtCalls + 1
      txf := (Fifo.pushAll str s.txf).1
      manualTrigger := s.manualTrigger && decide (min str.length s.txf.room = 0)
      txPending := s.txPending || s.manualTrigger && decide (0 < min str.length s.txf.room)
      enqRem := []
      enqCnt := min str.length s.txf.room
      fgResult := resultWord false true 0
      trace := (s.dispatch n str).trace } := by
  rw [State.dispatch_of_due hk hdue, ha]
  show ({ State.enqueueString { s.fired n with fmtCalls := s.fmtCalls + 1 } str with
    fgResult := resultWord false true 0 } : State) = _
  rw [State.enqueueString_eq]
  rfl

/-- Everything a `DISP` can write but its counter, its firing and what its action writes. -/
theorem State.dispatch_frame (s : State) (n : Nat) (str : List Byte) :
    s.dispatch n str = { s with
      counters := (s.dispatch n str).counters, indicator := (s.dispatch n str).indicator
      fireLog := (s.dispatch n str).fireLog, txf := (s.dispatch n str).txf
      manualTrigger := (s.dispatch n str).manualTrigger, txPending := (s.dispatch n str).txPending
      enqRem := (s.dispatch n str).enqRem, enqCnt := (s.dispatch n str).enqCnt
      fmtCalls := (s.dispatch n str).fmtCalls, fgResult := (s.dispatch n str).fgResult
      trace := (s.dispatch n str).trace } := by
  cases hk : s.task n with
  | none => rw [State.dispatch_of_none hk]; rfl
  | some k =>
    by_cases hdue : s.counter n = k.thresh
    · cases ha : k.action with
      | toggle => rw [State.dispatch_of_toggle hk hdue ha]
      | report => rw [State.dispatch_of_report hk hdue ha]
    · rw [State.dispatch_of_not_due hk hdue]; rfl

/-! ## The obligations -/

/-- Settles O31: the counters one tick later (`State.tick`). -/
theorem incIncrementsEveryCounter : Obligations.IncIncrementsEveryCounter := fun s =>
  ⟨_, exec_inc s, rfl, List.length_map .., fun _ hi =>
    ⟨s.tick_counter hi, fun hlt => (s.tick_counter hi).trans (Nat.mod_eq_of_lt hlt)⟩⟩

/-- Settles O32: neither a counter off its threshold nor an index of no task gets past D1. -/
theorem dispNotDueDoesNothing : Obligations.DispNotDueDoesNothing := fun s t =>
  ⟨fun k hk hdue => by rw [exec_disp, State.dispatch_of_not_due hk hdue, resultWord_flag]; rfl,
    fun hk => by rw [exec_disp, State.dispatch_of_none hk]; rfl⟩

/-- Settles O33: `State.dispatch_of_toggle`. -/
theorem dispTogglesIndicator : Obligations.DispTogglesIndicator := fun s t k hk hdue ha => by
  rw [exec_disp, State.dispatch_of_toggle hk hdue ha, resultWord_flag]
  rfl

/-- Settles O34: what `State.dispatch_of_report` writes, and `Fifo.pushAll_queue` for TXF. -/
theorem dispReportsSentence : Obligations.DispReportsSentence := fun s t k hk hdue ha => by
  refine ⟨_, exec_disp t s, List.length_take_le _ _, ?_⟩
  rw [State.dispatch_of_report hk hdue ha]
  exact ⟨rfl, rfl, rfl, rfl, resultWord_flag true, rfl, Fifo.pushAll_queue s.sentence s.txf, rfl,
    rfl⟩

/-- Settles O35: `WORK` writes only the strobe count. -/
theorem workStrobesOnce : Obligations.WorkStrobesOnce := exec_work

/-- Settles O36: `period_elapsed` decides. -/
theorem waitpConsumesPeriod : Obligations.WaitpConsumesPeriod := fun _ =>
  ⟨exec_waitp_of_elapsed, exec_waitp_of_held⟩

/-- Settles O43: each operation as written out above, and what `Fifo.pushAll` leaves of TXF. -/
theorem schedulerFrame : Obligations.SchedulerFrame := by
  refine fun s t => ⟨fun h => ?_, fun n h => ?_, fun h => ?_, fun h => ?_⟩
  · exact Host.Outcome.next.inj h ▸ rfl
  · obtain rfl := Host.Outcome.next.inj h
    refine ⟨s.dispatch_frame n _, ?_⟩
    cases hk : s.task n with
    | none =>
      rw [State.dispatch_of_none hk]
      exact ⟨fun _ _ => rfl, rfl, rfl, rfl, fun _ _ => rfl, fun _ => ⟨rfl, rfl, rfl, rfl, rfl, rfl⟩,
        fun _ => rfl⟩
    | some k =>
      by_cases hdue : s.counter n = k.thresh
      · cases ha : k.action with
        | toggle =>
          rw [State.dispatch_of_toggle hk hdue ha]
          exact ⟨fun _ => State.counter_of_reset_other rfl, rfl, rfl, rfl, fun _ _ => rfl,
            fun _ => ⟨rfl, rfl, rfl, rfl, rfl, rfl⟩,
            fun h => absurd (ha.symm.trans (h k rfl)) (by decide)⟩
        | report =>
          rw [State.dispatch_of_report hk hdue ha]
          exact ⟨fun _ => State.counter_of_reset_other rfl,
            Fifo.pushAll_capacity _ _, Fifo.pushAll_readIndex _ _,
            Fifo.pushAll_views _ _, fun _ => Fifo.pushAll_slot_other _ _,
            fun h => absurd (ha.symm.trans (h k rfl)) (by decide), fun _ => rfl⟩
      · rw [State.dispatch_of_not_due hk hdue]
        exact ⟨fun _ _ => rfl, rfl, rfl, rfl, fun _ _ => rfl,
          fun _ => ⟨rfl, rfl, rfl, rfl, rfl, rfl⟩, fun _ => rfl⟩
  · exact Host.Outcome.next.inj h ▸ rfl
  · cases hp : s.periodElapsed
    · rw [exec_waitp_of_held hp] at h
      obtain rfl := Host.Outcome.next.inj h
      rw [← hp]
    · rw [exec_waitp_of_elapsed hp] at h
      exact Host.Outcome.next.inj h ▸ rfl

end Sys2Proof.Machine
end

section
/-! PROOF. The sequencer's program and its advance (O9, O10). -/

namespace Sys2Proof.Machine

variable {s u : State} {n pc : Nat}

/-! ## The slots of the program (`43_scheduler.md` rule R170) -/

/-- The operation of slot `pc` of the program for `n` tasks. -/
def slotInstr (n pc : Nat) : Instr :=
  if pc = 0 then .inc
  else if pc ≤ n then .disp (pc - 1)
  else if pc = n + 1 then .work
  else .waitp

@[simp] theorem slotInstr_zero (n : Nat) : slotInstr n 0 = .inc := rfl

theorem slotInstr_disp (h : pc < n) : slotInstr n (pc + 1) = .disp pc := by
  simp [slotInstr, Nat.succ_le_of_lt h]

@[simp] theorem slotInstr_work (n : Nat) : slotInstr n (n + 1) = .work := by simp [slotInstr]

@[simp] theorem slotInstr_waitp (n : Nat) : slotInstr n (n + 2) = .waitp := by simp [slotInstr]

/-- `WAITP` is in the last slot only. -/
theorem slotInstr_eq_waitp (hpc : pc < n + 3) (h : slotInstr n pc = .waitp) : pc = n + 2 := by
  unfold slotInstr at h
  split_ifs at h
  omega

theorem slotInstr_sequenced (n pc : Nat) : Instr.sequenced (slotInstr n pc) := by
  unfold slotInstr
  split_ifs <;> trivial

/-- The word in each slot is the word of the slot's operation; a task index has four bits. -/
theorem sequencerWord_slot (hpc : pc < n + 3) (hsel : pc ≤ n → pc ≤ 16) :
    ∃ w, sequencerWord n pc = some w ∧ decode n w = .ok (slotInstr n pc) := by
  have hword : ∃ w, sequencerWord n pc = some w ∧ encode (slotInstr n pc) = [w] := by
    unfold sequencerWord slotInstr
    split_ifs
    case neg => omega
    all_goals exact ⟨_, rfl, rfl⟩
  have hshape : (slotInstr n pc).hasWord = true ∧ (slotInstr n pc).wellFormed n = true := by
    unfold slotInstr
    split_ifs with hinc hdisp
    · exact ⟨rfl, rfl⟩
    · have := hsel hdisp
      have hindex : pc - 1 < n ∧ pc - 1 < 16 := by omega
      exact ⟨rfl, by simpa [Instr.wellFormed, taskIndexOk] using hindex⟩
    · exact ⟨rfl, rfl⟩
    · exact ⟨rfl, rfl⟩
  obtain ⟨w, hw, he⟩ := hword
  obtain ⟨w', he', hd⟩ := decode_encode hshape.1 hshape.2
  obtain rfl := List.singleton_inj.mp (he.symm.trans he')
  exact ⟨w, hw, hd⟩

/-- Settles O9: each slot by `sequencerWord_slot`, and the words for two tasks evaluated. -/
theorem sequencerProgram : Obligations.SequencerProgram := by
  refine ⟨fun n hn => ⟨?_, fun t ht => ?_, ?_, ?_, fun pc hpc => ?_⟩, by decide⟩
  · exact sequencerWord_slot (by omega) (by omega)
  · rw [← slotInstr_disp ht, Nat.add_comm 1 t]
    exact sequencerWord_slot (by omega) (by omega)
  · rw [← slotInstr_work n]
    exact sequencerWord_slot (by omega) (by omega)
  · rw [← slotInstr_waitp n]
    exact sequencerWord_slot (by omega) (by omega)
  · unfold sequencerWord
    split_ifs
    case neg => rfl
    all_goals omega

/-! ## FG's turn at a slot (`60_exceptions.md` rules R211, R213) -/

/-- The sequencer drives FG, which is at the operation boundary of a slot whose word, if it names a
task, can name it. -/
structure State.AtSlot (s : State) : Prop where
  source : s.source = .sequencer
  fg : s.fg = .idle
  schPc : s.schPc < s.cfg.ntask + 3
  sel : s.schPc ≤ s.cfg.ntask → s.schPc ≤ 16

/-- The operation of the slot FG is at. -/
abbrev State.slotOp (s : State) : Instr := slotInstr s.cfg.ntask s.schPc

/-- The word on the foreground bus is the word of the slot's operation. -/
theorem State.AtSlot.word (h : s.AtSlot) : ∃ w, s.nextWord = some w ∧
    decodeOn s.cfg.ntask s.source .foreground w = .ok s.slotOp := by
  obtain ⟨w, hw, hd⟩ := sequencerWord_slot h.schPc h.sel
  exact ⟨w, (nextWord_of_sequencer h.source).trans hw,
    decodeOn_eq_ok.mpr ⟨hd, busAllows_of_sequenced (slotInstr_sequenced _ _)⟩⟩

theorem State.AtSlot.fgIssue (h : s.AtSlot) (run : Instr → State → Result) :
    Machine.fgIssue run s = if s.holds s.slotOp then .next s else run s.slotOp s := by
  obtain ⟨w, hn, hd⟩ := h.word
  cases hh : s.holds s.slotOp
  · rw [fgIssue_of_ok hn hd hh, takeWord_of_sequencer h.source]
    rfl
  · exact fgIssue_of_holds hn hd hh

theorem State.AtSlot.fgEnabled (h : s.AtSlot) : s.fgEnabled = !s.holds s.slotOp := by
  obtain ⟨w, hn, hd⟩ := h.word
  simp [State.fgEnabled, h.fg, hn, hd]

/-- FG is held at `WAITP` only, and only while `period_elapsed` is 0. -/
theorem State.AtSlot.holds (h : s.AtSlot) : s.holds s.slotOp = true ↔
    s.schPc = s.cfg.ntask + 2 ∧ s.periodElapsed = false := by
  simp only [State.holds, Bool.and_eq_true, decide_eq_true_eq, Bool.not_eq_true']
  refine and_congr_left' ⟨slotInstr_eq_waitp h.schPc, fun hpc => ?_⟩
  rw [State.slotOp, hpc, slotInstr_waitp]

theorem State.AtSlot.fgOpTurn (h : s.AtSlot)
    (hp : s.schPc = s.cfg.ntask + 2 → s.periodElapsed = true) :
    Machine.fgOpTurn s = mapNext State.finish (exec s.slotOp s) := by
  have hh : ¬ s.holds s.slotOp = true := fun hh => by
    obtain ⟨hpc, hheld⟩ := h.holds.mp hh
    rw [hp hpc] at hheld
    cases hheld
  rw [fgOpTurn_of_idle h.fg, h.fgIssue, if_neg hh]
  rfl

/-! ## The advance (`43_scheduler.md` rule R177) -/

/-- What an operation of the sequencer's program leaves for the advance. -/
structure State.PositionKept (s t : State) : Prop where
  cfg : t.cfg = s.cfg := by rfl
  source : t.source = s.source := by rfl
  schPc : t.schPc = s.schPc := by rfl
  iteration : t.iteration = s.iteration := by rfl

theorem exec_sequenced {i : Instr} (hi : Instr.sequenced i) (s : State) :
    ∃ t, exec i s = .next t ∧ s.PositionKept t := by
  cases i with
  | inc | work => exact ⟨_, rfl, {}⟩
  | disp n =>
    refine ⟨_, exec_disp n s, ?_⟩
    rw [State.dispatch_frame]
    exact {}
  | waitp =>
    cases hp : s.periodElapsed
    · exact ⟨s, exec_waitp_of_held hp, {}⟩
    · exact ⟨_, exec_waitp_of_elapsed hp, {}⟩
  | push | pop | isempty | isfull | enqb | kick | rxsvc | txsvc | enq => exact hi.elim

theorem State.finish_schPc (hs : s.source = .sequencer) :
    s.finish.schPc = (s.schPc + 1) % (s.cfg.ntask + 3) := by
  rw [finish_of_sequencer hs, State.advance]

/-- The return to slot 0 ends the iteration. -/
theorem State.finish_iteration (hs : s.source = .sequencer) (hpc : s.schPc < s.cfg.ntask + 3) :
    s.finish.iteration =
      if s.schPc = s.cfg.ntask + 2 then s.iteration + 1 else s.iteration := by
  have hzero : (s.schPc + 1) % (s.cfg.ntask + 3) = 0 ↔ s.schPc = s.cfg.ntask + 2 := by
    rw [← Nat.dvd_iff_mod_eq_zero]
    refine ⟨fun h => ?_, fun h => by rw [h]⟩
    have := Nat.le_of_dvd (Nat.succ_pos _) h
    omega
  rw [finish_of_sequencer hs, State.advance]
  simp only [hzero]

/-- The whole operation of a slot is done, and FG is at the next slot. -/
structure State.Advanced (s t : State) : Prop where
  cfg : t.cfg = s.cfg
  fg : t.fg = .idle
  schPc : t.schPc = (s.schPc + 1) % (s.cfg.ntask + 3)
  iteration : t.iteration =
    if s.schPc = s.cfg.ntask + 2 then s.iteration + 1 else s.iteration

theorem State.AtSlot.advanced {i : Instr} (h : s.AtSlot) (hi : s.slotOp = i)
    (hu : exec i s = .next u) : s.Advanced u.finish := by
  have hk := of_next (exec_sequenced (hi ▸ slotInstr_sequenced _ _) s) hu
  have hsource : u.source = .sequencer := hk.source.trans h.source
  have hlt : u.schPc < u.cfg.ntask + 3 := by rw [hk.schPc, hk.cfg]; exact h.schPc
  refine ⟨u.finish_cfg.trans hk.cfg, u.finish_fg, ?_, ?_⟩
  · rw [State.finish_schPc hsource, hk.schPc, hk.cfg]
  · rw [State.finish_iteration hsource hlt, hk.schPc, hk.cfg, hk.iteration]

/-- Settles O10: the slot's operation keeps the position, and its end advances it
(`State.AtSlot.advanced`). -/
theorem sequencerAdvances : Obligations.SequencerAdvances := by
  intro s hsource hfg hn hpc
  have h : s.AtSlot := ⟨hsource, hfg, hpc, fun hle => hle.trans hn⟩
  refine ⟨fun hp => ?_, fun hlast hheld => ?_⟩
  · obtain ⟨u, hu, -⟩ := exec_sequenced (slotInstr_sequenced s.cfg.ntask s.schPc) s
    have hadv := h.advanced rfl hu
    exact ⟨u.finish, by rw [h.fgOpTurn hp, hu]; rfl, hadv.schPc, hadv.fg, hadv.iteration⟩
  · rw [fgOpTurn_of_idle hfg, h.fgIssue, if_pos (h.holds.mpr ⟨hlast, hheld⟩)]

end Sys2Proof.Machine
end

section
/-! PROOF. Every step keeps each counter below its threshold but between `INC` and its own `DISP`
(O53). -/

namespace Sys2Proof.Machine

variable {s t : State} {n : Nat} {k : Task}

/-! ## What the counter invariant speaks of -/

/-- The sequencer's slot and its counters are as they were. -/
structure State.CountersKept (s t : State) : Prop where
  cfg : t.cfg = s.cfg := by simp
  source : t.source = s.source := by simp
  counters : t.counters = s.counters := by simp
  schPc : t.schPc = s.schPc := by simp

theorem State.CountersKept.task (h : s.CountersKept t) (i : Nat) : t.task i = s.task i := by
  rw [State.task, h.cfg, State.task]

theorem State.CountersKept.counter (h : s.CountersKept t) (i : Nat) :
    t.counter i = s.counter i := by
  rw [State.counter, h.counters, State.counter]

theorem State.task_lt (h : s.task n = some k) : n < s.cfg.ntask :=
  (List.getElem?_eq_some_iff.mp h).1

/-- A legal threshold is positive and fits the counter's register (`10_state.md` rule R37). -/
theorem State.thresh_bounds (hlegal : s.cfg.legal = true) (h : s.task n = some k) :
    1 ≤ k.thresh ∧ k.thresh < 2 ^ s.cfg.cntW := by
  obtain ⟨htasks, -⟩ := (Config.legal_iff _).mp hlegal
  exact htasks k (List.mem_of_getElem? h)

theorem State.Scheduled.counter_lt (h : s.Scheduled) (hpc : s.schPc = 0)
    (hk : s.task n = some k) : s.counter n < k.thresh :=
  (h.counter n k hk).resolve_right fun ⟨_, hpos, _⟩ => by omega

/-- The operation of the current slot has done its work on the counters: only those whose `DISP` is
still to come may stand at their threshold. -/
structure State.SlotDone (s : State) : Prop where
  source : s.source = .sequencer
  legal : s.cfg.legal = true
  length : s.counters.length = s.cfg.ntask
  schPc : s.schPc < s.cfg.ntask + 3
  counter : ∀ i k, s.task i = some k →
    s.counter i < k.thresh ∨ (s.counter i = k.thresh ∧ s.schPc ≤ i)

theorem State.SlotDone.congr (h : s.SlotDone) (hk : s.CountersKept t) : t.SlotDone where
  source := hk.source.trans h.source
  legal := hk.cfg ▸ h.legal
  length := by rw [hk.counters, hk.cfg]; exact h.length
  schPc := by rw [hk.schPc, hk.cfg]; exact h.schPc
  counter i k hik := by
    rw [hk.task] at hik
    rw [hk.counter, hk.schPc]
    exact h.counter i k hik

/-- A slot whose task, if it has one, is below its threshold. -/
theorem State.Scheduled.slotDone (h : s.Scheduled)
    (hdone : ∀ i k, s.schPc = i + 1 → s.task i = some k → s.counter i ≠ k.thresh) : s.SlotDone where
  source := h.source
  legal := h.legal
  length := h.length
  schPc := h.schPc
  counter i k hk := (h.counter i k hk).imp_right fun ⟨heq, _, hle⟩ =>
    ⟨heq, Nat.le_of_lt_succ (hle.lt_of_ne fun hpc => hdone i k hpc hk heq)⟩

/-- A slot after the last task's. -/
theorem State.Scheduled.slotDone_of_lt (h : s.Scheduled) (hpc : s.cfg.ntask < s.schPc) :
    s.SlotDone :=
  h.slotDone fun i k hi hk => by
    have := State.task_lt hk
    omega

theorem State.Scheduled.slotDone_of_taskReset (h : s.Scheduled) (hr : s.taskReset n) :
    s.SlotDone := by
  obtain ⟨hpc, hlt⟩ := hr
  refine h.slotDone fun i k hi hk => ?_
  obtain rfl : i = n := by omega
  exact (hlt k hk).ne

theorem State.SlotDone.taskReset (h : s.SlotDone) (hpc : s.schPc = n + 1) : s.taskReset n :=
  ⟨hpc, fun k hk => (h.counter n k hk).resolve_right fun ⟨_, hle⟩ => by omega⟩

/-- After the advance a counter at its threshold still stands before the end of its own `DISP`. -/
theorem State.SlotDone.finish (h : s.SlotDone) : s.finish.Scheduled where
  source := by rw [State.finish_source]; exact h.source
  legal := by rw [State.finish_cfg]; exact h.legal
  length := by rw [State.finish_counters, State.finish_cfg]; exact h.length
  schPc := s.finish_bookkeeping.schPc h.schPc
  slot := by rw [State.inSlot, State.finish_fg]; trivial
  counter i k hk := by
    have hfin : s.CountersKept { s.finish with schPc := s.schPc } := {}
    have htask : s.task i = some k := (hfin.task i).symm.trans hk
    have hcounter : s.finish.counter i = s.counter i := hfin.counter i
    rw [hcounter, State.finish_schPc h.source]
    refine (h.counter i k htask).imp_right fun ⟨heq, hle⟩ => ?_
    have hlt := State.task_lt htask
    rw [Nat.mod_eq_of_lt (by omega)]
    exact ⟨heq, by omega⟩

/-- FG stays inside the `DISP` of the slot. -/
theorem State.SlotDone.inside (h : s.SlotDone) (hpc : s.schPc = n + 1) (hk : s.CountersKept t)
    (hslot : t.taskReset n → t.inSlot) : t.Scheduled where
  source := (h.congr hk).source
  legal := (h.congr hk).legal
  length := (h.congr hk).length
  schPc := (h.congr hk).schPc
  slot := hslot ((h.congr hk).taskReset (hk.schPc.trans hpc))
  counter i k hik := ((h.congr hk).counter i k hik).imp_right fun ⟨heq, hle⟩ =>
    ⟨heq, by rw [hk.schPc]; omega, by omega⟩

theorem State.inSlot_congr (hk : s.CountersKept t) (hfg : t.fg = s.fg) (h : s.inSlot) :
    t.inSlot := by
  have hreset : ∀ i, s.taskReset i → t.taskReset i := fun i ⟨hpc, hlt⟩ =>
    ⟨hk.schPc.trans hpc, fun k hik => by rw [hk.counter]; exact hlt k (hk.task i ▸ hik)⟩
  unfold State.inSlot at h ⊢
  rw [hfg]
  split at h
  case h_1 => trivial
  case h_2 => exact hk.schPc.trans h
  case h_10 => exact h.elim
  all_goals exact hreset _ h

/-- A turn that moves at most FG's position, and within its slot. -/
theorem State.Scheduled.congr (h : s.Scheduled) (hk : s.CountersKept t) (hslot : t.inSlot) :
    t.Scheduled where
  source := hk.source.trans h.source
  legal := hk.cfg ▸ h.legal
  length := by rw [hk.counters, hk.cfg]; exact h.length
  schPc := by rw [hk.schPc, hk.cfg]; exact h.schPc
  slot := hslot
  counter i k hik := by
    rw [hk.task] at hik
    rw [hk.counter, hk.schPc]
    exact h.counter i k hik

/-! ## The micro-steps of a `REPORT` (`43_scheduler.md` rule R176) -/

theorem State.SlotDone.endString (h : s.SlotDone) (o : Outer) : (s.endString o).Scheduled := by
  cases o with
  | single | enq => exact h.finish
  | report i => exact (h.congr (t := { s with fgResult := resultWord false true 0 }) {}).finish

theorem State.SlotDone.resumeString (h : s.SlotDone) (hpc : s.schPc = n + 1) :
    (s.resumeString (.report n)).Scheduled := by
  unfold State.resumeString
  split
  · exact h.endString _
  · exact h.inside hpc {} id

theorem State.SlotDone.endEnqb (h : s.SlotDone) (hpc : s.schPc = n + 1) (b : Byte)
    (stored : Bool) : (s.endEnqb (.report n) b stored).Scheduled := by
  rw [State.endEnqb_eq]
  exact State.SlotDone.resumeString (h.congr {}) hpc

theorem State.SlotDone.beginEnqb (h : s.SlotDone) (hpc : s.schPc = n + 1) (b : Byte) :
    (s.beginEnqb (.report n) b).Scheduled := by
  unfold State.beginEnqb
  split
  · exact h.endEnqb hpc b false
  · exact h.inside hpc {} id

theorem State.SlotDone.beginAction (h : s.SlotDone) (hpc : s.schPc = n + 1) :
    (s.beginAction n).Scheduled := by
  unfold State.beginAction
  split
  · exact h.finish
  · split
    · exact (h.congr (t := { s.toggle with fgResult := resultWord false true 0 }) {}).finish
    · exact h.inside hpc ⟨rfl, rfl, rfl, rfl⟩ id

/-! ## FG's micro-steps -/

/-- D2 resets the counter of the slot's task. -/
theorem State.Scheduled.fired (h : s.Scheduled) (hpc : s.schPc = n + 1) : (s.fired n).SlotDone where
  source := h.source
  legal := h.legal
  length := List.length_set.trans h.length
  schPc := h.schPc
  counter i k hk := by
    have hcounter := State.counter_of_reset (s := s) (t := s.fired n) (n := n) rfl i
    by_cases hi : i = n
    · rw [hcounter, if_pos hi]
      exact .inl (State.thresh_bounds h.legal hk).1
    · rw [hcounter, if_neg hi]
      refine (h.counter i k hk).imp_right fun ⟨heq, _, hle⟩ => ⟨heq, ?_⟩
      show s.schPc ≤ i
      omega

/-- Every later micro-step. The split of `inSlot` numbers FG's positions: `h_1` is the boundary, `h_2`
is D2, `h_3` D3, and `h_4` to `h_9` the `ENQB`s of a report in the order of `FgCtx`. -/
theorem fgContinue_scheduled (hs : s.Scheduled) (h : fgContinue s = .next t) : t.Scheduled := by
  have hslot := hs.slot
  unfold State.inSlot at hslot
  split at hslot <;> rename_i hc <;> simp only [fgContinue, hc] at h
  case h_1 => exact Host.Outcome.next.inj h ▸ hs
  case h_2 => exact Host.Outcome.next.inj h ▸ (hs.fired hslot).inside hslot ⟨rfl, rfl, rfl, rfl⟩ id
  case h_3 =>
    exact Host.Outcome.next.inj h ▸ (hs.slotDone_of_taskReset hslot).beginAction hslot.1
  case h_4 =>
    have hdone := hs.slotDone_of_taskReset hslot
    split at h <;> obtain rfl := Host.Outcome.next.inj h
    · exact hdone.endString _
    · exact hdone.beginEnqb hslot.1 _
  case h_7 b =>
    have hdone := hs.slotDone_of_taskReset hslot
    split at h <;> obtain rfl := Host.Outcome.next.inj h
    · exact hdone.inside hslot.1 {} id
    · exact hdone.endEnqb hslot.1 b true
  case h_5 | h_6 | h_8 =>
    exact Host.Outcome.next.inj h ▸ (hs.slotDone_of_taskReset hslot).inside hslot.1 {} id
  case h_9 b =>
    have hdone := (hs.slotDone_of_taskReset hslot).congr (t := s.requestTx) {}
    exact Host.Outcome.next.inj h ▸ hdone.endEnqb hslot.1 b true
  case h_10 => exact hslot.elim

/-- After `INC` a counter may stand at its threshold, and its `DISP` is still to come. -/
theorem State.Scheduled.tick (h : s.Scheduled) (hpc : s.schPc = 0) : s.tick.SlotDone where
  source := h.source
  legal := h.legal
  length := (List.length_map ..).trans h.length
  schPc := h.schPc
  counter i k hk := by
    have hlt := h.counter_lt hpc hk
    have hbound := State.thresh_bounds h.legal hk
    rw [s.tick_counter (h.length ▸ State.task_lt hk), Nat.mod_eq_of_lt (by omega)]
    have hle : s.tick.schPc ≤ i := hpc ▸ Nat.zero_le i
    omega

theorem State.Scheduled.atSlot (h : s.Scheduled) (hfg : s.fg = .idle) : s.AtSlot where
  source := h.source
  fg := hfg
  schPc := h.schPc
  sel hle := hle.trans ((Config.legal_iff _).mp h.legal).2.2.2

theorem exec_waitp_countersKept (s : State) :
    ∃ t, exec .waitp s = .next t ∧ s.CountersKept t := by
  cases hp : s.periodElapsed
  · exact ⟨s, exec_waitp_of_held hp, {}⟩
  · exact ⟨_, exec_waitp_of_elapsed hp, {}⟩

/-- The first micro-step of the slot's operation. -/
theorem fgBegin_scheduled (hs : s.Scheduled) (h : fgBegin s.slotOp s = .next t) : t.Scheduled := by
  unfold State.slotOp slotInstr at h
  split_ifs at h with hinc hdisp hwork
  · obtain rfl := Host.Outcome.next.inj h
    exact ((hs.tick hinc).congr (t := s.tick.retire .inc 0) {}).finish
  · obtain ⟨n, hpc⟩ := Nat.exists_eq_add_one_of_ne_zero hinc
    rw [hpc, Nat.add_sub_cancel] at h
    simp only [fgBegin] at h
    split at h
    case h_1 hk =>
      have hdone := hs.slotDone fun i k hi hik => by
        obtain rfl : i = n := by omega
        cases hk.symm.trans hik
      exact Host.Outcome.next.inj h ▸ State.SlotDone.finish (hdone.congr {})
    case h_2 task hk =>
      split at h <;> obtain rfl := Host.Outcome.next.inj h
      · exact hs.congr {} hpc
      · have hdone := hs.slotDone fun i k hi hik => by
          obtain rfl : i = n := by omega
          obtain rfl := Option.some.inj (hk.symm.trans hik)
          assumption
        exact State.SlotDone.finish (hdone.congr {})
  · have hdone := hs.slotDone_of_lt (by omega)
    exact Host.Outcome.next.inj h ▸ State.SlotDone.finish (hdone.congr {})
  · have hdone := hs.slotDone_of_lt (by omega)
    obtain ⟨u, hu, hk⟩ := exec_waitp_countersKept s
    rw [fgBegin_of_leavesFifos (i := .waitp) trivial, runWhole, hu] at h
    exact Host.Outcome.next.inj h ▸ State.SlotDone.finish (hdone.congr hk)

/-! ## FG's turns -/

/-- A whole operation establishes what its first micro-step establishes and the later ones keep. -/
theorem runWhole_induction {P : State → Prop} {i : Instr}
    (hbegin : ∀ {u}, fgBegin i s = .next u → P u)
    (hcontinue : ∀ {u v}, P u → fgContinue u = .next v → P v) (h : runWhole i s = .next t) :
    P t := by
  have later : ∀ {m u}, P u → fgContinueN m u = .next t → P t := fun {m} => by
    induction m with
    | zero => exact fun hu h => Host.Outcome.next.inj h ▸ hu
    | succ m ih =>
      intro u hu h
      simp only [fgContinueN, andThen] at h
      split at h
      · exact ih (hcontinue hu ‹_›) h
      · cases h
      · cases h
  obtain ⟨m, hm⟩ := refinesWhole i s
  rw [← hm] at h
  unfold andThen at h
  split at h
  · exact later (hbegin ‹_›) h
  · cases h
  · cases h

theorem fgTurn_scheduled (hs : s.Scheduled)
    (h : fgOpTurn s = .next t ∨ fgMicroTurn s = .next t) : t.Scheduled := by
  by_cases hc : s.fg = .idle
  · rw [fgOpTurn_of_idle hc, fgMicroTurn_of_idle hc, (hs.atSlot hc).fgIssue,
      (hs.atSlot hc).fgIssue] at h
    split at h
    · rw [or_self] at h
      exact Host.Outcome.next.inj h ▸ hs
    · exact h.elim (runWhole_induction (fgBegin_scheduled hs) fgContinue_scheduled)
        (fgBegin_scheduled hs)
  · rw [fgOpTurn_of_ctx hc, fgMicroTurn_of_ctx hc, or_self] at h
    exact fgContinue_scheduled hs h

/-! ## The other agents -/

/-- FG and the sequencer are as they were, and a period that is over stays so. -/
structure State.FgKept (s t : State) : Prop extends State.CountersKept s t where
  fg : t.fg = s.fg := by simp
  iteration : t.iteration = s.iteration := by simp
  periodElapsed : s.periodElapsed = true → t.periodElapsed = true := by simp

/-- RXC is as it was, and a request of it stays. -/
structure State.RxcKept (s t : State) : Prop where
  rxc : t.rxc = s.rxc := by simp
  rxPending : s.rxPending = true → t.rxPending = true := by simp

/-- TXC is as it was, and a request of it stays. -/
structure State.TxcKept (s t : State) : Prop where
  txc : t.txc = s.txc := by simp
  txPending : s.txPending = true → t.txPending = true := by simp

theorem rxcMicro_frame (h : rxcMicro s = .next t) : s.FgKept t ∧ s.TxcKept t := by
  cases hc : s.rxc <;> simp only [rxcMicro, hc] at h
  case idle | x2 | x4P1 =>
    split at h <;> exact Host.Outcome.next.inj h ▸ ⟨{}, {}⟩
  case x3 =>
    cases hu : s.urx with
    | nil => simp only [State.ioRead, hu] at h; cases h
    | cons b rest =>
      simp only [State.ioRead, hu] at h
      exact Host.Outcome.next.inj h ▸ ⟨{}, {}⟩
  case x4P2 | x4P3 => exact Host.Outcome.next.inj h ▸ ⟨{}, {}⟩

theorem txcMicro_frame (h : txcMicro s = .next t) : s.FgKept t ∧ s.RxcKept t := by
  cases hc : s.txc <;> simp only [txcMicro, hc] at h
  case idle | t3Room | t3Empty =>
    split at h <;> exact Host.Outcome.next.inj h ▸ ⟨{}, {}⟩
  case t2Read | t2Write | t4C3 => exact Host.Outcome.next.inj h ▸ ⟨{}, {}⟩
  case t4C1 | t4C2 | t5 =>
    split at h
    · cases h
    · exact Host.Outcome.next.inj h ▸ ⟨{}, {}⟩

theorem execTxsvc_frame (h : exec .txsvc s = .next t) : s.FgKept t ∧ s.RxcKept t := by
  obtain ⟨u, hdrained, rfl⟩ := execTxsvc_drained_of_next h
  rw [hdrained.frame]
  exact ⟨{}, {}⟩

/-- What a turn that is not FG's leaves of FG, and of a controller whose turn it is not. -/
theorem takeTurn_frame {turn : Turn} (hfg : turn ≠ .op ∧ turn ≠ .micro) (hreset : turn ≠ .reset)
    (h : takeTurn turn s = .next t) : s.FgKept t ∧
      (turn ≠ .rxc → turn ≠ .rxcMicro → s.RxcKept t) ∧
      (turn ≠ .txc → turn ≠ .txcMicro → s.TxcKept t) := by
  have passed : Host.Outcome.next s = (.next t : Result) →
      s.FgKept t ∧ s.RxcKept t ∧ s.TxcKept t := fun h => Host.Outcome.next.inj h ▸ ⟨{}, {}, {}⟩
  have all : s.FgKept t ∧ s.RxcKept t ∧ s.TxcKept t → s.FgKept t ∧
      (turn ≠ .rxc → turn ≠ .rxcMicro → s.RxcKept t) ∧
      (turn ≠ .txc → turn ≠ .txcMicro → s.TxcKept t) :=
    fun ⟨hf, hr, ht⟩ => ⟨hf, fun _ _ => hr, fun _ _ => ht⟩
  cases turn with
  | op => exact absurd rfl hfg.1
  | micro => exact absurd rfl hfg.2
  | rxc =>
    simp only [takeTurn, rxcTurn_eq, exec_rxsvc] at h
    split at h
    · exact Host.Outcome.next.inj h ▸ ⟨{}, fun hr => absurd rfl hr, fun _ _ => {}⟩
    · exact all (passed h)
  | rxcMicro =>
    simp only [takeTurn, rxcMicroTurn] at h
    split at h
    · exact all (passed h)
    · exact ⟨(rxcMicro_frame h).1, fun _ hr => absurd rfl hr, fun _ _ => (rxcMicro_frame h).2⟩
  | txc =>
    simp only [takeTurn, txcTurn_eq] at h
    split at h
    · exact ⟨(execTxsvc_frame h).1, fun _ _ => (execTxsvc_frame h).2, fun ht => absurd rfl ht⟩
    · exact all (passed h)
  | txcMicro =>
    simp only [takeTurn, txcMicroTurn] at h
    split at h
    · exact all (passed h)
    · exact ⟨(txcMicro_frame h).1, fun _ _ => (txcMicro_frame h).2, fun _ ht => absurd rfl ht⟩
  | uartRx v =>
    simp only [takeTurn, uartRxTurn] at h
    split at h
    · exact all (Host.Outcome.next.inj h ▸ ⟨{}, {}, {}⟩)
    · cases h
  | uartTx =>
    simp only [takeTurn, uartTxTurn] at h
    split at h <;> exact all (Host.Outcome.next.inj h ▸ ⟨{}, {}, {}⟩)
  | timer | syncFclk | syncSclk => exact all (Host.Outcome.next.inj h ▸ ⟨{}, {}, {}⟩)
  | reset => exact absurd rfl hreset

theorem State.hardReset_scheduled (hsource : s.source = .sequencer)
    (hlegal : s.cfg.legal = true) : s.hardReset.Scheduled where
  source := hsource
  legal := hlegal
  length := List.length_replicate
  schPc := Nat.succ_pos _
  slot := trivial
  counter i k hk := by
    have hpos := (State.thresh_bounds hlegal hk).1
    have hzero : s.hardReset.counter i = 0 := by simp [State.counter, State.hardReset]
    rw [hzero]
    exact .inl hpos

theorem takeTurn_scheduled {turn : Turn} (hs : s.Scheduled) (h : takeTurn turn s = .next t) :
    t.Scheduled := by
  by_cases hfg : turn = .op ∨ turn = .micro
  · exact fgTurn_scheduled hs
      (hfg.imp (fun ht => by rwa [ht] at h) fun ht => by rwa [ht] at h)
  by_cases hreset : turn = .reset
  · subst hreset
    exact Host.Outcome.next.inj h ▸ State.hardReset_scheduled hs.source hs.legal
  · obtain ⟨hk, -⟩ := takeTurn_frame (not_or.mp hfg) hreset h
    exact hs.congr hk.toCountersKept (State.inSlot_congr hk.toCountersKept hk.fg hs.slot)

/-- Settles O53: the step is the turn of some agent (`takeTurn_scheduled`). -/
theorem countersStayBelowThreshold : Obligations.CountersStayBelowThreshold := by
  refine fun s hs => ⟨fun t h => ?_, fun hpc _ _ => hs.counter_lt hpc⟩
  obtain ⟨turn, l, n, hstep⟩ := step_eq_takeTurn s
  rw [hstep] at h
  exact takeTurn_scheduled (s := { s with agenda := l, turnNo := n }) { hs with } h

end Sys2Proof.Machine
end

section
/-! PROOF. One iteration of the sequencer, and in which iterations a task fires (O51, O52). -/

namespace Sys2Proof.Machine

variable {s t u : State} {n : Nat} {k : Task}

/-! ## Schedules -/

theorem runTurns_append {l m : List Turn} (hl : runTurns l s = .next t)
    (hm : runTurns m t = .next u) : runTurns (l ++ m) s = .next u := by
  induction l generalizing s with
  | nil => exact Host.Outcome.next.inj hl ▸ hm
  | cons turn l ih =>
    simp only [List.cons_append, runTurns, andThen] at hl ⊢
    split at hl
    · exact ih hl
    · cases hl
    · cases hl

theorem runTurns_singleton {turn : Turn} (h : takeTurn turn s = .next t) :
    runTurns [turn] s = .next t := by
  simp only [runTurns, h, andThen]

theorem State.finish_counter (s : State) (i : Nat) : s.finish.counter i = s.counter i := by
  rw [State.counter, State.finish_counters, State.counter]

/-- The whole operation of the slot FG is at. -/
theorem State.Scheduled.op {i : Instr} (h : s.Scheduled) (hfg : s.fg = .idle) (hi : s.slotOp = i)
    (hp : s.schPc = s.cfg.ntask + 2 → s.periodElapsed = true) (hu : exec i s = .next u) :
    takeTurn .op s = .next u.finish ∧ u.finish.Scheduled ∧ s.Advanced u.finish := by
  have hturn : takeTurn .op s = .next u.finish := by
    rw [takeTurn, (h.atSlot hfg).fgOpTurn hp, hi, hu]
    rfl
  exact ⟨hturn, takeTurn_scheduled h hturn, (h.atSlot hfg).advanced hi hu⟩

/-! ## What a `DISP` does to its task (`43_scheduler.md` rule R172) -/

theorem State.dispatch_fires (hk : s.task n = some k) (str : List Byte) :
    (s.dispatch n str).fireLog =
        s.fireLog ++ (if s.counter n = k.thresh then [(s.iteration, n)] else []) ∧
      ∀ i, (s.dispatch n str).counter i =
        if i = n ∧ s.counter n = k.thresh then 0 else s.counter i := by
  by_cases hdue : s.counter n = k.thresh
  · simp only [hdue, if_true, and_true]
    cases ha : k.action with
    | toggle =>
      rw [State.dispatch_of_toggle hk hdue ha]
      exact ⟨rfl, State.counter_of_reset rfl⟩
    | report =>
      rw [State.dispatch_of_report hk hdue ha]
      exact ⟨rfl, State.counter_of_reset rfl⟩
  · rw [State.dispatch_of_not_due hk hdue]
    simp only [hdue, and_false, if_false, List.append_nil]
    exact ⟨rfl, fun _ => rfl⟩

/-! ## One iteration (`43_scheduler.md` rules R170, R177 to R179) -/

/-- Task `i` fires in the iteration about to start. -/
def State.isDue (s : State) (i : Nat) : Bool :=
  match s.task i with
  | some k => decide (s.counter i + 1 = k.thresh)
  | none => false

theorem State.isDue_of_task (hk : s.task n = some k) :
    s.isDue n = decide (s.counter n + 1 = k.thresh) := by
  simp only [State.isDue, hk]

/-- The tasks before `p` that fire in the iteration about to start. -/
def State.dueBefore (s : State) (p : Nat) : List Nat := (List.range p).filter s.isDue

theorem State.dueTasks_eq (s : State) : s.dueTasks = s.dueBefore s.cfg.ntask := rfl

theorem State.dueBefore_succ (hk : s.task n = some k) :
    s.dueBefore (n + 1) = s.dueBefore n ++ if s.counter n + 1 = k.thresh then [n] else [] := by
  rw [State.dueBefore, List.range_succ, List.filter_append, ← State.dueBefore,
    List.filter_singleton, State.isDue_of_task hk]
  simp

/-- `u` is reached from `s` at slot 0 by `INC` and the `DISP`s of the tasks before `p`. -/
structure State.Dispatched (s : State) (p : Nat) (u : State) : Prop where
  scheduled : u.Scheduled
  fg : u.fg = .idle
  cfg : u.cfg = s.cfg
  schPc : u.schPc = p + 1
  iteration : u.iteration = s.iteration
  workLog : u.workLog = s.workLog
  fireLog : u.fireLog = s.fireLog ++ (s.dueBefore p).map fun i => (s.iteration, i)
  counter : ∀ i k, s.task i = some k → u.counter i =
    if i < p ∧ s.counter i + 1 = k.thresh then 0 else s.counter i + 1

theorem State.Scheduled.inc (h : s.Scheduled) (hpc : s.schPc = 0) (hfg : s.fg = .idle) :
    ∃ u, takeTurn .op s = .next u ∧ s.Dispatched 0 u := by
  obtain ⟨hturn, hs, hadv⟩ := h.op hfg (by rw [State.slotOp, hpc]; rfl) (by omega) (exec_inc s)
  refine ⟨_, hturn, hs, hadv.fg, hadv.cfg, ?_, ?_, by simp [State.tick],
    by simp [State.tick, State.dueBefore], fun i k hk => ?_⟩
  · rw [hadv.schPc, hpc, Nat.mod_eq_of_lt (by omega)]
  · rw [hadv.iteration, if_neg (by omega)]
  · have hlt := h.counter_lt hpc hk
    have hbound := State.thresh_bounds h.legal hk
    have hcounter : (s.tick.retire .inc 0).counter i = s.tick.counter i := rfl
    rw [State.finish_counter, hcounter, s.tick_counter (h.length ▸ State.task_lt hk),
      Nat.mod_eq_of_lt (by omega), if_neg (by omega)]

theorem State.Dispatched.disp {p : Nat} (h : s.Dispatched p u) (hp : p < s.cfg.ntask) :
    ∃ v, takeTurn .op u = .next v ∧ s.Dispatched (p + 1) v := by
  obtain ⟨a, ha⟩ : ∃ a, s.task p = some a := ⟨_, List.getElem?_eq_getElem hp⟩
  have hua : u.task p = some a := by rw [State.task, h.cfg]; exact ha
  have hslot : u.slotOp = .disp p := by
    rw [State.slotOp, h.schPc, h.cfg, slotInstr_disp hp]
  obtain ⟨hturn, hs, hadv⟩ := h.scheduled.op h.fg hslot
    (by rw [h.schPc, h.cfg]; omega) (exec_disp p u)
  obtain ⟨hfire, hcounter⟩ := State.dispatch_fires hua u.sentence
  have hup := h.counter p a ha
  rw [if_neg (by omega)] at hup
  rw [hup] at hfire hcounter
  refine ⟨_, hturn, hs, hadv.fg, hadv.cfg.trans h.cfg, ?_, ?_, ?_, ?_, fun i k hk => ?_⟩
  · rw [hadv.schPc, h.schPc, h.cfg, Nat.mod_eq_of_lt (by omega)]
  · rw [hadv.iteration, h.schPc, h.cfg, if_neg (by omega), h.iteration]
  · rw [State.finish_workLog, State.dispatch_frame]
    exact h.workLog
  · rw [State.finish_fireLog, hfire, h.fireLog, State.dueBefore_succ ha, h.iteration]
    split <;> simp
  · rw [State.finish_counter, hcounter, h.counter i k hk]
    by_cases hi : i = p
    · subst hi
      obtain rfl := Option.some.inj (ha.symm.trans hk)
      simp
    · simp only [hi, false_and, if_false, Nat.lt_succ_iff_lt_or_eq, or_false]

/-- `INC` and the first `p` `DISP`s. -/
theorem State.Scheduled.dispatched (h : s.Scheduled) (hpc : s.schPc = 0) (hfg : s.fg = .idle)
    {p : Nat} (hp : p ≤ s.cfg.ntask) :
    ∃ u, runTurns (List.replicate (p + 1) .op) s = .next u ∧ s.Dispatched p u := by
  induction p with
  | zero =>
    obtain ⟨u, hturn, hu⟩ := h.inc hpc hfg
    exact ⟨u, runTurns_singleton hturn, hu⟩
  | succ p ih =>
    obtain ⟨u, hrun, hu⟩ := ih (by omega)
    obtain ⟨v, hturn, hv⟩ := hu.disp hp
    rw [List.replicate_succ']
    exact ⟨v, runTurns_append hrun (runTurns_singleton hturn), hv⟩

/-- `t` is reached from `s` at slot 0 by one iteration with a period boundary before its `WAITP`. -/
structure State.Iterated (s t : State) : Prop where
  scheduled : t.Scheduled
  cfg : t.cfg = s.cfg
  schPc : t.schPc = 0
  fg : t.fg = .idle
  iteration : t.iteration = s.iteration + 1
  workLog : t.workLog = s.workLog + 1
  periodElapsed : t.periodElapsed = false
  fireLog : t.fireLog = s.fireLog ++ s.dueTasks.map fun i => (s.iteration, i)
  counter : ∀ i k, s.task i = some k →
    t.counter i = if s.counter i + 1 = k.thresh then 0 else s.counter i + 1

/-- `WORK`. -/
theorem State.Dispatched.work (h : s.Dispatched s.cfg.ntask u) :
    ∃ v, takeTurn .op u = .next v ∧ v.Scheduled ∧ v.fg = .idle ∧ v.cfg = s.cfg ∧
      v.schPc = s.cfg.ntask + 2 ∧ v.iteration = s.iteration ∧ v.workLog = s.workLog + 1 ∧
      v.fireLog = u.fireLog ∧ v.counters = u.counters := by
  obtain ⟨hturn, hs, hadv⟩ := h.scheduled.op h.fg
    (by rw [State.slotOp, h.schPc, h.cfg, slotInstr_work]) (by rw [h.schPc, h.cfg]; omega)
    (exec_work u)
  refine ⟨_, hturn, hs, hadv.fg, hadv.cfg.trans h.cfg, ?_, ?_, ?_, State.finish_fireLog _,
    State.finish_counters _⟩
  · rw [hadv.schPc, h.schPc, h.cfg, Nat.mod_eq_of_lt (by omega)]
  · rw [hadv.iteration, h.schPc, h.cfg, if_neg (by omega), h.iteration]
  · rw [State.finish_workLog, State.retire_workLog, h.workLog]

/-- `WAITP` once the period is over: it ends the iteration. -/
theorem State.Scheduled.waitp (h : s.Scheduled) (hfg : s.fg = .idle)
    (hpc : s.schPc = s.cfg.ntask + 2) (hp : s.periodElapsed = true) :
    ∃ t, takeTurn .op s = .next t ∧ t.Scheduled ∧ t.fg = .idle ∧ t.cfg = s.cfg ∧ t.schPc = 0 ∧
      t.iteration = s.iteration + 1 ∧ t.workLog = s.workLog ∧ t.periodElapsed = false ∧
      t.fireLog = s.fireLog ∧ t.counters = s.counters := by
  obtain ⟨hturn, hs, hadv⟩ := h.op hfg (by rw [State.slotOp, hpc, slotInstr_waitp])
    (fun _ => hp) (exec_waitp_of_elapsed hp)
  refine ⟨_, hturn, hs, hadv.fg, hadv.cfg, ?_, ?_, State.finish_workLog _,
    State.finish_periodElapsed _, State.finish_fireLog _, State.finish_counters _⟩
  · rw [hadv.schPc, hpc, Nat.mod_self]
  · rw [hadv.iteration, if_pos hpc]

theorem State.Scheduled.iterated (h : s.Scheduled) (hpc : s.schPc = 0) (hfg : s.fg = .idle) :
    ∃ t, runTurns (iterationSchedule s.cfg.ntask) s = .next t ∧ s.Iterated t := by
  obtain ⟨u, hrun, hu⟩ := h.dispatched hpc hfg le_rfl
  obtain ⟨v, hwork, hv, hvfg, hvcfg, hvpc, hviter, hvwork, hvfire, hvcounters⟩ := hu.work
  have htimer : takeTurn .timer v = .next { v with periodElapsed := true } := rfl
  obtain ⟨t, hwaitp, ht, htfg, htcfg, htpc, htiter, htwork, htp, htfire, htcounters⟩ :=
    (takeTurn_scheduled hv htimer).waitp hvfg (by rw [hvcfg]; exact hvpc) rfl
  refine ⟨t, ?_, ht, htcfg.trans hvcfg, htpc, htfg, ?_, htwork.trans hvwork, htp, ?_,
    fun i k hk => ?_⟩
  · rw [iterationSchedule, List.replicate_succ']
    exact runTurns_append (runTurns_append hrun (runTurns_singleton hwork))
      (runTurns_append (l := [.timer]) (runTurns_singleton htimer) (runTurns_singleton hwaitp))
  · rw [htiter, ← hviter]
  · rw [htfire, hvfire, hu.fireLog, State.dueTasks_eq]
  · have hcounter : t.counter i = u.counter i := by
      rw [State.counter, htcounters, hvcounters, State.counter]
    rw [hcounter, hu.counter i k hk]
    simp only [State.task_lt hk, true_and]

/-- Settles O51: `INC` and the `DISP`s (`State.Scheduled.dispatched`), `WORK`, the period boundary and
`WAITP`. -/
theorem iterationRunsEveryTask : Obligations.IterationRunsEveryTask := by
  intro s h hpc hfg
  obtain ⟨t, hrun, ht⟩ := h.iterated hpc hfg
  exact ⟨t, hrun, ht.schPc, ht.fg, ht.iteration, ht.workLog, ht.periodElapsed, ht.fireLog,
    ht.counter⟩

/-! ## One iteration after another (`43_scheduler.md` rule R180) -/

/-- The iterations in which the log says task `i` fired. -/
def State.firings (s : State) (i : Nat) : List Nat :=
  (s.fireLog.filter fun e => decide (e.2 = i)).map Prod.fst

/-- The multiples of `m` among `1 .. j`. -/
def multiplesUpTo (m j : Nat) : List Nat :=
  ((List.range j).map (· + 1)).filter fun q => decide (q % m = 0)

theorem multiplesUpTo_succ (m j : Nat) :
    multiplesUpTo m (j + 1) = multiplesUpTo m j ++ if (j + 1) % m = 0 then [j + 1] else [] := by
  rw [multiplesUpTo, List.range_succ, List.map_append, List.filter_append, ← multiplesUpTo,
    List.map_singleton, List.filter_singleton]
  simp

theorem State.mem_dueTasks (hk : s.task n = some k) :
    n ∈ s.dueTasks ↔ s.counter n + 1 = k.thresh := by
  rw [State.dueTasks_eq, State.dueBefore, List.mem_filter, List.mem_range, State.isDue_of_task hk,
    decide_eq_true_eq]
  exact and_iff_right (State.task_lt hk)

theorem State.dueTasks_nodup (s : State) : s.dueTasks.Nodup :=
  List.nodup_range.filter _

/-- An iteration logs one firing of each due task. -/
theorem State.Iterated.firings (h : s.Iterated t) (hk : s.task n = some k) :
    t.firings n =
      s.firings n ++ if s.counter n + 1 = k.thresh then [s.iteration] else [] := by
  have hlogged : ((s.dueTasks.map fun i => (s.iteration, i)).filter
      fun e => decide (e.2 = n)).map Prod.fst =
      List.replicate (s.dueTasks.count n) s.iteration := by
    rw [List.filter_map, List.map_map]
    simp only [Function.comp_def, List.filter_eq, List.map_replicate]
  rw [State.firings, h.fireLog, List.filter_append, List.map_append, ← State.firings, hlogged,
    s.dueTasks_nodup.count]
  simp only [State.mem_dueTasks hk]
  split <;> rfl

/-- After `j` iterations from all counters 0 a counter is what is left of `j` at its threshold. -/
structure State.Periodic (j : Nat) (s : State) : Prop where
  scheduled : s.Scheduled
  schPc : s.schPc = 0
  fg : s.fg = .idle
  iteration : s.iteration = j + 1
  counter : ∀ i a, s.task i = some a → s.counter i = j % a.thresh
  firings : ∀ i a, s.task i = some a → s.firings i = multiplesUpTo a.thresh j

/-- The remainder of the next number: one more, or 0 where that reaches the divisor. -/
theorem succ_mod_eq {m : Nat} (hm : 0 < m) (j : Nat) :
    (j + 1) % m = if j % m + 1 = m then 0 else j % m + 1 := by
  have hlt := Nat.mod_lt j hm
  rw [← Nat.mod_add_mod]
  split
  case isTrue heq => rw [heq, Nat.mod_self]
  case isFalse hne => exact Nat.mod_eq_of_lt (by omega)

theorem State.Periodic.iterated {j : Nat} (h : State.Periodic j s) :
    ∃ t, runTurns (iterationSchedule s.cfg.ntask) s = .next t ∧ t.cfg = s.cfg ∧
      State.Periodic (j + 1) t := by
  obtain ⟨t, hrun, ht⟩ := h.scheduled.iterated h.schPc h.fg
  have htask : ∀ i, t.task i = s.task i := fun i => by rw [State.task, ht.cfg, State.task]
  refine ⟨t, hrun, ht.cfg, ht.scheduled, ht.schPc, ht.fg, by rw [ht.iteration, h.iteration],
    fun i a hk => ?_, fun i a hk => ?_⟩
  all_goals
    rw [htask] at hk
    have hsucc := succ_mod_eq (State.thresh_bounds h.scheduled.legal hk).1 j
  · rw [ht.counter i a hk, h.counter i a hk, hsucc]
  · rw [ht.firings hk, h.firings i a hk, multiplesUpTo_succ, h.iteration, h.counter i a hk, hsucc]
    simp

theorem State.Periodic.runIterations {j : Nat} (h : State.Periodic j s) (k : Nat) :
    ∃ t, Machine.runIterations k s = .next t ∧ t.cfg = s.cfg ∧ State.Periodic (j + k) t := by
  induction k generalizing s j with
  | zero => exact ⟨s, rfl, rfl, h⟩
  | succ k ih =>
    obtain ⟨u, hrun, hcfg, hu⟩ := h.iterated
    obtain ⟨t, hrun', hcfg', ht⟩ := ih hu
    refine ⟨t, ?_, hcfg'.trans hcfg, ?_⟩
    · simp only [Machine.runIterations, hrun, andThen, hrun']
    · rwa [show j + (k + 1) = j + 1 + k by omega]

/-- Settles O52: each iteration keeps `State.Periodic`, which holds at the start. -/
theorem taskFiresEveryThreshold : Obligations.TaskFiresEveryThreshold := by
  intro s k h hpc hfg hiter hlog hzero
  have hcounter : ∀ i, s.counter i = 0 := fun i => by
    cases hi : s.counters[i]? with
    | none => simp [State.counter, hi]
    | some c => simpa [State.counter, hi] using hzero c (List.mem_of_getElem? hi)
  have hstart : State.Periodic 0 s :=
    { scheduled := h, schPc := hpc, fg := hfg, iteration := hiter
      counter := fun i a _ => by rw [hcounter, Nat.zero_mod]
      firings := fun i a _ => by rw [State.firings, hlog]; rfl }
  obtain ⟨t, hrun, hcfg, ht⟩ := hstart.runIterations k
  rw [Nat.zero_add] at ht
  refine ⟨t, hrun, ht.iteration, fun i a hk => ht.firings i a ?_⟩
  rw [State.task, hcfg]
  exact hk

end Sys2Proof.Machine
end

section
/-! PROOF. On a fair run every `WAITP` ends, and a pending activation is taken (O59). -/

namespace Sys2Proof.Machine

variable {s t u : State} {turn : Turn}

/-! ## FG leaves the controllers alone (`60_exceptions.md` rule R200) -/

/-- Both controllers are as they were, and a request of either stays. -/
structure State.ControllersKept (s t : State) : Prop extends State.RxcKept s t, State.TxcKept s t

theorem State.ControllersKept.trans (hst : s.ControllersKept t) (htu : t.ControllersKept u) :
    s.ControllersKept u where
  rxc := htu.rxc.trans hst.rxc
  txc := htu.txc.trans hst.txc
  rxPending := htu.rxPending ∘ hst.rxPending
  txPending := htu.txPending ∘ hst.txPending

theorem State.takeWord_controllersKept (s : State) : s.ControllersKept s.takeWord := by
  unfold State.takeWord
  split <;> exact {}

theorem State.endString_controllersKept (s : State) (o : Outer) :
    s.ControllersKept (s.endString o) := by
  cases o with
  | single | enq => exact show s.ControllersKept s.finish from {}
  | report n =>
    exact show s.ControllersKept { s with fgResult := resultWord false true 0 }.finish from {}

theorem State.resumeString_controllersKept (s : State) (o : Outer) :
    s.ControllersKept (s.resumeString o) := by
  unfold State.resumeString
  split
  · exact s.endString_controllersKept o
  · exact {}

theorem State.endEnqb_controllersKept (s : State) (o : Outer) (b : Byte) (stored : Bool) :
    s.ControllersKept (s.endEnqb o b stored) := by
  rw [State.endEnqb_eq]
  by_cases ho : o = .single
  · subst ho
    exact show s.ControllersKept (s.retire _ _).finish from {}
  · rw [State.afterEnqb_of_string ho]
    exact .trans {} (State.resumeString_controllersKept _ o)

theorem State.beginEnqb_controllersKept (s : State) (o : Outer) (b : Byte) :
    s.ControllersKept (s.beginEnqb o b) := by
  unfold State.beginEnqb
  split
  · exact s.endEnqb_controllersKept o b false
  · exact {}

theorem State.beginString_controllersKept (s : State) (o : Outer) (str : List Byte) :
    s.ControllersKept (s.beginString o str) :=
  { rxc := rfl, txc := rfl, rxPending := id, txPending := id }

theorem State.beginAction_controllersKept (s : State) (n : Nat) :
    s.ControllersKept (s.beginAction n) := by
  unfold State.beginAction
  split
  · exact {}
  · split
    · exact {}
    · exact .trans (t := { s with fmtCalls := s.fmtCalls + 1 }) {}
        (State.beginString_controllersKept _ _ _)

theorem fgContinue_controllersKept (h : fgContinue s = .next t) : s.ControllersKept t := by
  cases hc : s.fg <;> simp only [fgContinue, hc] at h
  case enqNext o =>
    split at h
    · exact Host.Outcome.next.inj h ▸ s.endString_controllersKept o
    · exact Host.Outcome.next.inj h ▸ s.beginEnqb_controllersKept o _
  case enqbB4 o b =>
    split at h
    · exact Host.Outcome.next.inj h ▸ {}
    · exact Host.Outcome.next.inj h ▸ s.endEnqb_controllersKept o b true
  case enqbB6 o b =>
    exact Host.Outcome.next.inj h ▸
      .trans (t := s.requestTx) {} (State.endEnqb_controllersKept _ o b true)
  case dispD3 n => exact Host.Outcome.next.inj h ▸ s.beginAction_controllersKept n
  case popC2 =>
    split at h
    · cases h
    · exact Host.Outcome.next.inj h ▸ {}
  case idle | pushP2 | pushP3 | popC3 | enqbP2 | enqbP3 | enqbB5 | dispD2 =>
    exact Host.Outcome.next.inj h ▸ {}

/-- An operation that the foreground bus accepts. -/
theorem fgBegin_controllersKept {i : Instr} (hi : i ≠ .rxsvc ∧ i ≠ .txsvc)
    (h : fgBegin i s = .next t) : s.ControllersKept t := by
  cases i with
  | push | pop =>
    simp only [fgBegin] at h
    split at h <;> exact Host.Outcome.next.inj h ▸ {}
  | isempty | isfull | kick | inc | work =>
    obtain rfl := Host.Outcome.next.inj h
    exact {}
  | enqb b => exact Host.Outcome.next.inj h ▸ s.beginEnqb_controllersKept .single b
  | disp =>
    simp only [fgBegin] at h
    split at h
    · exact Host.Outcome.next.inj h ▸ {}
    · split at h <;> exact Host.Outcome.next.inj h ▸ {}
  | waitp =>
    simp only [fgBegin, execWaitp] at h
    split at h <;> obtain rfl := Host.Outcome.next.inj h <;> exact {}
  | enq str => exact Host.Outcome.next.inj h ▸ s.beginString_controllersKept .enq str
  | rxsvc => exact absurd rfl hi.1
  | txsvc => exact absurd rfl hi.2

theorem fgIssue_controllersKept {run : Instr → State → Result}
    (hrun : ∀ {i : Instr} {s t : State}, i ≠ .rxsvc ∧ i ≠ .txsvc → run i s = .next t →
      s.ControllersKept t) (h : fgIssue run s = .next t) : s.ControllersKept t := by
  rcases fgIssue_cases run s with ⟨_, _, hf⟩ | hn | ⟨ow, hn⟩ | ⟨ow, i, hi, hr⟩
  · cases hf.symm.trans h
  · exact Host.Outcome.next.inj (hn.symm.trans h) ▸ {}
  · exact Host.Outcome.next.inj (hn.symm.trans h) ▸ s.takeWord_controllersKept.trans {}
  · have hallowed := (decodeOn_eq_ok.mp hi).2
    refine s.takeWord_controllersKept.trans (hrun ⟨?_, ?_⟩ (hr.symm.trans h))
    all_goals
      rintro rfl
      cases hallowed

theorem fgTurn_controllersKept (h : fgOpTurn s = .next t ∨ fgMicroTurn s = .next t) :
    s.ControllersKept t := by
  by_cases hc : s.fg = .idle
  · rw [fgOpTurn_of_idle hc, fgMicroTurn_of_idle hc] at h
    refine h.elim (fgIssue_controllersKept fun hi => runWhole_induction
      (fgBegin_controllersKept hi) fun hu hv => hu.trans (fgContinue_controllersKept hv))
      (fgIssue_controllersKept fgBegin_controllersKept)
  · rw [fgOpTurn_of_ctx hc, fgMicroTurn_of_ctx hc, or_self] at h
    exact fgContinue_controllersKept h

/-! ## A pending activation waits for its controller (`60_exceptions.md` rule R197) -/

/-- An `RXSVC` is pending and none is in progress. -/
abbrev State.RxWaits (s : State) : Prop := s.rxc = .idle ∧ s.rxPending = true

/-- A `TXSVC` is pending and none is in progress. -/
abbrev State.TxWaits (s : State) : Prop := s.txc = .idle ∧ s.txPending = true

theorem State.RxWaits.kept (hw : s.RxWaits) (hreset : turn ≠ .reset)
    (hm : s.moves turn .rxc = false) (h : takeTurn turn s = .next t) : t.RxWaits := by
  have hkept : s.RxcKept t → t.RxWaits := fun hk => ⟨hk.rxc.trans hw.1, hk.rxPending hw.2⟩
  by_cases hfg : turn = .op ∨ turn = .micro
  · exact hkept (fgTurn_controllersKept
      (hfg.imp (fun ht => by rwa [ht] at h) fun ht => by rwa [ht] at h)).toRxcKept
  by_cases hrxc : turn = .rxc
  · simp [State.moves, State.rxEnabled, hrxc, hw.1, hw.2] at hm
  by_cases hmicro : turn = .rxcMicro
  · simp only [State.moves, State.rxMicroEnabled, hmicro, hw.2] at hm
    have hatomic : s.cfg.isrAtomic = true := by simpa using hm
    rw [hmicro, takeTurn, rxcMicroTurn, if_pos hatomic] at h
    exact Host.Outcome.next.inj h ▸ hw
  · exact hkept ((takeTurn_frame (not_or.mp hfg) hreset h).2.1 hrxc hmicro)

theorem State.TxWaits.kept (hw : s.TxWaits) (hreset : turn ≠ .reset)
    (hm : s.moves turn .txc = false) (h : takeTurn turn s = .next t) : t.TxWaits := by
  have hkept : s.TxcKept t → t.TxWaits := fun hk => ⟨hk.txc.trans hw.1, hk.txPending hw.2⟩
  by_cases hfg : turn = .op ∨ turn = .micro
  · exact hkept (fgTurn_controllersKept
      (hfg.imp (fun ht => by rwa [ht] at h) fun ht => by rwa [ht] at h)).toTxcKept
  by_cases htxc : turn = .txc
  · simp [State.moves, State.txEnabled, htxc, hw.1, hw.2] at hm
  by_cases hmicro : turn = .txcMicro
  · simp only [State.moves, State.txMicroEnabled, hmicro, hw.2] at hm
    have hatomic : s.cfg.isrAtomic = true := by simpa using hm
    rw [hmicro, takeTurn, txcMicroTurn, if_pos hatomic] at h
    exact Host.Outcome.next.inj h ▸ hw
  · exact hkept ((takeTurn_frame (not_or.mp hfg) hreset h).2.2 htxc hmicro)

/-- RXC's step is X1: it clears the request. -/
theorem State.RxWaits.taken (hw : s.RxWaits) (hm : s.moves turn .rxc = true)
    (h : takeTurn turn s = .next t) : t.rxPending = false := by
  simp only [State.moves, Bool.or_eq_true, Bool.and_eq_true, decide_eq_true_eq] at hm
  obtain ⟨rfl, hen⟩ | ⟨rfl, hen⟩ := hm
  · rw [takeTurn, rxcTurn_eq, if_pos hen, exec_rxsvc] at h
    exact Host.Outcome.next.inj h ▸ rfl
  · have hatomic : s.cfg.isrAtomic = false := by simp_all [State.rxMicroEnabled]
    simp only [takeTurn, rxcMicroTurn, hatomic, rxcMicro, hw.1, hw.2] at h
    exact Host.Outcome.next.inj h ▸ rfl

/-- TXC's step is T1. -/
theorem State.TxWaits.taken (hw : s.TxWaits) (hm : s.moves turn .txc = true)
    (h : takeTurn turn s = .next t) : t.txPending = false := by
  simp only [State.moves, Bool.or_eq_true, Bool.and_eq_true, decide_eq_true_eq] at hm
  obtain ⟨rfl, hen⟩ | ⟨rfl, hen⟩ := hm
  · rw [takeTurn, txcTurn_eq, if_pos hen] at h
    obtain ⟨u, hdrained, rfl⟩ := execTxsvc_drained_of_next h
    rw [State.retireService_txPending, hdrained.frame]
    simp
  · have hatomic : s.cfg.isrAtomic = false := by simp_all [State.txMicroEnabled]
    simp only [takeTurn, txcMicroTurn, hatomic, txcMicro, hw.1, hw.2] at h
    exact Host.Outcome.next.inj h ▸ rfl

/-! ## FG at `WAITP` (`43_scheduler.md` rule R175) -/

/-- FG is before the `WAITP` of iteration `q`. -/
structure State.AtWaitp (q : Nat) (s : State) : Prop where
  source : s.source = .sequencer
  fg : s.fg = .idle
  schPc : s.schPc = s.cfg.ntask + 2
  iteration : s.iteration = q

variable {q : Nat}

theorem State.AtWaitp.atSlot (h : s.AtWaitp q) : s.AtSlot where
  source := h.source
  fg := h.fg
  schPc := by rw [h.schPc]; omega
  sel hle := by rw [h.schPc] at hle; omega

theorem State.AtWaitp.slotOp (h : s.AtWaitp q) : s.slotOp = .waitp := by
  rw [State.slotOp, h.schPc, slotInstr_waitp]

theorem State.AtWaitp.kept (h : s.AtWaitp q) (hk : s.FgKept t) : t.AtWaitp q where
  source := hk.source.trans h.source
  fg := hk.fg.trans h.fg
  schPc := by rw [hk.schPc, hk.cfg]; exact h.schPc
  iteration := hk.iteration.trans h.iteration

theorem State.AtWaitp.holds (h : s.AtWaitp q) : s.holds s.slotOp = !s.periodElapsed := by
  simp [State.holds, h.slotOp]

/-- FG is held while the period lasts. -/
theorem State.AtWaitp.fgTurn_held (h : s.AtWaitp q) (hp : s.periodElapsed = false)
    (hturn : fgOpTurn s = .next t ∨ fgMicroTurn s = .next t) : t = s := by
  rw [fgOpTurn_of_idle h.fg, fgMicroTurn_of_idle h.fg, h.atSlot.fgIssue, h.atSlot.fgIssue,
    h.holds, hp] at hturn
  exact hturn.elim (fun h => (Host.Outcome.next.inj h).symm) fun h => (Host.Outcome.next.inj h).symm

/-- FG goes on once the period is over. -/
theorem State.AtWaitp.fgTurn_elapsed (h : s.AtWaitp q) (hp : s.periodElapsed = true)
    (hturn : fgOpTurn s = .next t ∨ fgMicroTurn s = .next t) :
    t.schPc = 0 ∧ t.fg = .idle ∧ t.iteration = q + 1 := by
  have hexec := exec_waitp_of_elapsed hp
  have hadv := h.atSlot.advanced h.slotOp hexec
  have hrun : runWhole .waitp s = .next t := by
    rw [fgOpTurn_of_idle h.fg, fgMicroTurn_of_idle h.fg, h.atSlot.fgIssue, h.atSlot.fgIssue,
      h.holds, hp, h.slotOp] at hturn
    exact hturn.elim id id
  rw [runWhole, hexec] at hrun
  obtain rfl := Host.Outcome.next.inj hrun
  exact ⟨by rw [hadv.schPc, h.schPc, Nat.mod_self], hadv.fg,
    by rw [hadv.iteration, if_pos h.schPc, h.iteration]⟩

/-! ## Fair runs (`60_exceptions.md` rule R212) -/

section FairRuns

variable {turns : Nat → Turn} {r : Nat → State}

/-- Weak fairness at work: an agent whose step stays enabled until it moves, moves. -/
theorem FairRun.taken {a : Agent} {P : State → Prop} (hfair : FairRun turns r)
    (hreset : ∀ m, turns m ≠ .reset) (can : ∀ {s}, P s → s.canMove a = true)
    (keeps : ∀ {turn s t}, P s → turn ≠ .reset → s.moves turn a = false →
      takeTurn turn s = .next t → P t) {n : Nat} (hn : P (r n)) :
    ∃ m, n ≤ m ∧ P (r m) ∧ (r m).moves (turns m) a = true := by
  by_contra hnever
  push Not at hnever
  have always : ∀ m, n ≤ m → P (r m) := fun m hm => by
    induction m, hm using Nat.le_induction with
    | base => exact hn
    | succ m hm ih =>
      exact keeps ih (hreset m) (Bool.eq_false_iff.mpr (hnever m hm ih)) (hfair.run m)
  obtain ⟨m, hm, hmoves⟩ := hfair.fair a n fun m hm => can (always m hm)
  exact hnever m hm (always m hm) hmoves

/-- TIMER's steps recur, so the period comes to its end. -/
theorem FairRun.periodElapses (hfair : FairRun turns r) (hreset : ∀ m, turns m ≠ .reset) {n : Nat}
    (hn : (r n).AtWaitp q) : ∃ m, n ≤ m ∧ (r m).AtWaitp q ∧ (r m).periodElapsed = true := by
  by_contra hnever
  push Not at hnever
  have always : ∀ m, n ≤ m → (r m).AtWaitp q := fun m hm => by
    induction m, hm using Nat.le_induction with
    | base => exact hn
    | succ m hm ih =>
      have hrun := hfair.run m
      by_cases hfg : turns m = .op ∨ turns m = .micro
      · have hheld := ih.fgTurn_held (Bool.eq_false_iff.mpr (hnever m hm ih))
          (hfg.imp (fun ht => by rwa [ht] at hrun) fun ht => by rwa [ht] at hrun)
        exact hheld ▸ ih
      · exact ih.kept (takeTurn_frame (not_or.mp hfg) (hreset m) hrun).1
  obtain ⟨m, hm, htimer⟩ := hfair.timer n
  have hrun := hfair.run m
  rw [htimer] at hrun
  refine hnever (m + 1) (by omega) (always (m + 1) (by omega)) ?_
  exact Host.Outcome.next.inj hrun ▸ rfl

theorem FairRun.waitEnds (hfair : FairRun turns r) (hreset : ∀ m, turns m ≠ .reset) {n : Nat}
    (hn : (r n).AtWaitp q) :
    ∃ m, n ≤ m ∧ (r m).schPc = 0 ∧ (r m).fg = .idle ∧ (r m).iteration = q + 1 := by
  have enabled : ∀ {s : State}, s.AtWaitp q ∧ s.periodElapsed = true → s.fgEnabled = true :=
    fun ⟨hw, hp⟩ => by rw [hw.atSlot.fgEnabled, hw.holds, hp]; rfl
  obtain ⟨m, hm, hover⟩ := hfair.periodElapses hreset hn
  obtain ⟨m', hm', ⟨hw, hp⟩, hmoves⟩ := hfair.taken (a := .fg) hreset enabled
    (fun hover hturn hstays h => by
      simp only [State.moves, enabled hover, Bool.and_true, Bool.or_eq_false_iff,
        decide_eq_false_iff_not] at hstays
      obtain ⟨hk, -⟩ := takeTurn_frame hstays hturn h
      exact ⟨hover.1.kept hk, hk.periodElapsed hover.2⟩) hover
  have hrun := hfair.run m'
  simp only [State.moves, Bool.and_eq_true, Bool.or_eq_true, decide_eq_true_eq] at hmoves
  exact ⟨m' + 1, by omega, hw.fgTurn_elapsed hp
    (hmoves.1.imp (fun ht => by rwa [ht] at hrun) fun ht => by rwa [ht] at hrun)⟩

end FairRuns

/-- Settles O59: `FairRun.waitEnds`, and each controller's step by `FairRun.taken`. -/
theorem fairRunsEndEveryWait : Obligations.FairRunsEndEveryWait := by
  intro turns r n hfair hreset
  refine ⟨fun hsource hfg hpc => hfair.waitEnds hreset ⟨hsource, hfg, hpc, rfl⟩,
    fun hidle hp => ?_, fun hidle hp => ?_⟩
  · obtain ⟨m, hm, hw, hmoves⟩ := hfair.taken (a := .rxc) (P := State.RxWaits) hreset
      (fun hw => by simp [State.canMove, State.rxEnabled, hw.1, hw.2]) State.RxWaits.kept
      ⟨hidle, hp⟩
    exact ⟨m, hm, hw.1, hmoves, hw.taken hmoves (hfair.run m)⟩
  · obtain ⟨m, hm, hw, hmoves⟩ := hfair.taken (a := .txc) (P := State.TxWaits) hreset
      (fun hw => by simp [State.canMove, State.txEnabled, hw.1, hw.2]) State.TxWaits.kept
      ⟨hidle, hp⟩
    exact ⟨m, hm, hw.1, hmoves, hw.taken hmoves (hfair.run m)⟩

end Sys2Proof.Machine
end

section
/-! PROOF. No interleaving of micro-steps strands a byte, queued in TXF or waiting in `urx` (O50). -/

namespace Sys2Proof.Machine

variable {s t : State}

/-! ## What keeps a byte in TXF owed (`70_reset_and_hazards.md` rule R239) -/

theorem State.txc_ne_idle_of_txBusy (h : s.txBusy) : s.txc ≠ .idle := fun hidle => by
  rw [State.txBusy, hidle] at h
  exact h

/-- TXC stays busy while it stays where it is and TXF does not become empty. -/
theorem State.txBusy_of_txc_eq (htxc : t.txc = s.txc)
    (he : s.txf.isEmpty = false → t.txf.isEmpty = false) (h : s.txBusy) : t.txBusy := by
  unfold State.txBusy at h ⊢
  rw [htxc]
  cases hc : s.txc <;> simp only [hc] at h ⊢
  case t3Room | t3Empty => exact he h

/-- FG empties no TXF that TXC sees as it is. -/
theorem State.FgMoves.txf_isEmpty (hm : s.FgMoves t) (hs : s.txf.sound) (hlag : s.txf.lagIs 0)
    (he : s.txf.isEmpty = false) : t.txf.isEmpty = false := by
  rw [← Fifo.consumerEmpty_of_lagIs_zero hlag] at he
  rw [← Fifo.consumerEmpty_of_lagIs_zero (hm.txf.lagIs 0 hlag)]
  exact hm.txf.consumerEmpty hs he

/-- The machine is as it was, and FG is as close to its kick as it was. -/
theorem State.Unstranded.of_kept (h : s.Unstranded) (hk : s.RestartKept t) (hn : t.noBareFifo)
    (hkick : s.kicking → t.kicking) (hb6 : s.beforeB6 → t.beforeB6) : t.Unstranded where
  source := hk.source.trans h.source
  noLag := ⟨hk.cfg ▸ h.noLag.1, hk.lagIs h.noLag.2⟩
  depth := hk.cfg ▸ h.depth
  fifo := hn
  stall he := by
    rw [hk.txPending, hk.utx, hk.txc]
    exact (h.stall (hk.isEmpty ▸ he)).imp_right (.imp_right (.imp_left hkick))
  armed hm := by
    rw [hk.txPending, hk.utx]
    exact (h.armed (hk.manualTrigger ▸ hm)).imp_right
      (.imp_right (.imp hb6 (State.txBusy_of_txc_eq hk.txc (hk.isEmpty ▸ id))))

/-- FG was not about to kick, and the machine is as it was. -/
theorem State.Unstranded.of_quiet (h : s.Unstranded) (hk : s.RestartKept t)
    (hn : t.noBareFifo) (hkick : ¬ s.kicking) : t.Unstranded :=
  h.of_kept hk hn (fun hs => absurd hs hkick) fun hs => absurd (State.kicking_of_beforeB6 hs) hkick

/-- A turn of another agent that leaves the machine as it was. -/
theorem State.Unstranded.of_fg_eq (h : s.Unstranded) (hk : s.RestartKept t)
    (hfg : t.fg = s.fg) : t.Unstranded :=
  h.of_kept hk (State.noBareFifo_congr hfg h.fifo)
    (State.kicking_congr hfg hk.manualTrigger).mpr (State.beforeB6_congr hfg).mpr

/-! ## FG's turns -/

/-- A micro-step of FG inside an operation, which does not empty TXF. A stored byte that FG will not
kick for was preceded by an activation owed or in progress, because the flag was not armed. -/
theorem State.Unstranded.kickMove (h : s.Unstranded) (hm : s.KickMove t)
    (hbusy : s.txBusy → t.txBusy) : t.Unstranded := by
  cases hm with
  | quiet kept clear notKicking => exact h.of_quiet kept clear notKicking
  | stored o b q notKicking lagIs after =>
    have owed : s.manualTrigger = false → s.txPending = true ∨ s.utx ≠ [] ∨ s.txBusy := fun hm =>
      (h.armed hm).imp_right
        (.imp_right (·.resolve_left (notKicking ∘ State.kicking_of_beforeB6)))
    have attended : s.txPending = true ∨ s.utx ≠ [] ∨ s.manualTrigger = true ∨ s.txc ≠ .idle := by
      rcases Bool.eq_false_or_eq_true s.manualTrigger with hm | hm
      · exact .inr (.inr (.inl hm))
      · exact (owed hm).imp_right (.imp_right (.inr ∘ State.txc_ne_idle_of_txBusy))
    subst after
    exact { h with
      noLag := ⟨h.noLag.1, lagIs h.noLag.2⟩, fifo := trivial, stall := fun _ => attended
      armed := fun hm => (owed hm).imp_right (.imp_right (.inr ∘ hbusy)) }
  | requested o b position after =>
    have hb6 : ¬ s.beforeB6 := by rw [State.beforeB6, position]; exact id
    exact h.of_kept (after ▸ {}) (after ▸ trivial) (fun _ => after ▸ trivial) fun hs => absurd hs hb6
  | honoured o b position after =>
    subst after
    exact { h with
      fifo := trivial, stall := fun _ => .inr (.inr (.inl trivial))
      armed := fun _ => .inr (.inr (.inl trivial)) }
  | kicked o b position kept clear =>
    exact {
      source := kept.source.trans h.source
      noLag := ⟨kept.cfg ▸ h.noLag.1, kept.lagIs h.noLag.2⟩, depth := kept.cfg ▸ h.depth
      fifo := clear
      stall := fun _ => .inl kept.txPending, armed := fun _ => .inl kept.txPending }

theorem Instr.ownHandles_of_sequenced {i : Instr} (h : Instr.sequenced i) : Instr.ownHandles i :=
  Instr.ownHandles_of_busAllows (src := .sequencer) (by decide) (busAllows_of_sequenced h)

/-- FG's turns, whole operations by their micro-steps. -/
theorem fgTurn_unstranded (hd : s.Disciplined) (hs : s.Unstranded)
    (h : fgOpTurn s = .next t ∨ fgMicroTurn s = .next t) : t.Unstranded := by
  refine (FgClosed.turn (P := fun u => u.Disciplined ∧ u.Unstranded)
    { inside := fun ⟨hd, hs⟩ h => ?_, starts := fun ⟨hd, hs⟩ hc hi h => ?_
      rejected := fun _ ⟨hd, hs⟩ => ⟨{ hd with }, hs.of_fg_eq {} rfl⟩ } hs.source ⟨hd, hs⟩ h).2
  · obtain ⟨hm, hfg⟩ := of_next (fgContinue_disciplined hd) h
    have hbusy := State.txBusy_of_txc_eq hm.txc (hm.txf_isEmpty hd.txSound hs.noLag.2)
    exact ⟨hd.fgMoves hm hfg, hs.kickMove (fgContinue_kickMove hs.fifo h) hbusy⟩
  · obtain ⟨hm, hfg⟩ := of_next (fgBegin_disciplined (Instr.ownHandles_of_sequenced hi) hd) h
    exact ⟨hd.fgMoves hm hfg, hs.of_quiet (fgBegin_restartKept hi h) (fgBegin_leavesRxf hi h).2
      (State.not_kicking_of_idle hc)⟩

/-! ## TXC's turns -/

theorem State.utx_ne_nil_of_utxFull (hdepth : 1 ≤ s.cfg.utxDepth) (h : s.utxFull = true) :
    s.utx ≠ [] := by
  intro hnil
  simp only [State.utxFull, hnil, List.length_nil, decide_eq_true_eq] at h
  omega

/-- Within TXC's frame only the two promises for the queued bytes and for the flag are at stake. -/
theorem State.Unstranded.txMoves (h : s.Unstranded) (hm : s.TxMoves t)
    (stall : t.txf.isEmpty = false →
      t.txPending = true ∨ t.utx ≠ [] ∨ t.kicking ∨ t.txc ≠ .idle)
    (armed : t.manualTrigger = false →
      t.txPending = true ∨ t.utx ≠ [] ∨ t.beforeB6 ∨ t.txBusy) : t.Unstranded where
  source := hm.source.trans h.source
  noLag := ⟨hm.cfg ▸ h.noLag.1, hm.txf.lagIs 0 h.noLag.2⟩
  depth := hm.cfg ▸ h.depth
  fifo := State.noBareFifo_congr hm.fg h.fifo
  stall := stall
  armed := armed

theorem State.Unstranded.of_txBusy (h : s.Unstranded) (hm : s.TxMoves t) (hbusy : t.txBusy) :
    t.Unstranded :=
  h.txMoves hm (fun _ => .inr (.inr (.inr (State.txc_ne_idle_of_txBusy hbusy))))
    fun _ => .inr (.inr (.inr hbusy))

theorem State.Unstranded.of_utx (h : s.Unstranded) (hm : s.TxMoves t) (hutx : t.utx ≠ []) :
    t.Unstranded :=
  h.txMoves hm (fun _ => .inr (.inl hutx)) fun _ => .inr (.inl hutx)

/-- TXC inside an activation: it stays busy until it arms the flag, finds TXF empty, or has put a byte
into the transmitter. -/
theorem txcMicro_unstranded (hs : s.Unstranded) (hm : s.TxMoves t) (h : txcMicro s = .next t) :
    t.Unstranded := by
  have hempty := Fifo.consumerEmpty_of_lagIs_zero hs.noLag.2
  have hbusy := State.txBusy.eq_def s
  cases hc : s.txc <;> simp only [hc] at hbusy <;> simp only [txcMicro, hc] at h
  case idle =>
    split at h <;> obtain rfl := Host.Outcome.next.inj h
    · exact hs.of_txBusy hm trivial
    · exact hs
  case t2Read =>
    obtain rfl := Host.Outcome.next.inj h
    refine hs.of_txBusy hm ?_
    cases he : s.txf.consumerEmpty
    · exact hempty.symm.trans he
    · trivial
  case t2Write =>
    obtain rfl := Host.Outcome.next.inj h
    exact hs.txMoves hm (fun _ => .inr (.inr (.inr nofun))) nofun
  case t3Room =>
    split at h <;> obtain rfl := Host.Outcome.next.inj h
    · exact hs.of_utx hm (State.utx_ne_nil_of_utxFull hs.depth ‹_›)
    · exact hs.txMoves hm (fun _ => .inr (.inr (.inr nofun)))
        fun hunarmed => (hs.armed hunarmed).imp_right (.imp_right (.imp_right hbusy.mp))
  case t3Empty =>
    split at h <;> obtain rfl := Host.Outcome.next.inj h
    · have he : s.txf.isEmpty = true := hempty.symm.trans ‹_›
      have notBusy : ¬ s.txBusy := by rw [hbusy, he]; nofun
      exact hs.txMoves hm (fun hne => nomatch he.symm.trans hne)
        fun hunarmed => (hs.armed hunarmed).imp_right (.imp_right (.imp_right (absurd · notBusy)))
    · exact hs.of_txBusy hm trivial
  case t4C1 | t4C2 =>
    split at h
    · cases h
    · obtain rfl := Host.Outcome.next.inj h
      exact hs.of_txBusy hm trivial
  case t4C3 =>
    obtain rfl := Host.Outcome.next.inj h
    exact hs.of_txBusy hm trivial
  case t5 b =>
    split at h
    · cases h
    · obtain rfl := Host.Outcome.next.inj h
      exact hs.of_utx hm (by simp)

/-- A whole `TXSVC` leaves a byte in the transmitter or TXF empty. -/
theorem State.Unstranded.serviced (hs : s.Unstranded) (hm : s.TxMoves t)
    (h : exec .txsvc s = .next t) : t.Unstranded := by
  obtain ⟨hdone, hmoved⟩ := execTxsvc_restarts hs.noLag.2 hs.depth h
  refine hs.txMoves hm (fun he => .inr (.inl (hdone.resolve_right (Bool.eq_false_iff.mp he))))
    fun hunarmed => .inr (.inl (hmoved ?_))
  obtain ⟨u, hdrained, rfl⟩ := execTxsvc_drained_of_next h
  rw [State.retireService_manualTrigger, hdrained.frame, State.entryCheck_enterTx] at hunarmed
  rw [← Fifo.consumerEmpty_of_lagIs_zero hs.noLag.2]
  exact (Bool.or_eq_false_iff.mp hunarmed).2

theorem txTurn_unstranded (hd : s.Disciplined) (hs : s.Unstranded)
    (h : txcTurn s = .next t ∨ txcMicroTurn s = .next t) : t.Unstranded := by
  have hm := txTurn_txMoves hd h
  rcases h with h | h
  · rw [txcTurn_eq] at h
    split at h
    · exact hs.serviced hm h
    · exact Host.Outcome.next.inj h ▸ hs
  · unfold txcMicroTurn at h
    split at h
    · exact Host.Outcome.next.inj h ▸ hs
    · exact txcMicro_unstranded hs hm h

/-! ## The other agents -/

/-- RXC leaves the kick-restart machine as it was. -/
theorem rxTurn_restartKept (h : rxcTurn s = .next t ∨ rxcMicroTurn s = .next t) :
    s.RestartKept t ∧ t.fg = s.fg := by
  rcases h with h | h
  · rw [rxcTurn_eq, exec_rxsvc] at h
    split at h <;> exact Host.Outcome.next.inj h ▸ ⟨{}, rfl⟩
  · unfold rxcMicroTurn at h
    split at h
    · exact Host.Outcome.next.inj h ▸ ⟨{}, rfl⟩
    · cases hc : s.rxc <;> simp only [rxcMicro, hc] at h
      case idle | x2 | x4P1 => split at h <;> exact Host.Outcome.next.inj h ▸ ⟨{}, rfl⟩
      case x3 =>
        cases hu : s.urx with
        | nil => simp only [State.ioRead, hu] at h; cases h
        | cons b rest =>
          simp only [State.ioRead, hu] at h
          exact Host.Outcome.next.inj h ▸ ⟨{}, rfl⟩
      case x4P2 | x4P3 => exact Host.Outcome.next.inj h ▸ ⟨{}, rfl⟩

/-- A reset leaves TXF empty and the flag armed. -/
theorem State.Unstranded.hardReset (hs : s.Unstranded) : s.hardReset.Unstranded :=
  { hs with
    noLag := ⟨hs.noLag.1, by rw [← hs.noLag.1]; exact s.txf.clear_lagIs _⟩
    fifo := trivial, armed := nofun
    stall := fun he => nomatch he.symm.trans (s.txf.clear_isEmpty _) }

/-- Every turn of every agent keeps the inductive form of rule R239. -/
theorem takeTurn_unstranded {turn : Turn} (hd : s.Disciplined) (hs : s.Unstranded)
    (h : takeTurn turn s = .next t) : t.Unstranded := by
  cases turn with
  | op => exact fgTurn_unstranded hd hs (.inl h)
  | micro => exact fgTurn_unstranded hd hs (.inr h)
  | rxc => exact (rxTurn_restartKept (.inl h)).elim hs.of_fg_eq
  | rxcMicro => exact (rxTurn_restartKept (.inr h)).elim hs.of_fg_eq
  | txc => exact txTurn_unstranded hd hs (.inl h)
  | txcMicro => exact txTurn_unstranded hd hs (.inr h)
  | uartRx v =>
    simp only [takeTurn, uartRxTurn] at h
    split at h
    · exact Host.Outcome.next.inj h ▸ { hs with }
    · cases h
  | uartTx =>
    simp only [takeTurn, uartTxTurn] at h
    split at h <;> obtain rfl := Host.Outcome.next.inj h
    · exact hs
    · exact { hs with stall := fun _ => .inl rfl, armed := fun _ => .inl rfl }
  | timer => exact Host.Outcome.next.inj h ▸ { hs with }
  | syncFclk =>
    exact Host.Outcome.next.inj h ▸
      hs.of_fg_eq { isEmpty := rfl, lagIs := s.txf.syncProducer_lagIs } rfl
  | syncSclk =>
    exact Host.Outcome.next.inj h ▸
      hs.of_fg_eq { isEmpty := rfl, lagIs := s.txf.syncConsumer_lagIs } rfl
  | reset => exact Host.Outcome.next.inj h ▸ hs.hardReset

/-! ## What keeps a byte in `urx` owed (`41_rx_controller.md` rule R142) -/

/-- RXC is as it was, a request of it stays, and no byte came into `urx` or left it. -/
structure State.ReceiveKept (s t : State) : Prop extends State.RxcKept s t where
  urx : t.urx = s.urx := by simp

theorem fgContinue_urx (h : fgContinue s = .next t) : t.urx = s.urx := by
  cases hc : s.fg <;> simp only [fgContinue, hc] at h
  case enqNext o =>
    split at h
    · exact Host.Outcome.next.inj h ▸ (s.endString_bookkeeping o).urx
    · exact Host.Outcome.next.inj h ▸ (s.beginEnqb_bookkeeping o _).urx
  case enqbB4 o b =>
    split at h
    · exact Host.Outcome.next.inj h ▸ rfl
    · exact Host.Outcome.next.inj h ▸ (s.endEnqb_bookkeeping o b true).urx
  case enqbB6 o b => exact Host.Outcome.next.inj h ▸ (s.requestTx.endEnqb_bookkeeping o b true).urx
  case dispD3 n => exact Host.Outcome.next.inj h ▸ (s.beginAction_bookkeeping n).urx
  case popC2 =>
    split at h
    · cases h
    · exact Host.Outcome.next.inj h ▸ rfl
  case idle | pushP2 | pushP3 | popC3 | enqbP2 | enqbP3 | enqbB5 | dispD2 =>
    obtain rfl := Host.Outcome.next.inj h
    simp

/-- The service bus's operations are not FG's, so `urx` stays as it is (`30_encoding.md` rule R94). -/
theorem fgIssue_urx {run : Instr → State → Result}
    (hrun : ∀ {i : Instr} {s t : State}, i ≠ .rxsvc → i ≠ .txsvc → run i s = .next t →
      t.urx = s.urx) (h : fgIssue run s = .next t) : t.urx = s.urx := by
  rcases fgIssue_cases run s with ⟨_, _, hf⟩ | hn | ⟨ow, hn⟩ | ⟨ow, i, hi, hr⟩
  · cases hf.symm.trans h
  · exact Host.Outcome.next.inj (hn.symm.trans h) ▸ rfl
  · exact Host.Outcome.next.inj (hn.symm.trans h) ▸ s.takeWord_bookkeeping.urx
  · have hallowed := (decodeOn_eq_ok.mp hi).2
    refine (hrun ?_ ?_ (hr.symm.trans h)).trans s.takeWord_bookkeeping.urx
    all_goals
      rintro rfl
      cases hallowed

theorem fgTurn_receiveKept (h : fgOpTurn s = .next t ∨ fgMicroTurn s = .next t) :
    s.ReceiveKept t := by
  refine { (fgTurn_controllersKept h).toRxcKept with urx := ?_ }
  have hbegin : ∀ {i : Instr} {s t : State}, i ≠ .rxsvc → i ≠ .txsvc → fgBegin i s = .next t →
      t.urx = s.urx := fun hrx htx h => (of_next (fgBegin_bookkeeping hrx htx _) h).1.urx
  by_cases hc : s.fg = .idle
  · rw [fgOpTurn_of_idle hc, fgMicroTurn_of_idle hc] at h
    exact h.elim (fgIssue_urx fun hrx htx => runWhole_induction (hbegin hrx htx)
      fun hu hv => (fgContinue_urx hv).trans hu) (fgIssue_urx hbegin)
  · rw [fgOpTurn_of_ctx hc, fgMicroTurn_of_ctx hc, or_self] at h
    exact fgContinue_urx h

theorem txTurn_receiveKept (h : txcTurn s = .next t ∨ txcMicroTurn s = .next t) :
    s.ReceiveKept t := by
  rcases h with h | h
  · rw [txcTurn_eq] at h
    split at h
    · obtain ⟨u, hdrained, rfl⟩ := execTxsvc_drained_of_next h
      rw [hdrained.frame]
      exact {}
    · exact Host.Outcome.next.inj h ▸ {}
  · unfold txcMicroTurn at h
    split at h
    · exact Host.Outcome.next.inj h ▸ {}
    · cases hc : s.txc <;> simp only [txcMicro, hc] at h
      case idle | t3Room | t3Empty => split at h <;> exact Host.Outcome.next.inj h ▸ {}
      case t2Read | t2Write | t4C3 => exact Host.Outcome.next.inj h ▸ {}
      case t4C1 | t4C2 | t5 =>
        split at h
        · cases h
        · exact Host.Outcome.next.inj h ▸ {}

/-- The two parts of rule R142: a byte in `urx` stays owed to RXC, and RXC returns only from an empty
`urx`. -/
structure State.ReceiveOwed (s t : State) : Prop where
  owed : s.rxOwed → t.rxOwed
  returned : s.rxc ≠ .idle → t.rxc = .idle → t.urx = []

theorem State.ReceiveKept.receiveOwed (hk : s.ReceiveKept t) : s.ReceiveOwed t where
  owed ho hne := (ho (hk.urx ▸ hne)).imp hk.rxPending (hk.rxc ▸ ·)
  returned hrxc hidle := absurd (hk.rxc.symm.trans hidle) hrxc

/-- An activation in progress owes whatever is in `urx`. -/
theorem State.ReceiveOwed.of_rxc (h : t.rxc ≠ .idle) : s.ReceiveOwed t where
  owed _ _ := .inr h
  returned _ hidle := absurd hidle h

theorem State.ReceiveOwed.of_urx_nil (h : t.urx = []) : s.ReceiveOwed t where
  owed _ hne := absurd h hne
  returned _ _ := h

/-- RXC's micro-steps: only X2 returns, when it finds `urx` empty. -/
theorem rxcMicro_receiveOwed (h : rxcMicro s = .next t) : s.ReceiveOwed t := by
  cases hc : s.rxc <;> simp only [rxcMicro, hc] at h
  case idle =>
    split at h <;> obtain rfl := Host.Outcome.next.inj h
    · exact .of_rxc nofun
    · exact State.ReceiveKept.receiveOwed {}
  case x2 =>
    split at h <;> obtain rfl := Host.Outcome.next.inj h
    · exact .of_rxc nofun
    · exact .of_urx_nil (by simp_all [State.urxAvail])
  case x3 =>
    split at h
    · cases h
    · exact Host.Outcome.next.inj h ▸ .of_rxc nofun
  case x4P1 => split at h <;> exact Host.Outcome.next.inj h ▸ .of_rxc nofun
  case x4P2 | x4P3 => exact Host.Outcome.next.inj h ▸ .of_rxc nofun

theorem takeTurn_receiveOwed {turn : Turn} (h : takeTurn turn s = .next t) : s.ReceiveOwed t := by
  have kept : s.ReceiveKept t → s.ReceiveOwed t := State.ReceiveKept.receiveOwed
  cases turn with
  | op => exact kept (fgTurn_receiveKept (.inl h))
  | micro => exact kept (fgTurn_receiveKept (.inr h))
  | rxc =>
    simp only [takeTurn, rxcTurn_eq, exec_rxsvc] at h
    split at h
    · exact Host.Outcome.next.inj h ▸ .of_urx_nil rfl
    · exact kept (Host.Outcome.next.inj h ▸ {})
  | rxcMicro =>
    simp only [takeTurn, rxcMicroTurn] at h
    split at h
    · exact kept (Host.Outcome.next.inj h ▸ {})
    · exact rxcMicro_receiveOwed h
  | txc => exact kept (txTurn_receiveKept (.inl h))
  | txcMicro => exact kept (txTurn_receiveKept (.inr h))
  | uartRx v =>
    simp only [takeTurn, uartRxTurn] at h
    split at h
    · exact Host.Outcome.next.inj h ▸
        { owed := fun _ _ => .inl rfl, returned := fun hrxc hidle => absurd hidle hrxc }
    · cases h
  | uartTx =>
    simp only [takeTurn, uartTxTurn] at h
    split at h <;> exact kept (Host.Outcome.next.inj h ▸ {})
  | timer | syncFclk | syncSclk => exact kept (Host.Outcome.next.inj h ▸ {})
  | reset => exact Host.Outcome.next.inj h ▸ .of_urx_nil rfl

/-- Settles O50: the step is the turn of some agent (`takeTurn_unstranded`, `takeTurn_receiveOwed`). -/
theorem noByteStranded : Obligations.NoByteStranded := by
  refine ⟨fun s t hd hs h => ?_, fun s t h => ?_⟩
  · obtain ⟨turn, l, n, hstep⟩ := step_eq_takeTurn s
    exact takeTurn_unstranded (s := { s with agenda := l, turnNo := n }) { hd with } { hs with }
      (hstep.symm.trans h)
  · obtain ⟨turn, l, n, hstep⟩ := step_eq_takeTurn s
    obtain ⟨howed, hreturned⟩ := takeTurn_receiveOwed (hstep.symm.trans h)
    exact ⟨howed, hreturned⟩

end Sys2Proof.Machine
end

section
/-! PROOF. The two activations commute, an illegal word changes nothing, the environment's turns, and when an
activation may start (O8, O37, O38, O39). -/

namespace Sys2Proof.Machine

variable {s t : State}

/-! ## Priority (`60_exceptions.md` rule R199) -/

/-- The state after a whole `RXSVC`. -/
def State.received (s : State) : State :=
  { s with
    rxPending := false
    rxf := (Fifo.pushAll s.urx s.rxf).1
    urx := []
    rxDropped := s.rxDropped ++ s.urx.drop s.rxf.room }.retireService .rxsvc 0

theorem exec_rxsvc_received (s : State) : exec .rxsvc s = .next s.received := exec_rxsvc s

/-- The transmit loop reads and writes nothing that `RXSVC` reads or writes. -/
theorem State.received_drainTxf (fuel : Nat) (s : State) :
    s.received.drainTxf fuel = mapNext State.received (s.drainTxf fuel) := by
  induction fuel generalizing s with
  | zero => rfl
  | succ fuel ih =>
    have hfull : s.received.utxFull = s.utxFull := rfl
    have htxf : s.received.txf = s.txf := rfl
    simp only [State.drainTxf, hfull, htxf]
    split
    · rfl
    · rcases s.txf.pop with _ | ⟨_ | b, q⟩
      · rfl
      · rfl
      · exact ih ({ s with txf := q }.ioWrite b)

/-- A `TXSVC` after an `RXSVC` does what it does alone, and then the `RXSVC` is done. -/
theorem execTxsvc_received (s : State) : exec .txsvc s.received =
    mapNext (fun u => u.received.retireService .txsvc 0)
      (s.enterTx.entryCheck.drainTxf s.txf.consumerCount) := by
  have hentry : s.received.enterTx.entryCheck = s.enterTx.entryCheck.received := by
    rw [State.entryCheck_enterTx, State.entryCheck_enterTx]
    rfl
  have hexec : exec .txsvc s.received = mapNext (fun u => u.retireService .txsvc 0)
    (s.received.enterTx.entryCheck.drainTxf s.txf.consumerCount) := rfl
  rw [hexec, hentry, State.received_drainTxf]
  cases s.enterTx.entryCheck.drainTxf s.txf.consumerCount <;> rfl

/-- Settles O39: both orders end in the state that `RXSVC` makes of the drained one
(`execTxsvc_received`). -/
theorem activationsCommute : Obligations.ActivationsCommute := by
  intro s a b hrxFirst htxFirst
  have hexec : exec .txsvc s = mapNext (fun u => u.retireService .txsvc 0)
    (s.enterTx.entryCheck.drainTxf s.txf.consumerCount) := rfl
  rw [exec_rxsvc_received, andThen, execTxsvc_received] at hrxFirst
  rw [hexec] at htxFirst
  cases hd : s.enterTx.entryCheck.drainTxf s.txf.consumerCount with
  | next u =>
    rw [hd] at hrxFirst htxFirst
    obtain rfl := Host.Outcome.next.inj hrxFirst
    obtain rfl := Host.Outcome.next.inj ((exec_rxsvc_received _).symm.trans htxFirst)
    rfl
  | fault | refused =>
    rw [hd] at hrxFirst
    cases hrxFirst

/-! ## Illegal words (`60_exceptions.md` rule R192) -/

/-- FG at an operation boundary takes an illegal word off the driver's queue and rejects it. -/
theorem fgIssue_rejects {ow : Word} {words : List Word} {r : Reject}
    (run : Instr → State → Result) (hsource : s.source ≠ .sequencer)
    (hdriver : s.driver = ow :: words)
    (hd : decodeOn s.cfg.ntask s.source .foreground ow = .error r) :
    fgIssue run s = .next ({ s with driver := words }.rejectWord ow) := by
  rw [fgIssue_of_error (nextWord_of_driver hsource hdriver) hd, takeWord_of_driver hsource hdriver]

/-- Settles O8: FG rejects the word (`fgIssue_rejects`), and the word in each slot decodes
(`sequencerWord_slot`). -/
theorem illegalWordChangesNothing : Obligations.IllegalWordChangesNothing := by
  refine ⟨fun s rest ow words r hag hfg hsource hdriver hd => ?_, fun n pc hn hpc => ?_⟩
  · have hissue := fun run => fgIssue_rejects (s := { s with agenda := rest }) run hsource hdriver hd
    rcases hag with hag | hag <;> rw [step_of_agenda hag, takeTurn]
    · exact (fgOpTurn_of_idle (s := { s with agenda := rest }) hfg).trans (hissue _)
    · exact (fgMicroTurn_of_idle (s := { s with agenda := rest }) hfg).trans (hissue _)
  · obtain ⟨w, hw, hd⟩ := sequencerWord_slot hpc fun hle => hle.trans hn
    exact ⟨w, _, hw, decodeOn_eq_ok.mpr ⟨hd, busAllows_of_sequenced (slotInstr_sequenced n pc)⟩⟩

/-! ## The environment (`60_exceptions.md` rules R194, R195, R204, R208) -/

/-- Settles O37: each turn as the model writes it; a reset fills both chains with the cursors. -/
theorem environmentSteps : Obligations.EnvironmentSteps := by
  refine fun s rest => ⟨fun v hag hroom => ?_, fun v hag hfull => ?_, fun v l hag hutx => ?_,
    fun hag hutx => ?_, fun hag => ?_, fun hag => ?_, fun hag => ?_, fun hag => ?_⟩ <;>
    rw [step_of_agenda hag, takeTurn]
  · exact if_pos hroom
  · exact if_neg (Nat.not_lt.mpr hfull)
  · simp only [uartTxTurn, hutx]
  · simp only [uartTxTurn, hutx]
  · rfl
  · rfl
  · rfl
  · exact ⟨_, rfl, s.rxf.clear_lagIs _, s.rxf.clear_viewsCurrent _, s.txf.clear_lagIs _,
      s.txf.clear_viewsCurrent _⟩

/-! ## When an activation may start (`60_exceptions.md` rules R197, R200, R201) -/

/-- A micro-step inside an activation of RXC clears no request: only X1 does. -/
theorem rxcMicro_rxPending (hc : s.rxc ≠ .idle) (h : rxcMicro s = .next t) :
    t.rxPending = s.rxPending := by
  cases hx : s.rxc <;> simp only [rxcMicro, hx] at h
  case idle => exact absurd hx hc
  case x2 | x4P1 => split at h <;> exact Host.Outcome.next.inj h ▸ rfl
  case x3 =>
    cases hu : s.urx with
    | nil => simp only [State.ioRead, hu] at h; cases h
    | cons b rest =>
      simp only [State.ioRead, hu] at h
      exact Host.Outcome.next.inj h ▸ rfl
  case x4P2 | x4P3 => exact Host.Outcome.next.inj h ▸ rfl

/-- A micro-step inside an activation of TXC clears no request: only T1 does. -/
theorem txcMicro_txPending (hc : s.txc ≠ .idle) (h : txcMicro s = .next t) :
    t.txPending = s.txPending := by
  cases hx : s.txc <;> simp only [txcMicro, hx] at h
  case idle => exact absurd hx hc
  case t3Room | t3Empty => split at h <;> exact Host.Outcome.next.inj h ▸ rfl
  case t2Read | t2Write | t4C3 => exact Host.Outcome.next.inj h ▸ rfl
  case t4C1 | t4C2 | t5 =>
    split at h
    · cases h
    · exact Host.Outcome.next.inj h ▸ rfl

/-- RXC passes while it is not asked or is inside an activation. -/
theorem rxcTurn_passes (h : s.rxPending = false ∨ s.rxc ≠ .idle) : rxcTurn s = .next s := by
  rw [rxcTurn_eq, if_neg]
  rcases h with h | h <;> simp [State.rxEnabled, h]

/-- TXC passes while it is not asked or is inside an activation. -/
theorem txcTurn_passes (h : s.txPending = false ∨ s.txc ≠ .idle) : txcTurn s = .next s := by
  rw [txcTurn_eq, if_neg]
  rcases h with h | h <;> simp [State.txEnabled, h]

/-- RXC's micro-step turn passes with `ISR_ATOMIC = true`, and in an idle RXC that is not asked. -/
theorem rxcMicroTurn_passes
    (h : s.cfg.isrAtomic = true ∨ (s.rxPending = false ∧ s.rxc = .idle)) :
    rxcMicroTurn s = .next s := by
  unfold rxcMicroTurn
  rcases h with h | ⟨hp, hc⟩
  · exact if_pos h
  · simp [rxcMicro, hc, hp]

/-- TXC's micro-step turn passes with `ISR_ATOMIC = true`, and in an idle TXC that is not asked. -/
theorem txcMicroTurn_passes
    (h : s.cfg.isrAtomic = true ∨ (s.txPending = false ∧ s.txc = .idle)) :
    txcMicroTurn s = .next s := by
  unfold txcMicroTurn
  rcases h with h | ⟨hp, hc⟩
  · exact if_pos h
  · simp [txcMicro, hc, hp]

/-- X1, the first micro-step of an activation of RXC. -/
theorem rxcMicroTurn_starts (hatomic : s.cfg.isrAtomic = false) (hp : s.rxPending = true)
    (hc : s.rxc = .idle) : rxcMicroTurn s = .next { s with rxPending := false, rxc := .x2 } := by
  simp only [rxcMicroTurn, hatomic, rxcMicro, hc, hp]
  rfl

/-- T1, the first micro-step of an activation of TXC. -/
theorem txcMicroTurn_starts (hatomic : s.cfg.isrAtomic = false) (hp : s.txPending = true)
    (hc : s.txc = .idle) :
    txcMicroTurn s = .next { s with txPending := false, txc := .t2Read } := by
  simp only [txcMicroTurn, hatomic, txcMicro, hc, hp]
  rfl

theorem rxcMicroTurn_rxPending (hc : s.rxc ≠ .idle) (h : rxcMicroTurn s = .next t) :
    t.rxPending = s.rxPending := by
  unfold rxcMicroTurn at h
  split at h
  · exact Host.Outcome.next.inj h ▸ rfl
  · exact rxcMicro_rxPending hc h

theorem txcMicroTurn_txPending (hc : s.txc ≠ .idle) (h : txcMicroTurn s = .next t) :
    t.txPending = s.txPending := by
  unfold txcMicroTurn at h
  split at h
  · exact Host.Outcome.next.inj h ▸ rfl
  · exact txcMicro_txPending hc h

/-- Settles O38: a controller that is not enabled passes, X1 and T1 start an activation, and no later
micro-step clears a request. -/
theorem activationOnlyWhilePending : Obligations.ActivationOnlyWhilePending := by
  refine fun s rest => ⟨fun hag hoff => ?_, fun hag hoff => ?_,
    fun hag => ⟨fun hoff => ?_, fun hatomic hp hc => ?_, fun t hc h => ?_⟩,
    fun hag => ⟨fun hoff => ?_, fun hatomic hp hc => ?_, fun t hc h => ?_⟩⟩
  · exact (step_of_agenda hag).trans (rxcTurn_passes hoff)
  · exact (step_of_agenda hag).trans (txcTurn_passes hoff)
  · exact (step_of_agenda hag).trans (rxcMicroTurn_passes hoff)
  · exact (step_of_agenda hag).trans (rxcMicroTurn_starts hatomic hp hc)
  · exact rxcMicroTurn_rxPending (s := { s with agenda := rest }) hc
      ((step_of_agenda hag).symm.trans h)
  · exact (step_of_agenda hag).trans (txcMicroTurn_passes hoff)
  · exact (step_of_agenda hag).trans (txcMicroTurn_starts hatomic hp hc)
  · exact txcMicroTurn_txPending (s := { s with agenda := rest }) hc
      ((step_of_agenda hag).symm.trans h)

end Sys2Proof.Machine
end

section
/-! PROOF. Reset from any state (O12). -/

namespace Sys2Proof.Machine

/-! ## A cleared FIFO (`10_state.md` rule R45) -/

@[simp] theorem Fifo.clear_readIndex_val (f : Fifo) (lag : Nat) : (f.clear lag).readIndex.val = 0 :=
  Nat.zero_mod f.capacity

@[simp] theorem Fifo.clear_writeIndex_val (f : Fifo) (lag : Nat) :
    (f.clear lag).writeIndex.val = 0 :=
  Nat.zero_mod f.capacity

@[simp] theorem Fifo.clear_slot (f : Fifo) (lag i : Nat) : (f.clear lag).slot i = none := rfl

/-! ## The reset event (`70_reset_and_hazards.md` rule R230) -/

/-- A reset turn answers in every state, whatever any agent was in the middle of. -/
theorem step_of_agenda_reset {s : State} {rest : List Turn} (h : s.agenda = .reset :: rest) :
    step s = .next ({ s with agenda := rest } : State).hardReset :=
  step_of_agenda h

/-- Settles O12: the step is `hardReset`, which clears both FIFOs and writes every other value as it
stands in R45. -/
theorem resetFromAnyState : Obligations.ResetFromAnyState := by
  intro s rest hag
  refine ⟨_, step_of_agenda_reset hag, rfl, (s.rxf.kept_clear _).capacity,
    (s.txf.kept_clear _).capacity, s.rxf.clear_readIndex_val _, s.rxf.clear_writeIndex_val _,
    s.txf.clear_readIndex_val _, s.txf.clear_writeIndex_val _, s.rxf.clear_slot _,
    s.txf.clear_slot _, ?_⟩
  exact ⟨rfl, rfl, rfl, rfl, rfl, rfl, rfl, rfl, rfl, rfl, rfl, rfl, rfl, rfl, rfl, rfl, rfl⟩

end Sys2Proof.Machine
end
